-- ==== Sys2Proof/Word.lean ====
section
/-! DEFINITION. The words, counts and numbers of the SA24, and their plainest arithmetic
(spec 00_scope.md 0.6 "Words and bytes", "Slice-number arithmetic", "Free-running counts"). -/

namespace Sys2Proof

/-- A word is 64 bits (0.6). -/
abbrev Word := BitVec 64
/-- A slice number: 32 bits, compared modulo 2^32 (0.6). -/
abbrev Slice := BitVec 32
/-- A value of the slot counter (0.6 "Time"). -/
abbrev Stamp := BitVec 32
/-- A free-running 32-bit ring count (0.6, R128). -/
abbrev Count := BitVec 32
/-- A byte address in a builder's memory: 48 bits (R128). -/
abbrev Address := BitVec 48
/-- A set of logical sources: bit q stands for source q (R192). -/
abbrev SourceSet := BitVec 24
/-- Receivers are numbered 0–23 (0.3). -/
abbrev ReceiverId := Fin 24
/-- Logical sources are numbered 0–23 (0.7). -/
abbrev SourceId := Fin 24
/-- Builder ports, and their delivery engines, are numbered 0–3 (0.3). -/
abbrev PortId := Fin 4
/-- Context slots are numbered 0–63 (0.3). -/
abbrev SlotId := Fin 64

/-- The distance of `n` from the reference `ref`, taken modulo 2^32 (0.6). -/
def distance (ref n : BitVec 32) : Nat := (n - ref).toNat

/-- A difference is **ahead** when it lies in 1 … 2^31 − 1 (R130). -/
def ahead (d : BitVec 32) : Bool := 1 ≤ d.toNat && d.toNat < 2 ^ 31

/-- A difference is **behind** when it lies in 2^31 … 2^32 − 1 (R130). -/
def behind (d : BitVec 32) : Bool := 2 ^ 31 ≤ d.toNat

/-- Slice number `n` is kept in context slot (n mod 64) (R1). -/
def slotOf (n : Slice) : SlotId := ⟨n.toNat % 64, Nat.mod_lt _ (by decide)⟩

end Sys2Proof
end

