-- ==== Sys2Proof/Syntax.lean ====
section
/-! DEFINITION. The commands of the SA24: one constructor per row of spec/opcode_table.json. Each is one
whole and indivisible step of the part (95_what_each_step_holds.md): an event at a pad link, at the
timing input, at a builder port or at the reset pin, a message of a builder, or one step of the part's
own work (a placement, a burst, a WRITE, a slot advance, the running out of a timer). -/

namespace Sys2Proof

/-- What the store's error-correcting code finds in a stored word when it is read (R72): no error, a
single-bit error, or an uncorrectable error with the word as it is then read (R73). -/
inductive WordCondition
  | sound
  | singleBit
  | uncorrectable (asRead : Word)
  deriving DecidableEq, Repr

/-- One constructor per row of spec/opcode_table.json. -/
inductive Instr
  /-- DEVICE_RESET: power-on or the reset pin. -/
  | deviceReset
  /-- SIGNAL_PRESENT on the line of receiver `r` (R34). -/
  | signalPresent (r : ReceiverId)
  /-- SIGNAL_ABSENT on the line of receiver `r` (R34). -/
  | signalAbsent (r : ReceiverId)
  /-- ALIGNMENT_FOUND: 32 consecutive decodable symbols at receiver `r` (R34). -/
  | alignmentFound (r : ReceiverId)
  /-- ALIGNMENT_LOST: 4 consecutive undecodable symbols at receiver `r` (R34). -/
  | alignmentLost (r : ReceiverId)
  /-- START_SYMBOL decoded at receiver `r` (R42). -/
  | startSymbol (r : ReceiverId)
  /-- DATA_WORD: a decoded word `w` at receiver `r` (R42, R46). -/
  | dataWord (r : ReceiverId) (w : Word)
  /-- BROKEN_WORD: an undecodable symbol at receiver `r` that does not complete a run of 4 (R34). -/
  | brokenWord (r : ReceiverId)
  /-- IDLE decoded at receiver `r` (R42). -/
  | idle (r : ReceiverId)
  /-- END_SYMBOL decoded at receiver `r` (R42). -/
  | endSymbol (r : ReceiverId)
  /-- PROBATION_EXPIRY of receiver `r`'s timer (R35). -/
  | probationExpiry (r : ReceiverId)
  /-- BAR_EXPIRY of receiver `r`'s timer (R39). -/
  | barExpiry (r : ReceiverId)
  /-- SLICE_START: a notice on the timing input carrying slice number `n` (R29). -/
  | sliceStart (n : Slice)
  /-- PLACEMENT of the segment whose header is at the head of receiver `r`'s elastic buffer (R9). -/
  | placement (r : ReceiverId)
  /-- STORE_BURST: one grant of the store write port (R64, R65). -/
  | storeBurst
  /-- SLOT_ADVANCE of the slot counter (R182). -/
  | slotAdvance
  /-- DEADLINE_EXPIRY of the oldest context whose deadline remaining is 0 (R23). -/
  | deadlineExpiry
  /-- DISPATCH_WAIT_ELAPSE of the entries whose dispatch wait has run out (R93). -/
  | dispatchWaitElapse
  /-- QUIET_PERIOD_END of port `p` (R189). -/
  | quietPeriodEnd (p : PortId)
  /-- WRITE: the engine of port `p` issues one WRITE of image bytes (R113). `found` names, by their place
  among the data words this WRITE reads, the stored words that have taken damage since they were
  written: what the store's check finds in them from now on (R72, R73). -/
  | write (p : PortId) (found : List (Nat × WordCondition))
  /-- PORT_LINK_UP of builder port `p` (R151). -/
  | portLinkUp (p : PortId)
  /-- PORT_LINK_DOWN of builder port `p` (R151, R161). -/
  | portLinkDown (p : PortId)
  /-- ATTACH from builder `p`: the two ring bases and size parameters (R155, R196). -/
  | attach (p : PortId) (descriptorBase : Address) (k : BitVec 5) (completionBase : Address) (m : BitVec 5)
  /-- DETACH from builder `p` (R157). -/
  | detach (p : PortId)
  /-- ANNOUNCE from builder `p`: producer count and completion consumed count (R131). -/
  | announce (p : PortId) (producer consumed : Count)
  /-- READ_DATA from builder `p` with a tag and the words after word 0 of the message (R138). -/
  | readData (p : PortId) (tag : BitVec 8) (data : List Word)
  /-- READ_DATA_ERROR from builder `p` with a tag and an error status, not interpreted (R138, R196). -/
  | readDataError (p : PortId) (tag : BitVec 8) (status : Word)
  /-- MALFORMED_MESSAGE from builder `p`: the words of a message that R154 calls malformed. -/
  | malformedMessage (p : PortId) (message : List Word)
  /-- ITEM_READ from builder `p`: table code and item number (R167, R196). -/
  | itemRead (p : PortId) (table number : BitVec 8)
  /-- ITEM_READ_NEXT from builder `p` (R168). -/
  | itemReadNext (p : PortId)
  /-- ITEM_STAGE from builder `p`: word index and value (R169). -/
  | itemStage (p : PortId) (index : BitVec 8) (value : Word)
  /-- ITEM_COMMIT from builder `p` of an item with no commit row of its own (R170). -/
  | itemCommit (p : PortId) (table number : BitVec 8)
  /-- START: an ITEM-COMMIT of RUN from builder `p` with command START staged (R177). -/
  | start (p : PortId)
  /-- STOP: an ITEM-COMMIT of RUN from builder `p` with command STOP staged (R178). -/
  | stop (p : PortId)
  /-- FLUSH: an ITEM-COMMIT of RUN from builder `p` with command FLUSH staged (R179). -/
  | flush (p : PortId)
  /-- PRESSURE_COMMIT: an ITEM-COMMIT of PRESSURE from builder `p` (R80). -/
  | pressureCommit (p : PortId)
  /-- STEER_COMMIT: an ITEM-COMMIT of STEER `i` from builder `p` (R91). -/
  | steerCommit (p : PortId) (i : SlotId)
  /-- DISPATCH_COMMIT: an ITEM-COMMIT of DISPATCH from builder `p` (R93). -/
  | dispatchCommit (p : PortId)
  /-- CACHE_COMMIT: an ITEM-COMMIT of CACHE from builder `p` (R134). -/
  | cacheCommit (p : PortId)
  /-- LINKMAP_COMMIT: an ITEM-COMMIT of LINKMAP `r` from builder `p` (R55). -/
  | linkmapCommit (p : PortId) (r : ReceiverId)
  /-- SLOT_COMMIT: an ITEM-COMMIT of SLOT from builder `p` (R183). -/
  | slotCommit (p : PortId)
  /-- OUTPUTS_COMMIT: an ITEM-COMMIT of OUTPUTS from builder `p` (R191). -/
  | outputsCommit (p : PortId)
  /-- INCIDENT_TAKE from builder `p` (R186). -/
  | incidentTake (p : PortId)
  deriving DecidableEq, Repr

end Sys2Proof
end

