-- ==== Sys2Proof/Decode.lean ====
section
/-! DEFINITION. The commands that a table word spells. No row of spec/opcode_table.json gives bits, so no word spells a
command. -/

namespace Sys2Proof

/-- The command that a word of `nbits` bits spells by the table's bits: none, for no row gives bits. -/
def decodeTableWord (_nbits _w : Nat) : Option Instr := none

end Sys2Proof
end

