-- ==== Sys2Proof/Config.lean ====
section
/-! DEFINITION. What the SA24 fixes: the sizes of its stores and lists, and the default contents of
its settable items; and the one value that the spec leaves open, as an opaque constant. -/

namespace Sys2Proof.Config

/-- The elastic buffer of a receiver holds up to 2048 words (R46). -/
def bufferWords : Nat := 2048
/-- Hold reason LOW is active while fewer than 256 words are free (R51). -/
def lowFree : Nat := 256
/-- A length field above 1024 is refused with cause LENGTH (R43). -/
def maxPayload : Nat := 1024
/-- Each page holds 64 words (R57). -/
def pageWords : Nat := 64
/-- Pages 1–16383 are allocatable (R57). -/
def allocatablePages : Nat := 16383
/-- The page limit lies in 1–4096 (R19, R166), so a chain holds at most 4096 pages. -/
def maxChainPages : Nat := 4096
/-- The retired page table holds 0–32 page numbers (R62). -/
def retiredEntries : Nat := 32
/-- The error-time list holds at most 4 stamps (R40). -/
def errorStamps : Nat := 4
/-- Four stamps within 64 slots are an error burst (R40). -/
def burstSlots : Nat := 64
/-- The incident queue holds 0–16 records (R185). -/
def incidentRecords : Nat := 16
/-- The cache has 64 shared entries (R133). -/
def cacheEntries : Nat := 64
/-- The image header is 256 bytes, 32 words (R109). -/
def headerBytes : Nat := 256
/-- A WRITE of image bytes carries at most 256 bytes (R113). -/
def writeBytes : Nat := 256

/-- The slot length code of 1 µs, the default of the SLOT item (R166, R197). -/
def defaultSlotLength : Nat := 2

/-- A free value: the address of a WRITE whose buffer address and fill sum to 2^48 or more (R113; log 35). -/
opaque addressPast (base : Address) (fill : Nat) : Address

end Sys2Proof.Config
end

