-- ==== Sys2Proof/Machine/State.lean ====
section
/-! DEFINITION. The state of the SA24 as plain data, and its value after device reset. Every piece of
state the spec names is here, or is computed from one that is (INVENTORY.md, "## State"). -/

namespace Sys2Proof.Machine

/-! ## Outcomes that stop -/

/-- No command stops the part with a fault: what goes wrong becomes an incident, a port fault or a refusal
reply, and the part goes on (INVENTORY.md, "## Faults"). The type therefore has no constructor. -/
inductive Fault
  deriving DecidableEq, Repr

/-- Why a command has no meaning. -/
inductive Refusal
  /-- Raised by exec's arm of a command that has no meaning yet; no arm raises it now. Safe. -/
  | notModelled (mnemonic : String)
  deriving DecidableEq, Repr

/-! ## Pad-link receivers (02_pad_link_receivers.md) -/

/-- The place of a segment within its fragment (R193). -/
inductive SegmentKind
  | first
  | middle
  | last
  | only
  deriving DecidableEq, Repr

/-- The fields of a segment header (R193). -/
structure SegmentHeader where
  slice : Slice
  source : BitVec 5
  kind : SegmentKind
  empty : Bool
  truncated : Bool
  /-- The payload length in words, 0–2047. -/
  length : Nat
  deriving DecidableEq, Repr

/-- The finding at a segment's end (0.7, R42). -/
inductive Verdict
  | good
  | crcBad
  | framing
  deriving DecidableEq, Repr

/-- The link states of a receiver (R35). -/
inductive LinkState
  | down
  | aligning
  | probation
  | up
  | barred
  deriving DecidableEq, Repr

/-- Why a receiver last entered BARRED (R35, R56). -/
inductive BarredReason
  | none
  | lost
  | burst
  deriving DecidableEq, Repr

/-- What becomes of the words and the verdict of the segment the framer has open. -/
inductive Fate
  /-- Opened in UP, its header not complete: not yet judged (R44). -/
  | pending
  /-- Opened in PROBATION: checked in full, nothing stored (R36, R37). -/
  | watched
  /-- Passed over by an UNMAPPED or not enrolled receiver (R44). -/
  | passedOver
  /-- Misrouted (R44). -/
  | misrouted
  /-- Admitted: its words enter the elastic buffer, its verdict is held there (R44, R45). -/
  | stored
  /-- Admitted, then discarded whole by placement: its words are dropped on arrival and its verdict once
  its incident is posted (R45, R46). -/
  | discarded
  deriving DecidableEq, Repr

/-- The segment the framer has open (R42). -/
structure OpenSegment where
  fate : Fate
  /-- Words received since the START: 2 header words, L payload words, one CRC word. -/
  received : Nat
  /-- Header word 0 as received. -/
  header0 : Word
  /-- The header, once its second word has arrived. -/
  header : Option SegmentHeader
  /-- The CRC-32 check register over the header and payload words so far (R193). -/
  crc : BitVec 32
  /-- The CRC received in bits 0–31 of the CRC word. -/
  crcWord : BitVec 32
  deriving DecidableEq, Repr

/-- The segment framer of a receiver (R42, R43). -/
inductive Framer
  /-- No segment open. -/
  | idle
  /-- No segment open, and a stray run has begun, which ends at the next START. -/
  | stray
  /-- Words are dropped up to and including the next END, or until a START. -/
  | dropping
  | segment (o : OpenSegment)
  deriving DecidableEq, Repr

/-- Where an admitted segment in the elastic buffer stands. -/
inductive Place
  /-- Its header words are in the buffer: not presented yet, or stalled early. -/
  | waiting
  /-- Accepted: its header words have left (R63), its payload words wait to be written. -/
  | accepted
  /-- Its remainder was discarded (R46); the flag says whether the page limit removed its record (R18). -/
  | remainder (pageLimit : Bool)
  deriving DecidableEq, Repr

/-- One admitted segment in the elastic buffer, with its verdict once taken (R46). -/
structure BufferedSegment where
  header : SegmentHeader
  place : Place
  /-- The payload words held, oldest first. -/
  payload : List Word
  verdict : Option Verdict
  deriving DecidableEq, Repr

/-- The ingress writer's provisional segment record for one receiver (R63). -/
structure ProvisionalRecord where
  slot : SlotId
  slice : Slice
  source : SourceId
  kind : SegmentKind
  length : Nat
  tailBefore : Nat
  fillBefore : Nat
  writePage : Nat
  writeFill : Nat
  /-- The first provisional page, 0 for none. -/
  firstPage : Nat
  pages : Nat
  written : Nat
  deriving DecidableEq, Repr

/-- One pad-link receiver, with the ingress writer's record for it. -/
structure Receiver where
  link : LinkState
  /-- The slot at which the running timer expires. -/
  timer : Option Stamp
  barred : BarredReason
  /-- Whether the line layer last reported signal present (R34). -/
  signal : Bool
  /-- The error-time list, oldest first (R40). -/
  errors : List Stamp
  framer : Framer
  /-- The elastic buffer, the head first (R46). -/
  buffer : List BufferedSegment
  /-- Hold reason EARLY; while it is active the head segment is stalled (R50). -/
  early : Bool
  /-- Hold reason NO_PAGES (R51, R67). -/
  noPages : Bool
  /-- The current fragment (R53). -/
  current : Option Slice
  record : Option ProvisionalRecord
  deriving DecidableEq, Repr

/-! ## Slice table (01_slice_assembly.md) -/

/-- The states of a chain (R5). -/
inductive ChainState
  | none
  | receiving
  | whole
  | empty
  | feTruncated
  | cut
  | partial_
  deriving DecidableEq, Repr

/-- One logical source's data within one context (R5). -/
structure Chain where
  state : ChainState
  head : Nat
  tail : Nat
  /-- Committed words. -/
  words : Nat
  /-- Words used in the tail page. -/
  fill : Nat
  deriving DecidableEq, Repr

/-- The five states of a context slot (R3); `opened` is OPEN. -/
inductive SlotState
  | unopened
  | opened
  | ready
  | delivering
  | retired
  deriving DecidableEq, Repr

/-- The reason of a closure (R4). -/
inductive ClosureReason
  | complete
  | deficient
  | expired
  deriving DecidableEq, Repr

/-- A closure: its reason and its closed-at stamp (R4). -/
structure Closure where
  reason : ClosureReason
  closedAt : Stamp
  deriving DecidableEq, Repr

/-- The per-link statuses (R6). -/
inductive SourceStatus
  | notExpected
  | missing
  | whole
  | empty
  | partial_
  | cut
  | feTruncated
  | unexpected
  deriving DecidableEq, Repr

/-- What closure computes of one source: its status, its length and its offset in words (R6). -/
structure DirectoryEntry where
  status : SourceStatus
  length : Nat
  offset : Nat
  deriving DecidableEq, Repr

/-- The defect flags of a context (R4). -/
structure DefectFlags where
  duplicateSeen : Bool
  lateSeen : Bool
  crcSeen : Bool
  uncorrectable : Bool
  redirected : Bool
  deriving DecidableEq, Repr

/-- One context record (R4). -/
structure Context where
  slice : Slice
  state : SlotState
  expected : SourceSet
  dropped : SourceSet
  chains : Vector Chain 24
  /-- Counting slots left before expiry, 0–65535. -/
  deadline : Nat
  openedAt : Stamp
  closure : Option Closure
  directory : Option (Vector DirectoryEntry 24)
  flags : DefectFlags
  /-- Byte offset in the image of the first uncorrectable word. -/
  firstUncorrectable : Option Nat
  totalWords : Nat
  deriving DecidableEq, Repr

/-! ## Fragment store and page pool (03_fragment_store_and_page_pool.md) -/

/-- The attribute of a page (R60). -/
inductive PageAttribute
  | clear
  | suspect
  | retireOnFree
  deriving DecidableEq, Repr

/-- The fragment store and its page pool. Each sparse table is in the canonical form of `Cells.wf`
(Machine/Cells.lean). -/
structure PagePool where
  /-- The bytes of the page words; an unlisted byte reads as 0. -/
  store : List Host.Cell
  /-- The condition of each stored word, by word address; an unlisted word is sound. -/
  conditions : List (Nat × WordCondition)
  /-- The page link table; an unlisted page's entry is 0 (R58). -/
  links : List (Nat × Nat)
  /-- The page attribute table; an unlisted page is CLEAR (R60). -/
  attributes : List (Nat × PageAttribute)
  /-- The free list, head first (R59). -/
  free : List Nat
  /-- The number of allocated pages (R59). -/
  occupancy : Nat
  /-- The retired page table, oldest first (R62). -/
  retired : List Nat
  deriving DecidableEq, Repr

/-! ## Pressure controller (04_ingress_pressure.md) -/

/-- The pressure controller's own state (R75, R81). -/
structure Pressure where
  level : Fin 4
  /-- The hold decision for the current slot. -/
  held : Bool
  /-- The slot the decision was made for. -/
  heldFor : Stamp
  deriving DecidableEq, Repr

/-! ## Ready list (05_ready_list_and_steering.md) -/

/-- One entry of the ready list (R88). -/
structure ReadyEntry where
  slice : Slice
  since : Stamp
  /-- Wait elapsed. -/
  elapsed : Bool
  deriving DecidableEq, Repr

/-! ## Delivery engines (06_slice_delivery.md) -/

/-- The four states of a delivery engine (R107). -/
inductive EngineState
  | idle
  | waitBuffer
  | moving
  | waitCredit
  deriving DecidableEq, Repr

/-- The kind of completion record a delivery will write (R106). -/
inductive RecordKind
  | delivered
  | flushed
  deriving DecidableEq, Repr

/-- One engine record (R106). The bytes written equal the read position, and the current buffer is the
port's ASSIGNED cache entry. -/
structure Engine where
  state : EngineState
  assigned : Option (SlotId × Slice)
  /-- The image header built at the assignment (R110), 32 words. -/
  header : List Word
  imageLength : Nat
  readPosition : Nat
  bufferFill : Nat
  firstBuffer : Option Count
  buffers : Nat
  cut : Bool
  kind : RecordKind
  deriving DecidableEq, Repr

/-! ## Descriptor cache (07_descriptor_rings_and_the_descriptor_cache.md) -/

/-- The state of a cache entry in use (R133). -/
inductive EntryState
  | cached
  | assigned
  deriving DecidableEq, Repr

/-- One cache entry in use (R133). -/
structure CacheEntry where
  port : PortId
  count : Count
  address : Address
  /-- The buffer length in bytes. -/
  length : Nat
  state : EntryState
  deriving DecidableEq, Repr

/-- The ring parameters of an attached port (R128). -/
structure RingParameters where
  descriptorBase : Address
  k : Nat
  completionBase : Address
  m : Nat
  deriving DecidableEq, Repr

/-- One ring record (R130); its read outstanding is the fetch slot that names the port. -/
structure Ring where
  parameters : Option RingParameters
  announced : Count
  fetched : Count
  consumed : Count
  announcedConsumed : Count
  produced : Count
  deriving DecidableEq, Repr

/-- A READ outstanding in a fetch slot (R136). -/
structure Fetch where
  port : PortId
  first : Count
  n : Nat
  /-- Reservations still held: those of `first` … `first + reserved − 1` (R134). -/
  reserved : Nat
  /-- The announced producer as it stood at issue. -/
  producer : Count
  deriving DecidableEq, Repr

/-- The descriptor cache. -/
structure Cache where
  /-- The entries in use. -/
  entries : List CacheEntry
  rings : Vector Ring 4
  slots : Vector (Option Fetch) 4
  /-- The port granted last (R137). -/
  granted : PortId
  /-- The eviction hold of each port (R145). -/
  holds : Vector (Option Nat) 4
  /-- The abandoned tags of each port: bit t is set while tag t is abandoned (R147). -/
  abandoned : Vector (BitVec 4) 4
  deriving DecidableEq, Repr

/-! ## Builder ports and items (08_builder_ports.md, 09_items_and_run_control.md) -/

/-- The items of the catalogue (R166, R197). -/
inductive ItemName
  | run
  | slot
  | assembly
  | linktime
  | linkmap (r : ReceiverId)
  | pressure
  | steer (i : SlotId)
  | dispatch
  | cache
  | portcfg (p : PortId)
  | outputs
  | linkstat (r : ReceiverId)
  | portstat (p : PortId)
  | store
  | retired (n : Fin 4)
  | slicestat (i : SlotId)
  deriving DecidableEq, Repr

/-- The states of a builder port (R150). -/
inductive PortState
  | linkDown
  | detached
  | active
  | draining
  | faulted
  deriving DecidableEq, Repr

/-- The causes of a port fault (R150). -/
inductive FaultCause
  | protocol
  | ringInvalid
  | memoryError
  | unknownTag
  | malformed
  | linkLost
  deriving DecidableEq, Repr

/-- One port record (R150). -/
structure Port where
  state : PortState
  cause : Option FaultCause
  /-- One item with the generation read. -/
  reservation : Option (ItemName × BitVec 16)
  /-- Eight words, each written in the current attempt or not. -/
  staging : Vector (Option Word) 8
  cursor : Option ItemName
  notifyPending : Bool
  quietUntil : Option Stamp
  deriving DecidableEq, Repr

/-- The installed contents and generation of one settable item (R166). -/
structure Item where
  generation : BitVec 16
  words : Vector Word 8
  deriving DecidableEq, Repr

/-- The settable items, and the generation of RUN (R166). -/
structure Items where
  runGeneration : BitVec 16
  slot : Item
  assembly : Item
  linktime : Item
  linkmap : Vector Item 24
  pressure : Item
  steer : Vector Item 64
  dispatch : Item
  cache : Item
  portcfg : Vector Item 4
  outputs : Item
  deriving DecidableEq, Repr

/-- The run states (R176). -/
inductive RunState
  | stopped
  | running
  | draining
  | flushing
  deriving DecidableEq, Repr

/-! ## Incidents (10_incidents_notification_and_status_outputs.md) -/

/-- The fourteen kinds of incident (R184). -/
inductive IncidentKind
  | linkUp
  | linkLost
  | errorBurst
  | crcBad
  | framing
  | misrouted
  | rxOverrun
  | duplicate
  | late
  | timing
  | uncorrectable
  | retireFull
  | portFault
  | pressureHigh
  deriving DecidableEq, Repr

/-- The source of an incident (R184). -/
inductive IncidentSource
  | none
  | link (r : ReceiverId)
  | port (p : PortId)
  deriving DecidableEq, Repr

/-- An incident record (R184). -/
structure Incident where
  kind : IncidentKind
  source : IncidentSource
  slice : Option Slice
  detail : Word
  stamp : Stamp
  overflow : Bool
  deriving DecidableEq, Repr

end Sys2Proof.Machine

namespace Sys2Proof.Machine

/-! ## The whole state -/

/-- The state of the SA24. -/
structure State where
  receivers : Vector Receiver 24
  /-- The receiver last served by the write port (R64). -/
  lastServed : ReceiverId
  pool : PagePool
  frontier : Slice
  newestOpened : Slice
  newestStrobe : Slice
  contexts : Vector Context 64
  pressure : Pressure
  ready : List ReadyEntry
  engines : Vector Engine 4
  cache : Cache
  ports : Vector Port 4
  /-- The messages sent on each port's link since device reset, oldest first, each as its words. -/
  sent : Vector (List (List Word)) 4
  items : Items
  run : RunState
  /-- The incident queue, oldest first (R185). -/
  incidents : List Incident
  /-- The slot counter (R182). -/
  counter : Stamp
  /-- The code of the slot length in force for the slot in progress (R183, R197). -/
  slotLength : Nat
  /-- The commands not yet taken, first in, first out. -/
  pending : List Instr
  deriving DecidableEq, Repr

/-! ## Values after device reset -/

/-- A receiver after device reset (R56, R74). -/
def Receiver.reset : Receiver :=
  { link := .down, timer := none, barred := .none, signal := false, errors := [], framer := .idle,
    buffer := [], early := false, noPages := false, current := none, record := none }

/-- A chain of an UNOPENED slot: NONE, no pages (R4). -/
def Chain.none : Chain := { state := .none, head := 0, tail := 0, words := 0, fill := 0 }

/-- All five defect flags clear (R4). -/
def DefectFlags.clear : DefectFlags :=
  { duplicateSeen := false, lateSeen := false, crcSeen := false, uncorrectable := false, redirected := false }

/-- The values of an UNOPENED slot (R4, last column). -/
def Context.unopened : Context :=
  { slice := 0, state := .unopened, expected := 0, dropped := 0, chains := Vector.replicate 24 Chain.none,
    deadline := 0, openedAt := 0, closure := Option.none, directory := Option.none, flags := DefectFlags.clear,
    firstUncorrectable := Option.none, totalWords := 0 }

/-- The page pool after device reset, its words never written (R59, R74). -/
def PagePool.reset : PagePool :=
  { store := [], conditions := [], links := [], attributes := [],
    free := List.range' 1 Config.allocatablePages, occupancy := 0, retired := [] }

/-- The values an engine takes in IDLE (R106). -/
def Engine.idle : Engine :=
  { state := .idle, assigned := none, header := [], imageLength := 0, readPosition := 0, bufferFill := 0,
    firstBuffer := none, buffers := 0, cut := false, kind := .delivered }

/-- The teardown values of a ring record (R130). -/
def Ring.torn : Ring :=
  { parameters := none, announced := 0, fetched := 0, consumed := 0, announcedConsumed := 0, produced := 0 }

/-- The cache after device reset (R148). -/
def Cache.reset : Cache :=
  { entries := [], rings := Vector.replicate 4 Ring.torn, slots := Vector.replicate 4 none, granted := 3,
    holds := Vector.replicate 4 none, abandoned := Vector.replicate 4 0 }

/-- A port record after device reset (R150). -/
def Port.reset : Port :=
  { state := .linkDown, cause := none, reservation := none, staging := Vector.replicate 8 none, cursor := none,
    notifyPending := false, quietUntil := none }

/-- Eight words of an item: the values given, and 0 for each word not used (R167, R197). -/
def pack (values : List Nat) : Vector Word 8 := Vector.ofFn fun i => BitVec.ofNat 64 (values.getD i.val 0)

/-- An item of the given values at generation 0. -/
def Item.ofValues (values : List Nat) : Item := { generation := 0, words := pack values }

/-- The default preference list of steering entry `i`, after its length (R90, R197). -/
def defaultSteer (i : SlotId) : List Nat := [4, i.val % 4, (i.val + 1) % 4, (i.val + 2) % 4, (i.val + 3) % 4]

/-- The default contents of every settable item at generation 0 (R166). -/
def Items.reset : Items :=
  { runGeneration := 0
    slot := Item.ofValues [Config.defaultSlotLength]
    assembly := Item.ofValues [400, 256]
    linktime := Item.ofValues [100, 1000]
    linkmap := Vector.ofFn fun r => Item.ofValues [r.val, 1, 0, 0]
    pressure := Item.ofValues [12288, 14336, 15360, 512, 2, 6, 12, 2]
    steer := Vector.ofFn fun i => Item.ofValues (defaultSteer i)
    dispatch := Item.ofValues [50]
    cache := Item.ofValues [4, 16, 4, 8]
    portcfg := Vector.ofFn fun _ => Item.ofValues [20]
    outputs := Item.ofValues [1, 0, 0, 0, 0, 0, 0, 0] }

/-- The machine right after device reset (R33, R56, R74, R86, R104, R106, R148, R150, R166, R182, R187). -/
def State.reset : State :=
  { receivers := Vector.replicate 24 Receiver.reset
    lastServed := 23
    pool := PagePool.reset
    frontier := 0
    newestOpened := 0xFFFFFFFF
    newestStrobe := 0xFFFFFFFF
    contexts := Vector.replicate 64 Context.unopened
    pressure := { level := 0, held := false, heldFor := 0 }
    ready := []
    engines := Vector.replicate 4 Engine.idle
    cache := Cache.reset
    ports := Vector.replicate 4 Port.reset
    sent := Vector.replicate 4 []
    items := Items.reset
    run := .stopped
    incidents := []
    counter := 0
    slotLength := Config.defaultSlotLength
    pending := [] }

end Sys2Proof.Machine
end

