-- ==== Sys2Proof/Machine/Cells.lean ====
section
/-! DEFINITION. Sparse tables in one canonical form (addresses strictly rising, no entry equal to what
an unlisted address reads as), and the words of the fragment store over them (R57). -/

namespace Sys2Proof.Machine

/-- What address `a` holds; an unlisted address reads as `d`. -/
def Cells.get {α : Type} (d : α) : List (Nat × α) → Nat → α
  | [], _ => d
  | (k, v) :: rest, a => if k = a then v else Cells.get d rest a

/-- Writes `x` at address `a`; writing `d` removes the entry. -/
def Cells.put {α : Type} [DecidableEq α] (d : α) : List (Nat × α) → Nat → α → List (Nat × α)
  | [], a, x => if x = d then [] else [(a, x)]
  | (k, v) :: rest, a, x =>
    if a < k then (if x = d then (k, v) :: rest else (a, x) :: (k, v) :: rest)
    else if a = k then (if x = d then rest else (a, x) :: rest)
    else (k, v) :: Cells.put d rest a x

/-- The canonical form of a table whose addresses are all at least `lo`. -/
def Cells.wfFrom {α : Type} [DecidableEq α] (d : α) : Nat → List (Nat × α) → Bool
  | _, [] => true
  | lo, (k, v) :: rest => decide (lo ≤ k) && decide (v ≠ d) && Cells.wfFrom d (k + 1) rest

/-- The canonical form: addresses strictly rising, no entry equal to `d`. -/
def Cells.wf {α : Type} [DecidableEq α] (d : α) (m : List (Nat × α)) : Bool := Cells.wfFrom d 0 m

/-! ## The fragment store -/

/-- What an unlisted byte of the store reads as: 0 (log 5). -/
def Memory.unlisted : BitVec 8 := 0

/-- One byte of the store. -/
def Memory.read (m : List Host.Cell) (a : Nat) : BitVec 8 := Cells.get Memory.unlisted m a

/-- Writes one byte of the store. -/
def Memory.write (m : List Host.Cell) (a : Nat) (b : BitVec 8) : List Host.Cell := Cells.put Memory.unlisted m a b

/-- The canonical form of the store. -/
def Memory.wf (m : List Host.Cell) : Bool := Cells.wf Memory.unlisted m

/-- Byte `i` of a word, byte 0 the least significant. -/
def wordByte (x : Word) (i : Nat) : BitVec 8 := x.extractLsb' (8 * i) 8

/-- Word `w` of the store: its eight bytes, the least significant at the lowest address (log 8). -/
def Memory.readWord (m : List Host.Cell) (w : Nat) : Word :=
  Memory.read m (8 * w + 7) ++ Memory.read m (8 * w + 6) ++ Memory.read m (8 * w + 5) ++ Memory.read m (8 * w + 4) ++
    Memory.read m (8 * w + 3) ++ Memory.read m (8 * w + 2) ++ Memory.read m (8 * w + 1) ++ Memory.read m (8 * w)

/-- Writes the bytes `i` … 7 of word `x` into word `w` of the store, `n` of them. -/
def Memory.writeBytes (w : Nat) (x : Word) : Nat → List Host.Cell → List Host.Cell
  | 0, m => m
  | n + 1, m => Memory.writeBytes w x n (Memory.write m (8 * w + n) (wordByte x n))

/-- Writes word `w` of the store. -/
def Memory.writeWord (m : List Host.Cell) (w : Nat) (x : Word) : List Host.Cell := Memory.writeBytes w x 8 m

/-- The address of word `position` of page `page` in the store: pages hold 64 words each (R57). -/
def wordAddress (page position : Nat) : Nat := Config.pageWords * page + position

/-- Writes one word into a page. It is stored with a code computed from it, so it is sound (R72). -/
def PagePool.writeWord (pool : PagePool) (address : Nat) (x : Word) : PagePool :=
  { pool with
    store := Memory.writeWord pool.store address x
    conditions := Cells.put .sound pool.conditions address .sound }

/-- Writes words one after another from a word address on (R65). -/
def PagePool.writeWords (address : Nat) : List Word → PagePool → PagePool
  | [], pool => pool
  | x :: rest, pool => PagePool.writeWords (address + 1) rest (pool.writeWord address x)

end Sys2Proof.Machine
end

