-- ==== Sys2Proof/Machine/Formats.lean ====
section
/-! DEFINITION. The words of everything the part sends: messages, completion records, image headers and
incident records (11_formats.md, R192–R196). Every bit no field uses is 0 (R192). -/

namespace Sys2Proof.Machine

/-- A word with the number `v` in the field whose least significant bit is `lsb` (R192). -/
def fieldAt (lsb v : Nat) : Word := BitVec.ofNat 64 v <<< lsb

/-- A one-bit field (R192). -/
def flagAt (lsb : Nat) (b : Bool) : Word := if b then fieldAt lsb 1 else 0

/-- The code of a segment kind (R193). -/
def SegmentKind.code : SegmentKind → Nat
  | .first => 0
  | .middle => 1
  | .last => 2
  | .only => 3

/-- The code of a closure reason (R194). -/
def ClosureReason.code : ClosureReason → Nat
  | .complete => 1
  | .deficient => 2
  | .expired => 3

/-- The code of a record kind (R194). -/
def RecordKind.code : RecordKind → Nat
  | .delivered => 1
  | .flushed => 2

/-- The per-link status codes (R194). -/
def SourceStatus.code : SourceStatus → Nat
  | .notExpected => 0
  | .missing => 1
  | .whole => 2
  | .empty => 3
  | .partial_ => 4
  | .cut => 5
  | .feTruncated => 6
  | .unexpected => 7

/-- The incident kind codes (R196). -/
def IncidentKind.code : IncidentKind → Nat
  | .linkUp => 1
  | .linkLost => 2
  | .errorBurst => 3
  | .crcBad => 4
  | .framing => 5
  | .misrouted => 6
  | .rxOverrun => 7
  | .duplicate => 8
  | .late => 9
  | .timing => 10
  | .uncorrectable => 11
  | .retireFull => 12
  | .portFault => 13
  | .pressureHigh => 14

/-- The PORT_FAULT cause codes (R196, R197). -/
def FaultCause.code : FaultCause → Nat
  | .protocol => 1
  | .ringInvalid => 2
  | .memoryError => 3
  | .unknownTag => 4
  | .malformed => 5
  | .linkLost => 6

/-- Why an ATTACH is refused (R155, R196). -/
inductive RefusalReason
  | state
  | descriptorBase
  | descriptorSize
  | completionBase
  | completionSize
  | overlap
  deriving DecidableEq, Repr

/-- The REFUSED reason codes (R196). -/
def RefusalReason.code : RefusalReason → Nat
  | .state => 1
  | .descriptorBase => 2
  | .descriptorSize => 3
  | .completionBase => 4
  | .completionSize => 5
  | .overlap => 6

/-- The item replies (R196). -/
inductive ReplyCode
  | ok
  | unknownItem
  | readOnly
  | conflict
  | state
  | rejected
  | badIndex
  | noCursor
  deriving DecidableEq, Repr

/-- The item reply codes (R196). -/
def ReplyCode.code : ReplyCode → Nat
  | .ok => 1
  | .unknownItem => 2
  | .readOnly => 3
  | .conflict => 4
  | .state => 5
  | .rejected => 6
  | .badIndex => 7
  | .noCursor => 8

/-- The table code of an item (R197). -/
def ItemName.table : ItemName → Nat
  | .run => 0
  | .slot => 1
  | .assembly => 2
  | .linktime => 3
  | .linkmap _ => 4
  | .pressure => 5
  | .steer _ => 6
  | .dispatch => 7
  | .cache => 8
  | .portcfg _ => 9
  | .outputs => 10
  | .linkstat _ => 11
  | .portstat _ => 12
  | .store => 13
  | .retired _ => 14
  | .slicestat _ => 15

/-- The number of an item within its table (9.1). -/
def ItemName.number : ItemName → Nat
  | .linkmap r => r.val
  | .steer i => i.val
  | .portcfg p => p.val
  | .linkstat r => r.val
  | .portstat p => p.val
  | .retired n => n.val
  | .slicestat i => i.val
  | .run | .slot | .assembly | .linktime | .pressure | .dispatch | .cache | .outputs | .store => 0

/-! ## Messages of the part (R196) -/

/-- WRITE of words at an address. -/
def writeMessage (address : Address) (data : List Word) : List Word :=
  (fieldAt 0 0x80 ||| fieldAt 16 (8 * data.length)) :: fieldAt 0 address.toNat :: data

/-- READ of `n` descriptors under a tag. -/
def readMessage (tag n : Nat) (address : Address) : List Word :=
  [fieldAt 0 0x81 ||| fieldAt 16 tag ||| fieldAt 32 (16 * n), fieldAt 0 address.toNat]

/-- NOTIFY with the completion produced count and the incident queue length. -/
def notifyMessage (produced : Count) (queued : Nat) : List Word :=
  [fieldAt 0 0x82, fieldAt 0 produced.toNat ||| fieldAt 32 queued]

/-- ATTACHED with the k and m taken. -/
def attachedMessage (k m : Nat) : List Word := [fieldAt 0 0x83 ||| fieldAt 16 k ||| fieldAt 24 m]

/-- REFUSED with a reason. -/
def refusedMessage (reason : RefusalReason) : List Word := [fieldAt 0 0x84 ||| fieldAt 16 reason.code]

/-- DETACHED. -/
def detachedMessage : List Word := [fieldAt 0 0x85]

/-- The table, item and generation fields of an ITEM-REPLY. -/
def itemFields (n : ItemName) (generation : BitVec 16) : Word :=
  fieldAt 32 n.table ||| fieldAt 40 n.number ||| fieldAt 48 generation.toNat

/-- ITEM-REPLY that names no item (an OK to ITEM-STAGE, UNKNOWN_ITEM, BAD_INDEX, NO_CURSOR; log 22). -/
def plainReply (code : ReplyCode) : List Word := [fieldAt 0 0x86 ||| fieldAt 16 code.code]

/-- ITEM-REPLY that names an item; `index` is the word index of REJECTED and 0 otherwise. -/
def itemReply (code : ReplyCode) (index : Nat) (n : ItemName) (generation : BitVec 16) : List Word :=
  [fieldAt 0 0x86 ||| fieldAt 16 code.code ||| fieldAt 24 index ||| itemFields n generation]

/-- ITEM-REPLY OK to a read, with the item's 8 words. -/
def readReply (n : ItemName) (generation : BitVec 16) (contents : Vector Word 8) : List Word :=
  (fieldAt 0 0x86 ||| fieldAt 16 ReplyCode.ok.code ||| itemFields n generation) :: contents.toList

/-- The source kind and source number of an incident record (R196). With source kind none the number field is 0, which no
rule states (log 37). -/
def IncidentSource.fields : IncidentSource → Word
  | .none => 0
  | .link r => fieldAt 8 1 ||| fieldAt 16 r.val
  | .port p => fieldAt 8 2 ||| fieldAt 16 p.val

/-- The four words of an incident record (R196). -/
def Incident.words (i : Incident) : List Word :=
  [fieldAt 0 i.kind.code ||| i.source.fields ||| flagAt 24 i.slice.isSome ||| flagAt 25 i.overflow,
    fieldAt 0 ((i.slice.getD 0).toNat), i.detail, fieldAt 0 i.stamp.toNat]

/-- INCIDENT-REPLY EMPTY. -/
def emptyReply : List Word := [fieldAt 0 0x87 ||| fieldAt 16 2]

/-- INCIDENT-REPLY with a record and the number of records left. -/
def incidentReply (i : Incident) (left : Nat) : List Word :=
  (fieldAt 0 0x87 ||| fieldAt 16 1 ||| fieldAt 24 left) :: i.words

/-! ## Image header and completion record -/

/-- The defect flags from bit `lsb` on, in the order of R194 and R195. -/
def DefectFlags.fields (lsb : Nat) (f : DefectFlags) : Word :=
  flagAt lsb f.duplicateSeen ||| flagAt (lsb + 1) f.lateSeen ||| flagAt (lsb + 2) f.crcSeen |||
    flagAt (lsb + 3) f.uncorrectable ||| flagAt (lsb + 4) f.redirected

/-- The directory word of one source (R195). -/
def DirectoryEntry.word (d : DirectoryEntry) : Word :=
  fieldAt 0 d.status.code ||| fieldAt 8 d.length ||| fieldAt 32 d.offset

/-- The directory of a context; all of it 0 where no closure has computed it. -/
def Context.entries (c : Context) : List DirectoryEntry :=
  match c.directory with
  | some d => d.toList
  | none => List.replicate 24 { status := .notExpected, length := 0, offset := 0 }

/-- The code of a context's closure reason, 0 while it is absent. -/
def Context.reasonCode (c : Context) : Nat :=
  match c.closure with
  | some x => x.reason.code
  | none => 0

/-- The closed-at stamp of a context, 0 while it is absent. -/
def Context.closedAt (c : Context) : Stamp :=
  match c.closure with
  | some x => x.closedAt
  | none => 0

/-- The 32 words of the image header of a context delivered by port `p` (R110, R195). -/
def Context.imageHeader (c : Context) (p : PortId) : List Word :=
  [fieldAt 0 c.slice.toNat ||| fieldAt 32 c.reasonCode ||| fieldAt 36 p.val ||| c.flags.fields 40,
    fieldAt 0 c.openedAt.toNat ||| fieldAt 32 c.closedAt.toNat,
    fieldAt 0 c.expected.toNat ||| fieldAt 32 c.dropped.toNat,
    fieldAt 0 c.totalWords, 0, 0, 0, 0] ++ c.entries.map DirectoryEntry.word

/-- The statuses of the sources listed, 4 bits each from bit 0 on (R194). -/
def statusWord : List DirectoryEntry → Word
  | [] => 0
  | d :: rest => fieldAt 0 d.status.code ||| (statusWord rest <<< 4)

/-- The eight words of a completion record (R118, R194). -/
def completionRecord (c : Context) (slice : Slice) (kind : RecordKind) (first : Count) (buffers total : Nat)
    (truncated cycle : Bool) : List Word :=
  [fieldAt 0 slice.toNat ||| fieldAt 32 kind.code ||| fieldAt 36 c.reasonCode,
    fieldAt 0 first.toNat ||| fieldAt 32 buffers,
    fieldAt 0 total ||| fieldAt 32 (c.firstUncorrectable.getD 0),
    fieldAt 0 c.closedAt.toNat ||| c.flags.fields 32 ||| flagAt 37 truncated,
    statusWord (c.entries.take 16), statusWord (c.entries.drop 16), 0, flagAt 63 cycle]

end Sys2Proof.Machine
end

