-- ==== Sys2Proof/Machine/Settings.lean ====
section
/-! DEFINITION. The settings the blocks read from the installed items (R166, R197). -/

namespace Sys2Proof.Machine

/-- The number in word `i` of an item. -/
def Item.value (item : Item) (i : Fin 8) : Nat := item.words[i].toNat

/-- The deadline of the ASSEMBLY item. -/
def State.deadline (s : State) : Nat := s.items.assembly.value 0
/-- The fragment page limit of the ASSEMBLY item. -/
def State.pageLimit (s : State) : Nat := s.items.assembly.value 1
/-- The probation time of the LINKTIME item. -/
def State.probationTime (s : State) : Nat := s.items.linktime.value 0
/-- The bar time of the LINKTIME item. -/
def State.barTime (s : State) : Nat := s.items.linktime.value 1

/-- The LINKMAP entry of receiver `r`. -/
def State.linkmap (s : State) (r : ReceiverId) : Item := s.items.linkmap[r]
/-- The logical source receiver `r` is mapped to, or none if it is UNMAPPED (R197). -/
def State.mapping (s : State) (r : ReceiverId) : Option SourceId :=
  if h : (s.linkmap r).value 0 < 24 then some ⟨(s.linkmap r).value 0, h⟩ else none
/-- Whether receiver `r` is enrolled. -/
def State.enrolled (s : State) (r : ReceiverId) : Bool := (s.linkmap r).value 1 == 1
/-- The up-mask of receiver `r` (R41). -/
def State.upMask (s : State) (r : ReceiverId) : Bool := (s.linkmap r).value 2 == 1
/-- The lost-mask of receiver `r` (R41). -/
def State.lostMask (s : State) (r : ReceiverId) : Bool := (s.linkmap r).value 3 == 1

/-- Threshold Tk of the PRESSURE item, k = 1, 2, 3 (R80). -/
def State.threshold (s : State) (k : Fin 4) : Nat :=
  match k with
  | 1 => s.items.pressure.value 0
  | 2 => s.items.pressure.value 1
  | 3 => s.items.pressure.value 2
  | 0 => 0
/-- The margin H of the PRESSURE item (R80). -/
def State.margin (s : State) : Nat := s.items.pressure.value 3
/-- The hold share Nk of the PRESSURE item, 0 at P0 (R80, R81). -/
def State.holdShare (s : State) (k : Fin 4) : Nat :=
  match k with
  | 1 => s.items.pressure.value 4
  | 2 => s.items.pressure.value 5
  | 3 => s.items.pressure.value 6
  | 0 => 0
/-- The busy level of the PRESSURE item (R80). -/
def State.busyLevel (s : State) : Nat := s.items.pressure.value 7

/-- The ports of a STEER item's list: its first `length` port words (R197). A word above 3 names no port. -/
def Item.portList (item : Item) : List PortId :=
  ((item.words.toList.drop 1).take (item.value 0)).filterMap fun w =>
    if h : w.toNat < 4 then some ⟨w.toNat, h⟩ else none
/-- The preference list of slot `i` (R90). -/
def State.preference (s : State) (i : SlotId) : List PortId := (s.items.steer[i]).portList
/-- The dispatch wait in force (R92). -/
def State.dispatchWait (s : State) : Nat := s.items.dispatch.value 0

/-- The number of fetch slots (R134). -/
def State.fetchSlots (s : State) : Nat := s.items.cache.value 0
/-- The per-port max M (R134). -/
def State.perPortMax (s : State) : Nat := s.items.cache.value 1
/-- Fetch min (R134). -/
def State.fetchMin (s : State) : Nat := s.items.cache.value 2
/-- Fetch max (R134). -/
def State.fetchMax (s : State) : Nat := s.items.cache.value 3

/-- The notify moderation of port `p` (R188). -/
def State.moderation (s : State) (p : PortId) : Nat := (s.items.portcfg[p]).value 0

/-- The source code of status line `i` (R190, R197). -/
def State.lineSource (s : State) (i : Fin 4) : Nat :=
  match i with
  | 0 => s.items.outputs.value 0
  | 1 => s.items.outputs.value 2
  | 2 => s.items.outputs.value 4
  | 3 => s.items.outputs.value 6
/-- Whether status line `i` is active-low (R191, R197). -/
def State.lineActiveLow (s : State) (i : Fin 4) : Bool :=
  match i with
  | 0 => s.items.outputs.value 1 == 1
  | 1 => s.items.outputs.value 3 == 1
  | 2 => s.items.outputs.value 5 == 1
  | 3 => s.items.outputs.value 7 == 1

end Sys2Proof.Machine
end

