-- ==== Sys2Proof/Machine/Ops.lean ====
section
/-! DEFINITION. Named reads and updates of the state, messages sent, NOTIFY and the posting of incidents. -/

namespace Sys2Proof.Machine

/-! ## Reads -/

/-- Receiver `r`. -/
def State.rx (s : State) (r : ReceiverId) : Receiver := s.receivers[r]
/-- The context record in slot `i`. -/
def State.ctx (s : State) (i : SlotId) : Context := s.contexts[i]
/-- Chain `q` of a context. -/
def Context.chain (c : Context) (q : SourceId) : Chain := c.chains[q]
/-- Delivery engine `p`. -/
def State.engine (s : State) (p : PortId) : Engine := s.engines[p]
/-- Port record `p`. -/
def State.port (s : State) (p : PortId) : Port := s.ports[p]
/-- Ring record `p`. -/
def State.ring (s : State) (p : PortId) : Ring := s.cache.rings[p]

/-! ## Updates -/

/-- Replaces receiver `r`. -/
def State.setRx (s : State) (r : ReceiverId) (x : Receiver) : State := { s with receivers := s.receivers.set r x }
/-- Replaces the receiver last served (R64). -/
def State.setLastServed (s : State) (r : ReceiverId) : State := { s with lastServed := r }
/-- Replaces the page pool. -/
def State.setPool (s : State) (x : PagePool) : State := { s with pool := x }
/-- Replaces the frontier. -/
def State.setFrontier (s : State) (n : Slice) : State := { s with frontier := n }
/-- Replaces the newest opened. -/
def State.setNewestOpened (s : State) (n : Slice) : State := { s with newestOpened := n }
/-- Replaces the newest strobe. -/
def State.setNewestStrobe (s : State) (n : Slice) : State := { s with newestStrobe := n }
/-- Replaces the context record in slot `i`. -/
def State.setCtx (s : State) (i : SlotId) (x : Context) : State := { s with contexts := s.contexts.set i x }
/-- Replaces the pressure controller's state. -/
def State.setPressure (s : State) (x : Pressure) : State := { s with pressure := x }
/-- Replaces the ready list. -/
def State.setReady (s : State) (x : List ReadyEntry) : State := { s with ready := x }
/-- Replaces engine `p`. -/
def State.setEngine (s : State) (p : PortId) (x : Engine) : State := { s with engines := s.engines.set p x }
/-- Replaces the descriptor cache. -/
def State.setCache (s : State) (x : Cache) : State := { s with cache := x }
/-- Replaces port record `p`. -/
def State.setPort (s : State) (p : PortId) (x : Port) : State := { s with ports := s.ports.set p x }
/-- Replaces the messages sent on port `p`. -/
def State.setSent (s : State) (p : PortId) (x : List (List Word)) : State := { s with sent := s.sent.set p x }
/-- Replaces the settable items. -/
def State.setItems (s : State) (x : Items) : State := { s with items := x }
/-- Replaces the run state. -/
def State.setRun (s : State) (x : RunState) : State := { s with run := x }
/-- Replaces the incident queue. -/
def State.setIncidents (s : State) (x : List Incident) : State := { s with incidents := x }
/-- Replaces the slot counter and the slot length in force. -/
def State.setTime (s : State) (counter : Stamp) (length : Nat) : State :=
  { s with counter := counter, slotLength := length }

/-- Replaces chain `q` of a context. -/
def Context.setChain (c : Context) (q : SourceId) (x : Chain) : Context := { c with chains := c.chains.set q x }
/-- Replaces the state of chain `q` of a context. -/
def Context.setChainState (c : Context) (q : SourceId) (x : ChainState) : Context :=
  c.setChain q { c.chain q with state := x }
/-- Replaces ring record `p`. -/
def State.setRing (s : State) (p : PortId) (x : Ring) : State :=
  s.setCache { s.cache with rings := s.cache.rings.set p x }
/-- Replaces the eviction hold of port `p` (R145). -/
def State.setHold (s : State) (p : PortId) (x : Option Nat) : State :=
  s.setCache { s.cache with holds := s.cache.holds.set p x }

/-- Carries out `f` for each member of a list, in its order. -/
def State.each {α : Type} (xs : List α) (f : α → State → State) (s : State) : State :=
  xs.foldl (fun t x => f x t) s

/-- The receivers in ascending number. -/
def allReceivers : List ReceiverId := List.finRange 24
/-- The ports in ascending number. -/
def allPorts : List PortId := List.finRange 4
/-- The logical sources in ascending number. -/
def allSources : List SourceId := List.finRange 24
/-- The context slots in slice order from the frontier. -/
def State.slotsInOrder (s : State) : List SlotId :=
  (List.range 64).map fun d => slotOf (s.frontier + BitVec.ofNat 32 d)

/-! ## The window (R1, R2) -/

/-- The three classes of a slice number (R1). -/
inductive WindowClass
  | inWindow
  | early
  | late
  deriving DecidableEq, Repr

/-- The class of slice number `n` by its distance from the frontier (R1). -/
def State.classify (s : State) (n : Slice) : WindowClass :=
  let d := distance s.frontier n
  if d < 64 then .inWindow else if d < 2 ^ 31 then .early else .late

/-- The number of opened slices, (N − F + 1) mod 2^32 (R1). -/
def State.openCount (s : State) : Nat := (s.newestOpened - s.frontier + 1).toNat

/-! ## Messages and NOTIFY -/

/-- Sends a message on port `p` (R164). -/
def State.send (s : State) (p : PortId) (message : List Word) : State := s.setSent p (s.sent[p] ++ [message])

/-- A port carries WRITE, READ and NOTIFY, and keeps its rings, in ACTIVE and DRAINING (R152, R164). -/
def PortState.attached : PortState → Bool
  | .active | .draining => true
  | .linkDown | .detached | .faulted => false

/-- A port takes messages in every state with a link (R163). -/
def PortState.linked : PortState → Bool
  | .detached | .active | .draining | .faulted => true
  | .linkDown => false

/-- The end of a quiet period that begins now on port `p`, or none for a moderation of 0 (R188). -/
def State.quietEnd (s : State) (p : PortId) : Option Stamp :=
  if s.moderation p = 0 then none else some (s.counter + BitVec.ofNat 32 (s.moderation p))

/-- Sends a NOTIFY on port `p` with the counts of this moment, and begins a quiet period with nothing owed (R188, R189).
A trigger taken at the slot that ends a quiet period, before QUIET_PERIOD_END, so ends that period with the one NOTIFY of
the slot, which counts it (log 32). -/
def State.sendNotify (s : State) (p : PortId) : State :=
  (s.send p (notifyMessage (s.ring p).produced s.incidents.length)).setPort p
    { s.port p with notifyPending := false, quietUntil := s.quietEnd p }

/-- Port `p` is in its quiet period (R188). -/
def State.inQuietPeriod (s : State) (p : PortId) : Bool :=
  match (s.port p).quietUntil with
  | none => false
  | some t => ahead (t - s.counter)

/-- A trigger reaches port `p` (R188). -/
def State.trigger (s : State) (p : PortId) : State :=
  if (s.port p).state.attached then
    if s.inQuietPeriod p then s.setPort p { s.port p with notifyPending := true } else s.sendNotify p
  else s

/-! ## The incident queue (R184, R185) -/

/-- Sets the overflow flag of the newest record (R185). -/
def markNewest : List Incident → List Incident
  | [] => []
  | [i] => [{ i with overflow := true }]
  | i :: j :: rest => i :: markNewest (j :: rest)

/-- Posts an incident: appended with fewer than 16 records, else lost with the newest record's flag set; a
queue that goes from 0 records to 1 triggers every ACTIVE or DRAINING port (R185, R188). -/
def State.post (s : State) (kind : IncidentKind) (source : IncidentSource) (slice : Option Slice) (detail : Word) :
    State :=
  if s.incidents.length < Config.incidentRecords then
    let stored := s.setIncidents
      (s.incidents ++ [{ kind, source, slice, detail, stamp := s.counter, overflow := false }])
    if s.incidents.isEmpty then stored.each allPorts fun p t => t.trigger p else stored
  else s.setIncidents (markNewest s.incidents)

/-! ## Timers (R35) -/

/-- A timer started now for `length` slots, as the slot at which it expires (R35). -/
def State.timerFor (s : State) (length : Nat) : Option Stamp := some (s.counter + BitVec.ofNat 32 length)

/-- A running timer has run out: the slot counter has reached its slot (R35). -/
def State.timerDue (s : State) (t : Option Stamp) : Bool :=
  match t with
  | none => false
  | some e => !ahead (e - s.counter)

end Sys2Proof.Machine
end

