-- ==== Sys2Proof/Machine/Pressure.lean ====
section
/-! DEFINITION. The pressure level and the hold decision (04_ingress_pressure.md, R76–R81). -/

namespace Sys2Proof.Machine

/-- The rising rule: the highest k above the current level with Tk ≤ occupancy, if any (R77). -/
def State.risen (s : State) : Option (Fin 4) :=
  let j := s.pressure.level
  let o := s.pool.occupancy
  if j < 3 ∧ s.threshold 3 ≤ o then some 3
  else if j < 2 ∧ s.threshold 2 ≤ o then some 2
  else if j < 1 ∧ s.threshold 1 ≤ o then some 1
  else none

/-- Occupancy lies below Tk − H (R78). -/
def State.below (s : State) (k : Fin 4) : Bool := s.pool.occupancy < s.threshold k - s.margin

/-- The level the falling rule leaves from level `j`, tested one step at a time (R78). -/
def State.fallenFrom (s : State) (j : Fin 4) : Fin 4 :=
  match j with
  | 0 => 0
  | 1 => if s.below 1 then 0 else 1
  | 2 => if s.below 2 then (if s.below 1 then 0 else 1) else 2
  | 3 => if s.below 3 then (if s.below 2 then (if s.below 1 then 0 else 1) else 2) else 3

/-- The level after an evaluation: the rising rule, and the falling rule if it changes nothing (R76). -/
def State.evaluated (s : State) : Fin 4 :=
  match s.risen with
  | some k => k
  | none => s.fallenFrom s.pressure.level

/-- Evaluates the pressure level; entry into P3 posts PRESSURE_HIGH with the occupancy (R76, R79). -/
def State.evaluate (s : State) : State :=
  let t := s.setPressure { s.pressure with level := s.evaluated }
  if s.pressure.level ≠ 3 ∧ s.evaluated = 3 then
    t.post .pressureHigh .none none (BitVec.ofNat 64 s.pool.occupancy)
  else t

/-- The period index of a slot (R81). -/
def periodIndex (t : Stamp) : Nat := t.toNat % 16

/-- Makes the hold decision for the current slot with the level and Nk as they stand (R81). -/
def State.decideHold (s : State) : State :=
  s.setPressure
    { s.pressure with
      held := periodIndex s.counter < s.holdShare s.pressure.level, heldFor := s.counter }

end Sys2Proof.Machine
end

