-- ==== Sys2Proof/Machine/Flags.lean ====
section
/-! DEFINITION. The conditions computed from the state: hold reasons and the back channel (R49–R52), BUSY and
PRESSURE_ANY (R84), the status lines (R190, R191). -/

namespace Sys2Proof.Machine

/-- The words a segment occupies in the elastic buffer (R46): its header words until it is accepted, and its
payload words held. -/
def BufferedSegment.held (g : BufferedSegment) : Nat :=
  (match g.place with
    | .waiting => 2
    | .accepted | .remainder _ => 0) + g.payload.length

/-- The words held in a receiver's elastic buffer (R46). -/
def Receiver.held (x : Receiver) : Nat := (x.buffer.map BufferedSegment.held).sum

/-- The run is RUNNING or DRAINING (R52, R190). -/
def RunState.active : RunState → Bool
  | .running | .draining => true
  | .stopped | .flushing => false

/-- Hold reason PRESSURE of receiver `r` (R52). -/
def State.holdPressure (s : State) (r : ReceiverId) : Bool :=
  (s.rx r).link == .up && s.pressure.held && s.run.active

/-- Hold reason LOW of a receiver: fewer than 256 free words (R51). -/
def Receiver.holdLow (x : Receiver) : Bool := Config.bufferWords - x.held < Config.lowFree

/-- Some hold reason of receiver `r` is active (R49). -/
def State.holds (s : State) (r : ReceiverId) : Bool :=
  s.holdPressure r || (s.rx r).early || (s.rx r).holdLow || (s.rx r).noPages

/-- The symbols of the back channel (R49). -/
inductive BackSymbol
  | hold
  | go
  deriving DecidableEq, Repr

/-- The symbol on receiver `r`'s back channel (R49). -/
def State.backChannel (s : State) (r : ReceiverId) : BackSymbol :=
  match (s.rx r).link with
  | .down | .aligning | .barred => .hold
  | .probation => .go
  | .up => if s.holds r then .hold else .go

/-- BUSY (R84). -/
def State.busy (s : State) : Bool := s.busyLevel ≤ s.pressure.level.val
/-- PRESSURE_ANY (R84). -/
def State.pressureAny (s : State) : Bool := s.pressure.level != 0
/-- LINK_ALARM (R190). -/
def State.linkAlarm (s : State) : Bool :=
  allReceivers.any fun r => (s.mapping r).isSome && s.enrolled r && (s.rx r).link != .up
/-- INCIDENT_PENDING (R190). -/
def State.incidentPending (s : State) : Bool := !s.incidents.isEmpty
/-- NO_BUILDER (R190). -/
def State.noBuilder (s : State) : Bool := allPorts.all fun p => (s.port p).state != .active

/-- The condition that a source code of the OUTPUTS item selects (R190, R197). -/
def State.condition (s : State) (source : Nat) : Bool :=
  match source with
  | 1 => s.busy
  | 2 => s.pressureAny
  | 3 => s.linkAlarm
  | 4 => s.incidentPending
  | 5 => s.run.active
  | 6 => s.noBuilder
  | _ => false

/-- Whether status line `i` is high (R191). -/
def State.lineHigh (s : State) (i : Fin 4) : Bool := s.condition (s.lineSource i) != s.lineActiveLow i

end Sys2Proof.Machine
end

