-- ==== Sys2Proof/Machine/Operands.lean ====
section
/-! DEFINITION. The fields of what the part receives: segment headers, descriptors, item names, builder
messages (11_formats.md, R192–R197). Bits that no field uses are ignored (R192). -/

namespace Sys2Proof.Machine

/-- The number in bits `lsb` … `lsb + n − 1` of a word (R192). -/
def bits (w : Word) (lsb n : Nat) : Nat := (w >>> lsb).toNat % 2 ^ n

/-- The segment kind of a two-bit code (R193). -/
def segmentKind (code : Nat) : SegmentKind :=
  match code with
  | 0 => .first
  | 1 => .middle
  | 2 => .last
  | _ => .only

/-- The header that two header words spell (R193). -/
def parseHeader (w0 w1 : Word) : SegmentHeader :=
  { slice := BitVec.ofNat 32 (bits w0 0 32)
    source := BitVec.ofNat 5 (bits w0 32 5)
    kind := segmentKind (bits w0 40 2)
    empty := w0.getLsbD 44
    truncated := w0.getLsbD 45
    length := bits w1 0 11 }

/-- A descriptor as read from a descriptor ring (R128, R194). -/
structure Descriptor where
  address : Address
  /-- The buffer length in units of 512 bytes. -/
  units : Nat
  cycle : Bool
  deriving DecidableEq, Repr

/-- The descriptor that two words spell (R194). -/
def parseDescriptor (w0 w1 : Word) : Descriptor :=
  { address := BitVec.ofNat 48 (bits w0 0 48), units := bits w1 0 12, cycle := w1.getLsbD 63 }

/-- The descriptors of a run of words, two words each (R194, R196). -/
def parseDescriptors : List Word → List Descriptor
  | w0 :: w1 :: rest => parseDescriptor w0 w1 :: parseDescriptors rest
  | _ => []

/-- A descriptor's fields are sound: a length of 1–2048 units and a 64-byte aligned address (R141). -/
def Descriptor.sound (d : Descriptor) : Bool := 1 ≤ d.units && d.units ≤ 2048 && d.address.toNat % 64 == 0

/-- The expected cycle bit of count `c` on a ring of 2^k entries (R129). -/
def expectedCycle (k : Nat) (c : Count) : Bool := (c.toNat / 2 ^ k) % 2 == 0

/-- Item `n` of a table of `count` items, if there is one. -/
def tableItem (count : Nat) (f : Fin count → ItemName) (n : Nat) : Option ItemName :=
  if h : n < count then some (f ⟨n, h⟩) else none

/-- A table of one item. -/
def singleItem (item : ItemName) (n : Nat) : Option ItemName := if n = 0 then some item else none

/-- The item that a table code and an item number name, if it is in the catalogue (R166, R196, R197). -/
def ItemName.ofCodes (table number : BitVec 8) : Option ItemName :=
  match table.toNat with
  | 0 => singleItem .run number.toNat
  | 1 => singleItem .slot number.toNat
  | 2 => singleItem .assembly number.toNat
  | 3 => singleItem .linktime number.toNat
  | 4 => tableItem 24 .linkmap number.toNat
  | 5 => singleItem .pressure number.toNat
  | 6 => tableItem 64 .steer number.toNat
  | 7 => singleItem .dispatch number.toNat
  | 8 => singleItem .cache number.toNat
  | 9 => tableItem 4 .portcfg number.toNat
  | 10 => singleItem .outputs number.toNat
  | 11 => tableItem 24 .linkstat number.toNat
  | 12 => tableItem 4 .portstat number.toNat
  | 13 => singleItem .store number.toNat
  | 14 => tableItem 4 .retired number.toNat
  | 15 => tableItem 64 .slicestat number.toNat
  | _ => none

/-- The item after an item within its table: item n + 1 after item n, and item 0 after the last (R168). -/
def ItemName.next : ItemName → ItemName
  | .linkmap r => .linkmap (r + 1)
  | .steer i => .steer (i + 1)
  | .portcfg p => .portcfg (p + 1)
  | .linkstat r => .linkstat (r + 1)
  | .portstat p => .portstat (p + 1)
  | .retired n => .retired (n + 1)
  | .slicestat i => .slicestat (i + 1)
  | .run => .run
  | .slot => .slot
  | .assembly => .assembly
  | .linktime => .linktime
  | .pressure => .pressure
  | .dispatch => .dispatch
  | .cache => .cache
  | .outputs => .outputs
  | .store => .store

/-- The classes of the catalogue (9.1). -/
inductive ItemClass
  | command
  | runLocked
  | live
  | mixed
  | readOnly
  deriving DecidableEq, Repr

/-- The class of an item (9.1). -/
def ItemName.kind : ItemName → ItemClass
  | .run => .command
  | .slot | .cache => .runLocked
  | .linkmap _ => .mixed
  | .assembly | .linktime | .pressure | .steer _ | .dispatch | .portcfg _ | .outputs => .live
  | .linkstat _ | .portstat _ | .store | .retired _ | .slicestat _ => .readOnly

/-! ## Builder messages (R196) -/

/-- The tag of a READ-DATA, in word 0 (R196). -/
def messageTag (w0 : Word) : BitVec 8 := BitVec.ofNat 8 (bits w0 16 8)

/-- The command of a message that has word 0 alone. -/
def noFurtherWord (c : Instr) : List Word → Option Instr
  | [] => some c
  | _ => none

/-- The command of a message that has one word after word 0. -/
def oneFurtherWord (f : Word → Instr) : List Word → Option Instr
  | [w1] => some (f w1)
  | _ => none

/-- The command of a message that has two words after word 0. -/
def twoFurtherWords (f : Word → Word → Instr) : List Word → Option Instr
  | [w1, w2] => some (f w1 w2)
  | _ => none

/-- The command that a message of builder `p` spells, by its type code and its length; none where R196 gives the code no
row or another length. READ-DATA with data has no length of its own: it is judged against the READ it answers (R154). -/
def messageCommand (p : PortId) : List Word → Option Instr
  | [] => none
  | w0 :: rest =>
    match bits w0 0 8 with
    | 0x01 => twoFurtherWords (fun w1 w2 =>
        .attach p (BitVec.ofNat 48 (bits w1 0 48)) (BitVec.ofNat 5 (bits w1 56 5)) (BitVec.ofNat 48 (bits w2 0 48))
          (BitVec.ofNat 5 (bits w2 56 5))) rest
    | 0x02 => noFurtherWord (.detach p) rest
    | 0x03 => oneFurtherWord (fun w1 =>
        .announce p (BitVec.ofNat 32 (bits w1 0 32)) (BitVec.ofNat 32 (bits w1 32 32))) rest
    | 0x10 => oneFurtherWord (fun w1 => .itemRead p (BitVec.ofNat 8 (bits w1 0 8)) (BitVec.ofNat 8 (bits w1 8 8))) rest
    | 0x11 => noFurtherWord (.itemReadNext p) rest
    | 0x12 => twoFurtherWords (fun w1 w2 => .itemStage p (BitVec.ofNat 8 (bits w1 0 8)) w2) rest
    | 0x13 => oneFurtherWord (fun w1 => .itemCommit p (BitVec.ofNat 8 (bits w1 0 8)) (BitVec.ofNat 8 (bits w1 8 8))) rest
    | 0x18 => noFurtherWord (.incidentTake p) rest
    | 0x20 => some (.readData p (messageTag w0) rest)
    | 0x21 => oneFurtherWord (fun w1 => .readDataError p (messageTag w0) w1) rest
    | _ => none

/-- A message is malformed by its type code or its length (R154, R196). The tag of a READ-DATA is judged before this
(State.takeMalformed). -/
def malformed (message : List Word) : Bool := (messageCommand 0 message).isNone

/-- The tag of a message that is a READ-DATA by its type code: the tag is matched before the length is judged (R154,
R196). -/
def readDataTag (message : List Word) : Option (BitVec 8) :=
  match message with
  | [] => none
  | w0 :: _ => if bits w0 0 8 = 0x20 ∨ bits w0 0 8 = 0x21 then some (messageTag w0) else none

end Sys2Proof.Machine
end

