-- ==== Sys2Proof/Machine/Cache.lean ====
section
/-! DEFINITION. The descriptor cache: entries and limits (R133, R134), fetching (R135–R137), returns (R139–R141),
buffers for the engine (R112, R142), eviction (R144, R145) and teardown (R146, R147). -/

namespace Sys2Proof.Machine

/-! ## Counts (R133) -/

/-- An entry that waits to be handed to the engine of port `p`. -/
def CacheEntry.cachedFor (e : CacheEntry) (p : PortId) : Bool := e.port == p && e.state == .cached
/-- The current buffer of the engine of port `p`. -/
def CacheEntry.assignedTo (e : CacheEntry) (p : PortId) : Bool := e.port == p && e.state == .assigned
/-- The number of CACHED entries of port `p`. -/
def Cache.cachedCount (c : Cache) (p : PortId) : Nat := (c.entries.filter fun e => e.cachedFor p).length
/-- The reservations a fetch slot holds for port `p`. -/
def reservedIn (p : PortId) : Option Fetch → Nat
  | some f => if f.port = p then f.reserved else 0
  | none => 0
/-- The number of entries reserved by port `p`'s READ in flight. -/
def Cache.reservedCount (c : Cache) (p : PortId) : Nat := (c.slots.toList.map (reservedIn p)).sum
/-- Entries CACHED, ASSIGNED or reserved, for all ports together. -/
def Cache.used (c : Cache) : Nat := c.entries.length + (allPorts.map c.reservedCount).sum
/-- Entries neither in use nor reserved. -/
def Cache.free (c : Cache) : Nat := Config.cacheEntries - c.used
/-- The eviction hold of a port as a number of entries. -/
def Cache.holdCount (c : Cache) (p : PortId) : Nat := (c.holds[p]).getD 0
/-- The eviction holds of the ports other than `p`. -/
def Cache.otherHolds (c : Cache) (p : PortId) : Nat := ((allPorts.filter fun v => v != p).map c.holdCount).sum
/-- The shared room of port `p` (R136). -/
def Cache.sharedRoom (c : Cache) (p : PortId) : Nat := c.free - c.otherHolds p
/-- A fetch slot holds a READ of port `p`. -/
def Cache.slotOf (c : Cache) (p : PortId) (t : Fin 4) : Bool :=
  match c.slots[t] with
  | some f => f.port == p
  | none => false
/-- The fetch slot of port `p`'s READ in flight: its read outstanding (R130). -/
def Cache.outstanding (c : Cache) (p : PortId) : Option (Fin 4) := (List.finRange 4).find? (c.slotOf p)
/-- Tag `t` is one of port `p`'s abandoned tags (R147). -/
def Cache.abandonedTag (c : Cache) (p : PortId) (t : Fin 4) : Bool := (c.abandoned[p]).getLsbD t.val
/-- The current buffer of port `p`'s engine. -/
def Cache.currentBuffer (c : Cache) (p : PortId) : Option CacheEntry := c.entries.find? fun e => e.assignedTo p

/-! ## Fetching (R135–R137) -/

/-- The lowest-numbered free fetch slot in force that no abandoned tag of port `p` blocks (R137, R147). -/
def State.openSlot (s : State) (p : PortId) : Option (Fin 4) :=
  (List.finRange 4).find? fun t => t.val < s.fetchSlots && s.cache.slots[t] == none && !s.cache.abandonedTag p t

/-- Port `p` is ACTIVE, or DRAINING with its engine holding a slice (R135). -/
def State.mayFetch (s : State) (p : PortId) : Bool :=
  match (s.port p).state with
  | .active => true
  | .draining => (s.engine p).assigned.isSome
  | .linkDown | .detached | .faulted => false

/-- The announced producer of port `p` is ahead of its fetched count (R130). -/
def State.announcedAhead (s : State) (p : PortId) : Bool := ahead ((s.ring p).announced - (s.ring p).fetched)

/-- Port `p` wants a fetch (R135). -/
def State.wantsFetch (s : State) (p : PortId) : Bool :=
  s.mayFetch p && s.cache.outstanding p == none && s.announcedAhead p && (s.openSlot p).isSome

/-- The size of a fetch for port `p` on a ring of 2^k entries: the smallest of five numbers (R136). -/
def State.fetchSize (s : State) (p : PortId) (k : Nat) : Nat :=
  let ring := s.ring p
  let demand := max (ring.announced - ring.fetched).toNat s.fetchMin
  let portRoom := s.perPortMax - s.cache.cachedCount p - s.cache.reservedCount p
  let ringEnd := 2 ^ k - ring.fetched.toNat % 2 ^ k
  min demand (min s.fetchMax (min portRoom (min (s.cache.sharedRoom p) ringEnd)))

/-- Puts a fetch into slot `t` and makes its port the one granted last (R136, R137). -/
def Cache.issue (c : Cache) (t : Fin 4) (f : Fetch) : Cache :=
  { c with slots := c.slots.set t (some f), granted := f.port, holds := c.holds.set f.port none }

/-- Issues a fetch of `n` descriptors for port `p` on slot `t` (R136). -/
def State.issueFetch (s : State) (p : PortId) (t : Fin 4) (n : Nat) (ring : RingParameters) : State :=
  let first := (s.ring p).fetched
  let f : Fetch := { port := p, first, n, reserved := n, producer := (s.ring p).announced }
  (s.setCache (s.cache.issue t f)).send p
    (readMessage t.val n (ring.descriptorBase + BitVec.ofNat 48 (16 * (first.toNat % 2 ^ ring.k))))

/-- Considers port `p` once for a fetch slot (R137). -/
def State.considerFetch (s : State) (p : PortId) : State :=
  match s.openSlot p, (s.ring p).parameters with
  | some t, some ring =>
    let n := s.fetchSize p ring.k
    if s.wantsFetch p && 1 ≤ n then s.issueFetch p t n ring else s
  | _, _ => s

/-- The ports in round-robin order after `p` (R137). -/
def portsAfter (p : PortId) : List PortId := [p + 1, p + 2, p + 3, p + 4]

/-- Grants fetch slots, each wanting port considered once, from the port after the one granted last (R137). -/
def State.grantFetches (s : State) : State := s.each (portsAfter s.cache.granted) fun p t => t.considerFetch p

/-! ## Eviction (R144, R145) -/

/-- The test for an eviction for port `p`, but for a victim (R144). -/
def State.starves (s : State) (p : PortId) : Bool :=
  (s.engine p).state == .waitBuffer && s.cache.cachedCount p == 0 && s.cache.reservedCount p == 0 &&
    s.cache.holds[p] == none && s.announcedAhead p && s.cache.sharedRoom p == 0

/-- Port `v` may be the victim of an eviction for port `p` (R144). -/
def Cache.mayLose (c : Cache) (p v : PortId) : Bool :=
  v != p && 2 ≤ c.cachedCount v && c.outstanding v == none

/-- Of two candidates in ascending port number, the one with the more CACHED entries, the first if equal (R144). -/
def Cache.richer (c : Cache) (best : Option PortId) (v : PortId) : Option PortId :=
  match best with
  | none => some v
  | some b => if c.cachedCount b < c.cachedCount v then some v else some b

/-- The victim of an eviction for port `p`, if any port qualifies (R144). -/
def Cache.victim (c : Cache) (p : PortId) : Option PortId := (allPorts.filter (c.mayLose p)).foldl c.richer none

/-- Frees the `e` CACHED entries of port `v` with the newest counts and rewinds its fetched by `e` (R134, R145). -/
def Cache.rewind (c : Cache) (v : PortId) (e : Nat) : Cache :=
  let ring := c.rings[v]
  { c with
    entries := c.entries.filter fun x => !(x.cachedFor v && (ring.fetched - 1 - x.count).toNat < e)
    rings := c.rings.set v { ring with fetched := ring.fetched - BitVec.ofNat 32 e } }

/-- An eviction for waiting port `p`, if the test holds and a victim qualifies (R144, R145). -/
def State.evictFor (s : State) (p : PortId) : State :=
  if s.starves p then
    match s.cache.victim p with
    | some v =>
      let e := min s.fetchMin (s.cache.cachedCount v - 1)
      (s.setCache (s.cache.rewind v e)).setHold p (some e)
    | none => s
  else s

/-- One pass of fetch grants, then of eviction tests in ascending port number (log 19). -/
def State.cachePass (s : State) : State := s.grantFetches.each allPorts fun p t => t.evictFor p

/-- What the cache does on its own at the end of a step that changed a value it reads: fetch grants and
evictions until neither has more to do (R137, R144; log 19). Each port gets at most one eviction hold, so four
passes and the grants after them are enough. -/
def State.settleCache (s : State) : State := s.cachePass.cachePass.cachePass.cachePass.grantFetches

/-! ## Buffers for the engine (R112, R142, R143) -/

/-- Makes the CACHED entry of count `n` of port `p` ASSIGNED. -/
def assignEntry (p : PortId) (n : Count) (e : CacheEntry) : CacheEntry :=
  if e.cachedFor p && e.count == n then { e with state := .assigned } else e

/-- The cache once it has handed over the entry at consumed-for-delivery of port `p` (R142). -/
def Cache.handOver (c : Cache) (p : PortId) : Cache :=
  let ring := c.rings[p]
  { c with
    entries := c.entries.map (assignEntry p ring.consumed)
    rings := c.rings.set p { ring with consumed := ring.consumed + 1 } }

/-- The engine once it has taken the buffer of count `n` (R112). -/
def Engine.withBuffer (e : Engine) (n : Count) : Engine :=
  { e with
    state := .moving
    bufferFill := 0
    buffers := e.buffers + 1
    firstBuffer := match e.firstBuffer with
      | none => some n
      | some first => some first }

/-- The engine of port `p` asks for a buffer: it takes the CACHED entry at consumed-for-delivery and is MOVING,
or receives DEFER and is in WAIT_BUFFER (R112, R142), its buffer fill 0 as it holds no buffer (log 34). Leaving
WAIT_BUFFER ends the port's eviction hold (R145). -/
def State.takeBuffer (s : State) (p : PortId) : State :=
  let n := (s.ring p).consumed
  if s.cache.entries.any fun e => e.cachedFor p && e.count == n then
    ((s.setCache (s.cache.handOver p)).setHold p none).setEngine p ((s.engine p).withBuffer n)
  else s.setEngine p { s.engine p with state := .waitBuffer, bufferFill := 0 }

/-- The engine of port `p` gives back its current buffer (R142). -/
def State.giveBack (s : State) (p : PortId) : State :=
  s.setCache { s.cache with entries := s.cache.entries.filter fun e => !e.assignedTo p }

/-- The cache wakes the engine of port `p` if it is in WAIT_BUFFER (R143). -/
def State.wake (s : State) (p : PortId) : State := if (s.engine p).state = .waitBuffer then s.takeBuffer p else s

/-! ## Returns (R139–R141) -/

/-- The cache once a sound valid descriptor of count `n` is CACHED for port `p` (R139). -/
def Cache.keep (c : Cache) (p : PortId) (n : Count) (d : Descriptor) : Cache :=
  { c with
    entries := c.entries ++ [{ port := p, count := n, address := d.address, length := 512 * d.units, state := .cached }]
    rings := c.rings.set p { c.rings[p] with fetched := n + 1 } }

/-- Processes the descriptors of a return in count order from count `n` on, while reservations are held: the
cache after it, and whether it found a RING_INVALID fault (R139–R141). -/
def Cache.receive (p : PortId) (k : Nat) (producer : Count) : Nat → Count → List Descriptor → Cache → Cache × Bool
  | 0, _, _, c => (c, false)
  | _ + 1, _, [], c => (c, false)
  | held + 1, n, d :: rest, c =>
    if d.cycle = expectedCycle k n then
      if d.sound then Cache.receive p k producer held (n + 1) rest (c.keep p n d) else (c, true)
    else (c, ahead (producer - n))

/-- Frees fetch slot `t` with the reservations it holds. -/
def Cache.freeSlot (c : Cache) (t : Fin 4) : Cache := { c with slots := c.slots.set t none }

/-! ## Teardown (R146, R147) -/

/-- Tag `t` joins port `p`'s abandoned tags. -/
def Cache.abandon (c : Cache) (p : PortId) (t : Fin 4) : Cache :=
  { c with abandoned := c.abandoned.set p (c.abandoned[p] ||| (1#4 <<< t.val)) }

/-- Abandoned tag `t` of port `p` ends (R147). -/
def Cache.endTag (c : Cache) (p : PortId) (t : Fin 4) : Cache :=
  { c with abandoned := c.abandoned.set p (c.abandoned[p] &&& ~~~(1#4 <<< t.val)) }

/-- Every abandoned tag of port `p` ends (R147, R161). -/
def Cache.endTags (c : Cache) (p : PortId) : Cache := { c with abandoned := c.abandoned.set p 0 }

/-- Frees port `p`'s entries and eviction hold and tears its ring record down (R146). -/
def Cache.clearPort (c : Cache) (p : PortId) : Cache :=
  { c with
    entries := c.entries.filter fun e => e.port != p
    rings := c.rings.set p Ring.torn
    holds := c.holds.set p none }

/-- Tears port `p` down in the cache; a READ in flight leaves its tag abandoned unless the teardown is a link
loss (R146). -/
def Cache.teardown (c : Cache) (p : PortId) (linkLoss : Bool) : Cache :=
  match c.outstanding p with
  | none => c.clearPort p
  | some t => if linkLoss then (c.freeSlot t).clearPort p else ((c.freeSlot t).abandon p t).clearPort p

/-! ## A CACHE commit that lowers the per-port max (R134) -/

/-- Releases `n` reservations of a fetch, from the highest count down. -/
def Fetch.release (f : Fetch) (n : Nat) : Fetch := { f with reserved := f.reserved - n }

/-- Brings port `p` down to at most `limit` CACHED and reserved entries: reservations first, then the newest CACHED
entries (R134). -/
def Cache.trimPort (limit : Nat) (p : PortId) (c : Cache) : Cache :=
  let excess := c.cachedCount p + c.reservedCount p - limit
  let released := min excess (c.reservedCount p)
  let slots := Vector.ofFn fun t : Fin 4 =>
    match c.slots[t] with
    | some f => if f.port = p then some (f.release released) else some f
    | none => none
  ({ c with slots := slots }).rewind p (excess - released)

/-- Brings every port down to the per-port max in force (R134). -/
def State.trimCache (s : State) : State :=
  s.setCache (allPorts.foldl (fun c p => c.trimPort s.perPortMax p) s.cache)

end Sys2Proof.Machine
end

