-- ==== Sys2Proof/Machine/Dispatcher.lean ====
section
/-! DEFINITION. The dispatcher: the ready list (R88, R89), ranks and eligibility (R94, R95), the walk (R96–R98), the
taking of a slice by an engine (R108) and the dispatch wait (R93). -/

namespace Sys2Proof.Machine

/-! ## Ranks and eligibility (R94, R95) -/

/-- The four ports in rank order for the slices of slot `i` (R94). -/
def State.ranking (s : State) (i : SlotId) : List PortId :=
  s.preference i ++ allPorts.filter fun p => !(s.preference i).contains p

/-- The primary port for the slices of slot `i`: the first ACTIVE port of the preference list (R94). -/
def State.primary (s : State) (i : SlotId) : Option PortId :=
  (s.preference i).find? fun p => (s.port p).state == .active

/-- Port `p` is eligible for a ready list entry. A port assigned a slice in this walk has no IDLE engine
(R95, R98). -/
def State.eligible (s : State) (e : ReadyEntry) (p : PortId) : Bool :=
  (s.port p).state == .active && (s.engine p).state == .idle && (s.primary (slotOf e.slice) == some p || e.elapsed)

/-- The highest-ranked eligible port for a ready list entry (R97). -/
def State.bestPort (s : State) (e : ReadyEntry) : Option PortId :=
  (s.ranking (slotOf e.slice)).find? fun p => s.eligible e p

/-! ## Assignment (R98, R108) -/

/-- The engine record as port `p` takes the slice of slot `i` (R108). -/
def State.engineFor (s : State) (p : PortId) (i : SlotId) : Engine :=
  { Engine.idle with
    assigned := some (i, (s.ctx i).slice)
    header := (s.ctx i).imageHeader p
    imageLength := Config.headerBytes + 8 * (s.ctx i).totalWords }

/-- Engine `p` takes the slice of slot `i` and asks for a buffer (R108). -/
def State.takeSlice (s : State) (p : PortId) (i : SlotId) : State := (s.setEngine p (s.engineFor p i)).takeBuffer p

/-- Assigns the slice of a ready list entry to port `p` (R98). -/
def State.assign (s : State) (e : ReadyEntry) (p : PortId) : State :=
  let i := slotOf e.slice
  let left := s.setReady (s.ready.filter fun x => x.slice != e.slice)
  (left.setCtx i { left.ctx i with state := .delivering }).takeSlice p i

/-- Considers one entry in a walk (R97). -/
def State.considerEntry (s : State) (e : ReadyEntry) : State :=
  match s.bestPort e with
  | some p => s.assign e p
  | none => s

/-- A walk of the ready list from the oldest entry to the newest (R97). -/
def State.walk (s : State) : State := s.each s.ready fun e t => t.considerEntry e

/-! ## Entry into the ready list (R88, R89, R93) -/

/-- Inserts an entry at its ordered place by the distance from frontier `f` (R88). -/
def insertEntry (f : Slice) (e : ReadyEntry) : List ReadyEntry → List ReadyEntry
  | [] => [e]
  | x :: rest =>
    if distance f e.slice < distance f x.slice then e :: x :: rest else x :: insertEntry f e rest

/-- A new or restarted entry for a slice (R89, R93, R101). -/
def State.newEntry (s : State) (n : Slice) : ReadyEntry :=
  { slice := n, since := s.counter, elapsed := s.dispatchWait == 0 }

/-- Inserts an entry for a slice at its ordered place; a walk follows (R89, R101). -/
def State.enterReady (s : State) (n : Slice) : State :=
  (s.setReady (insertEntry s.frontier (s.newEntry n) s.ready)).walk

/-! ## The dispatch wait (R93) -/

/-- The wait of an entry has run out and its field does not say so yet (R93). -/
def State.waitDue (s : State) (e : ReadyEntry) : Bool :=
  !e.elapsed && s.dispatchWait ≤ (s.counter - e.since).toNat

/-- Sets wait elapsed in every entry whose wait has run out; a walk follows if there is one (R93, R96). -/
def State.elapseWaits (s : State) : State :=
  if s.ready.any s.waitDue then
    (s.setReady (s.ready.map fun e => { e with elapsed := e.elapsed || s.waitDue e })).walk
  else s

end Sys2Proof.Machine
end

