-- ==== Sys2Proof/Machine/PagePool.lean ====
section
/-! DEFINITION. Allocating and freeing pages (R57–R62, R66, R67), rolling back a provisional record (R69),
committing one (R68) and freeing a chain (R71). Each allocation and each free is taken whole, one at a
time, and each is followed by an evaluation of the pressure level (R76). -/

namespace Sys2Proof.Machine

/-! ## The tables -/

/-- The page link table's entry of a page; 0 for none (R58). -/
def PagePool.linkOf (pool : PagePool) (page : Nat) : Nat := Cells.get 0 pool.links page
/-- Sets the page link table's entry of a page (R58). -/
def PagePool.setLink (pool : PagePool) (page next : Nat) : PagePool :=
  { pool with links := Cells.put 0 pool.links page next }
/-- The attribute of a page (R60). -/
def PagePool.attributeOf (pool : PagePool) (page : Nat) : PageAttribute := Cells.get .clear pool.attributes page
/-- Sets the attribute of a page (R60). -/
def PagePool.setAttribute (pool : PagePool) (page : Nat) (x : PageAttribute) : PagePool :=
  { pool with attributes := Cells.put .clear pool.attributes page x }
/-- The attribute after a corrected word (R60). -/
def PageAttribute.stepped : PageAttribute → PageAttribute
  | .clear => .suspect
  | .suspect => .retireOnFree
  | .retireOnFree => .retireOnFree

/-! ## Allocation (R59, R66) -/

/-- The pool once the head of its free list is allocated; its link entry becomes 0 (R58, R59). -/
def PagePool.taken (pool : PagePool) (page : Nat) (rest : List Nat) : PagePool :=
  { pool.setLink page 0 with free := rest, occupancy := pool.occupancy + 1 }

/-- Allocates the head of the free list and evaluates the pressure level; nothing if the list is empty. -/
def State.allocatePage (s : State) : Option (Nat × State) :=
  match s.pool.free with
  | [] => none
  | page :: rest => some (page, (s.setPool (s.pool.taken page rest)).evaluate)

/-! ## Freeing (R61, R67) -/

/-- The pool once a page goes to the tail of the free list (R61). -/
def PagePool.freed (pool : PagePool) (page : Nat) : PagePool :=
  { pool.setLink page 0 with free := pool.free ++ [page], occupancy := pool.occupancy - 1 }

/-- The pool once a page goes to the retired page table (R61, R62). -/
def PagePool.withdrawn (pool : PagePool) (page : Nat) : PagePool :=
  { pool.setLink page 0 with retired := pool.retired ++ [page], occupancy := pool.occupancy - 1 }

/-- Ends NO_PAGES at one receiver. -/
def State.clearNoPages (s : State) (r : ReceiverId) : State := s.setRx r { s.rx r with noPages := false }

/-- NO_PAGES ends for every receiver that holds it (R67). -/
def State.endNoPages (s : State) : State := s.each allReceivers fun r t => t.clearNoPages r

/-- Frees one page given up by a chain or a record of slice `n` (R61). -/
def State.freePage (s : State) (n : Slice) (page : Nat) : State :=
  if s.pool.attributeOf page = .retireOnFree then
    if s.pool.retired.length < Config.retiredEntries then (s.setPool (s.pool.withdrawn page)).evaluate
    else
      ((s.setPool ((s.pool.freed page).setAttribute page .suspect)).evaluate.endNoPages).post .retireFull .none
        (some n) (BitVec.ofNat 64 page)
  else (s.setPool (s.pool.freed page)).evaluate.endNoPages

/-- The pages from `page` to `last`, each named by the link entry of the one before: at most `fuel` of them
(R69, R71). -/
def PagePool.run (pool : PagePool) (last : Nat) : Nat → Nat → List Nat
  | 0, _ => []
  | fuel + 1, page =>
    if page = 0 then [] else if page = last then [page] else page :: pool.run last fuel (pool.linkOf page)

/-- Frees the pages of a run in its order (R69, R71); every link entry was read before it is cleared. -/
def State.freePages (s : State) (n : Slice) (pages : List Nat) : State := s.each pages fun page t => t.freePage n page

/-! ## Provisional records (R63, R68, R69) -/

/-- Clears the link entry from the chain's committed tail to the record's first page (R69 step 1). -/
def State.unlink (s : State) (record : ProvisionalRecord) : State :=
  if record.firstPage ≠ 0 ∧ record.tailBefore ≠ 0 then s.setPool (s.pool.setLink record.tailBefore 0) else s

/-- Removes the record of receiver `r` and ends its wait for a page (R69 steps 3 and 4). -/
def State.dropRecord (s : State) (r : ReceiverId) : State :=
  s.setRx r { s.rx r with record := none, noPages := false }

/-- Rolls back the provisional record of receiver `r`, if it has one (R69). -/
def State.rollback (s : State) (r : ReceiverId) : State :=
  match (s.rx r).record with
  | none => s
  | some record =>
    let unlinked := s.unlink record
    (unlinked.freePages record.slice (unlinked.pool.run record.writePage record.pages record.firstPage)).dropRecord r

/-- The chain once a record is committed to it (R68). -/
def Chain.committed (c : Chain) (record : ProvisionalRecord) : Chain :=
  { c with
    head := if c.head = 0 ∧ record.firstPage ≠ 0 then record.firstPage else c.head
    tail := if record.writePage ≠ 0 then record.writePage else c.tail
    fill := if record.writePage ≠ 0 then record.writeFill else c.fill
    words := c.words + record.written }

/-! ## Freeing a slice (R71) -/

/-- Frees chain `q` of the slice in slot `i` (R71). -/
def State.freeChain (s : State) (i : SlotId) (q : SourceId) : State :=
  let c := (s.ctx i).chain q
  let t := s.freePages (s.ctx i).slice (s.pool.run c.tail Config.maxChainPages c.head)
  t.setCtx i ((t.ctx i).setChain q { (t.ctx i).chain q with head := 0, tail := 0 })

/-- Frees every page of the slice in slot `i`, chain by chain in logical source order (R71). -/
def State.freeSlice (s : State) (i : SlotId) : State := s.each allSources fun q t => t.freeChain i q

/-- Sets the state of slot `i` (R3). -/
def State.setSlotState (s : State) (i : SlotId) (x : SlotState) : State := s.setCtx i { s.ctx i with state := x }

end Sys2Proof.Machine
end

