-- ==== Sys2Proof/Machine/ElasticBuffer.lean ====
section
/-! DEFINITION. The segments of an elastic buffer: the head segment, and the two ways of discarding it
(R46). -/

namespace Sys2Proof.Machine

/-- The segment at the head of the elastic buffer. -/
def Receiver.head (x : Receiver) : Option BufferedSegment := x.buffer.head?

/-- Replaces the segment at the head of the elastic buffer. -/
def Receiver.setHead (x : Receiver) (g : BufferedSegment) : Receiver :=
  match x.buffer with
  | [] => x
  | _ :: rest => { x with buffer := g :: rest }

/-- Replaces the newest segment of a run of segments. -/
def replaceNewest (g : BufferedSegment) : List BufferedSegment → List BufferedSegment
  | [] => []
  | [_] => [g]
  | a :: b :: rest => a :: replaceNewest g (b :: rest)

/-- The newest segment of the elastic buffer: the one the framer has open, while its verdict is none. -/
def Receiver.newest (x : Receiver) : Option BufferedSegment := x.buffer.getLast?

/-- Replaces the newest segment of the elastic buffer. -/
def Receiver.setNewest (x : Receiver) (g : BufferedSegment) : Receiver :=
  { x with buffer := replaceNewest g x.buffer }

/-- The framer once the segment it has open is discarded whole: the words still to arrive are dropped on
arrival and the verdict is dropped when taken (R46). -/
def Framer.disowned : Framer → Framer
  | .segment o => .segment { o with fate := .discarded }
  | .idle => .idle
  | .stray => .stray
  | .dropping => .dropping

/-- Discards the head segment whole: its words present leave, and what is still to come of it is dropped
(R46). A head segment without a verdict is the one the framer has open. EARLY ends (R50). -/
def Receiver.withoutHead (x : Receiver) : Receiver :=
  match x.buffer with
  | [] => x
  | g :: rest =>
    { x with buffer := rest, early := false, framer := if g.verdict = none then x.framer.disowned else x.framer }

/-- Removes the head segment once its verdict is delivered (R47). -/
def Receiver.popHead (x : Receiver) : Receiver := { x with buffer := x.buffer.tail }

/-- The current fragment once a verdict finds no record: a LAST or ONLY clears it if the page limit removed
the record, and it is left as it is otherwise (R18). -/
def Receiver.verdictUnrecorded (x : Receiver) (g : BufferedSegment) : Receiver :=
  match g.place, g.header.kind with
  | .remainder true, .last => { x with current := none }
  | .remainder true, .only => { x with current := none }
  | _, _ => x

/-- Delivers the verdict of a head segment whose remainder was discarded, if it is taken (R18, R47). -/
def Receiver.settleRemainder (x : Receiver) : Receiver :=
  match x.head with
  | some g =>
    match g.place, g.verdict with
    | .remainder _, some _ => x.popHead.verdictUnrecorded g
    | _, _ => x
  | none => x

/-- Discards the remainder of the head segment: its words not yet written leave, the words still to arrive are
dropped on arrival, and its verdict is still delivered (R46, R47). -/
def Receiver.discardRemainder (x : Receiver) (pageLimit : Bool) : Receiver :=
  match x.head with
  | some g => (x.setHead { g with place := .remainder pageLimit, payload := [] }).settleRemainder
  | none => x

/-- Rolls back the record of receiver `r` and discards the remainder of its segment, if it has a record
(R21, R32, R69). -/
def State.abandonRecord (s : State) (r : ReceiverId) : State :=
  if (s.rx r).record = none then s
  else
    let t := s.rollback r
    t.setRx r ((t.rx r).discardRemainder false)

/-- Sets the current fragment of receiver `r` (R53). -/
def State.setCurrent (s : State) (r : ReceiverId) (x : Option Slice) : State := s.setRx r { s.rx r with current := x }

end Sys2Proof.Machine
end

