-- ==== Sys2Proof/Machine/SliceTable.lean ====
section
/-! DEFINITION. The slice table: statuses and directory (R6), closure (R20, R21), opening (R7, R8), verdicts (R16–R18),
placement (R9–R15), link loss (R25) and the frontier (R28). -/

namespace Sys2Proof.Machine

/-! ## Chain states (R5) -/

/-- The final chain states (R5). -/
def ChainState.final : ChainState → Bool
  | .whole | .empty | .feTruncated | .cut | .partial_ => true
  | .none | .receiving => false

/-- The whole-like chain states (R5). -/
def ChainState.wholeLike : ChainState → Bool
  | .whole | .empty | .feTruncated => true
  | .none | .receiving | .cut | .partial_ => false

/-- A chain still RECEIVING becomes PARTIAL; another is left as it is. -/
def Chain.broken (c : Chain) : Chain := if c.state = .receiving then { c with state := .partial_ } else c

/-- Source `q` is a member of a set (R192). -/
def member (m : SourceSet) (q : SourceId) : Bool := m.getLsbD q.val
/-- The set that holds source `q` alone. -/
def single (q : SourceId) : SourceSet := 1#24 <<< q.val

/-! ## Statuses and directory (R6) -/

/-- The status of source `q` of a closing context (R6). -/
def Context.status (c : Context) (q : SourceId) : SourceStatus :=
  match (c.chain q).state with
  | .none => if member c.expected q || member c.dropped q then .missing else .notExpected
  | .whole => if member c.expected q then .whole else .unexpected
  | .empty => .empty
  | .feTruncated => .feTruncated
  | .cut => .cut
  | .partial_ | .receiving => .partial_

/-- The sum of the committed words of the sources below `q` (R6). -/
def Context.offset (c : Context) (q : Nat) : Nat :=
  ((allSources.filter fun x => x.val < q).map fun x => (c.chain x).words).sum

/-- The directory entry of source `q` (R6). -/
def Context.directoryEntry (c : Context) (q : SourceId) : DirectoryEntry :=
  { status := c.status q, length := (c.chain q).words, offset := c.offset q.val }

/-- The context with its statuses, directory and total words computed (R6). -/
def Context.withDirectory (c : Context) : Context :=
  { c with directory := some (Vector.ofFn c.directoryEntry), totalWords := c.offset 24 }

/-! ## Closing (R20, R21) -/

/-- Rolls back the record of receiver `r` if it is for slot `i` (R21 step 1). -/
def State.abandonFor (s : State) (i : SlotId) (r : ReceiverId) : State :=
  match (s.rx r).record with
  | some record => if record.slot = i then s.abandonRecord r else s
  | none => s

/-- Clears the current fragment of receiver `r` if it names slice `n` (R21 step 2). -/
def State.clearCurrent (s : State) (n : Slice) (r : ReceiverId) : State :=
  if (s.rx r).current = some n then s.setCurrent r none else s

/-- The context as it closes: no chain RECEIVING, its closure recorded, its directory computed, READY (R21 steps
3 to 6). -/
def Context.closed (c : Context) (reason : ClosureReason) (now : Stamp) : Context :=
  let ended := { c with chains := Vector.ofFn fun q => (c.chain q).broken }
  { ended.withDirectory with closure := some { reason, closedAt := now }, state := .ready }

/-- Closes the context of slot `i` (R21). -/
def State.closeContext (s : State) (i : SlotId) (reason : ClosureReason) : State :=
  let n := (s.ctx i).slice
  let t := (s.each allReceivers fun r u => u.abandonFor i r).each allReceivers fun r u => u.clearCurrent n r
  (t.setCtx i ((t.ctx i).closed reason t.counter)).enterReady n

/-- Every source of the expected set has a final chain (R20). -/
def Context.allFinal (c : Context) : Bool :=
  allSources.all fun q => !member c.expected q || (c.chain q).state.final

/-- The reason of a closure by check (R20). -/
def Context.checkReason (c : Context) : ClosureReason :=
  if (allSources.all fun q => !member c.expected q || (c.chain q).state.wholeLike) && c.dropped == 0 then .complete
  else .deficient

/-- The closure check of slot `i` (R20). -/
def State.closureCheck (s : State) (i : SlotId) : State :=
  if (s.ctx i).state = .opened ∧ (s.ctx i).allFinal = true then s.closeContext i (s.ctx i).checkReason else s

/-- Replaces chain `q` of the context in slot `i`. -/
def State.setChain (s : State) (i : SlotId) (q : SourceId) (x : Chain) : State := s.setCtx i ((s.ctx i).setChain q x)

/-- A RECEIVING chain becomes PARTIAL and the closure check runs; another chain is left as it is. -/
def State.breakChain (s : State) (i : SlotId) (q : SourceId) : State :=
  if ((s.ctx i).chain q).state = .receiving then
    (s.setChain i q { (s.ctx i).chain q with state := .partial_ }).closureCheck i
  else s

/-! ## Opening (R7, R8) -/

/-- The sources whose receiver is mapped to them, enrolled and UP (R7). -/
def State.expectedNow (s : State) : SourceSet :=
  allReceivers.foldl (fun m r => match s.mapping r with
    | some q => if s.enrolled r && (s.rx r).link == .up then m ||| single q else m
    | none => m) 0

/-- The values of a context at opening (R4). -/
def State.openedContext (s : State) (n : Slice) : Context :=
  { Context.unopened with
    slice := n, state := .opened, expected := s.expectedNow, deadline := s.deadline, openedAt := s.counter }

/-- Opens the slice after the newest opened (R7). -/
def State.openNext (s : State) : State :=
  let n := s.newestOpened + 1
  ((s.setCtx (slotOf n) (s.openedContext n)).setNewestOpened n).closureCheck (slotOf n)

/-- Opens through an in-window slice number `t` (R7). -/
def State.openThrough (s : State) (t : Slice) : State :=
  s.each (List.range (distance s.frontier t + 1 - s.openCount)) fun _ u => u.openNext

/-- Opens through min(x, F + 63), in RUNNING (R8). -/
def State.openToward (s : State) (x : Slice) : State :=
  if s.run = .running then
    match s.classify x with
    | .inWindow => s.openThrough x
    | .early => s.openThrough (s.frontier + 63)
    | .late => s
  else s

/-! ## Verdicts (R16–R18, R47) -/

/-- The chain state after a GOOD verdict (R16). -/
def SegmentHeader.chainAfter (h : SegmentHeader) : ChainState :=
  match h.kind with
  | .first | .middle => .receiving
  | .last => if h.truncated then .feTruncated else .whole
  | .only => if h.truncated then .feTruncated else if h.empty then .empty else .whole

/-- The current fragment after a GOOD verdict (R16). -/
def SegmentHeader.fragmentAfter (h : SegmentHeader) : Option Slice :=
  match h.kind with
  | .first | .middle => some h.slice
  | .last | .only => none

/-- The context once a record is committed to it (R16, R68). -/
def Context.commit (c : Context) (record : ProvisionalRecord) (h : SegmentHeader) : Context :=
  { c.setChain record.source { (c.chain record.source).committed record with state := h.chainAfter } with
    totalWords := c.totalWords + record.written }

/-- A GOOD verdict with a record present (R16, R68). -/
def State.commitRecord (s : State) (r : ReceiverId) (record : ProvisionalRecord) (h : SegmentHeader) : State :=
  let t := s.setCtx record.slot ((s.ctx record.slot).commit record h)
  let u := t.setRx r { t.rx r with record := none, current := h.fragmentAfter }
  if h.chainAfter.final then u.closureCheck record.slot else u

/-- Sets CRC_SEEN in the context of slot `i` (R17). -/
def State.markCrcSeen (s : State) (i : SlotId) : State :=
  s.setCtx i { s.ctx i with flags := { (s.ctx i).flags with crcSeen := true } }

/-- A CRC_BAD or FRAMING verdict with a record present (R17). CRC_SEEN is set before the closure check of the same
verdict: R17 orders neither before the other, and this order is the model's choice (log 24). -/
def State.rejectRecord (s : State) (r : ReceiverId) (record : ProvisionalRecord) (v : Verdict) : State :=
  let t := (s.rollback r).setCurrent r none
  let u := if v = .crcBad then t.markCrcSeen record.slot else t
  u.breakChain record.slot record.source

/-- Delivers the verdict `v` of the head segment `g` of receiver `r` to the ingress writer (R16–R18). -/
def State.deliver (s : State) (r : ReceiverId) (g : BufferedSegment) (v : Verdict) : State :=
  let t := s.setRx r (s.rx r).popHead
  match (t.rx r).record with
  | none => t.setRx r ((t.rx r).verdictUnrecorded g)
  | some record => if v = .good then t.commitRecord r record g.header else t.rejectRecord r record v

/-- Every stored word of a segment has left the buffer (R47). -/
def BufferedSegment.emptied (g : BufferedSegment) : Bool :=
  match g.place with
  | .waiting => false
  | .accepted | .remainder _ => g.payload.isEmpty

/-- Delivers the verdict of receiver `r`'s head segment once it is taken and every stored word has left (R47). -/
def State.settleVerdict (s : State) (r : ReceiverId) : State :=
  match (s.rx r).head with
  | none => s
  | some g =>
    match g.verdict with
    | none => s
    | some v => if g.emptied then s.deliver r g v else s

/-! ## Placement (R9–R15) -/

/-- The reasons of a DISCARD (R9). -/
inductive DiscardReason
  | runState
  | late
  | framing
  | duplicate
  | cut
  deriving DecidableEq, Repr

/-- The answers to a presentation (R9). -/
inductive Answer
  | accept
  | stallEarly
  | discard (reason : DiscardReason)
  deriving DecidableEq, Repr

/-- A segment that starts a fragment: FIRST or ONLY. -/
def SegmentKind.starts : SegmentKind → Bool
  | .first | .only => true
  | .middle | .last => false

/-- A segment that ends a fragment: LAST or ONLY. -/
def SegmentKind.ends : SegmentKind → Bool
  | .last | .only => true
  | .first | .middle => false

/-- The decision for a segment of an OPEN slot (R14, R15). -/
def openAnswer (h : SegmentHeader) (current : Option Slice) (chain : ChainState) : Answer :=
  if h.kind.starts then
    match chain with
    | .none => .accept
    | .receiving => .discard .framing
    | .whole | .empty | .feTruncated | .cut | .partial_ => .discard .duplicate
  else if current = some h.slice then
    match chain with
    | .receiving => .accept
    | .cut => .discard .cut
    | .none | .whole | .empty | .feTruncated | .partial_ => .discard .framing
  else .discard .framing

/-- The decision for a segment past the run gate (R12–R15). -/
def State.windowAnswer (s : State) (h : SegmentHeader) (current : Option Slice) (q : SourceId) : Answer :=
  match s.classify h.slice with
  | .late => .discard .late
  | .early => .stallEarly
  | .inWindow =>
    match (s.ctx (slotOf h.slice)).state with
    | .ready | .delivering | .retired => .discard .late
    | .unopened => if h.kind.starts then .accept else .discard .framing
    | .opened => openAnswer h current ((s.ctx (slotOf h.slice)).chain q).state

/-- Slice number `n` is in window and its slot is not UNOPENED (R11). -/
def State.knownSlice (s : State) (n : Slice) : Bool :=
  s.classify n == .inWindow && (s.ctx (slotOf n)).state != .unopened

/-- The decision on a presented segment, the cut of a fragment in progress done (R11–R15). -/
def State.answer (s : State) (h : SegmentHeader) (current : Option Slice) (q : SourceId) : Answer :=
  match s.run with
  | .running => s.windowAnswer h current q
  | .draining => if s.knownSlice h.slice then s.windowAnswer h current q else .discard .runState
  | .stopped | .flushing => .discard .runState

/-- The cut of a fragment in progress when a FIRST or ONLY is presented (R10). -/
def State.cutFragment (s : State) (r : ReceiverId) (q : SourceId) (kind : SegmentKind) : State :=
  match (s.rx r).current with
  | none => s
  | some n =>
    if kind.starts then
      let i := slotOf n
      let t := if (s.ctx i).slice = n ∧ (s.ctx i).state = .opened then s.breakChain i q else s
      t.setCurrent r none
    else s

/-- The record made at an ACCEPT (R63). -/
def Chain.recordFor (c : Chain) (i : SlotId) (q : SourceId) (h : SegmentHeader) : ProvisionalRecord :=
  { slot := i, slice := h.slice, source := q, kind := h.kind, length := h.length
    tailBefore := c.tail, fillBefore := c.fill, writePage := c.tail, writeFill := c.fill
    firstPage := 0, pages := 0, written := 0 }

/-- The elastic buffer once its head segment is accepted: its header words leave (R63). -/
def Receiver.acceptHead (x : Receiver) : Receiver :=
  match x.head with
  | some g => x.setHead { g with place := .accepted }
  | none => x

/-- The receiver as its head segment is accepted: its record is made (R63), EARLY ends (R50). -/
def Receiver.accepting (x : Receiver) (record : ProvisionalRecord) : Receiver :=
  { x.acceptHead with early := false, record := some record }

/-- An ACCEPT of the head segment, whose header is `h`: the slice opens if need be, the record is made (R14, R15, R63).
A segment without payload words whose verdict is taken is judged at once (R47; log 17). -/
def State.accept (s : State) (r : ReceiverId) (q : SourceId) (h : SegmentHeader) : State :=
  let i := slotOf h.slice
  let t := if (s.ctx i).state = .unopened then s.openThrough h.slice else s
  let c := (t.ctx i).chain q
  let u := t.setRx r ((t.rx r).accepting (c.recordFor i q h))
  let v := if h.kind = .first then u.setChain i q { c with state := .receiving } else u
  v.settleVerdict r

/-- The detail of a FRAMING incident: its cause, and the segment kind where the header was read (R196). -/
def framingDetail (cause : Nat) (kind : Option SegmentKind) : Word :=
  fieldAt 8 cause ||| match kind with
    | some k => fieldAt 0 k.code
    | none => 0

/-- The cause code PLACEMENT of a FRAMING incident (R196). -/
def causePlacement : Nat := 7

/-- Sets LATE_SEEN in the context of an in-window READY slot (R12). -/
def State.markLateSeen (s : State) (n : Slice) : State :=
  let i := slotOf n
  if s.classify n = .inWindow ∧ (s.ctx i).state = .ready then
    s.setCtx i { s.ctx i with flags := { (s.ctx i).flags with lateSeen := true } }
  else s

/-- Sets DUPLICATE_SEEN in the context of slot `i` (R14). -/
def State.markDuplicateSeen (s : State) (i : SlotId) : State :=
  s.setCtx i { s.ctx i with flags := { (s.ctx i).flags with duplicateSeen := true } }

/-- The chain effect of a FRAMING discard: a RECEIVING chain of the OPEN slot becomes PARTIAL (R14, R15). -/
def State.breakPlaced (s : State) (n : Slice) (q : SourceId) : State :=
  if (s.ctx (slotOf n)).state = .opened then s.breakChain (slotOf n) q else s

/-- The effects of a DISCARD on the slice table and its incident (R9, R12, R14, R15). -/
def State.discardEffects (s : State) (r : ReceiverId) (q : SourceId) (h : SegmentHeader) (reason : DiscardReason) :
    State :=
  match reason with
  | .runState => s
  | .late => (s.markLateSeen h.slice).post .late (.link r) (some h.slice) (fieldAt 0 h.kind.code)
  | .framing =>
    (s.post .framing (.link r) (some h.slice) (framingDetail causePlacement (some h.kind))).breakPlaced h.slice q
  | .duplicate =>
    (s.markDuplicateSeen (slotOf h.slice)).post .duplicate (.link r) (some h.slice) (fieldAt 0 h.kind.code)
  | .cut => if h.kind = .last then s.setCurrent r none else s

/-- Discards the head segment of receiver `r` whole (R46). -/
def State.discardWhole (s : State) (r : ReceiverId) : State := s.setRx r (s.rx r).withoutHead

/-- Presents the head segment of receiver `r`, mapped to source `q`, whose header is `h`, to the slice table
(R9–R15). -/
def State.judge (s : State) (r : ReceiverId) (q : SourceId) (h : SegmentHeader) : State :=
  let t := s.cutFragment r q h.kind
  match t.answer h (t.rx r).current q with
  | .accept => t.accept r q h
  | .stallEarly => t.setRx r { t.rx r with early := true }
  | .discard reason => (t.discardWhole r).discardEffects r q h reason

/-- The head segment of receiver `r` that waits for a decision, if there is one (R9). -/
def Receiver.candidate (x : Receiver) : Option BufferedSegment :=
  match x.head with
  | some g => if g.place = .waiting then some g else none
  | none => none

/-- Presents the waiting head segment of receiver `r`; a receiver that is not mapped and enrolled discards it
whole without an incident (R9, R55; log 16). -/
def State.present (s : State) (r : ReceiverId) : State :=
  if (s.rx r).link = .up then
    match (s.rx r).candidate with
    | none => s
    | some g =>
      match s.mapping r with
      | some q => if s.enrolled r then s.judge r q g.header else s.discardWhole r
      | none => s.discardWhole r
  else s

/-- Presents again the segment of receiver `r` if it is stalled (R9, R11, R28). -/
def State.presentAgain (s : State) (r : ReceiverId) : State := if (s.rx r).early then s.present r else s

/-- Presents again the segment of every stalled receiver (R11, R28), in ascending receiver number: R28 leaves their order
open, and it orders the FRAMING incidents of the segments it discards (log 24). -/
def State.presentStalled (s : State) : State := s.each allReceivers fun r t => t.presentAgain r

/-- The run state changes by itself or by START or STOP; stalled segments are presented again (R11, R176). -/
def State.changeRun (s : State) (x : RunState) : State := (s.setRun x).presentStalled

/-! ## Page limit (R19) -/

/-- The chain of a page-limit cut, the current fragment, the discarded remainder and the closure check (R19). -/
def State.cutAtLimit (s : State) (r : ReceiverId) (record : ProvisionalRecord) : State :=
  let i := record.slot
  let t := s.setChain i record.source { (s.ctx i).chain record.source with state := .cut }
  let u := (t.rollback r).setCurrent r (some record.slice)
  (u.setRx r ((u.rx r).discardRemainder true)).closureCheck i

/-! ## Link loss (R25) -/

/-- Slot `i` is OPEN and its chain `q` not final (R25). -/
def State.losesSource (s : State) (q : SourceId) (i : SlotId) : Bool :=
  (s.ctx i).state == .opened && !((s.ctx i).chain q).state.final

/-- The context once the link of source `q` is lost (R25). -/
def Context.dropSource (c : Context) (q : SourceId) : Context :=
  let t := c.setChain q (c.chain q).broken
  if member c.expected q then
    { t with expected := c.expected &&& ~~~(single q), dropped := c.dropped ||| single q }
  else t

/-- The expected set of slot `i` shrinks or its chain `q` becomes final at a loss of source `q` (R25). -/
def State.lossMatters (s : State) (q : SourceId) (i : SlotId) : Bool :=
  member (s.ctx i).expected q || ((s.ctx i).chain q).state == .receiving

/-- The link-loss notice of receiver `r`, mapped to source `q` (R25). -/
def State.linkLoss (s : State) (r : ReceiverId) (q : SourceId) : State :=
  let t := (s.rollback r).setCurrent r none
  let losing := t.slotsInOrder.filter (t.losesSource q)
  let checked := losing.filter (t.lossMatters q)
  let dropped := t.each losing fun i u => u.setCtx i ((u.ctx i).dropSource q)
  dropped.each checked fun i u => u.closureCheck i

/-! ## The frontier (R28) -/

/-- The slot of the frontier holds the frontier's slice in state RETIRED (R28). -/
def State.frontierRetired (s : State) : Bool :=
  (s.ctx (slotOf s.frontier)).state == .retired && (s.ctx (slotOf s.frontier)).slice == s.frontier

/-- Passes the frontier over a run of retired slots, at most `fuel` of them (R28). -/
def State.passRetired : Nat → State → State
  | 0, s => s
  | fuel + 1, s =>
    if s.frontierRetired then
      State.passRetired fuel ((s.setCtx (slotOf s.frontier) Context.unopened).setFrontier (s.frontier + 1))
    else s

/-- The report to run control that every opened slice is retired: DRAINING ends (R28, R178). -/
def State.drainReport (s : State) : State :=
  if s.run = .draining ∧ s.openCount = 0 then s.changeRun .stopped else s

/-- The frontier advance (R28). -/
def State.frontierAdvance (s : State) : State :=
  if s.frontierRetired then
    let t := State.passRetired 64 s
    ((t.openToward t.newestStrobe).presentStalled).drainReport
  else s

/-- A slot whose pages are given up becomes RETIRED, and the frontier advances (R27, R71). -/
def State.retire (s : State) (i : SlotId) : State := ((s.freeSlice i).setSlotState i .retired).frontierAdvance

end Sys2Proof.Machine
end

