-- ==== Sys2Proof/Machine/Delivery.lean ====
section
/-! DEFINITION. The delivery engines: the words of an image (R109, R111), damage found by the store's check (R72, R73),
one WRITE (R113), buffers and the ring limit (R114, R115), completion (R116–R120), aborts and returns (R101, R121,
R124), and the end of a FLUSHING run (R179). -/

namespace Sys2Proof.Machine

/-! ## Where a data word stands (R109) -/

/-- The page `n` links after page `page`. -/
def PagePool.nthPage (pool : PagePool) : Nat → Nat → Nat
  | 0, page => page
  | n + 1, page => pool.nthPage n (pool.linkOf page)

/-- The page and the position within it of word `j` of the fragment data of a run of chains (R109). -/
def PagePool.locate (pool : PagePool) : List Chain → Nat → Nat × Nat
  | [], _ => (0, 0)
  | c :: rest, j =>
    if j < c.words then (pool.nthPage (j / Config.pageWords) c.head, j % Config.pageWords)
    else pool.locate rest (j - c.words)

/-- The page and position of word `j` of the fragment data of the slice in slot `i`. -/
def State.locate (s : State) (i : SlotId) (j : Nat) : Nat × Nat := s.pool.locate (s.ctx i).chains.toList j

/-! ## Reads and the store's check (R72, R73) -/

/-- The condition of a stored word. -/
def PagePool.conditionOf (pool : PagePool) (address : Nat) : WordCondition := Cells.get .sound pool.conditions address

/-- The condition after further damage: an uncorrectable word stays as it was first read, and damage never
mends a word (log 7). -/
def worsenedCondition (old new : WordCondition) : WordCondition :=
  match old, new with
  | .uncorrectable w, _ => .uncorrectable w
  | .singleBit, .sound => .singleBit
  | .singleBit, .singleBit => .singleBit
  | .singleBit, .uncorrectable w => .uncorrectable w
  | .sound, c => c

/-- Damages the stored word at an address. -/
def PagePool.damage (pool : PagePool) (address : Nat) (c : WordCondition) : PagePool :=
  { pool with conditions := Cells.put .sound pool.conditions address (worsenedCondition (pool.conditionOf address) c) }

/-- Damages the stored word that is data word `first + k` of the slice in slot `i`, if this WRITE reads it: it reads
`count` of them. -/
def State.damageFound (s : State) (i : SlotId) (first count : Nat) (f : Nat × WordCondition) : State :=
  if f.1 < count then
    let place := s.locate i (first + f.1)
    s.setPool (s.pool.damage (wordAddress place.1 place.2) f.2)
  else s

/-- The first uncorrectable offset once image byte `byte` is found uncorrectable: the first one stays (R73). -/
def Context.uncorrectableAt (c : Context) (byte : Nat) : Context :=
  { c with
    flags := { c.flags with uncorrectable := true }
    firstUncorrectable := match c.firstUncorrectable with
      | none => some byte
      | some b => some b }

/-- The word given to the engine: as stored, corrected, or as read when it is uncorrectable (R72, R73). -/
def givenWord (c : WordCondition) (stored : Word) : Word :=
  match c with
  | .sound | .singleBit => stored
  | .uncorrectable w => w

/-- What the check does beside giving the word: the page's attribute, the incident and the context's flag (R60,
R72, R73). -/
def State.checked (s : State) (p : PortId) (i : SlotId) (j page : Nat) (c : WordCondition) : State :=
  match c with
  | .sound => s
  | .singleBit => s.setPool (s.pool.setAttribute page (s.pool.attributeOf page).stepped)
  | .uncorrectable _ =>
    let t := (s.setPool (s.pool.setAttribute page .retireOnFree)).post .uncorrectable (.port p)
      (some (s.ctx i).slice) (BitVec.ofNat 64 page)
    t.setCtx i ((t.ctx i).uncorrectableAt (Config.headerBytes + 8 * j))

/-- Engine `p` reads data word `j` of the slice in slot `i`, after the words read so far (R111). -/
def State.readWord (p : PortId) (i : SlotId) (x : List Word × State) (j : Nat) : List Word × State :=
  let place := x.2.locate i j
  let address := wordAddress place.1 place.2
  let c := x.2.pool.conditionOf address
  (x.1 ++ [givenWord c (Memory.readWord x.2.pool.store address)], x.2.checked p i j place.1 c)

/-- Engine `p` reads the `count` data words from data word `first` on (R111). -/
def State.readWords (s : State) (p : PortId) (i : SlotId) (first count : Nat) : List Word × State :=
  (List.range' first count).foldl (State.readWord p i) ([], s)

/-! ## Completion (R116–R120) -/

/-- The completion credit of port `p` on a ring of 2^m records (R116). -/
def State.credit (s : State) (p : PortId) (m : Nat) : Nat :=
  2 ^ m - ((s.ring p).produced - (s.ring p).announcedConsumed).toNat

/-- The first buffer count of a completion record (R118). -/
def State.firstBufferOf (s : State) (p : PortId) : Count := (s.engine p).firstBuffer.getD (s.ring p).consumed

/-- The words of the completion record of engine `p` for the slice in slot `i` (R118, R119). -/
def State.recordFor (s : State) (p : PortId) (i : SlotId) (n : Slice) (m : Nat) : List Word :=
  let e := s.engine p
  completionRecord (s.ctx i) n e.kind (s.firstBufferOf p) e.buffers e.readPosition e.cut
    (expectedCycle m (s.ring p).produced)

/-- Writes the completion record of engine `p`, advances the produced count and reports the record to
notification (R119, R188; log 18). -/
def State.writeRecord (s : State) (p : PortId) (i : SlotId) (n : Slice) (ring : RingParameters) : State :=
  let produced := (s.ring p).produced
  let address := ring.completionBase + BitVec.ofNat 48 (64 * (produced.toNat % 2 ^ ring.m))
  let t := s.send p (writeMessage address (s.recordFor p i n ring.m))
  (t.setRing p { t.ring p with produced := produced + 1 }).trigger p

/-- Every delivery engine is IDLE. -/
def State.allIdle (s : State) : Bool := allPorts.all fun p => (s.engine p).state == .idle

/-- The end of FLUSHING: STOPPED once every delivery engine is IDLE (R179). -/
def State.flushingEnd (s : State) : State :=
  if s.run = .flushing ∧ s.allIdle = true then s.changeRun .stopped else s

/-- Engine `p` takes its IDLE values (R106); it leaves WAIT_BUFFER if it was there, which ends the port's eviction
hold (R145). -/
def State.idleEngine (s : State) (p : PortId) : State := (s.setEngine p Engine.idle).setHold p none

/-- Clears notify-pending and the quiet period of port `p` (R155, R158, R159, R161). -/
def Port.quieted (x : Port) : Port := { x with notifyPending := false, quietUntil := none }

/-- The end of draining: a DRAINING port whose engine is IDLE enters DETACHED (R158). -/
def State.drainingEnd (s : State) (p : PortId) : State :=
  if (s.port p).state = .draining ∧ (s.engine p).state = .idle then
    let t := s.setPort p { (s.port p).quieted with state := .detached }
    (t.setCache (t.cache.teardown p false)).send p detachedMessage
  else s

/-- Engine `p` becomes IDLE after a delivery: a walk, the report to run control, and the end of draining (R96, R120,
R158, R179; log 28). -/
def State.endOfDelivery (s : State) (p : PortId) : State := ((s.idleEngine p).walk.flushingEnd).drainingEnd p

/-- Completion of engine `p`'s delivery (R120). -/
def State.complete (s : State) (p : PortId) (i : SlotId) (n : Slice) (ring : RingParameters) : State :=
  ((s.writeRecord p i n ring).retire i).endOfDelivery p

/-- Engine `p` holds its slice in WAIT_CREDIT, without a buffer, so with buffer fill 0 (R116; log 34). -/
def State.waitCredit (s : State) (p : PortId) : State :=
  (s.setHold p none).setEngine p { s.engine p with state := .waitCredit, bufferFill := 0 }

/-- Engine `p` computes its completion credit, and completes or waits for credit (R116, R117). -/
def State.proceedToCredit (s : State) (p : PortId) : State :=
  match (s.engine p).assigned, (s.ring p).parameters with
  | some (i, n), some ring => if 1 ≤ s.credit p ring.m then s.complete p i n ring else s.waitCredit p
  | _, _ => s

/-! ## One WRITE (R113–R115) -/

/-- The length in bytes of the next WRITE of an engine into a buffer (R113). -/
def Engine.writeLength (e : Engine) (buffer : CacheEntry) : Nat :=
  min Config.writeBytes (min (buffer.length - e.bufferFill) (e.imageLength - e.readPosition))

/-- The engine once a WRITE of `n` bytes is issued (R113). -/
def Engine.wrote (e : Engine) (n : Nat) : Engine :=
  { e with readPosition := e.readPosition + n, bufferFill := e.bufferFill + n }

/-- The address of the next WRITE of an engine into a buffer: the buffer's address plus the buffer fill (R113). The spec
states no address for a WRITE past the 48-bit address space, and that one is a free value (log 35). -/
def Engine.writeAddress (e : Engine) (buffer : CacheEntry) : Address :=
  if buffer.address.toNat + e.bufferFill < 2 ^ 48 then buffer.address + BitVec.ofNat 48 e.bufferFill
  else Config.addressPast buffer.address e.bufferFill

/-- The header words a WRITE of `n` bytes carries (R109). -/
def Engine.headerWords (e : Engine) (n : Nat) : List Word := (e.header.drop (e.readPosition / 8)).take (n / 8)

/-- The index of the first data word a WRITE carries, and how many it carries (R109). -/
def Engine.dataSpan (e : Engine) (n : Nat) : Nat × Nat :=
  let last := e.readPosition + n - Config.headerBytes
  let first := e.readPosition - Config.headerBytes
  (first / 8, (last - first) / 8)

/-- After a WRITE: the image is finished, the buffer is full, or the engine goes on in it (R114, R115). -/
def State.afterWrite (s : State) (p : PortId) (buffer : CacheEntry) (ring : RingParameters) : State :=
  let e := s.engine p
  if e.readPosition = e.imageLength then (s.giveBack p).proceedToCredit p
  else if e.bufferFill = buffer.length then
    let t := s.giveBack p
    if e.buffers = 2 ^ ring.k then (t.setEngine p { e with cut := true }).proceedToCredit p else t.takeBuffer p
  else s

/-- Engine `p` issues one WRITE of image bytes of the slice in slot `i` into a buffer (R111, R113). Its words are read and
checked before it is sent: a NOTIFY that an UNCORRECTABLE incident triggers on this port stands before the WRITE on the
port's link, which no rule orders (R73, R188; the model's choice, log 24). -/
def State.issueWrite (s : State) (p : PortId) (i : SlotId) (buffer : CacheEntry) (ring : RingParameters)
    (found : List (Nat × WordCondition)) : State :=
  let e := s.engine p
  let n := e.writeLength buffer
  let data := e.dataSpan n
  let damaged := s.each found fun f t => t.damageFound i data.1 data.2 f
  let read := damaged.readWords p i data.1 data.2
  let sent := read.2.send p (writeMessage (e.writeAddress buffer) (e.headerWords n ++ read.1))
  (sent.setEngine p ((sent.engine p).wrote n)).afterWrite p buffer ring

/-- Engine `p` writes, if it is MOVING (R113; log 2). -/
def State.engineWrite (s : State) (p : PortId) (found : List (Nat × WordCondition)) : State :=
  if (s.engine p).state = .moving then
    match (s.engine p).assigned, s.cache.currentBuffer p, (s.ring p).parameters with
    | some (i, _), some buffer, some ring => s.issueWrite p i buffer ring found
    | _, _, _ => s
  else s

/-! ## Aborts, returns and flushed ends (R101, R121, R123, R124) -/

/-- The dispatcher takes back the slice of slot `i` (R101). -/
def State.returnSlice (s : State) (i : SlotId) (n : Slice) : State :=
  let c := s.ctx i
  (s.setCtx i { c with state := .ready, flags := { c.flags with redirected := true } }).enterReady n

/-- What becomes of the slice that engine record `e` of a lost or faulted port held, the engine IDLE by then: an
aborted delivery returns it (R121), a FLUSHED wait ends without a record and retires its slot (R124). -/
def State.releaseSlice (s : State) (e : Engine) : State :=
  match e.assigned with
  | none => s
  | some (i, n) =>
    match e.kind with
    | .delivered => s.returnSlice i n
    | .flushed => (s.retire i).flushingEnd

/-- Engine `p` at entry into FLUSHING (R123). -/
def State.flushEngine (s : State) (p : PortId) : State :=
  match (s.engine p).state with
  | .idle => s
  | .moving => ((s.giveBack p).setEngine p { s.engine p with kind := .flushed }).proceedToCredit p
  | .waitBuffer | .waitCredit => (s.setEngine p { s.engine p with kind := .flushed }).proceedToCredit p

end Sys2Proof.Machine
end

