-- ==== Sys2Proof/Machine/Ports.lean ====
section
/-! DEFINITION. The builder ports: faults (R159), link loss (R161), attaching (R155), detaching (R157), ANNOUNCE (R131,
R132) and READ-DATA (R138, R147, R162). -/

namespace Sys2Proof.Machine

/-! ## Faults and link loss (R159, R161) -/

/-- The slice an engine holds, if any. -/
def Engine.slice (e : Engine) : Option Slice := e.assigned.map Prod.snd

/-- No staging word is written (R169). -/
def noStaging : Vector (Option Word) 8 := Vector.replicate 8 none

/-- A port record with its reservation, staging and moderation state cleared (R159 step 4). -/
def Port.sessionCleared (x : Port) : Port := { x.quieted with reservation := none, staging := noStaging }

/-- A port leaves ACTIVE or DRAINING by fault or link loss: its record becomes `x`, its engine ends whatever delivery
it holds and is IDLE, and the cache tears the port down (R121, R124, R146, R159 steps 1 to 3, R161). -/
def State.takeDown (s : State) (p : PortId) (x : Port) (linkLoss : Bool) : State :=
  let t := ((s.idleEngine p).setPort p x).releaseSlice (s.engine p)
  t.setCache (t.cache.teardown p linkLoss)

/-- Posts PORT_FAULT with the slice the engine held (R159 step 5, R161). -/
def State.postPortFault (s : State) (p : PortId) (cause : FaultCause) (held : Option Slice) : State :=
  s.post .portFault (.port p) held (fieldAt 0 cause.code)

/-- A walk if the port was ACTIVE (R159 step 6, R161). -/
def State.walkIf (s : State) (wasActive : Bool) : State := if wasActive then s.walk else s

/-- The port record of a port that enters FAULTED (R159 steps 1 and 4). -/
def Port.faultedBy (x : Port) (cause : FaultCause) : Port :=
  { x.sessionCleared with state := .faulted, cause := some cause }

/-- Port `p` enters FAULTED with a cause, from ACTIVE, DRAINING or DETACHED (R159). -/
def State.fault (s : State) (p : PortId) (cause : FaultCause) : State :=
  let x := s.port p
  let t :=
    if x.state.attached then s.takeDown p (x.faultedBy cause) false else s.setPort p (x.faultedBy cause)
  (t.postPortFault p cause (s.engine p).slice).walkIf (x.state == .active)

/-- The port record of a port whose link went down; its cause is LINK_LOST if it was ACTIVE or DRAINING (R160,
R161). -/
def Port.lost (x : Port) : Port :=
  { x.sessionCleared with
    state := .linkDown
    cursor := none
    cause := if x.state.attached then some .linkLost else x.cause }

/-- Every abandoned tag of port `p` ends (R147, R161). -/
def State.endTags (s : State) (p : PortId) : State := s.setCache (s.cache.endTags p)

/-- The link of port `p` goes down (R151, R161). -/
def State.loseLink (s : State) (p : PortId) : State :=
  let x := s.port p
  if x.state.attached then
    let t := (s.takeDown p x.lost true).endTags p
    (t.postPortFault p .linkLost (s.engine p).slice).walkIf (x.state == .active)
  else (s.setPort p x.lost).endTags p

/-! ## Attaching (R155) -/

/-- A ring of `size` bytes at a base is 64-byte aligned and inside the 48-bit address space (R155). -/
def baseSound (base : Address) (size : Nat) : Bool := base.toNat % 64 == 0 && base.toNat + size ≤ 2 ^ 48

/-- A ring size parameter lies in 4–16 (R155). -/
def sizeSound (k : Nat) : Bool := 4 ≤ k && k ≤ 16

/-- Two byte ranges share a byte (R155). -/
def overlap (a lengthA b lengthB : Nat) : Bool := a < b + lengthB && b < a + lengthA

/-- The first refusal found for the fields of an ATTACH (R155). -/
def RingParameters.refusal (x : RingParameters) : Option RefusalReason :=
  if !baseSound x.descriptorBase (16 * 2 ^ x.k) then some .descriptorBase
  else if !sizeSound x.k then some .descriptorSize
  else if !baseSound x.completionBase (64 * 2 ^ x.m) then some .completionBase
  else if !sizeSound x.m then some .completionSize
  else if overlap x.descriptorBase.toNat (16 * 2 ^ x.k) x.completionBase.toNat (64 * 2 ^ x.m) then some .overlap
  else none

/-- The ATTACH values of a ring record (R130). -/
def RingParameters.record (x : RingParameters) : Ring := { Ring.torn with parameters := some x }

/-- An ATTACH that passes every check (R155). -/
def State.attachPort (s : State) (p : PortId) (x : RingParameters) : State :=
  let t := (s.setRing p x.record).setPort p { (s.port p).quieted with state := .active }
  (t.send p (attachedMessage x.k x.m)).walk

/-- An ATTACH taken in DETACHED or FAULTED (R155). -/
def State.validateAttach (s : State) (p : PortId) (x : RingParameters) : State :=
  match x.refusal with
  | some reason => s.send p (refusedMessage reason)
  | none => s.attachPort p x

/-- An ATTACH on port `p` (R153, R155). -/
def State.takeAttach (s : State) (p : PortId) (x : RingParameters) : State :=
  match (s.port p).state with
  | .detached | .faulted => s.validateAttach p x
  | .active | .draining => s.send p (refusedMessage .state)
  | .linkDown => s

/-! ## Detaching (R157) -/

/-- A DETACH on port `p` (R153, R157). -/
def State.takeDetach (s : State) (p : PortId) : State :=
  match (s.port p).state with
  | .active => ((s.setPort p { s.port p with state := .draining }).walk).drainingEnd p
  | .detached => s.send p detachedMessage
  | .draining | .faulted | .linkDown => s

/-! ## ANNOUNCE (R131, R132) -/

/-- The three checks of an ANNOUNCE against a ring record (R131). -/
def Ring.admits (x : Ring) (k : Nat) (producer consumed : Count) : Bool :=
  !behind (producer - x.announced) &&
    !(2 ^ k < (producer - x.consumed).toNat && (producer - x.consumed).toNat < 2 ^ 31) &&
    (consumed - x.announcedConsumed).toNat ≤ (x.produced - x.announcedConsumed).toNat

/-- The engine of port `p` computes its credit again if it is in WAIT_CREDIT (R117, R132). -/
def State.wakeCredit (s : State) (p : PortId) : State :=
  if (s.engine p).state = .waitCredit then s.proceedToCredit p else s

/-- An ANNOUNCE on an ACTIVE or DRAINING port: installed, or a PROTOCOL fault (R131, R132). -/
def State.checkAnnounce (s : State) (p : PortId) (producer consumed : Count) : State :=
  match (s.ring p).parameters with
  | none => s
  | some ring =>
    if (s.ring p).admits ring.k producer consumed then
      (s.setRing p { s.ring p with announced := producer, announcedConsumed := consumed }).wakeCredit p
    else s.fault p .protocol

/-- An ANNOUNCE on port `p` (R153). -/
def State.takeAnnounce (s : State) (p : PortId) (producer consumed : Count) : State :=
  if (s.port p).state.attached then s.checkAnnounce p producer consumed else s

/-! ## READ-DATA (R138–R140, R147, R154, R162) -/

/-- The tag as the number of a fetch slot, if it is one (R196). -/
def tagSlot (tag : BitVec 8) : Option (Fin 4) := if h : tag.toNat < 4 then some ⟨tag.toNat, h⟩ else none

/-- What a READ-DATA's tag matches on port `p` (R138). -/
inductive TagMatch
  | outstanding (t : Fin 4) (f : Fetch)
  | abandoned (t : Fin 4)
  | unknown
  deriving DecidableEq, Repr

/-- Matches slot number `t` on port `p` (R138, R147). -/
def Cache.matchSlot (c : Cache) (p : PortId) (t : Fin 4) : TagMatch :=
  let other := if c.abandonedTag p t then .abandoned t else .unknown
  match c.slots[t] with
  | some f => if f.port = p then .outstanding t f else other
  | none => other

/-- Matches a tag on port `p` (R138, R147). -/
def Cache.matchTag (c : Cache) (p : PortId) (tag : BitVec 8) : TagMatch :=
  match tagSlot tag with
  | some t => c.matchSlot p t
  | none => .unknown

/-- Processes a matched READ-DATA with data (R139–R141, R143). -/
def State.takeReturn (s : State) (p : PortId) (t : Fin 4) (f : Fetch) (k : Nat) (data : List Word) : State :=
  let r := Cache.receive p k f.producer f.reserved f.first (parseDescriptors data) (s.cache.freeSlot t)
  let u := s.setCache r.1
  if r.2 then u.fault p .ringInvalid
  else if s.cache.entries.length < r.1.entries.length then u.wake p
  else u

/-- A READ-DATA with data that matches port `p`'s outstanding READ: its length is judged, then its descriptors are
processed (R139, R154). -/
def State.answerRead (s : State) (p : PortId) (t : Fin 4) (f : Fetch) (data : List Word) : State :=
  match (s.ring p).parameters with
  | none => s
  | some ring => if data.length = 2 * f.n then s.takeReturn p t f ring.k data else s.fault p .malformed

/-- A READ-DATA whose tag matches no READ of port `p`: UNKNOWN_TAG while the port is attached, discarded otherwise
(R138, R162). -/
def State.unknownTag (s : State) (p : PortId) : State :=
  if (s.port p).state.attached then s.fault p .unknownTag else s

/-- An abandoned tag ends with the first READ-DATA that carries it (R147). -/
def State.endTag (s : State) (p : PortId) (t : Fin 4) : State := s.setCache (s.cache.endTag p t)

/-- A READ-DATA with data on port `p` (R138, R162). -/
def State.takeReadData (s : State) (p : PortId) (tag : BitVec 8) (data : List Word) : State :=
  if (s.port p).state.linked then
    match s.cache.matchTag p tag with
    | .outstanding t f => s.answerRead p t f data
    | .abandoned t => s.endTag p t
    | .unknown => s.unknownTag p
  else s

/-- A READ-DATA with an error status on port `p` (R138, R162). -/
def State.takeReadError (s : State) (p : PortId) (tag : BitVec 8) : State :=
  if (s.port p).state.linked then
    match s.cache.matchTag p tag with
    | .outstanding _ _ => s.fault p .memoryError
    | .abandoned t => s.endTag p t
    | .unknown => s.unknownTag p
  else s

/-- The abandoned tag of port `p` that a message answers, if it is a READ-DATA that answers one (R138, R154). -/
def Cache.answersAbandoned (c : Cache) (p : PortId) (message : List Word) : Option (Fin 4) :=
  match readDataTag message with
  | some tag =>
    match c.matchTag p tag with
    | .abandoned t => some t
    | .outstanding _ _ | .unknown => none
  | none => none

/-- A message that its type code or length makes malformed, on port `p`: a READ-DATA with an abandoned tag is discarded
and ends the tag, any other faults the port or is discarded in FAULTED (R147, R154). A 0x21 of wrong length whose tag is
not abandoned fits a row of R138, and in DETACHED the discard of R162, as well as MALFORMED (R154): the model takes
MALFORMED (log 38). -/
def State.takeMalformed (s : State) (p : PortId) (message : List Word) : State :=
  match (s.port p).state with
  | .linkDown => s
  | .detached | .active | .draining =>
    match s.cache.answersAbandoned p message with
    | some t => s.endTag p t
    | none => s.fault p .malformed
  | .faulted =>
    match s.cache.answersAbandoned p message with
    | some t => s.endTag p t
    | none => s

end Sys2Proof.Machine
end

