-- ==== Sys2Proof/Machine/Items.lean ====
section
/-! DEFINITION. The item store: the contents of every item (R197), reading (R167, R168), staging (R169) and the checks of
a commit (R170–R172). -/

namespace Sys2Proof.Machine

/-! ## Codes of the status items (R197) -/

/-- The run state codes. -/
def RunState.code : RunState → Nat
  | .stopped => 0
  | .running => 1
  | .draining => 2
  | .flushing => 3

/-- The link state codes. -/
def LinkState.code : LinkState → Nat
  | .down => 0
  | .aligning => 1
  | .probation => 2
  | .up => 3
  | .barred => 4

/-- The barred reason codes. -/
def BarredReason.code : BarredReason → Nat
  | .none => 0
  | .lost => 1
  | .burst => 2

/-- The port state codes. -/
def PortState.code : PortState → Nat
  | .linkDown => 0
  | .detached => 1
  | .active => 2
  | .draining => 3
  | .faulted => 4

/-- The engine state codes. -/
def EngineState.code : EngineState → Nat
  | .idle => 0
  | .waitBuffer => 1
  | .moving => 2
  | .waitCredit => 3

/-- The slot state codes. -/
def SlotState.code : SlotState → Nat
  | .unopened => 0
  | .opened => 1
  | .ready => 2
  | .delivering => 3
  | .retired => 4

/-- The last fault cause, 0 for none. -/
def causeCode : Option FaultCause → Nat
  | some c => c.code
  | none => 0

/-! ## Contents (R197) -/

/-- Eight words from a list, 0 for each word not given. -/
def packWords (values : List Word) : Vector Word 8 := Vector.ofFn fun i => values.getD i.val 0

/-- RUN: run state, frontier, newest opened, newest strobe (R181). -/
def State.runWords (s : State) : Vector Word 8 :=
  pack [s.run.code, s.frontier.toNat, s.newestOpened.toNat, s.newestStrobe.toNat]

/-- LINKSTAT of receiver `r` (R56). With no current fragment the slice number field of word 3 shows 0, which no rule
states (log 36). -/
def State.linkstatWords (s : State) (r : ReceiverId) : Vector Word 8 :=
  let x := s.rx r
  packWords
    [fieldAt 0 x.link.code, fieldAt 0 x.barred.code,
      flagAt 0 (s.holdPressure r) ||| flagAt 1 x.early ||| flagAt 2 x.holdLow ||| flagAt 3 x.noPages,
      fieldAt 0 ((x.current.getD 0).toNat) ||| flagAt 32 x.current.isSome, fieldAt 0 x.errors.length]

/-- A number of a status word, 255 for none. -/
def orNone (x : Option Nat) : Nat := x.getD 255

/-- PORTSTAT of port `p` (R149, R165). -/
def State.portstatWords (s : State) (p : PortId) : Vector Word 8 :=
  let ring := s.ring p
  packWords
    [fieldAt 0 (s.port p).state.code ||| fieldAt 8 (causeCode (s.port p).cause) |||
        fieldAt 16 (s.engine p).state.code,
      fieldAt 0 ring.announced.toNat ||| fieldAt 32 ring.fetched.toNat,
      fieldAt 0 ring.consumed.toNat ||| fieldAt 32 ring.announcedConsumed.toNat,
      fieldAt 0 ring.produced.toNat,
      fieldAt 0 (s.cache.cachedCount p) ||| fieldAt 8 (s.cache.reservedCount p) |||
        fieldAt 16 (orNone ((s.cache.outstanding p).map Fin.val)) ||| fieldAt 24 (orNone s.cache.holds[p]) |||
        fieldAt 32 (s.cache.abandoned[p]).toNat]

/-- STORE: free, allocated and retired page counts, pressure level (R59). -/
def State.storeWords (s : State) : Vector Word 8 :=
  pack [s.pool.free.length, s.pool.occupancy, s.pool.retired.length, s.pressure.level.val]

/-- RETIRED `n`: entries 8n + 1 to 8n + 8 of the retired page table (R62). -/
def State.retiredWords (s : State) (n : Fin 4) : Vector Word 8 := pack (s.pool.retired.drop (8 * n.val))

/-- The set of sources whose chains are final (R3). -/
def Context.finalSet (c : Context) : SourceSet :=
  allSources.foldl (fun m q => if (c.chain q).state.final then m ||| single q else m) 0

/-- SLICESTAT of slot `i` (R3). -/
def State.slicestatWords (s : State) (i : SlotId) : Vector Word 8 :=
  let c := s.ctx i
  packWords
    [fieldAt 0 c.slice.toNat ||| fieldAt 32 c.state.code, fieldAt 0 c.expected.toNat, fieldAt 0 c.dropped.toNat,
      fieldAt 0 c.finalSet.toNat, fieldAt 0 c.deadline]

/-- The installed record of a settable item; none for RUN and the read-only items (R166). -/
def Items.get (x : Items) : ItemName → Option Item
  | .slot => some x.slot
  | .assembly => some x.assembly
  | .linktime => some x.linktime
  | .linkmap r => some x.linkmap[r]
  | .pressure => some x.pressure
  | .steer i => some x.steer[i]
  | .dispatch => some x.dispatch
  | .cache => some x.cache
  | .portcfg p => some x.portcfg[p]
  | .outputs => some x.outputs
  | .run | .linkstat _ | .portstat _ | .store | .retired _ | .slicestat _ => none

/-- Replaces the installed record of a settable item. -/
def Items.put (x : Items) (n : ItemName) (v : Item) : Items :=
  match n with
  | .slot => { x with slot := v }
  | .assembly => { x with assembly := v }
  | .linktime => { x with linktime := v }
  | .linkmap r => { x with linkmap := x.linkmap.set r v }
  | .pressure => { x with pressure := v }
  | .steer i => { x with steer := x.steer.set i v }
  | .dispatch => { x with dispatch := v }
  | .cache => { x with cache := v }
  | .portcfg p => { x with portcfg := x.portcfg.set p v }
  | .outputs => { x with outputs := v }
  | .run | .linkstat _ | .portstat _ | .store | .retired _ | .slicestat _ => x

/-- The words of an installed record; all 0 where there is none. -/
def wordsOf (x : Option Item) : Vector Word 8 :=
  match x with
  | some item => item.words
  | none => Vector.replicate 8 0

/-- The contents of an item as they stand (R167, R197). -/
def State.contents (s : State) (n : ItemName) : Vector Word 8 :=
  match n with
  | .run => s.runWords
  | .linkstat r => s.linkstatWords r
  | .portstat p => s.portstatWords p
  | .store => s.storeWords
  | .retired k => s.retiredWords k
  | .slicestat i => s.slicestatWords i
  | .slot | .assembly | .linktime | .linkmap _ | .pressure | .steer _ | .dispatch | .cache | .portcfg _ | .outputs =>
    wordsOf (s.items.get n)

/-- The generation of an item; that of a read-only item is 0 (R166). -/
def State.generation (s : State) (n : ItemName) : BitVec 16 :=
  match n with
  | .run => s.items.runGeneration
  | .linkstat _ | .portstat _ | .store | .retired _ | .slicestat _ => 0
  | .slot | .assembly | .linktime | .linkmap _ | .pressure | .steer _ | .dispatch | .cache | .portcfg _ | .outputs =>
    match s.items.get n with
    | some item => item.generation
    | none => 0

/-! ## Reading (R167, R168) -/

/-- Carries out the ITEM-READ of an item on port `p` (R167). -/
def State.readItem (s : State) (p : PortId) (n : ItemName) : State :=
  let g := s.generation n
  (s.setPort p { s.port p with reservation := some (n, g), staging := noStaging, cursor := some n }).send p
    (readReply n g (s.contents n))

/-- An ITEM-READ on port `p` (R167). -/
def State.takeItemRead (s : State) (p : PortId) (n : Option ItemName) : State :=
  match n with
  | some item => s.readItem p item
  | none => s.send p (plainReply .unknownItem)

/-- An ITEM-READ-NEXT on port `p` (R168). -/
def State.takeReadNext (s : State) (p : PortId) : State :=
  match (s.port p).cursor with
  | some item => s.readItem p item.next
  | none => s.send p (plainReply .noCursor)

/-! ## Staging (R169) -/

/-- Writes a staging word of port `p`. -/
def State.stage (s : State) (p : PortId) (i : Fin 8) (x : Word) : State :=
  s.setPort p { s.port p with staging := (s.port p).staging.set i (some x) }

/-- An ITEM-STAGE on port `p` (R169). -/
def State.takeStage (s : State) (p : PortId) (index : BitVec 8) (x : Word) : State :=
  if h : index.toNat < 8 then (s.stage p ⟨index.toNat, h⟩ x).send p (plainReply .ok)
  else s.send p (plainReply .badIndex)

/-! ## The checks of a commit (R170–R172) -/

/-- The words judged: the staged ones, and the installed contents for the others (R170). -/
def State.judged (s : State) (p : PortId) (n : ItemName) : Vector Word 8 :=
  Vector.ofFn fun i => ((s.port p).staging[i]).getD (s.contents n)[i]

/-- The commands of RUN (R197). -/
inductive RunCommand
  | start
  | stop
  | flush
  deriving DecidableEq, Repr

/-- The command a word 0 of RUN spells (R197). -/
def runCommand (w : Word) : Option RunCommand :=
  match w.toNat with
  | 5 => some .start
  | 6 => some .stop
  | 7 => some .flush
  | _ => none

/-- The run state permits a command (R176). -/
def RunState.permits (x : RunState) (c : RunCommand) : Bool :=
  match x, c with
  | .stopped, .start | .stopped, .flush | .running, .stop | .running, .flush | .draining, .flush => true
  | .stopped, .stop | .running, .start | .draining, .start | .draining, .stop | .flushing, _ => false

/-- The run state permits the commit of an item (R171). -/
def State.permits (s : State) (n : ItemName) (words : Vector Word 8) : Bool :=
  match n with
  | .slot | .cache => s.run == .stopped
  | .linkmap _ => s.run == .stopped || words[0] == (s.contents n)[0]
  | .run =>
    match runCommand words[0] with
    | some c => s.run.permits c
    | none => true
  | .assembly | .linktime | .pressure | .steer _ | .dispatch | .portcfg _ | .outputs => true
  | .linkstat _ | .portstat _ | .store | .retired _ | .slicestat _ => false

/-- A number lies in a range. -/
def inRange (lo x hi : Nat) : Bool := lo ≤ x && x ≤ hi

/-- The checks of the words of PRESSURE, in catalogue order (R80, R172). -/
def pressureChecks (w : Fin 8 → Nat) : List Bool :=
  [inRange 1 (w 0) 16383, inRange 1 (w 1) 16383 && w 0 < w 1, inRange 1 (w 2) 16383 && w 1 < w 2,
    1 ≤ w 3 && w 3 < w 0, w 4 ≤ 14, w 5 ≤ 14 && w 4 ≤ w 5, w 6 ≤ 14 && w 5 ≤ w 6, inRange 1 (w 7) 3]

/-- The checks of the words of a STEER item: its length, then each port of the list (R91, R172, R197). -/
def steerChecks (w : Fin 8 → Nat) : List Bool :=
  inRange 1 (w 0) 4 ::
    ([w 1 ≤ 3, w 2 ≤ 3 && w 2 != w 1, w 3 ≤ 3 && w 3 != w 1 && w 3 != w 2,
      w 4 ≤ 3 && w 4 != w 1 && w 4 != w 2 && w 4 != w 3] : List Bool).take (w 0)

/-- The checks of the words of a CACHE item (R134, R172). -/
def cacheChecks (w : Fin 8 → Nat) : List Bool :=
  [inRange 1 (w 0) 4, inRange 1 (w 1) 32, inRange 1 (w 2) 16, inRange 1 (w 3) 16 && w 2 ≤ w 3]

/-- The checks of the words of OUTPUTS (R172, R197). -/
def outputsChecks (w : Fin 8 → Nat) : List Bool :=
  [w 0 ≤ 6, w 1 ≤ 1, w 2 ≤ 6, w 3 ≤ 1, w 4 ≤ 6, w 5 ≤ 1, w 6 ≤ 6, w 7 ≤ 1]

/-- No receiver but `r` is mapped to the source with number `q` (R172). -/
def Items.sourceFree (x : Items) (r : ReceiverId) (q : Nat) : Bool :=
  allReceivers.all fun y => y == r || (x.linkmap[y]).value 0 != q

/-- The checks of the words of LINKMAP `r` (R172, R197). -/
def Items.linkmapChecks (x : Items) (r : ReceiverId) (w : Fin 8 → Nat) : List Bool :=
  [w 0 == 255 || (w 0 < 24 && x.sourceFree r (w 0)), w 1 ≤ 1, w 2 ≤ 1, w 3 ≤ 1]

/-- The checks of the words of a settable item in catalogue order, one for each word checked (R172). -/
def Items.checks (x : Items) (n : ItemName) (words : Vector Word 8) : List Bool :=
  let w := fun i : Fin 8 => words[i].toNat
  match n with
  | .slot => [w 0 ≤ 4]
  | .assembly => [inRange 8 (w 0) 65535, inRange 1 (w 1) 4096]
  | .linktime => [inRange 1 (w 0) 4095, inRange 1 (w 1) 65535]
  | .linkmap r => x.linkmapChecks r w
  | .pressure => pressureChecks w
  | .steer _ => steerChecks w
  | .dispatch => [w 0 ≤ 65535]
  | .cache => cacheChecks w
  | .portcfg _ => [w 0 ≤ 65535]
  | .outputs => outputsChecks w
  | .run | .linkstat _ | .portstat _ | .store | .retired _ | .slicestat _ => []

/-- The check of the command word of RUN: it was staged in this attempt and spells a command (R172). -/
def State.runCheck (s : State) (p : PortId) (words : Vector Word 8) : Bool :=
  ((s.port p).staging[0]).isSome && (runCommand words[0]).isSome

/-- The checks of a commit's words on port `p` (R172). -/
def State.checks (s : State) (p : PortId) (n : ItemName) (words : Vector Word 8) : List Bool :=
  if n = .run then [s.runCheck p words] else s.items.checks n words

/-- Why a commit of a catalogue item is refused (R170). -/
inductive CommitRefusal
  | readOnly
  | conflict
  | state
  | rejected (index : Nat)
  deriving DecidableEq, Repr

/-- The first check of a commit that fails, steps 2 to 5 (R170). -/
def State.commitRefusal (s : State) (p : PortId) (n : ItemName) : Option CommitRefusal :=
  if n.kind = .readOnly then some .readOnly
  else if (s.port p).reservation ≠ some (n, s.generation n) then some .conflict
  else if s.permits n (s.judged p n) = false then some .state
  else
    match (s.checks p n (s.judged p n)).findIdx? fun b => !b with
    | some index => some (.rejected index)
    | none => none

/-- The reply to a refused commit (R170). -/
def State.refusalReply (s : State) (n : ItemName) (x : CommitRefusal) : List Word :=
  match x with
  | .readOnly => itemReply .readOnly 0 n (s.generation n)
  | .conflict => itemReply .conflict 0 n (s.generation n)
  | .state => itemReply .state 0 n (s.generation n)
  | .rejected index => itemReply .rejected index n (s.generation n)

/-- Ends the attempt of port `p`: no reservation, no staging word written (R170). -/
def State.endAttempt (s : State) (p : PortId) : State :=
  s.setPort p { s.port p with reservation := none, staging := noStaging }

/-! ## Installation (R172, R173) -/

/-- The number of words a settable item uses, given its judged words (R197). -/
def ItemName.usedWords (n : ItemName) (words : Vector Word 8) : Nat :=
  match n with
  | .slot | .dispatch | .portcfg _ => 1
  | .assembly | .linktime => 2
  | .linkmap _ | .cache => 4
  | .pressure | .outputs => 8
  | .steer _ => 1 + words[0].toNat
  | .run | .linkstat _ | .portstat _ | .store | .retired _ | .slicestat _ => 0

/-- The words installed: a word the item does not use is installed as 0 (R172). -/
def ItemName.installed (n : ItemName) (words : Vector Word 8) : Vector Word 8 :=
  Vector.ofFn fun i => if i.val < n.usedWords words then words[i] else 0

/-- Installs the judged words of a settable item; its generation grows by one (R166, R173). -/
def State.install (s : State) (n : ItemName) (words : Vector Word 8) : State :=
  s.setItems (s.items.put n { generation := s.generation n + 1, words := n.installed words })

/-- What the installation of an item causes at once (R173): an evaluation of the level (R80), a walk (R91), the
test of the dispatch waits (R93), the trim of the cache (R134). -/
def State.installEffect (s : State) (n : ItemName) : State :=
  match n with
  | .pressure => s.evaluate
  | .steer _ => s.walk
  | .dispatch => s.elapseWaits
  | .cache => s.trimCache
  | .slot | .assembly | .linktime | .linkmap _ | .portcfg _ | .outputs => s
  | .run | .linkstat _ | .portstat _ | .store | .retired _ | .slicestat _ => s

end Sys2Proof.Machine
end

