-- ==== Sys2Proof/Machine/RunControl.lean ====
section
/-! DEFINITION. Run control (R176–R180) with entry into FLUSHING (R32, R103, R123), and the commit of an item
(R170, R173). -/

namespace Sys2Proof.Machine

/-! ## START and STOP (R177, R178) -/

/-- START with start slice `n`; a stalled segment, if there were one, is presented again (R11, R30, R177). -/
def State.startRun (s : State) (n : Slice) : State :=
  ((((s.setRun .running).setFrontier n).setNewestOpened (n - 1)).setNewestStrobe (n - 1)).presentStalled

/-- STOP (R11, R178): DRAINING, and STOPPED at once if no slice is opened. -/
def State.stopRun (s : State) : State := (s.changeRun .draining).drainReport

/-! ## FLUSH (R179) -/

/-- Rolls back the record of receiver `r`, discards the rest of its segment and clears its current fragment (R32
step 1). -/
def State.flushReceiver (s : State) (r : ReceiverId) : State := (s.abandonRecord r).setCurrent r none

/-- Closes out slot `i` if it is OPEN or READY: its pages are freed and it is RETIRED (R32 step 2). -/
def State.flushSlot (s : State) (i : SlotId) : State :=
  if (s.ctx i).state = .opened ∨ (s.ctx i).state = .ready then (s.freeSlice i).setSlotState i .retired else s

/-- The slice table's entry into FLUSHING (R32). -/
def State.flushSlices (s : State) : State :=
  let t := s.each allReceivers fun r u => u.flushReceiver r
  ((t.each t.slotsInOrder fun i u => u.flushSlot i).frontierAdvance).presentStalled

/-- Entry into FLUSHING: the ready list is emptied, the slices are closed out, each engine turns to a FLUSHED record,
and the run is STOPPED at once if every engine is IDLE (R32, R103, R123, R179; log 21). -/
def State.enterFlushing (s : State) : State :=
  ((((s.setRun .flushing).setReady []).flushSlices).each allPorts fun p t => t.flushEngine p).flushingEnd

/-- FLUSH; in STOPPED it has no other effect (R176, R179). -/
def State.flushRun (s : State) : State := if s.run = .stopped then s else s.enterFlushing

/-- Carries out a command with the start slice judged (R176). -/
def State.carryOut (s : State) (c : RunCommand) (n : Slice) : State :=
  match c with
  | .start => s.startRun n
  | .stop => s.stopRun
  | .flush => s.flushRun

/-! ## Commits (R170, R173, R176) -/

/-- Installs a RUN command: the generation grows by one, the reply OK is sent, and the command is carried out (R176;
log 22). -/
def State.installRun (s : State) (p : PortId) (words : Vector Word 8) : State :=
  let t := s.setItems { s.items with runGeneration := s.items.runGeneration + 1 }
  let u := t.send p (itemReply .ok 0 .run t.items.runGeneration)
  match runCommand words[0] with
  | some c => u.carryOut c (words[1].setWidth 32)
  | none => u

/-- Installs the judged words of a settable item, sends the reply OK and causes what follows (R173; log 22). -/
def State.installItem (s : State) (p : PortId) (n : ItemName) (words : Vector Word 8) : State :=
  let t := s.install n words
  (t.send p (itemReply .ok 0 n (t.generation n))).installEffect n

/-- An ITEM-COMMIT of a catalogue item on port `p` (R170, R173). -/
def State.commitItem (s : State) (p : PortId) (n : ItemName) : State :=
  let ended := s.endAttempt p
  match s.commitRefusal p n with
  | some x => ended.send p (s.refusalReply n x)
  | none => if n = .run then ended.installRun p (s.judged p n) else ended.installItem p n (s.judged p n)

/-- An ITEM-COMMIT of the item named by a message, if it is in the catalogue (R170). -/
def State.takeCommit (s : State) (p : PortId) (n : Option ItemName) : State :=
  match n with
  | some item => s.commitItem p item
  | none => (s.endAttempt p).send p (plainReply .unknownItem)

end Sys2Proof.Machine
end

