-- ==== Sys2Proof/Machine/ItemCommands.lean ====
section
/-! DEFINITION. The meanings of the item requests and of INCIDENT_TAKE (R163, R167–R173, R176–R179, R186). -/

namespace Sys2Proof.Machine

/-- ITEM_READ (R167). -/
def execItemRead (p : PortId) (table number : BitVec 8) (s : State) : Host.Outcome State Fault Refusal :=
  if (s.port p).state.linked then .next (s.takeItemRead p (ItemName.ofCodes table number)) else .next s

/-- ITEM_READ_NEXT (R168). -/
def execItemReadNext (p : PortId) (s : State) : Host.Outcome State Fault Refusal :=
  if (s.port p).state.linked then .next (s.takeReadNext p) else .next s

/-- ITEM_STAGE (R169). -/
def execItemStage (p : PortId) (index : BitVec 8) (value : Word) (s : State) : Host.Outcome State Fault Refusal :=
  if (s.port p).state.linked then .next (s.takeStage p index value) else .next s

/-- An ITEM-COMMIT is taken in every port state with a link (R163, R170). -/
def State.commitOn (s : State) (p : PortId) (n : Option ItemName) : State :=
  if (s.port p).state.linked then (s.takeCommit p n).settleCache else s

/-- ITEM_COMMIT (R170, R173). -/
def execItemCommit (p : PortId) (table number : BitVec 8) (s : State) : Host.Outcome State Fault Refusal :=
  .next (s.commitOn p (ItemName.ofCodes table number))

/-- The command word staged on port `p` spells a command (R172, R197). -/
def State.staged (s : State) (p : PortId) (c : RunCommand) : Bool := ((s.port p).staging[0]).bind runCommand == some c

/-- An ITEM-COMMIT of RUN with command `c` staged; where another command or none is staged this is some other row's
event, and nothing happens (log 2). -/
def State.commitRun (s : State) (p : PortId) (c : RunCommand) : State :=
  if s.staged p c then s.commitOn p (some .run) else s

/-- START: a RUN commit with command START staged (R176, R177). -/
def execStart (p : PortId) (s : State) : Host.Outcome State Fault Refusal := .next (s.commitRun p .start)

/-- STOP: a RUN commit with command STOP staged (R176, R178). -/
def execStop (p : PortId) (s : State) : Host.Outcome State Fault Refusal := .next (s.commitRun p .stop)

/-- FLUSH: a RUN commit with command FLUSH staged (R176, R179). -/
def execFlush (p : PortId) (s : State) : Host.Outcome State Fault Refusal := .next (s.commitRun p .flush)

/-- PRESSURE_COMMIT (R80). -/
def execPressureCommit (p : PortId) (s : State) : Host.Outcome State Fault Refusal :=
  .next (s.commitOn p (some .pressure))

/-- STEER_COMMIT of entry `i` (R91). -/
def execSteerCommit (p : PortId) (i : SlotId) (s : State) : Host.Outcome State Fault Refusal :=
  .next (s.commitOn p (some (.steer i)))

/-- DISPATCH_COMMIT (R93). -/
def execDispatchCommit (p : PortId) (s : State) : Host.Outcome State Fault Refusal :=
  .next (s.commitOn p (some .dispatch))

/-- CACHE_COMMIT (R134). -/
def execCacheCommit (p : PortId) (s : State) : Host.Outcome State Fault Refusal := .next (s.commitOn p (some .cache))

/-- LINKMAP_COMMIT of receiver `r` (R55). -/
def execLinkmapCommit (p : PortId) (r : ReceiverId) (s : State) : Host.Outcome State Fault Refusal :=
  .next (s.commitOn p (some (.linkmap r)))

/-- SLOT_COMMIT (R183). -/
def execSlotCommit (p : PortId) (s : State) : Host.Outcome State Fault Refusal := .next (s.commitOn p (some .slot))

/-- OUTPUTS_COMMIT (R191). -/
def execOutputsCommit (p : PortId) (s : State) : Host.Outcome State Fault Refusal :=
  .next (s.commitOn p (some .outputs))

/-- INCIDENT_TAKE (R186). -/
def execIncidentTake (p : PortId) (s : State) : Host.Outcome State Fault Refusal :=
  if (s.port p).state.linked then
    match s.incidents with
    | [] => .next (s.send p emptyReply)
    | i :: rest => .next ((s.setIncidents rest).send p (incidentReply i rest.length))
  else .next s

end Sys2Proof.Machine
end

