-- ==== Sys2Proof/Machine/Crc.lean ====
section
/-! DEFINITION. The CRC-32 of a segment (R193). -/

namespace Sys2Proof.Machine

/-- The check register starts with all 32 bits set (R193). -/
def crcStart : BitVec 32 := 0xFFFFFFFF

/-- One bit of the division by the generator polynomial, in bit-reversed form (R193). -/
def crcBit (register : BitVec 32) (bit : Bool) : BitVec 32 :=
  if register.getLsbD 0 != bit then (register >>> 1) ^^^ 0xEDB88320 else register >>> 1

/-- Takes the low `n` bits of a word, the least significant first. -/
def crcBits (register : BitVec 32) (w : Word) : Nat → BitVec 32
  | 0 => register
  | n + 1 => crcBits (crcBit register (w.getLsbD 0)) (w >>> 1) n

/-- Takes one word: its bytes least significant first, each byte least significant bit first (R193), which
is the word's 64 bits from bit 0 up. -/
def crcWord (register : BitVec 32) (w : Word) : BitVec 32 := crcBits register w 64

/-- The CRC-32 of a run of words: the register's final value complemented (R193). -/
def crc32 (words : List Word) : BitVec 32 := ~~~(words.foldl crcWord crcStart)

end Sys2Proof.Machine
end

