-- ==== Sys2Proof/Machine/Receivers.lean ====
section
/-! DEFINITION. The pad-link receivers: link states and timers (R35–R41), and the segment framer with admission,
verdicts and overrun (R42–R48). -/

namespace Sys2Proof.Machine

/-! ## Link states -/

/-- Sets the link state of receiver `r` with its timer stopped (R35). -/
def State.setLink (s : State) (r : ReceiverId) (x : LinkState) : State :=
  s.setRx r { s.rx r with link := x, timer := none }

/-- Receiver `r` is UP, mapped and enrolled (R42, R45, R48). -/
def State.inService (s : State) (r : ReceiverId) : Bool :=
  (s.rx r).link == .up && (s.mapping r).isSome && s.enrolled r

/-- Leaves PROBATION for link state `x`: the timer stops and the framer sees no segment (R35, R36; log 13). -/
def State.leaveProbation (s : State) (r : ReceiverId) (x : LinkState) : State :=
  s.setRx r { s.rx r with link := x, timer := none, framer := .idle }

/-- Enters PROBATION and starts the timer for the probation time (R35). -/
def State.enterProbation (s : State) (r : ReceiverId) : State :=
  s.setRx r { s.rx r with link := .probation, timer := s.timerFor s.probationTime, framer := .idle }

/-- Enters UP (R35, R37). -/
def State.enterUp (s : State) (r : ReceiverId) : State :=
  let t := s.setRx r { s.rx r with link := .up, timer := none, errors := [] }
  if t.upMask r then t else t.post .linkUp (.link r) none 0

/-- Why a receiver leaves UP (R35, R38). -/
inductive UpLoss
  | signal
  | alignment
  | burst
  deriving DecidableEq, Repr

/-- The barred reason (R35). -/
def UpLoss.reason : UpLoss → BarredReason
  | .signal | .alignment => .lost
  | .burst => .burst

/-- The span in slots between the oldest and the newest stamp of an error-time list (R38, R40). -/
def span (errors : List Stamp) : Nat :=
  match errors.head?, errors.getLast? with
  | some oldest, some newest => (newest - oldest).toNat
  | _, _ => 0

/-- The receiver as it leaves UP: barred, its buffer, framer and hold reasons cleared, the bar timer started
(R38 steps 1, 2 and 5). -/
def Receiver.barredWith (x : Receiver) (reason : BarredReason) (timer : Option Stamp) : Receiver :=
  { x with
    link := .barred, timer, barred := reason, framer := .idle, buffer := [], early := false, noPages := false }

/-- Posts the incident of a receiver that has left UP (R38 step 4, R41). -/
def State.postUpLoss (s : State) (r : ReceiverId) (why : UpLoss) : State :=
  match why with
  | .signal => if s.lostMask r then s else s.post .linkLost (.link r) none 1
  | .alignment => if s.lostMask r then s else s.post .linkLost (.link r) none 2
  | .burst => s.post .errorBurst (.link r) none (BitVec.ofNat 64 (span (s.rx r).errors))

/-- Leaves UP for BARRED (R38). -/
def State.leaveUp (s : State) (r : ReceiverId) (why : UpLoss) : State :=
  let t := s.setRx r ((s.rx r).barredWith why.reason (s.timerFor s.barTime))
  let u := match t.mapping r with
    | some q => t.linkLoss r q
    | none => t
  u.postUpLoss r why

/-- The probation timer of receiver `r` runs out (R35, R37). -/
def State.expireProbation (s : State) (r : ReceiverId) : State :=
  if (s.rx r).link = .probation ∧ s.timerDue (s.rx r).timer = true then s.enterUp r else s

/-- The bar timer of receiver `r` runs out (R35, R39). -/
def State.expireBar (s : State) (r : ReceiverId) : State :=
  if (s.rx r).link = .barred ∧ s.timerDue (s.rx r).timer = true then
    s.setLink r (if (s.rx r).signal then .aligning else .down)
  else s

/-! ## Framing errors (R42, R43) -/

/-- The causes of a FRAMING incident found by the framer (R42, R43). -/
inductive FramingCause
  | earlyEnd
  | lateEnd
  | broken
  | stray
  | length
  | emptyMisuse
  deriving DecidableEq, Repr

/-- The cause codes (R196). -/
def FramingCause.code : FramingCause → Nat
  | .earlyEnd => 1
  | .lateEnd => 2
  | .broken => 3
  | .stray => 4
  | .length => 5
  | .emptyMisuse => 6

/-- Replaces the framer of receiver `r`. -/
def State.setFramer (s : State) (r : ReceiverId) (x : Framer) : State := s.setRx r { s.rx r with framer := x }

/-- Posts a FRAMING incident with the header as far as it was read (R42, R43, R45, R184). -/
def State.postFraming (s : State) (r : ReceiverId) (cause : FramingCause) (header : Option SegmentHeader) : State :=
  if s.inService r then
    s.post .framing (.link r) (header.map SegmentHeader.slice)
      (framingDetail cause.code (header.map SegmentHeader.kind))
  else s

/-- Takes a verdict into the elastic buffer with the newest segment (R45). -/
def State.holdVerdict (s : State) (r : ReceiverId) (v : Verdict) : State :=
  match (s.rx r).newest with
  | none => s
  | some g => s.setRx r ((s.rx r).setNewest { g with verdict := some v })

/-- A FRAMING verdict for open segment `o` with its cause, in UP (R42, R45). -/
def State.framingVerdict (s : State) (r : ReceiverId) (o : OpenSegment) (cause : FramingCause) : State :=
  match o.fate with
  | .pending => s.postFraming r cause none
  | .stored => ((s.postFraming r cause o.header).holdVerdict r .framing).settleVerdict r
  | .discarded => s.postFraming r cause o.header
  | .watched | .passedOver | .misrouted => s

/-- A framing error that ends open segment `o` and leaves the framer at `after`: in PROBATION it ends probation,
in UP the verdict is taken (R36, R42). -/
def State.framingError (s : State) (r : ReceiverId) (o : OpenSegment) (cause : FramingCause) (after : Framer) :
    State :=
  match (s.rx r).link with
  | .probation => s.leaveProbation r .aligning
  | .up => (s.setFramer r after).framingVerdict r o cause
  | .down | .aligning | .barred => s

/-- A word or an END with no segment open and no stray run begun (R42). -/
def State.strayRun (s : State) (r : ReceiverId) : State :=
  match (s.rx r).link with
  | .probation => s.leaveProbation r .aligning
  | .up => (s.setFramer r .stray).postFraming r .stray none
  | .down | .aligning | .barred => s

/-- A segment refused at its header (R43). -/
def State.refuseHeader (s : State) (r : ReceiverId) (o : OpenSegment) (h : SegmentHeader) (cause : FramingCause) :
    State :=
  match (s.rx r).link with
  | .probation => s.leaveProbation r .aligning
  | .up =>
    let t := s.setFramer r .dropping
    if o.fate = .watched then t else t.postFraming r cause (some h)
  | .down | .aligning | .barred => s

/-! ## Opening a segment -/

/-- A newly opened segment. -/
def OpenSegment.fresh (fate : Fate) : OpenSegment :=
  { fate, received := 0, header0 := 0, header := none, crc := crcStart, crcWord := 0 }

/-- A START opens a segment: watched in PROBATION, to be judged in UP (R36, R42). -/
def State.openSegment (s : State) (r : ReceiverId) : State :=
  match (s.rx r).link with
  | .probation => s.setFramer r (.segment (OpenSegment.fresh .watched))
  | .up => s.setFramer r (.segment (OpenSegment.fresh .pending))
  | .down | .aligning | .barred => s

/-- The END of open segment `o` is due: its payload and CRC words have arrived (R42). -/
def OpenSegment.endDue (o : OpenSegment) : Bool :=
  match o.header with
  | some h => o.received == 3 + h.length
  | none => false

/-! ## Headers and admission (R43, R44) -/

/-- The header check (R43). -/
def SegmentHeader.failure (h : SegmentHeader) : Option FramingCause :=
  if Config.maxPayload < h.length then some .length
  else if h.empty ∧ (h.kind ≠ .only ∨ h.length ≠ 0) then some .emptyMisuse
  else none

/-- The free words of an elastic buffer (R46). -/
def Receiver.room (x : Receiver) : Nat := Config.bufferWords - x.held

/-- An admitted segment as it enters the elastic buffer. -/
def SegmentHeader.buffered (h : SegmentHeader) : BufferedSegment :=
  { header := h, place := .waiting, payload := [], verdict := none }

/-- Posts RX_OVERRUN, with the slice number if the header was read (R48). -/
def State.postOverrun (s : State) (r : ReceiverId) (header : Option SegmentHeader) : State :=
  if s.inService r then s.post .rxOverrun (.link r) (header.map SegmentHeader.slice) 0 else s

/-- A segment that a header word does not fit suffers an overrun: it is not held at all, it has no verdict, and its words
still to arrive are dropped (R48). -/
def State.loseHeader (s : State) (r : ReceiverId) (header : Option SegmentHeader) : State :=
  (s.setFramer r .dropping).postOverrun r header

/-- Admits a segment at its second header word: its two header words enter the buffer, or with fewer than two words free
the second is lost, its header read (R44, R46, R48; log 10). -/
def State.takeIn (s : State) (r : ReceiverId) (o : OpenSegment) (h : SegmentHeader) : State :=
  if 2 ≤ (s.rx r).room then
    s.setRx r
      { s.rx r with buffer := (s.rx r).buffer ++ [h.buffered], framer := .segment { o with fate := .stored } }
  else s.loseHeader r (some h)

/-- Disposes of a segment whose header passed its checks on a receiver in UP, by the LINKMAP entry (R44). -/
def State.dispose (s : State) (r : ReceiverId) (o : OpenSegment) (h : SegmentHeader) : State :=
  match s.mapping r with
  | none => s.setFramer r (.segment { o with fate := .passedOver })
  | some q =>
    if s.enrolled r then
      if h.source.toNat = q.val then s.takeIn r o h
      else
        (s.setFramer r (.segment { o with fate := .misrouted })).post .misrouted (.link r) (some h.slice)
          (BitVec.ofNat 64 h.source.toNat)
    else s.setFramer r (.segment { o with fate := .passedOver })

/-- The second header word of open segment `o` (R43, R44). -/
def State.takeHeader (s : State) (r : ReceiverId) (o : OpenSegment) (w : Word) : State :=
  let h := parseHeader o.header0 w
  let p := { o with received := 2, header := some h, crc := crcWord o.crc w }
  match h.failure with
  | some cause => s.refuseHeader r p h cause
  | none => if p.fate = .pending then s.dispose r p h else s.setFramer r (.segment p)

/-- The first header word `w` leaves it open that the segment is admitted: receiver `r` is UP, mapped to the source the
word names and enrolled, and the word has no header failure of its own (R43, R44; log 39). -/
def State.mayAdmit (s : State) (r : ReceiverId) (w : Word) : Bool :=
  match s.mapping r with
  | some q =>
    (s.rx r).link == .up && s.enrolled r && (parseHeader w 0).source.toNat == q.val &&
      (parseHeader w 0).failure.isNone
  | none => false

/-- The first header word of open segment `o`: it is kept, or, where the segment is still to be judged and may be admitted,
lost to a buffer that holds 2048 words, its header not read (R42, R48; log 39). -/
def State.beginHeader (s : State) (r : ReceiverId) (o : OpenSegment) (w : Word) : State :=
  if o.fate = .pending ∧ (s.rx r).room = 0 ∧ s.mayAdmit r w = true then s.loseHeader r none
  else s.setFramer r (.segment { o with received := 1, header0 := w, crc := crcWord o.crc w })

/-! ## Payload (R46, R48) -/

/-- A payload word lost to a full buffer: the segment suffers an overrun with verdict FRAMING, and its words
still to arrive are dropped (R48; log 14). -/
def State.overrun (s : State) (r : ReceiverId) (h : SegmentHeader) : State :=
  ((((s.setFramer r .dropping).postOverrun r (some h)).holdVerdict r .framing)).settleVerdict r

/-- A payload word of an admitted segment: it enters the buffer, is dropped if the remainder was discarded, or is
lost to a full buffer (R46, R48). -/
def State.storePayload (s : State) (r : ReceiverId) (o : OpenSegment) (h : SegmentHeader) (w : Word) : State :=
  match (s.rx r).newest with
  | none => s
  | some g =>
    match g.place with
    | .remainder _ => s.setFramer r (.segment o)
    | .waiting | .accepted =>
      if (s.rx r).room = 0 then s.overrun r h
      else
        let x := (s.rx r).setNewest { g with payload := g.payload ++ [w] }
        s.setRx r { x with framer := .segment o }

/-- A word of open segment `o` past its header: payload, the CRC word, or a word where the END is due (R42). -/
def State.takeBody (s : State) (r : ReceiverId) (o : OpenSegment) (h : SegmentHeader) (w : Word) : State :=
  if o.received < 2 + h.length then
    let p := { o with received := o.received + 1, crc := crcWord o.crc w }
    if p.fate = .stored then s.storePayload r p h w else s.setFramer r (.segment p)
  else if o.received = 2 + h.length then
    s.setFramer r (.segment { o with received := o.received + 1, crcWord := w.setWidth 32 })
  else s.framingError r o .lateEnd .dropping

/-- A word of open segment `o` (R42, R43). -/
def State.takeWord (s : State) (r : ReceiverId) (o : OpenSegment) (w : Word) : State :=
  match o.header with
  | some h => s.takeBody r o h w
  | none =>
    if o.received = 0 then s.beginHeader r o w else s.takeHeader r o w

/-! ## The end of a segment (R40, R42, R45) -/

/-- The verdict at the END of open segment `o`, where it is due (R42, R193). -/
def OpenSegment.verdict (o : OpenSegment) : Verdict := if ~~~o.crc = o.crcWord then .good else .crcBad

/-- The error-time list with a stamp appended: the four newest (R40). -/
def appendStamp (errors : List Stamp) (t : Stamp) : List Stamp :=
  (if Config.errorStamps ≤ errors.length then errors.tail else errors) ++ [t]

/-- The error-time list shows an error burst (R40). -/
def burstIn (errors : List Stamp) : Bool :=
  errors.length == Config.errorStamps && span errors < Config.burstSlots

/-- A CRC_BAD verdict joins the error-time list; an error burst bars the link (R40). -/
def State.countError (s : State) (r : ReceiverId) : State :=
  let t := s.setRx r { s.rx r with errors := appendStamp (s.rx r).errors s.counter }
  if burstIn (t.rx r).errors then t.leaveUp r .burst else t

/-- Posts the CRC_BAD incident of an admitted segment (R45). -/
def State.postCrcBad (s : State) (r : ReceiverId) (o : OpenSegment) : State :=
  match o.fate, o.header with
  | .stored, some h | .discarded, some h =>
    if s.inService r then s.post .crcBad (.link r) (some h.slice) (fieldAt 0 h.kind.code) else s
  | _, _ => s

/-- Holds the verdict of an admitted segment still in the buffer and delivers it when it can be (R45, R47). -/
def State.keepVerdict (s : State) (r : ReceiverId) (o : OpenSegment) (v : Verdict) : State :=
  if o.fate = .stored then (s.holdVerdict r v).settleVerdict r else s

/-- A CRC_BAD verdict in UP: the incident, the error-time list, and the verdict if the link is still UP (R40,
R45; log 15). -/
def State.crcVerdict (s : State) (r : ReceiverId) (o : OpenSegment) : State :=
  let t := (s.postCrcBad r o).countError r
  if (t.rx r).link = .up then t.keepVerdict r o .crcBad else t

/-- The END of open segment `o` where it is due (R36, R37, R42). -/
def State.finishSegment (s : State) (r : ReceiverId) (o : OpenSegment) : State :=
  let t := s.setFramer r .idle
  match (s.rx r).link, o.verdict with
  | .probation, .good => t
  | .probation, _ => s.leaveProbation r .aligning
  | .up, v =>
    if o.fate = .watched then t
    else if v = .good then t.keepVerdict r o .good
    else t.crcVerdict r o
  | .down, _ | .aligning, _ | .barred, _ => s

/-! ## The symbols of the line (R42) -/

/-- The framer sees what the line decodes only in PROBATION and UP (R34, R36). -/
def LinkState.framing : LinkState → Bool
  | .probation | .up => true
  | .down | .aligning | .barred => false

/-- A START at receiver `r` (R42). -/
def State.start (s : State) (r : ReceiverId) : State :=
  match (s.rx r).framer with
  | .idle | .stray | .dropping => s.openSegment r
  | .segment o =>
    let t := s.framingError r o (if o.endDue then .lateEnd else .broken) .idle
    t.openSegment r

/-- A data word at receiver `r` (R42). -/
def State.word (s : State) (r : ReceiverId) (w : Word) : State :=
  match (s.rx r).framer with
  | .idle => s.strayRun r
  | .stray | .dropping => s
  | .segment o => s.takeWord r o w

/-- A broken word at receiver `r` (R34, R42; log 12). Where the END is due it fits two rows of R42, LATE_END and BROKEN; the
model takes BROKEN (log 33). -/
def State.brokenWord (s : State) (r : ReceiverId) : State :=
  match (s.rx r).framer with
  | .idle | .stray | .dropping => s
  | .segment o => s.framingError r o .broken .dropping

/-- An END at receiver `r` (R42). -/
def State.ending (s : State) (r : ReceiverId) : State :=
  match (s.rx r).framer with
  | .idle => s.strayRun r
  | .stray => s
  | .dropping => s.setFramer r .idle
  | .segment o => if o.endDue then s.finishSegment r o else s.framingError r o .earlyEnd .idle

end Sys2Proof.Machine
end

