-- ==== Sys2Proof/Machine/LineCommands.lean ====
section
/-! DEFINITION. The meanings of DEVICE_RESET, of the line events of a receiver and of the symbols its line decodes. -/

namespace Sys2Proof.Machine

/-- DEVICE_RESET (R33, R56, R74, R86, R104, R106, R148, R150, R166, R182, R187, R191): every field at its reset value; the
words of the store are not cleared (R57), and the commands still waiting stay. -/
def execDeviceReset (s : State) : Host.Outcome State Fault Refusal :=
  .next { State.reset with
    pool := { PagePool.reset with store := s.pool.store, conditions := s.pool.conditions }
    pending := s.pending }

/-- Records what the line layer last reported of the signal (R34). -/
def State.setSignal (s : State) (r : ReceiverId) (x : Bool) : State := s.setRx r { s.rx r with signal := x }

/-- SIGNAL_PRESENT (R35): DOWN goes to ALIGNING. -/
def execSignalPresent (r : ReceiverId) (s : State) : Host.Outcome State Fault Refusal :=
  let t := s.setSignal r true
  match (s.rx r).link with
  | .down => .next (t.setLink r .aligning)
  | .aligning | .probation | .up | .barred => .next t

/-- SIGNAL_ABSENT (R35, R38): ALIGNING and PROBATION go to DOWN, UP goes to BARRED with reason LOST. -/
def execSignalAbsent (r : ReceiverId) (s : State) : Host.Outcome State Fault Refusal :=
  let t := s.setSignal r false
  match (s.rx r).link with
  | .aligning => .next (t.setLink r .down)
  | .probation => .next (t.leaveProbation r .down)
  | .up => .next (t.leaveUp r .signal).settleCache
  | .down | .barred => .next t

/-- ALIGNMENT_FOUND (R35): ALIGNING goes to PROBATION and starts the probation timer. -/
def execAlignmentFound (r : ReceiverId) (s : State) : Host.Outcome State Fault Refusal :=
  match (s.rx r).link with
  | .aligning => .next (s.enterProbation r)
  | .down | .probation | .up | .barred => .next s

/-- ALIGNMENT_LOST (R35, R38): PROBATION goes to ALIGNING, UP goes to BARRED with reason LOST. -/
def execAlignmentLost (r : ReceiverId) (s : State) : Host.Outcome State Fault Refusal :=
  match (s.rx r).link with
  | .probation => .next (s.leaveProbation r .aligning)
  | .up => .next (s.leaveUp r .alignment).settleCache
  | .down | .aligning | .barred => .next s

/-- START_SYMBOL (R42). -/
def execStartSymbol (r : ReceiverId) (s : State) : Host.Outcome State Fault Refusal :=
  if (s.rx r).link.framing then .next (s.start r).settleCache else .next s

/-- DATA_WORD (R42–R44, R46, R48). -/
def execDataWord (r : ReceiverId) (w : Word) (s : State) : Host.Outcome State Fault Refusal :=
  if (s.rx r).link.framing then .next (s.word r w).settleCache else .next s

/-- BROKEN_WORD (R34, R42). -/
def execBrokenWord (r : ReceiverId) (s : State) : Host.Outcome State Fault Refusal :=
  if (s.rx r).link.framing then .next (s.brokenWord r).settleCache else .next s

/-- IDLE (R42): it has no effect on framing. -/
def execIdle (_r : ReceiverId) (s : State) : Host.Outcome State Fault Refusal := .next s

/-- END_SYMBOL (R40, R42, R45, R47). -/
def execEndSymbol (r : ReceiverId) (s : State) : Host.Outcome State Fault Refusal :=
  if (s.rx r).link.framing then .next (s.ending r).settleCache else .next s

end Sys2Proof.Machine
end

