-- ==== Sys2Proof/Machine/PortCommands.lean ====
section
/-! DEFINITION. The meanings of WRITE, of the link events of a builder port and of the messages about its rings. -/

namespace Sys2Proof.Machine

/-- WRITE of engine `p` (R111, R113–R116, R120). -/
def execWrite (p : PortId) (found : List (Nat × WordCondition)) (s : State) : Host.Outcome State Fault Refusal :=
  .next (s.engineWrite p found).settleCache

/-- PORT_LINK_UP (R151): a LINK_DOWN port enters DETACHED, its record at reset values but for the last fault
cause. -/
def execPortLinkUp (p : PortId) (s : State) : Host.Outcome State Fault Refusal :=
  match (s.port p).state with
  | .linkDown => .next (s.setPort p { Port.reset with state := .detached, cause := (s.port p).cause })
  | .detached | .active | .draining | .faulted => .next s

/-- PORT_LINK_DOWN (R151, R161). -/
def execPortLinkDown (p : PortId) (s : State) : Host.Outcome State Fault Refusal :=
  match (s.port p).state with
  | .linkDown => .next s
  | .detached | .active | .draining | .faulted => .next (s.loseLink p).settleCache

/-- ATTACH (R153, R155). -/
def execAttach (p : PortId) (descriptorBase : Address) (k : BitVec 5) (completionBase : Address) (m : BitVec 5)
    (s : State) : Host.Outcome State Fault Refusal :=
  .next (s.takeAttach p { descriptorBase, k := k.toNat, completionBase, m := m.toNat }).settleCache

/-- DETACH (R153, R157). -/
def execDetach (p : PortId) (s : State) : Host.Outcome State Fault Refusal := .next (s.takeDetach p).settleCache

/-- ANNOUNCE (R131, R132, R153). -/
def execAnnounce (p : PortId) (producer consumed : Count) (s : State) : Host.Outcome State Fault Refusal :=
  .next (s.takeAnnounce p producer consumed).settleCache

/-- READ_DATA (R138, R139, R154, R162). -/
def execReadData (p : PortId) (tag : BitVec 8) (data : List Word) (s : State) : Host.Outcome State Fault Refusal :=
  .next (s.takeReadData p tag data).settleCache

/-- READ_DATA_ERROR (R138, R162); the error status is not interpreted (R196). -/
def execReadDataError (p : PortId) (tag : BitVec 8) (_status : Word) (s : State) :
    Host.Outcome State Fault Refusal :=
  .next (s.takeReadError p tag).settleCache

/-- MALFORMED_MESSAGE (R154). A message of a length and type code that R196 gives is another row's, the one that
messageCommand names (log 27). -/
def execMalformedMessage (p : PortId) (message : List Word) (s : State) : Host.Outcome State Fault Refusal :=
  if malformed message then .next (s.takeMalformed p message).settleCache else .next s

end Sys2Proof.Machine
end

