-- ==== Sys2Proof/Machine/Time.lean ====
section
/-! DEFINITION. What the slot timer drives: deadlines (R22, R23), quiet periods (R189) and the advance of the slot
counter (R182). -/

namespace Sys2Proof.Machine

/-- The context of slot `i` is OPEN with deadline remaining 0 (R23). -/
def State.expiredSlot (s : State) (i : SlotId) : Bool := (s.ctx i).state == .opened && (s.ctx i).deadline == 0

/-- Closes the context of slot `i` with reason EXPIRED if its deadline has run out (R23). -/
def State.expireSlot (s : State) (i : SlotId) : State :=
  if s.expiredSlot i then s.closeContext i .expired else s

/-- Closes the first context, in slice order from the frontier, whose deadline has run out (R23). -/
def State.expireFirst (s : State) : State :=
  match s.slotsInOrder.find? s.expiredSlot with
  | some i => s.expireSlot i
  | none => s

/-- Port `p` is attached and its quiet period has come to its end (R189). -/
def State.quietDue (s : State) (p : PortId) : Bool :=
  (s.port p).state.attached && (s.port p).quietUntil.isSome && !s.inQuietPeriod p

/-- Port `p`'s quiet period ends: a pending NOTIFY is sent and a new period begins (R189). -/
def State.endQuietPeriod (s : State) (p : PortId) : State :=
  if s.quietDue p then
    if (s.port p).notifyPending then s.sendNotify p else s.setPort p { s.port p with quietUntil := none }
  else s

/-- Everything that is due in the slot that ends and has not been taken (log 3). -/
def State.takeDue (s : State) : State :=
  let expired := s.each s.slotsInOrder fun i t => t.expireSlot i
  let timed := expired.each allReceivers fun r t => (t.expireProbation r).expireBar r
  timed.elapseWaits.each allPorts fun p t => t.endQuietPeriod p

/-- An OPEN context's deadline remaining falls by one (R22). -/
def Context.counted (c : Context) : Context :=
  if c.state = .opened then { c with deadline := c.deadline - 1 } else c

/-- The deadlines of all OPEN contexts, counted (R22). -/
def State.countDeadlines (s : State) : State :=
  { s with contexts := Vector.ofFn fun i => (s.ctx i).counted }

/-- The advance of the slot counter itself: the SLOT item's length governs the new slot (R183), the hold decision is
made (R81), and deadlines count unless the slot is held (R22). -/
def State.tick (s : State) : State :=
  let t := (s.setTime (s.counter + 1) (s.items.slot.value 0)).decideHold
  if t.pressure.held then t else t.countDeadlines

end Sys2Proof.Machine
end

