-- ==== Sys2Proof/Machine/WritePort.lean ====
section
/-! DEFINITION. The store write port: who wants it, the round-robin grant and the burst (R64–R67). -/

namespace Sys2Proof.Machine

/-- The payload words of receiver `r`'s accepted head segment not yet written. -/
def Receiver.unwritten (x : Receiver) : List Word :=
  match x.head with
  | some g => if g.place = .accepted then g.payload else []
  | none => []

/-- A receiver wants the port (R64). -/
def Receiver.wantsPort (x : Receiver) : Bool := x.record.isSome && !x.unwritten.isEmpty && !x.noPages

/-- The receivers in round-robin order after `r` (R64). -/
def receiversAfter (r : ReceiverId) : List ReceiverId := (List.range 24).map fun d => r + 1 + Fin.ofNat 24 d

/-- The receiver granted the port next, if one wants it (R64). -/
def State.nextGrant (s : State) : Option ReceiverId :=
  (receiversAfter s.lastServed).find? fun r => (s.rx r).wantsPort

/-- The next word needs a new page (R65). -/
def ProvisionalRecord.needsPage (record : ProvisionalRecord) : Bool :=
  record.writePage == 0 || record.writeFill == Config.pageWords

/-- The committed pages of a chain: ⌈words / 64⌉ (R58). -/
def Chain.pages (c : Chain) : Nat := (c.words + (Config.pageWords - 1)) / Config.pageWords

/-- The page-limit question is answered with a cut (R19). -/
def State.atLimit (s : State) (record : ProvisionalRecord) : Bool :=
  s.pageLimit ≤ ((s.ctx record.slot).chain record.source).pages + record.pages

/-- The record once page `page` is allocated for it (R66). -/
def ProvisionalRecord.withPage (record : ProvisionalRecord) (page : Nat) : ProvisionalRecord :=
  { record with
    firstPage := if record.firstPage = 0 then page else record.firstPage
    pages := record.pages + 1
    writePage := page
    writeFill := 0 }

/-- The record's current last page: its write page, else the chain's tail page before, else 0 (R66). -/
def ProvisionalRecord.lastPage (record : ProvisionalRecord) : Nat :=
  if record.writePage ≠ 0 then record.writePage else record.tailBefore

/-- Links page `page` behind the record's current last page (R66). -/
def PagePool.linkBehind (pool : PagePool) (record : ProvisionalRecord) (page : Nat) : PagePool :=
  if record.lastPage = 0 then pool else pool.setLink record.lastPage page

/-- Replaces the record of receiver `r`. -/
def State.setRecord (s : State) (r : ReceiverId) (x : ProvisionalRecord) : State :=
  s.setRx r { s.rx r with record := some x }

/-- Takes a page for the record of receiver `r` from the free list; none if the list is empty (R66). -/
def State.extendRecord (s : State) (r : ReceiverId) (record : ProvisionalRecord) :
    Option (ProvisionalRecord × State) :=
  match s.allocatePage with
  | none => none
  | some (page, t) =>
    some (record.withPage page, (t.setPool (t.pool.linkBehind record page)).setRecord r (record.withPage page))

/-- Moves one burst of receiver `r` into the record's write page; the verdict follows if it was waiting for the
last word (R47, R65). -/
def State.burst (s : State) (r : ReceiverId) (record : ProvisionalRecord) : State :=
  match (s.rx r).head with
  | none => s
  | some g =>
    let moved := g.payload.take (Config.pageWords - record.writeFill)
    let t := s.setPool (s.pool.writeWords (wordAddress record.writePage record.writeFill) moved)
    let u := t.setRx r ((t.rx r).setHead { g with payload := g.payload.drop moved.length })
    let v := u.setRecord r
      { record with writeFill := record.writeFill + moved.length, written := record.written + moved.length }
    v.settleVerdict r

/-- What a grant came to: a burst moved, or the request for a page was refused (R64, R66, R67). -/
inductive Grant
  | moved (s : State)
  | refused (s : State)

/-- Serves one grant of receiver `r` (R64–R67). -/
def State.serve (s : State) (r : ReceiverId) : Grant :=
  let t := s.setLastServed r
  match (t.rx r).record with
  | none => .refused t
  | some record =>
    if record.needsPage then
      if t.atLimit record then .refused (t.cutAtLimit r record)
      else
        match t.extendRecord r record with
        | none => .refused (t.setRx r { t.rx r with noPages := true })
        | some (extended, u) => .moved (u.burst r extended)
    else .moved (t.burst r record)

/-- Grants the port in round-robin order until one burst has moved or no receiver wants it. A refused request
passes the grant on at once (R64). Between two cuts at most 24 receivers find the list empty, and a cut removes
a record, so 600 grants are enough. -/
def State.grantPort : Nat → State → State
  | 0, s => s
  | fuel + 1, s =>
    match s.nextGrant with
    | none => s
    | some r =>
      match s.serve r with
      | .moved t => t
      | .refused t => State.grantPort fuel t

/-- The most grants one STORE_BURST can pass on. -/
def maxGrants : Nat := 600

end Sys2Proof.Machine
end

