-- ==== Sys2Proof/Machine/SliceCommands.lean ====
section
/-! DEFINITION. The meanings of the timing input, of assembly and of the slot timer's rows. -/

namespace Sys2Proof.Machine

/-- PROBATION_EXPIRY of receiver `r` (R35, R37). -/
def execProbationExpiry (r : ReceiverId) (s : State) : Host.Outcome State Fault Refusal := .next (s.expireProbation r)

/-- BAR_EXPIRY of receiver `r` (R35, R39). -/
def execBarExpiry (r : ReceiverId) (s : State) : Host.Outcome State Fault Refusal := .next (s.expireBar r)

/-- SLICE_START (R29): in RUNNING a number ahead of the newest strobe becomes it and slices open; another posts
TIMING with the newest strobe. -/
def execSliceStart (n : Slice) (s : State) : Host.Outcome State Fault Refusal :=
  match s.run with
  | .running =>
    if ahead (n - s.newestStrobe) then .next ((s.setNewestStrobe n).openToward n).settleCache
    else .next (s.post .timing .none (some n) (fieldAt 0 s.newestStrobe.toNat))
  | .stopped | .draining | .flushing => .next s

/-- PLACEMENT of the head segment of receiver `r` (R9–R15). A stalled segment is presented again only by a frontier
advance or a run-state change (R9). -/
def execPlacement (r : ReceiverId) (s : State) : Host.Outcome State Fault Refusal :=
  if (s.rx r).early then .next s else .next (s.present r).settleCache

/-- STORE_BURST (R64–R67). -/
def execStoreBurst (s : State) : Host.Outcome State Fault Refusal := .next (s.grantPort maxGrants).settleCache

/-- SLOT_ADVANCE (R22, R81, R182, R183); what is due in the slot that ends is taken first (log 3). -/
def execSlotAdvance (s : State) : Host.Outcome State Fault Refusal := .next s.takeDue.settleCache.tick

/-- DEADLINE_EXPIRY (R23): the oldest context whose deadline remaining is 0 closes with reason EXPIRED. -/
def execDeadlineExpiry (s : State) : Host.Outcome State Fault Refusal := .next s.expireFirst.settleCache

/-- DISPATCH_WAIT_ELAPSE (R93). -/
def execDispatchWaitElapse (s : State) : Host.Outcome State Fault Refusal := .next s.elapseWaits.settleCache

/-- QUIET_PERIOD_END of port `p` (R189). -/
def execQuietPeriodEnd (p : PortId) (s : State) : Host.Outcome State Fault Refusal := .next (s.endQuietPeriod p)

end Sys2Proof.Machine
end

