-- ==== Sys2Proof/Machine/Dispatch.lean ====
section
/-! DEFINITION. One arm per command of the table: the meaning it has. -/

namespace Sys2Proof.Machine

/-- The effect of a command on everything but the queue. -/
def exec (i : Instr) (s : State) : Host.Outcome State Fault Refusal :=
  match i with
  | .deviceReset => Sys2Proof.Machine.execDeviceReset s
  | .signalPresent r => Sys2Proof.Machine.execSignalPresent r s
  | .signalAbsent r => Sys2Proof.Machine.execSignalAbsent r s
  | .alignmentFound r => Sys2Proof.Machine.execAlignmentFound r s
  | .alignmentLost r => Sys2Proof.Machine.execAlignmentLost r s
  | .startSymbol r => Sys2Proof.Machine.execStartSymbol r s
  | .dataWord r w => Sys2Proof.Machine.execDataWord r w s
  | .brokenWord r => Sys2Proof.Machine.execBrokenWord r s
  | .idle r => Sys2Proof.Machine.execIdle r s
  | .endSymbol r => Sys2Proof.Machine.execEndSymbol r s
  | .probationExpiry r => Sys2Proof.Machine.execProbationExpiry r s
  | .barExpiry r => Sys2Proof.Machine.execBarExpiry r s
  | .sliceStart n => Sys2Proof.Machine.execSliceStart n s
  | .placement r => Sys2Proof.Machine.execPlacement r s
  | .storeBurst => Sys2Proof.Machine.execStoreBurst s
  | .slotAdvance => Sys2Proof.Machine.execSlotAdvance s
  | .deadlineExpiry => Sys2Proof.Machine.execDeadlineExpiry s
  | .dispatchWaitElapse => Sys2Proof.Machine.execDispatchWaitElapse s
  | .quietPeriodEnd p => Sys2Proof.Machine.execQuietPeriodEnd p s
  | .write p found => Sys2Proof.Machine.execWrite p found s
  | .portLinkUp p => Sys2Proof.Machine.execPortLinkUp p s
  | .portLinkDown p => Sys2Proof.Machine.execPortLinkDown p s
  | .attach p descriptorBase k completionBase m => Sys2Proof.Machine.execAttach p descriptorBase k completionBase m s
  | .detach p => Sys2Proof.Machine.execDetach p s
  | .announce p producer consumed => Sys2Proof.Machine.execAnnounce p producer consumed s
  | .readData p tag data => Sys2Proof.Machine.execReadData p tag data s
  | .readDataError p tag status => Sys2Proof.Machine.execReadDataError p tag status s
  | .malformedMessage p message => Sys2Proof.Machine.execMalformedMessage p message s
  | .itemRead p table number => Sys2Proof.Machine.execItemRead p table number s
  | .itemReadNext p => Sys2Proof.Machine.execItemReadNext p s
  | .itemStage p index value => Sys2Proof.Machine.execItemStage p index value s
  | .itemCommit p table number => Sys2Proof.Machine.execItemCommit p table number s
  | .start p => Sys2Proof.Machine.execStart p s
  | .stop p => Sys2Proof.Machine.execStop p s
  | .flush p => Sys2Proof.Machine.execFlush p s
  | .pressureCommit p => Sys2Proof.Machine.execPressureCommit p s
  | .steerCommit p e => Sys2Proof.Machine.execSteerCommit p e s
  | .dispatchCommit p => Sys2Proof.Machine.execDispatchCommit p s
  | .cacheCommit p => Sys2Proof.Machine.execCacheCommit p s
  | .linkmapCommit p r => Sys2Proof.Machine.execLinkmapCommit p r s
  | .slotCommit p => Sys2Proof.Machine.execSlotCommit p s
  | .outputsCommit p => Sys2Proof.Machine.execOutputsCommit p s
  | .incidentTake p => Sys2Proof.Machine.execIncidentTake p s

end Sys2Proof.Machine
end

