-- ==== Sys2Proof/Machine/Step.lean ====
section
/-! DEFINITION. One step: the command at the front of the queue is taken and carried out. -/

namespace Sys2Proof.Machine

/-- Replaces the queue of waiting commands. -/
def State.setPending (s : State) (q : List Instr) : State := { s with pending := q }

/-- Takes the command at the front of the queue and carries it out on the state with the queue's rest; with an empty
queue the part idles (log 1). -/
def step (s : State) : Host.Outcome State Fault Refusal :=
  match s.pending with
  | [] => .next s
  | c :: rest => exec c (s.setPending rest)

/-- `s` with the command a word spells put at the front of its queue; `s` itself where the word spells none. -/
def State.withFetchWord (s : State) (nbits w : Nat) : State :=
  match decodeTableWord nbits w with
  | some c => s.setPending (c :: s.pending)
  | none => s

end Sys2Proof.Machine
end

