-- ==== Sys2Proof/Safety.lean ====
section
/-! DEFINITION. What every reachable state of the part keeps: bounds on its queues and buffers, canonical tables, valid
settings, the pressure relation, and engines at work only for attached ports; and what statements about several
commands share. -/

namespace Sys2Proof.Machine

/-! ## Bounds -/

/-- A receiver's error-time list holds at most 4 stamps (R40) and its elastic buffer at most 2048 words (R46). -/
def Receiver.Bounded (x : Receiver) : Prop := x.errors.length ≤ Config.errorStamps ∧ x.held ≤ Config.bufferWords

/-- Every sparse table of the store is in its canonical form. -/
def PagePool.Canonical (x : PagePool) : Prop :=
  Memory.wf x.store = true ∧ Cells.wf WordCondition.sound x.conditions = true ∧ Cells.wf 0 x.links = true ∧
    Cells.wf PageAttribute.clear x.attributes = true

/-- The tables are canonical and the retired page table holds at most 32 pages (R62). -/
def PagePool.Sound (x : PagePool) : Prop := x.Canonical ∧ x.retired.length ≤ Config.retiredEntries

/-- The bounds of the receivers, the store and the incident queue (R40, R46, R62, R185). -/
def State.Bounded (s : State) : Prop :=
  (∀ r, (s.rx r).Bounded) ∧ s.pool.Sound ∧ s.incidents.length ≤ Config.incidentRecords

/-! ## Engines and ports -/

/-- An engine is IDLE, or its port is attached and it holds a slice (R107). -/
def EngineOk (e : Engine) (x : Port) : Prop :=
  e.state = .idle ∨ (x.state.attached = true ∧ e.assigned.isSome = true)

/-- Every engine is IDLE, or its port is ACTIVE or DRAINING and it holds a slice (R107). -/
def State.EnginesAttached (s : State) : Prop := ∀ p, EngineOk (s.engine p) (s.port p)

/-! ## Settings -/

/-- The installed words of an item pass every check of R172. -/
def Items.ItemValid (x : Items) (n : ItemName) : Prop := (x.checks n (wordsOf (x.get n))).all id = true

/-- Every installed item passes every check of R172; no two receivers are mapped to one source. -/
def Items.Valid (x : Items) : Prop := ∀ n, x.ItemValid n

/-! ## Pressure -/

/-- The relation between the pressure level and occupancy after an evaluation (R76). -/
def State.LevelTrue (s : State) : Prop :=
  match s.pressure.level with
  | 0 => s.pool.occupancy < s.threshold 1
  | 1 => s.pool.occupancy < s.threshold 2 ∧ s.threshold 1 - s.margin ≤ s.pool.occupancy
  | 2 => s.pool.occupancy < s.threshold 3 ∧ s.threshold 2 - s.margin ≤ s.pool.occupancy
  | 3 => s.threshold 3 - s.margin ≤ s.pool.occupancy

/-- The hold decision is the one made for the current slot, and the slots of period index 14 and 15 are never held
(R81, R83). -/
def State.HoldTrue (s : State) : Prop :=
  s.pressure.heldFor = s.counter ∧ (s.pressure.held = true → periodIndex s.counter < 14)

/-- The settings are valid, the level stands to occupancy as R76 says, and the hold decision as R81 and R83 say. -/
def State.PressureTrue (s : State) : Prop := s.items.Valid ∧ s.LevelTrue ∧ s.HoldTrue

/-! ## Words -/

/-- A word is laid out in these fields, each with its first bit, its number of bits and the number it holds, and every bit
of no field is 0 (R192). -/
def Laid (w : Word) (fields : List (Nat × Nat × Nat)) : Prop :=
  (∀ f ∈ fields, (w.extractLsb' f.1 f.2.1).toNat = f.2.2) ∧
    ∀ i, (∀ f ∈ fields, i < f.1 ∨ f.1 + f.2.1 ≤ i) → w.getLsbD i = false

/-! ## What commands share -/

/-- The port and the item of a commit of a catalogue item other than RUN (R170). -/
def commitTarget : Instr → Option (PortId × ItemName)
  | .itemCommit p table number =>
    match ItemName.ofCodes table number with
    | some .run | none => none
    | some n => some (p, n)
  | .pressureCommit p => some (p, .pressure)
  | .steerCommit p i => some (p, .steer i)
  | .dispatchCommit p => some (p, .dispatch)
  | .cacheCommit p => some (p, .cache)
  | .linkmapCommit p r => some (p, .linkmap r)
  | .slotCommit p => some (p, .slot)
  | .outputsCommit p => some (p, .outputs)
  | _ => none

/-- Freeing a page posts no incident: no page is marked RETIRE_ON_FREE, and occupancy lies below every threshold above the
level (R61, R77), as every step leaves it. -/
def State.FreesQuietly (s : State) : Prop := (∀ page, s.pool.attributeOf page ≠ .retireOnFree) ∧ s.risen = none

/-- Distinct pages, page 0 not among them, each one's link entry naming the next (R58). -/
def PagePool.Linked (pool : PagePool) (pages : List Nat) : Prop :=
  pages.Nodup ∧ 0 ∉ pages ∧ ∀ j a b : Nat, pages[j]? = some a → pages[j + 1]? = some b → pool.linkOf a = b

/-- The pages of a provisional record, from its first page to its write page (R63). -/
def ProvisionalRecord.Holds (x : ProvisionalRecord) (pool : PagePool) (pages : List Nat) : Prop :=
  pool.Linked pages ∧ pages.length = x.pages ∧ pages.headD 0 = x.firstPage ∧
    (pages ≠ [] → pages.getLast? = some x.writePage)

/-- The pages of a chain, from its head to its tail (R58). -/
def Chain.Holds (c : Chain) (pool : PagePool) (pages : List Nat) : Prop :=
  pool.Linked pages ∧ pages.length ≤ Config.maxChainPages ∧ pages.headD 0 = c.head ∧ pages.getLastD 0 = c.tail

/-- The state once the FRAMING incident of receiver `r` is posted, if it is mapped and enrolled: its cause, and the slice
number and the kind where the header was read (R42, R45, R196). -/
def State.withFraming (s : State) (r : ReceiverId) (cause : Nat) (header : Option SegmentHeader) : State :=
  if s.inService r = true then
    match header with
    | some h => s.post .framing (.link r) (some h.slice) (fieldAt 8 cause ||| fieldAt 0 h.kind.code)
    | none => s.post .framing (.link r) none (fieldAt 8 cause)
  else s

/-- Command `c` ends the segment that receiver `r` has open in UP with a FRAMING error of a cause and leaves its framer at
`after`: a segment not admitted is gone, and one admitted has the incident posted and, where its words are in the buffer,
its verdict held there (R42, R44, R45). For a segment whose header is not read the incident carries no slice number, which is
the model's choice (log 11). -/
def FramingEnds (c : Instr) (s : State) (r : ReceiverId) (cause : Nat) (after : Framer) : Prop :=
  ∀ (o : OpenSegment) (u : State), (s.rx r).framer = .segment o → u = s.setRx r { s.rx r with framer := after } →
    (o.fate = .watched ∨ o.fate = .passedOver ∨ o.fate = .misrouted → exec c s = .next u.settleCache) ∧
    (o.fate = .pending → exec c s = .next (u.withFraming r cause none).settleCache) ∧
    (o.fate = .discarded → exec c s = .next (u.withFraming r cause o.header).settleCache) ∧
    ∀ g, o.fate = .stored → (s.rx r).newest = some g →
      (∀ f, (s.rx r).head = some f → f.place = .waiting ∨ f.payload ≠ []) →
      exec c s = .next ((s.setRx r
        { (s.rx r).setNewest { g with verdict := some .framing } with framer := after }).withFraming r cause
          o.header).settleCache

/-- Command `c` ends the segment that receiver `r` has open in UP, accepted and with every word written, with a FRAMING
error of a cause and leaves its framer at `after`: the incident is posted and the verdict is delivered at once (R45,
R47). -/
def FramingDelivers (c : Instr) (s : State) (r : ReceiverId) (cause : Nat) (after : Framer) : Prop :=
  ∀ (o : OpenSegment) (g : BufferedSegment), (s.rx r).framer = .segment o → o.fate = .stored →
    (s.rx r).newest = some g → (s.rx r).head = some g → g.place ≠ .waiting → g.payload = [] →
    exec c s = .next (((s.setRx r
      { (s.rx r).setNewest { g with verdict := some .framing } with framer := after }).withFraming r cause
        o.header).settleVerdict r).settleCache

/-- The place in the store of data word `j` of the slice in slot `i` (R109). -/
def State.wordPlace (s : State) (i : SlotId) (j : Nat) : Nat := wordAddress (s.locate i j).1 (s.locate i j).2

/-- What engine `p` reads as the `count` data words from data word `first` on of the slice in slot `i`, and the state this
leaves (R72, R73, R111): the damage a WRITE finds falls on the words it is found in, each word is given by its condition, and
the check of each follows, in the order of the words. -/
def WordsRead (s : State) (p : PortId) (i : SlotId) (first count : Nat) (found : List (Nat × WordCondition))
    (words : List Word) (t : State) : Prop :=
  ∃ d : State,
    d = found.foldl (fun u f =>
      if f.1 < count then u.setPool (u.pool.damage (s.wordPlace i (first + f.1)) f.2) else u) s ∧
    words = (List.range' first count).map (fun j =>
      givenWord (d.pool.conditionOf (s.wordPlace i j)) (Memory.readWord s.pool.store (s.wordPlace i j))) ∧
    t = (List.range' first count).foldl (fun u j =>
      u.checked p i j (s.locate i j).1 (d.pool.conditionOf (s.wordPlace i j))) d

/-- The context of slot `i` in `s` is closed in `t` with a reason (R21, R6): no chain is RECEIVING, the directory is
computed, no receiver has a record for the slot or names its slice as its current fragment, and it is READY, or already
DELIVERING. With no ACTIVE port its entry stands in the ready list (R89). -/
def ClosedAs (s t : State) (i : SlotId) (reason : ClosureReason) : Prop :=
  (∃ ended : Context,
    ended = { s.ctx i with
      chains := Vector.ofFn fun q =>
        if ((s.ctx i).chain q).state = .receiving then { (s.ctx i).chain q with state := .partial_ }
        else (s.ctx i).chain q } ∧
    ∃ x, (x = .ready ∨ x = .delivering) ∧
      t.ctx i = { ended.withDirectory with closure := some { reason, closedAt := s.counter }, state := x }) ∧
    (∀ r, (∀ y, (t.rx r).record = some y → y.slot ≠ i) ∧ (t.rx r).current ≠ some (s.ctx i).slice) ∧
    ((∀ p, (s.port p).state ≠ .active) → (t.ctx i).state = .ready ∧ t.ready = insertEntry s.frontier
      { slice := (s.ctx i).slice, since := s.counter, elapsed := decide (s.dispatchWait = 0) } s.ready)

/-- The link-loss notice of receiver `r`, mapped to source `q`, takes `s` to `v` (R25): the receiver's record is rolled back
and its current fragment cleared; in each OPEN slot whose chain `q` is not final a RECEIVING chain becomes PARTIAL, and the
source goes from the expected set to the dropped set if it was expected; then, in slice order from the frontier, each of these
slots that expected the source or whose chain was RECEIVING is checked for closure. -/
def LinkLossNotice (r : ReceiverId) (q : SourceId) (s v : State) : Prop :=
  ∃ (loses : SlotId → Bool) (d e : State),
    (∀ i, loses i = true ↔ (s.ctx i).state = .opened ∧ ((s.ctx i).chain q).state.final = false) ∧
    d = (s.rollback r).setRx r { (s.rollback r).rx r with current := none } ∧
    e = { d with
      contexts := Vector.ofFn fun i =>
        if loses i = true then
          { (s.ctx i).setChain q { (s.ctx i).chain q with
              state := if ((s.ctx i).chain q).state = .receiving then .partial_ else .none } with
            expected := (s.ctx i).expected &&& ~~~(1#24 <<< q.val)
            dropped := if member (s.ctx i).expected q = true then (s.ctx i).dropped ||| 1#24 <<< q.val
              else (s.ctx i).dropped }
        else s.ctx i } ∧
    v = ((List.range 64).map fun k => slotOf (s.frontier + BitVec.ofNat 32 k)).foldl (fun w i =>
      if loses i = true ∧ (member (s.ctx i).expected q = true ∨ ((s.ctx i).chain q).state = .receiving) then
        w.closureCheck i
      else w) e

/-- What becomes of the slice table when receiver `r` leaves UP: the notice for its source, and nothing where it is mapped to
none (R25, R38 step 3). -/
def SourceDropsOut (r : ReceiverId) (s v : State) : Prop :=
  (s.mapping r = none → v = s) ∧ ∀ q, s.mapping r = some q → LinkLossNotice r q s v

/-- What is left of a FLUSHED wait of port `p` when the port is lost or faulted (R124, R71, R27): the slice's pages are freed
and its slot is RETIRED, or passed by the frontier; no record is written; PORT_FAULT carries the cause; and the run is
STOPPED once every engine is IDLE. -/
def FlushedWaitEnds (p : PortId) (cause : FaultCause) (s t : State) : Prop :=
  ∀ i n, (s.engine p).assigned = some (i, n) → (s.engine p).kind = .flushed → s.run = .flushing → s.ready = [] →
    (∀ r, (s.rx r).early = false) →
    t.pool = (s.freeSlice i).pool ∧ ((t.ctx i).state = .retired ∨ (t.ctx i).state = .unopened) ∧
    t.incidents = ((s.freeSlice i).post .portFault (.port p) (some n) (BitVec.ofNat 64 cause.code)).incidents ∧
    t.ready = [] ∧ (t.run = .stopped ↔ ∀ v, v ≠ p → (s.engine v).state = .idle)

/-- The delivery that port `p` held when it was lost or faulted goes back to the dispatcher (R101, R121): its slice is
REDIRECTED and READY, or assigned again. With no other port ACTIVE its entry stands at its place in the ready list, with its
ready-since time restarted, and nothing else of its context changes. -/
def DeliveryReturns (p : PortId) (s t : State) : Prop :=
  ∀ i n, (s.engine p).assigned = some (i, n) → (s.engine p).kind = .delivered → i = slotOf n →
    (t.ctx i).flags.redirected = true ∧ ((t.ctx i).state = .ready ∨ (t.ctx i).state = .delivering) ∧
    ((∀ v, v ≠ p → (s.port v).state ≠ .active) →
      t.ctx i = { s.ctx i with state := .ready, flags := { (s.ctx i).flags with redirected := true } } ∧
      t.ready = insertEntry s.frontier
        { slice := n, since := s.counter, elapsed := decide (s.dispatchWait = 0) } s.ready)

/-- The tag of the READ that a teardown of port `p` finds outstanding joins the port's abandoned tags, and the tags already
held stay (R146, R147). -/
def TagJoins (p : PortId) (found : Option (Fin 4)) (c d : Cache) : Prop :=
  ∀ y : Fin 4, d.abandonedTag p y = true ↔ c.abandonedTag p y = true ∨ found = some y

/-- What stays of port `p` from `s` to `t` when it enters FAULTED from ACTIVE or DRAINING (R121, R124, R146, R159): its
record but for its item cursor is cleared, its engine is IDLE, its ring record and its entries are gone, the tag of the
READ found outstanding is abandoned (R147), a delivery it held goes back to the dispatcher, a FLUSHED wait it held ends, and
PORT_FAULT carries the cause. -/
def Faulted (p : PortId) (cause : FaultCause) (found : Option (Fin 4)) (s t : State) : Prop :=
  t.port p = { state := .faulted, cause := some cause, reservation := none, staging := Vector.replicate 8 none,
               cursor := (s.port p).cursor, notifyPending := false, quietUntil := none } ∧
    t.engine p = Engine.idle ∧ t.ring p = Ring.torn ∧ (∀ e ∈ t.cache.entries, e.port ≠ p) ∧
    (∀ y, s.cache.outstanding p = some y → ∀ f, t.cache.slots[y] = some f → f.port ≠ p) ∧ t.cache.holds[p] = none ∧
    TagJoins p found s.cache t.cache ∧
    DeliveryReturns p s t ∧
    ((s.engine p).kind = .delivered → t.incidents =
      (s.post .portFault (.port p) (s.engine p).slice (BitVec.ofNat 64 cause.code)).incidents) ∧
    FlushedWaitEnds p cause s t

end Sys2Proof.Machine
end

