-- ==== Sys2Proof/Certificates/Slice0/Obligations.lean ====
section
/-! DEFINITION. The statements about the SA24: what reset leaves, what each command does and what it leaves alone, and
what every step keeps. -/

open Sys2Proof Sys2Proof.Machine

/-! ## Reset and the queue -/

/-- R33: what the slice table holds after device reset. -/
def Obligations.ResetHoldsTheSliceTableValues : Prop :=
  State.reset.frontier = 0 ∧ State.reset.newestOpened = 0xFFFFFFFF ∧ State.reset.newestStrobe = 0xFFFFFFFF ∧
    State.reset.run = .stopped ∧
    (∀ r, (State.reset.rx r).record = none ∧ (State.reset.rx r).current = none) ∧
    ∀ i, (State.reset.ctx i).slice = 0 ∧ (State.reset.ctx i).state = .unopened ∧ (State.reset.ctx i).expected = 0 ∧
      (State.reset.ctx i).dropped = 0 ∧
      (∀ q, (State.reset.ctx i).chain q = { state := .none, head := 0, tail := 0, words := 0, fill := 0 }) ∧
      (State.reset.ctx i).deadline = 0 ∧ (State.reset.ctx i).openedAt = 0 ∧ (State.reset.ctx i).closure = none ∧
      (State.reset.ctx i).directory = none ∧
      (State.reset.ctx i).flags.duplicateSeen = false ∧ (State.reset.ctx i).flags.lateSeen = false ∧
      (State.reset.ctx i).flags.crcSeen = false ∧ (State.reset.ctx i).flags.uncorrectable = false ∧
      (State.reset.ctx i).flags.redirected = false ∧
      (State.reset.ctx i).firstUncorrectable = none ∧ (State.reset.ctx i).totalWords = 0

/-- R56, R58 to R60, R62, R64, R75, R81, R86, R104, R106, R130, R133, R137, R145, R148, R150, R166, R182, R185 and
R191: the other blocks after device reset, field by field. That a receiver's signal is absent is the model's choice
(log 4), and so are the empty image header of an IDLE engine (log 25) and the list of messages sent (log 26). -/
def Obligations.ResetHoldsTheBlockValues : Prop :=
  (∀ r, State.reset.rx r =
      { link := .down, timer := none, barred := .none, signal := false, errors := [], framer := .idle, buffer := [],
        early := false, noPages := false, current := none, record := none } ∧
      State.reset.holdPressure r = false ∧ (State.reset.rx r).holdLow = false ∧ State.reset.backChannel r = .hold) ∧
    State.reset.lastServed = 23 ∧ State.reset.pool.free = List.range' 1 16383 ∧ State.reset.pool.occupancy = 0 ∧
    State.reset.pool.retired = [] ∧
    (∀ page, State.reset.pool.linkOf page = 0 ∧ State.reset.pool.attributeOf page = .clear) ∧
    State.reset.pressure.level = 0 ∧ State.reset.pressure.held = false ∧ State.reset.pressure.heldFor = 0 ∧
    State.reset.ready = [] ∧
    (∀ p, State.reset.engine p =
        { state := .idle, assigned := none, header := [], imageLength := 0, readPosition := 0, bufferFill := 0,
          firstBuffer := none, buffers := 0, cut := false, kind := .delivered } ∧
      State.reset.port p =
        { state := .linkDown, cause := none, reservation := none, staging := Vector.replicate 8 none, cursor := none,
          notifyPending := false, quietUntil := none } ∧
      State.reset.ring p =
        { parameters := none, announced := 0, fetched := 0, consumed := 0, announcedConsumed := 0, produced := 0 } ∧
      State.reset.cache.outstanding p = none ∧ State.reset.cache.cachedCount p = 0 ∧
      State.reset.cache.reservedCount p = 0 ∧ State.reset.cache.currentBuffer p = none ∧
      State.reset.cache.holds[p] = none ∧ State.reset.cache.abandoned[p] = 0 ∧ State.reset.sent[p] = []) ∧
    State.reset.cache.entries = [] ∧ (∀ t : Fin 4, State.reset.cache.slots[t] = none) ∧ State.reset.cache.granted = 3 ∧
    (∀ n, State.reset.generation n = 0) ∧
    (State.reset.contents .run).toList = [0, 0, 0xFFFFFFFF, 0xFFFFFFFF, 0, 0, 0, 0] ∧
    (State.reset.contents .slot).toList = [2, 0, 0, 0, 0, 0, 0, 0] ∧
    (State.reset.contents .assembly).toList = [400, 256, 0, 0, 0, 0, 0, 0] ∧
    (State.reset.contents .linktime).toList = [100, 1000, 0, 0, 0, 0, 0, 0] ∧
    (∀ r, (State.reset.contents (.linkmap r)).toList = [BitVec.ofNat 64 r.val, 1, 0, 0, 0, 0, 0, 0]) ∧
    (State.reset.contents .pressure).toList = [12288, 14336, 15360, 512, 2, 6, 12, 2] ∧
    (∀ i, (State.reset.contents (.steer i)).toList =
      [4, BitVec.ofNat 64 (i.val % 4), BitVec.ofNat 64 ((i.val + 1) % 4), BitVec.ofNat 64 ((i.val + 2) % 4),
        BitVec.ofNat 64 ((i.val + 3) % 4), 0, 0, 0]) ∧
    (State.reset.contents .dispatch).toList = [50, 0, 0, 0, 0, 0, 0, 0] ∧
    (State.reset.contents .cache).toList = [4, 16, 4, 8, 0, 0, 0, 0] ∧
    (∀ p, (State.reset.contents (.portcfg p)).toList = [20, 0, 0, 0, 0, 0, 0, 0]) ∧
    (State.reset.contents .outputs).toList = [1, 0, 0, 0, 0, 0, 0, 0] ∧
    State.reset.incidents = [] ∧ State.reset.counter = 0 ∧ State.reset.slotLength = 2 ∧
    (∀ c, State.reset.condition c = true ↔ c = 3 ∨ c = 6) ∧ ∀ i, State.reset.lineHigh i = false

/-- DEVICE_RESET gives every block its reset state; the words of the store stay (R57), and so does the queue (log
6). -/
def Obligations.DeviceResetGivesTheResetState : Prop :=
  ∀ s : State, exec .deviceReset s = .next
    { State.reset with
      pool := { PagePool.reset with store := s.pool.store, conditions := s.pool.conditions }
      pending := s.pending }

/-- A step takes the command at the front of the queue and carries it out on the queue's rest; with an empty queue the
part idles (the model's choice, log 1). -/
def Obligations.StepTakesTheFrontCommand : Prop :=
  (∀ (c : Instr) (rest : List Instr) (s : State), s.pending = c :: rest → step s = exec c (s.setPending rest)) ∧
  ∀ s : State, s.pending = [] → step s = .next s

/-! ## Pad-link receivers -/

/-- R35, the events that move a link below UP, and SIGNAL_PRESENT in every state. The framer is emptied at the entry
into and the exit from PROBATION (the model's choice, log 13). -/
def Obligations.LineEventsMoveALinkBelowUp : Prop :=
  ∀ (r : ReceiverId) (s : State),
    exec (.signalPresent r) s = .next (s.setRx r
      (if (s.rx r).link = .down then { s.rx r with signal := true, link := .aligning, timer := none }
        else { s.rx r with signal := true })) ∧
    ((s.rx r).link ≠ .up → exec (.signalAbsent r) s = .next (s.setRx r
      (match (s.rx r).link with
        | .aligning => { s.rx r with signal := false, link := .down, timer := none }
        | .probation => { s.rx r with signal := false, link := .down, timer := none, framer := .idle }
        | _ => { s.rx r with signal := false }))) ∧
    exec (.alignmentFound r) s = .next
      (if (s.rx r).link = .aligning then
        s.setRx r { s.rx r with
          link := .probation, timer := some (s.counter + BitVec.ofNat 32 s.probationTime), framer := .idle }
      else s) ∧
    ((s.rx r).link ≠ .up → exec (.alignmentLost r) s = .next
      (if (s.rx r).link = .probation then s.setRx r { s.rx r with link := .aligning, timer := none, framer := .idle }
      else s))

/-- R38, R41 and R25: a link that loses its signal or its alignment in UP is barred with reason LOST; its buffer,
framer and hold reasons are empty and its bar timer runs. Its source then drops out of the slice table
(SourceDropsOut): the record is rolled back, the current fragment cleared, every OPEN slice that still waits for it
drops it, its RECEIVING chains become PARTIAL, and the slices concerned are checked for closure. LINK_LOST with SIGNAL
(1) or ALIGNMENT (2) is posted last, unless the lost-mask is set. The cache's own work follows (settleCache, log
19). -/
def Obligations.LossInUpBarsTheLink : Prop :=
  ∀ (r : ReceiverId) (s u : State) (c : Instr), (c = .signalAbsent r ∨ c = .alignmentLost r) → (s.rx r).link = .up →
    u = s.setRx r { s.rx r with
      signal := if c = .signalAbsent r then false else (s.rx r).signal
      link := .barred, timer := some (s.counter + BitVec.ofNat 32 s.barTime), barred := .lost, framer := .idle
      buffer := [], early := false, noPages := false } →
    ∃ v t : State, SourceDropsOut r u v ∧ exec c s = .next t ∧
      t = (if s.lostMask r = true then v
        else v.post .linkLost (.link r) none (if c = .signalAbsent r then 1 else 2)).settleCache ∧
      v.counter = s.counter ∧ (s.mapping r = none ∨ s.FreesQuietly → v.incidents = s.incidents) ∧
      (t.rx r).link = .barred ∧ (t.rx r).barred = .lost ∧
      (t.rx r).timer = some (s.counter + BitVec.ofNat 32 s.barTime) ∧ (t.rx r).buffer = [] ∧
      (t.rx r).framer = .idle ∧ (t.rx r).early = false ∧ (t.rx r).noPages = false ∧
      (t.rx r).errors = (s.rx r).errors ∧
      ∀ q, s.mapping r = some q →
        (t.rx r).record = none ∧ (t.rx r).current = none ∧
        ∀ i, (s.ctx i).state = .opened → ((s.ctx i).chain q).state.final = false →
          member (t.ctx i).expected q = false ∧
          (member (s.ctx i).expected q = true → member (t.ctx i).dropped q = true) ∧
          (((s.ctx i).chain q).state = .receiving → ((t.ctx i).chain q).state = .partial_)

/-- R35, R37, R39 and R41: at the end of its probation a receiver enters UP with an empty error-time list and posts
LINK_UP unless its up-mask is set; when its bar timer runs out it goes to ALIGNING with its signal present, else to
DOWN. Before the end of the timer nothing happens (log 2). -/
def Obligations.LinkTimersRunOut : Prop :=
  ∀ (r : ReceiverId) (s : State),
    (∀ e, (s.rx r).timer = some e → ahead (e - s.counter) = false →
      ((s.rx r).link = .probation → exec (.probationExpiry r) s = .next
        (if s.upMask r = true then s.setRx r { s.rx r with link := .up, timer := none, errors := [] }
        else (s.setRx r { s.rx r with link := .up, timer := none, errors := [] }).post .linkUp (.link r) none 0)) ∧
      ((s.rx r).link = .barred → exec (.barExpiry r) s = .next (s.setRx r
        { s.rx r with link := if (s.rx r).signal = true then .aligning else .down, timer := none }))) ∧
    ((s.rx r).link ≠ .probation → exec (.probationExpiry r) s = .next s) ∧
    ((s.rx r).link ≠ .barred → exec (.barExpiry r) s = .next s) ∧
    ((s.rx r).timer = none ∨ (∃ e, (s.rx r).timer = some e ∧ ahead (e - s.counter) = true) →
      exec (.probationExpiry r) s = .next s ∧ exec (.barExpiry r) s = .next s)

/-- R42, R45, R47 and R36: a START opens a segment in PROBATION and UP. One that meets an open segment ends it: in UP
with a FRAMING error of cause LATE_END where its END is due and BROKEN elsewhere, and opens the new segment; where
every word of an accepted segment is written its verdict is delivered between the two; in PROBATION it ends probation,
which empties the framer (the model's choice, log 13). That a segment whose header is not read posts FRAMING, and
without a slice number, is the model's choice (log 11). In the other link states the framer sees nothing. An IDLE
symbol changes nothing in any state. Each effect is followed by the cache's own work (settleCache, log 19). -/
def Obligations.StartOpensASegmentAndIdleDoesNothing : Prop :=
  ∀ (r : ReceiverId) (s : State),
    (∀ n : OpenSegment, ((s.rx r).link = .probation ∧ n.fate = .watched ∨ (s.rx r).link = .up ∧ n.fate = .pending) →
      n.received = 0 → n.header0 = 0 → n.header = none → n.crc = 0xFFFFFFFF → n.crcWord = 0 →
      (((s.rx r).framer = .idle ∨ (s.rx r).framer = .stray ∨ (s.rx r).framer = .dropping) →
        exec (.startSymbol r) s = .next (s.setRx r { s.rx r with framer := .segment n }).settleCache) ∧
      ∀ (o : OpenSegment) (cause : Nat), (s.rx r).link = .up → (s.rx r).framer = .segment o →
        (cause = 2 ∧ (∃ h, o.header = some h ∧ o.received = 3 + h.length) ∨
          cause = 3 ∧ ∀ h, o.header = some h → o.received ≠ 3 + h.length) →
        FramingEnds (.startSymbol r) s r cause (.segment n) ∧
        ∀ (g : BufferedSegment) (t : State), o.fate = .stored → (s.rx r).newest = some g → (s.rx r).head = some g →
          g.place ≠ .waiting → g.payload = [] →
          t = ((s.setRx r { (s.rx r).setNewest { g with verdict := some .framing } with framer := .idle }).withFraming r
            cause o.header).settleVerdict r →
          exec (.startSymbol r) s = .next (t.setRx r { t.rx r with framer := .segment n }).settleCache) ∧
    (∀ o, (s.rx r).link = .probation → (s.rx r).framer = .segment o →
      exec (.startSymbol r) s =
        .next (s.setRx r { s.rx r with link := .aligning, timer := none, framer := .idle }).settleCache) ∧
    ((s.rx r).link = .down ∨ (s.rx r).link = .aligning ∨ (s.rx r).link = .barred → exec (.startSymbol r) s = .next s) ∧
    exec (.idle r) s = .next s

/-- R36, R42, R43, R44, R48 and R193: the header words of a segment, each field read from the bits R193 gives it, and
a word with no segment open. The first header word is kept; but one that finds 2048 words held, of a segment still to
be judged in UP that it leaves open to admission (its source the mapped one of an enrolled receiver, its EMPTY flag on
an ONLY alone), is lost: words are dropped and RX_OVERRUN is posted without a slice number (the model's choice, log
39). The second decides: a length above 1024, or an EMPTY flag on a segment that may not carry it, refuses the
segment. In PROBATION that ends probation, and the words of a segment watched since PROBATION are dropped in UP
without an incident (the model's choice, log 13). In UP the LINKMAP entry passes the segment over, finds it misrouted,
or admits it, whose two header words enter the buffer together, or overrun it with RX_OVERRUN and the slice number
(log 10). A word with no segment open begins a stray run, which posts FRAMING with cause STRAY, or ends probation; in
a stray run and where words are dropped it has no effect. In the other link states the framer sees nothing. The
cache's own work follows (settleCache, log 19). -/
def Obligations.HeaderWordsDecideAdmission : Prop :=
  (∀ (w0 w1 : Word) (h : SegmentHeader), h = parseHeader w0 w1 →
    h.slice = w0.extractLsb' 0 32 ∧ h.source = w0.extractLsb' 32 5 ∧ h.kind.code = (w0.extractLsb' 40 2).toNat ∧
    h.empty = w0.getLsbD 44 ∧ h.truncated = w0.getLsbD 45 ∧ h.length = (w1.extractLsb' 0 11).toNat) ∧
  [SegmentKind.first, .middle, .last, .only].map SegmentKind.code = [0, 1, 2, 3] ∧
  (∀ (r : ReceiverId) (s : State) (w : Word),
    (∀ (o : OpenSegment) (lost : Prop), ((s.rx r).link = .up ∨ (s.rx r).link = .probation) →
      (s.rx r).framer = .segment o → o.header = none → o.received = 0 →
      (lost ↔ (s.rx r).link = .up ∧ o.fate = .pending ∧ 2048 ≤ (s.rx r).held ∧ s.enrolled r = true ∧
        (∃ q, s.mapping r = some q ∧ (w.extractLsb' 32 5).toNat = q.val) ∧
        (w.getLsbD 44 = true → w.extractLsb' 40 2 = 3)) →
      (lost → exec (.dataWord r w) s = .next
        ((s.setRx r { s.rx r with framer := .dropping }).post .rxOverrun (.link r) none 0).settleCache) ∧
      (¬lost → exec (.dataWord r w) s = .next (s.setRx r { s.rx r with
        framer := .segment { o with received := 1, header0 := w, crc := crcWord o.crc w } }).settleCache)) ∧
    ((s.rx r).framer = .idle →
      ((s.rx r).link = .up → exec (.dataWord r w) s =
        .next ((s.setRx r { s.rx r with framer := .stray }).withFraming r 4 none).settleCache) ∧
      ((s.rx r).link = .probation → exec (.dataWord r w) s =
        .next (s.setRx r { s.rx r with link := .aligning, timer := none, framer := .idle }).settleCache)) ∧
    (((s.rx r).link = .up ∨ (s.rx r).link = .probation) → ((s.rx r).framer = .stray ∨ (s.rx r).framer = .dropping) →
      exec (.dataWord r w) s = .next s.settleCache) ∧
    ((s.rx r).link = .down ∨ (s.rx r).link = .aligning ∨ (s.rx r).link = .barred →
      exec (.dataWord r w) s = .next s)) ∧
  ∀ (r : ReceiverId) (s : State) (o p : OpenSegment) (w : Word) (h : SegmentHeader) (fails : Prop),
    (s.rx r).framer = .segment o → o.received = 1 → o.header = none →
    h = parseHeader o.header0 w → p = { o with received := 2, header := some h, crc := crcWord o.crc w } →
    (fails ↔ 1024 < h.length ∨ h.empty = true ∧ (h.kind ≠ .only ∨ h.length ≠ 0)) →
    ((s.rx r).link = .probation → fails → exec (.dataWord r w) s =
      .next (s.setRx r { s.rx r with link := .aligning, timer := none, framer := .idle }).settleCache) ∧
    (o.fate = .watched →
      ((s.rx r).link = .up → fails →
        exec (.dataWord r w) s = .next (s.setRx r { s.rx r with framer := .dropping }).settleCache) ∧
      ((s.rx r).link = .up ∨ (s.rx r).link = .probation → ¬fails →
        exec (.dataWord r w) s = .next (s.setRx r { s.rx r with framer := .segment p }).settleCache)) ∧
    ((s.rx r).link = .up → o.fate = .pending →
      (fails → exec (.dataWord r w) s = .next
        (if s.inService r = true then
          (s.setRx r { s.rx r with framer := .dropping }).post .framing (.link r) (some h.slice)
            (fieldAt 8 (if 1024 < h.length then 5 else 6) ||| fieldAt 0 h.kind.code)
        else s.setRx r { s.rx r with framer := .dropping }).settleCache) ∧
      (¬fails →
        ((s.mapping r = none ∨ s.enrolled r = false) →
          exec (.dataWord r w) s = .next
            (s.setRx r { s.rx r with framer := .segment { p with fate := .passedOver } }).settleCache) ∧
        ∀ q, s.mapping r = some q → s.enrolled r = true →
          (h.source.toNat ≠ q.val →
            exec (.dataWord r w) s = .next
              ((s.setRx r { s.rx r with framer := .segment { p with fate := .misrouted } }).post .misrouted (.link r)
                (some h.slice) (BitVec.ofNat 64 h.source.toNat)).settleCache) ∧
          (h.source.toNat = q.val → (s.rx r).held ≤ 2046 →
            exec (.dataWord r w) s = .next (s.setRx r
              { s.rx r with
                buffer := (s.rx r).buffer ++ [{ header := h, place := .waiting, payload := [], verdict := none }]
                framer := .segment { p with fate := .stored } }).settleCache) ∧
          (h.source.toNat = q.val → 2046 < (s.rx r).held →
            exec (.dataWord r w) s = .next ((s.setRx r { s.rx r with framer := .dropping }).post .rxOverrun (.link r)
              (some h.slice) 0).settleCache)))

/-- R46, R48, R42, R193 and R36: the words of a segment past its header. A payload word of an admitted segment enters
the elastic buffer while a word is free there; with none free it is lost, the segment's verdict is FRAMING and
RX_OVERRUN is posted (the framer then drops words, log 14). A payload word of a segment that is watched, passed over,
misrouted or discarded, or whose remainder was discarded, is only counted and checked. The CRC word is kept. A word
where the END is due is the framing error LATE_END in UP and ends probation in PROBATION, which empties the framer
(the model's choice, log 13). The cache's own work follows (settleCache, log 19). -/
def Obligations.PayloadWordsEnterTheBuffer : Prop :=
  ∀ (r : ReceiverId) (s : State) (o : OpenSegment) (h : SegmentHeader) (w : Word),
    (s.rx r).framer = .segment o → o.header = some h →
    (∀ g, (s.rx r).link = .up → o.fate = .stored → o.received < 2 + h.length → (s.rx r).newest = some g →
      (g.place = .waiting ∨ g.place = .accepted) →
      ((s.rx r).held < 2048 →
        exec (.dataWord r w) s = .next (s.setRx r
          { (s.rx r).setNewest { g with payload := g.payload ++ [w] } with
            framer := .segment { o with received := o.received + 1, crc := crcWord o.crc w } }).settleCache) ∧
      ∀ u, (s.rx r).held = 2048 → (∀ f, (s.rx r).head = some f → f.place = .waiting ∨ f.payload ≠ []) →
        u = s.setRx r { (s.rx r).setNewest { g with verdict := some .framing } with framer := .dropping } →
        exec (.dataWord r w) s = .next
          (if s.inService r = true then u.post .rxOverrun (.link r) (some h.slice) 0 else u).settleCache) ∧
    ((s.rx r).link = .up ∨ (s.rx r).link = .probation →
      (o.received < 2 + h.length →
        (o.fate ≠ .stored ∨ ∃ g limit, (s.rx r).newest = some g ∧ g.place = .remainder limit) →
        exec (.dataWord r w) s = .next (s.setRx r { s.rx r with
          framer := .segment { o with received := o.received + 1, crc := crcWord o.crc w } }).settleCache) ∧
      (o.received = 2 + h.length →
        exec (.dataWord r w) s = .next (s.setRx r { s.rx r with
          framer := .segment { o with received := 3 + h.length, crcWord := w.extractLsb' 0 32 } }).settleCache)) ∧
    (3 + h.length ≤ o.received →
      ((s.rx r).link = .up →
        FramingEnds (.dataWord r w) s r 2 .dropping ∧ FramingDelivers (.dataWord r w) s r 2 .dropping) ∧
      ((s.rx r).link = .probation → exec (.dataWord r w) s =
        .next (s.setRx r { s.rx r with link := .aligning, timer := none, framer := .idle }).settleCache))

/-- R34, R42, R45, R47 and R36: a broken word inside a segment in UP ends it with the framing error BROKEN, and words
are dropped; where the END is due as well (the model's choice, log 33). That a segment whose header is not read posts
FRAMING, and without a slice number, is the model's choice (log 11). In PROBATION it ends probation, which empties the
framer (the model's choice, log 13); with no segment open it has no effect (log 12). The cache's own work follows
(settleCache, log 19). -/
def Obligations.BrokenWordEndsTheSegment : Prop :=
  ∀ (r : ReceiverId) (s : State),
    ((s.rx r).link = .up → FramingEnds (.brokenWord r) s r 3 .dropping ∧ FramingDelivers (.brokenWord r) s r 3 .dropping) ∧
    (∀ o, (s.rx r).link = .probation → (s.rx r).framer = .segment o →
      exec (.brokenWord r) s =
        .next (s.setRx r { s.rx r with link := .aligning, timer := none, framer := .idle }).settleCache) ∧
    (((s.rx r).link = .up ∨ (s.rx r).link = .probation) →
      ((s.rx r).framer = .idle ∨ (s.rx r).framer = .stray ∨ (s.rx r).framer = .dropping) →
      exec (.brokenWord r) s = .next s.settleCache) ∧
    ((s.rx r).link = .down ∨ (s.rx r).link = .aligning ∨ (s.rx r).link = .barred → exec (.brokenWord r) s = .next s)

/-- R42, R193, R45, R36 and R40: the CRC divides each word from its bit 0 up, and an END where it is due takes the
verdict by it. GOOD is held in the buffer with an admitted segment and has no effect of another. CRC_BAD ends
probation; in UP it posts CRC_BAD for an admitted segment, joins the error-time list, which keeps the four newest
stamps, and while these show no burst is held with an admitted segment. A segment watched since PROBATION has no
effect in UP (the model's choice, log 13). An END before its place is the framing error EARLY_END in UP, which posts
FRAMING without a slice number where the header is not read (the model's choice, log 11), and ends probation in
PROBATION. One with no segment open begins a stray run, posts FRAMING with cause STRAY or ends probation; in a stray
run it has no effect, and one that ends the dropping of words has no other. In the other link states the framer sees
nothing. The cache's own work follows (settleCache, log 19). -/
def Obligations.EndSymbolTakesTheVerdict : Prop :=
  (∀ (c : BitVec 32) (w : Word), crcWord c w = (List.range 64).foldl (fun (x : BitVec 32) (k : Nat) =>
    if x.getLsbD 0 = w.getLsbD k then x >>> 1 else (x >>> 1) ^^^ 0xEDB88320) c) ∧
  ∀ (r : ReceiverId) (s : State),
    (∀ (o : OpenSegment) (h : SegmentHeader), (s.rx r).framer = .segment o → o.header = some h →
      o.received = 3 + h.length →
      (∀ g, (s.rx r).link = .up → o.fate = .stored → ~~~o.crc = o.crcWord → (s.rx r).newest = some g →
        (∀ f, (s.rx r).head = some f → f.place = .waiting ∨ f.payload ≠ []) →
        exec (.endSymbol r) s = .next (s.setRx r
          { (s.rx r).setNewest { g with verdict := some .good } with framer := .idle }).settleCache) ∧
      ((s.rx r).link = .probation ∨ (s.rx r).link = .up ∧ o.fate ≠ .stored → ~~~o.crc = o.crcWord →
        exec (.endSymbol r) s = .next (s.setRx r { s.rx r with framer := .idle }).settleCache) ∧
      ((s.rx r).link = .probation → ~~~o.crc ≠ o.crcWord →
        exec (.endSymbol r) s =
          .next (s.setRx r { s.rx r with link := .aligning, timer := none, framer := .idle }).settleCache) ∧
      ((s.rx r).link = .up → o.fate = .watched →
        exec (.endSymbol r) s = .next (s.setRx r { s.rx r with framer := .idle }).settleCache) ∧
      ∀ l, (s.rx r).link = .up → ~~~o.crc ≠ o.crcWord → (s.rx r).errors.length ≤ 4 →
        l = (s.rx r).errors.drop ((s.rx r).errors.length - 3) ++ [s.counter] →
        (l.length < 4 ∨ 64 ≤ (s.counter - l.headD 0).toNat) →
        (o.fate = .passedOver ∨ o.fate = .misrouted →
          exec (.endSymbol r) s = .next (s.setRx r { s.rx r with framer := .idle, errors := l }).settleCache) ∧
        (o.fate = .discarded → ∀ u, u = s.setRx r { s.rx r with framer := .idle, errors := l } →
          exec (.endSymbol r) s = .next (if s.inService r = true then
            u.post .crcBad (.link r) (some h.slice) (fieldAt 0 h.kind.code) else u).settleCache) ∧
        ∀ g, o.fate = .stored → (s.rx r).newest = some g →
          (∀ f, (s.rx r).head = some f → f.place = .waiting ∨ f.payload ≠ []) →
          ∀ u, u = s.setRx r
            { (s.rx r).setNewest { g with verdict := some .crcBad } with framer := .idle, errors := l } →
          exec (.endSymbol r) s = .next (if s.inService r = true then
            u.post .crcBad (.link r) (some h.slice) (fieldAt 0 h.kind.code) else u).settleCache) ∧
    (∀ o, (s.rx r).framer = .segment o → (∀ h, o.header = some h → o.received ≠ 3 + h.length) →
      ((s.rx r).link = .up → FramingEnds (.endSymbol r) s r 1 .idle ∧ FramingDelivers (.endSymbol r) s r 1 .idle) ∧
      ((s.rx r).link = .probation → exec (.endSymbol r) s =
        .next (s.setRx r { s.rx r with link := .aligning, timer := none, framer := .idle }).settleCache)) ∧
    ((s.rx r).framer = .idle →
      ((s.rx r).link = .up → exec (.endSymbol r) s =
        .next ((s.setRx r { s.rx r with framer := .stray }).withFraming r 4 none).settleCache) ∧
      ((s.rx r).link = .probation → exec (.endSymbol r) s =
        .next (s.setRx r { s.rx r with link := .aligning, timer := none, framer := .idle }).settleCache)) ∧
    ((s.rx r).link = .up ∨ (s.rx r).link = .probation →
      ((s.rx r).framer = .stray → exec (.endSymbol r) s = .next s.settleCache) ∧
      ((s.rx r).framer = .dropping →
        exec (.endSymbol r) s = .next (s.setRx r { s.rx r with framer := .idle }).settleCache)) ∧
    ((s.rx r).link = .down ∨ (s.rx r).link = .aligning ∨ (s.rx r).link = .barred → exec (.endSymbol r) s = .next s)

/-- R40, R45, R38 and R25: the CRC_BAD verdict that makes the error-time list hold four stamps within 64 slots posts
its CRC_BAD if the segment is admitted and the receiver mapped and enrolled, and bars the link with reason BURST: its
buffer, framer and hold reasons are empty and its bar timer runs. Its source drops out of the slice table
(SourceDropsOut), and ERROR_BURST is posted with the span of the list, which stays as it is. The cache's own work
follows (settleCache, log 19). -/
def Obligations.ErrorBurstBarsTheLink : Prop :=
  ∀ (r : ReceiverId) (s u w : State) (o : OpenSegment) (h : SegmentHeader) (l : List Stamp),
    (s.rx r).link = .up → (s.rx r).framer = .segment o → o.header = some h → o.received = 3 + h.length →
    (o.fate = .passedOver ∨ o.fate = .misrouted ∨ o.fate = .stored ∨ o.fate = .discarded) → ~~~o.crc ≠ o.crcWord →
    (s.rx r).errors.length ≤ 4 → l = (s.rx r).errors.drop ((s.rx r).errors.length - 3) ++ [s.counter] →
    l.length = 4 → (s.counter - l.headD 0).toNat < 64 →
    w = (if (o.fate = .stored ∨ o.fate = .discarded) ∧ s.inService r = true then
      s.post .crcBad (.link r) (some h.slice) (fieldAt 0 h.kind.code) else s) →
    u = w.setRx r { s.rx r with
      link := .barred, timer := some (s.counter + BitVec.ofNat 32 s.barTime), barred := .burst, errors := l
      framer := .idle, buffer := [], early := false, noPages := false } →
    ∃ v t : State, SourceDropsOut r u v ∧ exec (.endSymbol r) s = .next t ∧
      t = (v.post .errorBurst (.link r) none (BitVec.ofNat 64 (s.counter - l.headD 0).toNat)).settleCache ∧
      v.counter = s.counter ∧ (s.mapping r = none ∨ s.FreesQuietly → v.incidents = w.incidents) ∧
      (t.rx r).link = .barred ∧ (t.rx r).barred = .burst ∧ (t.rx r).errors = l ∧
      (t.rx r).timer = some (s.counter + BitVec.ofNat 32 s.barTime) ∧ (t.rx r).buffer = [] ∧
      ∀ q, s.mapping r = some q →
        (t.rx r).record = none ∧ (t.rx r).current = none ∧
        ∀ i, (s.ctx i).state = .opened → ((s.ctx i).chain q).state.final = false →
          member (t.ctx i).expected q = false ∧
          (member (s.ctx i).expected q = true → member (t.ctx i).dropped q = true) ∧
          (((s.ctx i).chain q).state = .receiving → ((t.ctx i).chain q).state = .partial_)

/-- R49, R51 and R52: the symbol on the back channel by link state and hold reasons. -/
def Obligations.BackChannelFollowsTheHoldReasons : Prop :=
  ∀ (r : ReceiverId) (s : State),
    ((s.rx r).link = .down ∨ (s.rx r).link = .aligning ∨ (s.rx r).link = .barred → s.backChannel r = .hold) ∧
    ((s.rx r).link = .probation → s.backChannel r = .go) ∧
    ((s.rx r).link = .up → (s.backChannel r = .hold ↔
      (s.pressure.held = true ∧ (s.run = .running ∨ s.run = .draining)) ∨ (s.rx r).early = true ∨
        2048 - (s.rx r).held < 256 ∨ (s.rx r).noPages = true))

/-! ## Slice assembly -/

/-- R7: a source is expected by a slice opened now when its receiver is mapped to it, enrolled and UP. -/
def Obligations.ExpectedSetIsTheSourcesUp : Prop :=
  ∀ (s : State) (q : SourceId), member s.expectedNow q = true ↔
    ∃ r, s.mapping r = some q ∧ s.enrolled r = true ∧ (s.rx r).link = .up

/-- R29, R7, R8, R4 and R20: in RUNNING a notice ahead of the newest strobe becomes it, and slices are opened toward
it; one not ahead of the strobe posts TIMING; in the other run states a notice is ignored. Slices are opened through
an in-window number, or through the frontier plus 63 for an early one, and none for a late one or outside RUNNING.
They are opened one after the other, each with the values of R4 and a closure check: with a source to expect, every
slice from the newest opened on is OPEN; with none, each closes COMPLETE at once. The cache's own work follows
(settleCache, log 19). -/
def Obligations.SliceStartOpensTheWindow : Prop :=
  (∀ (s : State) (n : Slice),
    (s.run = .running → ahead (n - s.newestStrobe) = true →
      exec (.sliceStart n) s = .next ((s.setNewestStrobe n).openToward n).settleCache) ∧
    (s.run = .running → ahead (n - s.newestStrobe) = false →
      exec (.sliceStart n) s = .next (s.post .timing .none (some n) (BitVec.ofNat 64 s.newestStrobe.toNat))) ∧
    (s.run ≠ .running → exec (.sliceStart n) s = .next s)) ∧
  (∀ (s : State) (n : Slice) (last : Nat),
    (s.run ≠ .running ∨ 2 ^ 31 ≤ distance s.frontier n → s.openToward n = s) ∧
    (s.run = .running → distance s.frontier n < 2 ^ 31 → last = min (distance s.frontier n) 63 →
      s.openToward n = (List.range (last + 1 - s.openCount)).foldl (fun t _ => t.openNext) s ∧
      (last < s.openCount → s.openToward n = s) ∧
      (s.openCount ≤ last → s.expectedNow ≠ 0 → s.openToward n = { s with
        newestOpened := s.frontier + BitVec.ofNat 32 last
        contexts := Vector.ofFn fun i : SlotId =>
          if s.openCount ≤ (i - slotOf s.frontier).val ∧ (i - slotOf s.frontier).val ≤ last then
            { Context.unopened with
              slice := s.frontier + BitVec.ofNat 32 (i - slotOf s.frontier).val, state := .opened
              expected := s.expectedNow, deadline := s.deadline, openedAt := s.counter }
          else s.ctx i }))) ∧
  ∀ (s u : State) (n : Slice) (i : SlotId), n = s.newestOpened + 1 → i = slotOf n →
    u = (s.setCtx i { Context.unopened with
      slice := n, state := .opened, expected := s.expectedNow, deadline := s.deadline
      openedAt := s.counter }).setNewestOpened n →
    s.openNext = u.closureCheck i ∧ (s.expectedNow ≠ 0 → s.openNext = u) ∧
    (s.expectedNow = 0 → ClosedAs u s.openNext i .complete ∧ ∀ q, (u.ctx i).status q = .notExpected)

/-- R11, R46 and R55: in STOPPED and FLUSHING a presented segment is discarded whole with no incident, and so are in
DRAINING one whose slice is not in window or not opened, and in every run state one of a receiver that is not mapped
or not enrolled (log 16). The cache's own work follows (settleCache, log 19). -/
def Obligations.SegmentsAreDiscardedOutsideARun : Prop :=
  ∀ (r : ReceiverId) (s : State) (g : BufferedSegment) (rest : List BufferedSegment),
    (s.rx r).link = .up → (s.rx r).early = false →
    ((s.rx r).current = none ∨ g.header.kind = .middle ∨ g.header.kind = .last) → (s.rx r).buffer = g :: rest →
    g.place = .waiting →
    ((s.run = .stopped ∨ s.run = .flushing) ∨
      s.run = .draining ∧
        (64 ≤ distance s.frontier g.header.slice ∨ (s.ctx (slotOf g.header.slice)).state = .unopened) ∨
      s.mapping r = none ∨ s.enrolled r = false) →
    exec (.placement r) s = .next (s.setRx r
      { s.rx r with
        buffer := rest
        framer := if g.verdict = none then (s.rx r).framer.disowned else (s.rx r).framer }).settleCache

/-- R13 and R9: in RUNNING a segment of an early slice stays where it is and its receiver holds with EARLY; a segment
that is stalled is not presented by this step again (log 2). The cache's own work follows (settleCache, log 19). -/
def Obligations.EarlySegmentStalls : Prop :=
  ∀ (r : ReceiverId) (s : State) (g : BufferedSegment) (q : SourceId),
    ((s.rx r).link = .up → (s.rx r).early = false →
      ((s.rx r).current = none ∨ g.header.kind = .middle ∨ g.header.kind = .last) → (s.rx r).head = some g →
      g.place = .waiting → s.mapping r = some q → s.enrolled r = true → s.run = .running →
      64 ≤ distance s.frontier g.header.slice → distance s.frontier g.header.slice < 2 ^ 31 →
      exec (.placement r) s = .next (s.setRx r { s.rx r with early := true }).settleCache) ∧
    ((s.rx r).early = true → exec (.placement r) s = .next s)

/-- R14, R15, R5, R7 and R63: what is accepted: a FIRST or ONLY for an OPEN slot whose chain is NONE, or, in RUNNING,
for an UNOPENED one, after the slices through its own are opened; and a MIDDLE or LAST of the current fragment whose
chain is RECEIVING. Its header words leave the buffer, its provisional record is made from the chain as it stands, and
a FIRST makes the chain RECEIVING. Where the segment has no payload words left and its verdict is taken, that verdict
is delivered (settleVerdict, R47; the model's choice, log 17). R10: a FIRST or ONLY that finds a fragment in progress
is judged as if that fragment had first been cut, its chain PARTIAL, and its slice checked for closure. The cache's
own work follows (settleCache, log 19). -/
def Obligations.SegmentsAreAccepted : Prop :=
  (∀ (r : ReceiverId) (s u v : State) (g : BufferedSegment) (rest : List BufferedSegment) (q : SourceId) (i : SlotId)
    (c : Chain) (x : ProvisionalRecord),
    (s.rx r).link = .up → (s.rx r).early = false → (s.rx r).buffer = g :: rest → g.place = .waiting →
    s.mapping r = some q → s.enrolled r = true → distance s.frontier g.header.slice < 64 → i = slotOf g.header.slice →
    ((s.ctx i).state = .unopened ∧ s.run = .running ∧ (g.header.kind = .first ∨ g.header.kind = .only) ∧
        (s.rx r).current = none ∧ u = s.openToward g.header.slice ∨
      (s.ctx i).state = .opened ∧ (s.run = .running ∨ s.run = .draining) ∧ u = s ∧
        ((g.header.kind = .first ∨ g.header.kind = .only) ∧ (s.rx r).current = none ∧
            ((s.ctx i).chain q).state = .none ∨
          (g.header.kind = .middle ∨ g.header.kind = .last) ∧ (s.rx r).current = some g.header.slice ∧
            ((s.ctx i).chain q).state = .receiving)) →
    c = (u.ctx i).chain q → x.slot = i → x.slice = g.header.slice → x.source = q → x.kind = g.header.kind →
    x.length = g.header.length → x.tailBefore = c.tail → x.fillBefore = c.fill → x.writePage = c.tail →
    x.writeFill = c.fill → x.firstPage = 0 → x.pages = 0 → x.written = 0 →
    v = u.setRx r { s.rx r with buffer := { g with place := .accepted } :: rest, record := some x } →
    exec (.placement r) s = .next ((if g.header.kind = .first then
      v.setCtx i ((u.ctx i).setChain q { c with state := .receiving }) else v).settleVerdict r).settleCache) ∧
  (∀ (r : ReceiverId) (s : State) (g : BufferedSegment) (q : SourceId), (s.rx r).link = .up → (s.rx r).early = false →
    (s.rx r).head = some g → g.place = .waiting → s.mapping r = some q → s.enrolled r = true →
    exec (.placement r) s = .next (s.judge r q g.header).settleCache) ∧
  ∀ (r : ReceiverId) (s : State) (q : SourceId) (h : SegmentHeader) (n : Slice) (d : Chain),
    (s.rx r).current = some n → (h.kind = .first ∨ h.kind = .only) → d = (s.ctx (slotOf n)).chain q →
    (d.state = .receiving → (s.ctx (slotOf n)).state = .opened → (s.ctx (slotOf n)).slice = n →
      s.judge r q h = (((s.setCtx (slotOf n) ((s.ctx (slotOf n)).setChain q
        { d with state := .partial_ })).closureCheck (slotOf n)).setCurrent r none).judge r q h) ∧
    (d.state ≠ .receiving ∨ (s.ctx (slotOf n)).state ≠ .opened ∨ (s.ctx (slotOf n)).slice ≠ n →
      s.judge r q h = (s.setCurrent r none).judge r q h)

/-- R12, R14 and R15: the segments a slice table with a run discards. One of a late slice, or whose slot is READY,
DELIVERING or RETIRED, posts LATE, and a READY slot has LATE_SEEN set. In an OPEN slot one that starts a fragment
whose chain is final sets DUPLICATE_SEEN and posts DUPLICATE; one that starts a fragment whose chain is RECEIVING, and
a MIDDLE or LAST that is not of the current fragment or whose chain is neither RECEIVING nor CUT, posts FRAMING with
cause PLACEMENT, and then a RECEIVING chain becomes PARTIAL and its slice is checked for closure (the incident first,
the model's choice, log 24); a MIDDLE or LAST of a current fragment that is CUT posts nothing, and the LAST clears the
current fragment. A MIDDLE or LAST for an UNOPENED slot posts FRAMING. The cache's own work follows (settleCache, log
19). -/
def Obligations.MisplacedSegmentsAreDiscarded : Prop :=
  ∀ (r : ReceiverId) (s u framing : State) (g : BufferedSegment) (rest : List BufferedSegment) (q : SourceId) (i : SlotId)
    (n : Slice) (starts : Prop),
    (s.rx r).link = .up → (s.rx r).early = false → (starts ↔ g.header.kind = .first ∨ g.header.kind = .only) →
    (starts → (s.rx r).current = none) → (s.rx r).buffer = g :: rest → g.place = .waiting → s.mapping r = some q →
    s.enrolled r = true → n = g.header.slice → i = slotOf n →
    (s.run = .running ∨ s.run = .draining ∧ distance s.frontier n < 64 ∧ (s.ctx i).state ≠ .unopened) →
    u = s.setRx r { s.rx r with
      buffer := rest, framer := if g.verdict = none then (s.rx r).framer.disowned else (s.rx r).framer } →
    framing = u.post .framing (.link r) (some n) (fieldAt 8 7 ||| fieldAt 0 g.header.kind.code) →
    (2 ^ 31 ≤ distance s.frontier n → exec (.placement r) s =
      .next (u.post .late (.link r) (some n) (BitVec.ofNat 64 g.header.kind.code)).settleCache) ∧
    (distance s.frontier n < 64 →
      ((s.ctx i).state = .ready → exec (.placement r) s = .next ((u.setCtx i
        { s.ctx i with flags := { (s.ctx i).flags with lateSeen := true } }).post .late (.link r) (some n)
          (BitVec.ofNat 64 g.header.kind.code)).settleCache) ∧
      ((s.ctx i).state = .delivering ∨ (s.ctx i).state = .retired → exec (.placement r) s =
        .next (u.post .late (.link r) (some n) (BitVec.ofNat 64 g.header.kind.code)).settleCache) ∧
      ((s.ctx i).state = .unopened → ¬starts → exec (.placement r) s = .next framing.settleCache) ∧
      ((s.ctx i).state = .opened →
        (starts → ((s.ctx i).chain q).state.final = true → exec (.placement r) s = .next ((u.setCtx i
          { s.ctx i with flags := { (s.ctx i).flags with duplicateSeen := true } }).post .duplicate (.link r) (some n)
            (BitVec.ofNat 64 g.header.kind.code)).settleCache) ∧
        (starts ∧ ((s.ctx i).chain q).state = .receiving ∨
            ¬starts ∧ ((s.rx r).current ≠ some n ∨
              ((s.ctx i).chain q).state ≠ .receiving ∧ ((s.ctx i).chain q).state ≠ .cut) →
          exec (.placement r) s = .next
            (if ((s.ctx i).chain q).state = .receiving then
              (framing.setCtx i ((s.ctx i).setChain q { (s.ctx i).chain q with state := .partial_ })).closureCheck i
            else framing).settleCache) ∧
        (¬starts → (s.rx r).current = some n → ((s.ctx i).chain q).state = .cut → exec (.placement r) s = .next
          (if g.header.kind = .last then u.setRx r { u.rx r with current := none } else u).settleCache)))

/-- R16, R17, R18, R47, R68 and R69: the verdict of a stored segment is taken at its END, and delivered once every
stored word has left the buffer (settleVerdict), then or later. GOOD commits the record: the chain's and the slice's
words grow by the words written, the chain's tail follows the record, its state and the receiver's current fragment
follow the segment kind, and a final chain has its slice checked for closure. CRC_BAD and FRAMING roll the record back
and clear the current fragment, CRC_BAD sets CRC_SEEN (before the closure check of the same verdict, the model's
choice, log 24), and a chain still RECEIVING becomes PARTIAL and has its slice checked. A verdict that finds no record
changes no chain, and a LAST or ONLY whose record the page limit removed clears the current fragment. A rollback frees
the record's pages in their order and takes back its link. The cache's own work follows (settleCache, log 19). -/
def Obligations.VerdictsCommitOrRollBackTheRecord : Prop :=
  (∀ (r : ReceiverId) (s : State) (o : OpenSegment) (g : BufferedSegment) (h : SegmentHeader),
    (s.rx r).link = .up → (s.rx r).framer = .segment o → o.fate = .stored → (s.rx r).newest = some g →
    o.header = some h → o.received = 3 + h.length →
    (~~~o.crc = o.crcWord → exec (.endSymbol r) s = .next ((s.setRx r
      { (s.rx r).setNewest { g with verdict := some .good } with framer := .idle }).settleVerdict r).settleCache) ∧
    ∀ (l : List Stamp) (u : State), ~~~o.crc ≠ o.crcWord → (s.rx r).errors.length ≤ 4 →
      l = (s.rx r).errors.drop ((s.rx r).errors.length - 3) ++ [s.counter] →
      (l.length < 4 ∨ 64 ≤ (s.counter - l.headD 0).toNat) →
      u = s.setRx r { (s.rx r).setNewest { g with verdict := some .crcBad } with framer := .idle, errors := l } →
      exec (.endSymbol r) s = .next ((if s.inService r = true then
        u.post .crcBad (.link r) (some h.slice) (fieldAt 0 h.kind.code) else u).settleVerdict r).settleCache) ∧
  (∀ (r : ReceiverId) (s : State) (g : BufferedSegment) (rest : List BufferedSegment), (s.rx r).buffer = g :: rest →
    (g.verdict = none ∨ g.place = .waiting ∨ g.payload ≠ [] → s.settleVerdict r = s) ∧
    ∀ (v : Verdict) (u : State), g.verdict = some v → g.place ≠ .waiting → g.payload = [] →
      u = s.setRx r { s.rx r with buffer := rest } →
      ((s.rx r).record = none → s.settleVerdict r = u.setRx r { u.rx r with
        current := if g.place = .remainder true ∧ (g.header.kind = .last ∨ g.header.kind = .only) then none
          else (s.rx r).current }) ∧
      ∀ x, (s.rx r).record = some x →
        (∀ (c : Context) (d : Chain) (after : ChainState) (t : State), v = .good → c = s.ctx x.slot →
          d = c.chain x.source →
          after = (if g.header.kind = .first ∨ g.header.kind = .middle then .receiving
            else if g.header.truncated = true then .feTruncated
            else if g.header.kind = .only ∧ g.header.empty = true then .empty else .whole) →
          t = (u.setRx r { u.rx r with
            record := none
            current := if g.header.kind = .first ∨ g.header.kind = .middle then some g.header.slice else none }).setCtx
              x.slot
              { c.setChain x.source
                  { state := after
                    head := if d.head = 0 ∧ x.firstPage ≠ 0 then x.firstPage else d.head
                    tail := if x.writePage = 0 then d.tail else x.writePage
                    words := d.words + x.written
                    fill := if x.writePage = 0 then d.fill else x.writeFill } with
                totalWords := c.totalWords + x.written } →
          s.settleVerdict r =
            if g.header.kind = .last ∨ g.header.kind = .only then t.closureCheck x.slot else t) ∧
        ∀ t y z : State, v ≠ .good → t = u.rollback r → y = t.setRx r { t.rx r with current := none } →
          z = (if v = .crcBad then
            y.setCtx x.slot { y.ctx x.slot with flags := { (y.ctx x.slot).flags with crcSeen := true } } else y) →
          s.settleVerdict r =
            if ((z.ctx x.slot).chain x.source).state = .receiving then
              (z.setCtx x.slot ((z.ctx x.slot).setChain x.source
                { (z.ctx x.slot).chain x.source with state := .partial_ })).closureCheck x.slot
            else z) ∧
  ∀ (s t : State) (r : ReceiverId) (x : ProvisionalRecord) (pages : List Nat), (s.rx r).record = some x →
    x.Holds s.pool pages → x.tailBefore ∉ pages → s.FreesQuietly → s.pool.Canonical → t = s.rollback r →
    t.pool.free = s.pool.free ++ pages ∧ t.pool.occupancy = s.pool.occupancy - pages.length ∧
    t.pool.retired = s.pool.retired ∧ t.pool.attributes = s.pool.attributes ∧
    (∀ page, t.pool.linkOf page =
      if page ∈ pages ∨ page = x.tailBefore ∧ page ≠ 0 ∧ pages ≠ [] then 0 else s.pool.linkOf page) ∧
    (∀ a, Memory.read t.pool.store a = Memory.read s.pool.store a) ∧
    (∀ k, t.rx k = { s.rx k with
      record := if k = r then none else (s.rx k).record
      noPages := if pages = [] ∧ k ≠ r then (s.rx k).noPages else false }) ∧
    t.contexts = s.contexts ∧ t.incidents = s.incidents

/-- R6, R20 and R21: the status, length and offset of every source, and the total words, as a closing context computes
them; and the closure check: an OPEN slice whose expected sources all have final chains closes, with reason COMPLETE
if they are all whole-like and no source was dropped, and DEFICIENT otherwise; a check of another slot changes
nothing. The cache's own work follows (settleCache, log 19). -/
def Obligations.ClosureChecksAndTheDirectory : Prop :=
  (∀ (c : Context) (q : SourceId),
    (c.status q = match (c.chain q).state with
      | .none => if member c.expected q = true ∨ member c.dropped q = true then .missing else .notExpected
      | .whole => if member c.expected q = true then .whole else .unexpected
      | .empty => .empty
      | .feTruncated => .feTruncated
      | .cut => .cut
      | .partial_ => .partial_
      | .receiving => .partial_) ∧
    (∃ d, c.withDirectory.directory = some d ∧ d[q].status = c.status q ∧ d[q].length = (c.chain q).words ∧
      (q = 0 → d[q].offset = 0) ∧
      (∀ p : SourceId, p.val + 1 = q.val → d[q].offset = d[p].offset + d[p].length) ∧
      (q.val = 23 → c.withDirectory.totalWords = d[q].offset + d[q].length)) ∧
    c.withDirectory =
      { c with directory := c.withDirectory.directory, totalWords := c.withDirectory.totalWords }) ∧
  ∀ (s : State) (i : SlotId) (c : Context), c = s.ctx i →
    (c.state = .opened →
      (∀ q, member c.expected q = true → (c.chain q).state ≠ .none ∧ (c.chain q).state ≠ .receiving) →
      ClosedAs s (s.closureCheck i) i
        (if (∀ q, member c.expected q = true → (c.chain q).state = .whole ∨ (c.chain q).state = .empty ∨
          (c.chain q).state = .feTruncated) ∧ c.dropped = 0 then .complete else .deficient)) ∧
    (c.state ≠ .opened ∨
      (∃ q, member c.expected q = true ∧ ((c.chain q).state = .none ∨ (c.chain q).state = .receiving)) →
      s.closureCheck i = s)

/-- R23, R21 and R6: DEADLINE_EXPIRY closes the OPEN context nearest the frontier whose deadline remaining is 0, with
reason EXPIRED; where none is due nothing closes (log 2). The cache's own work follows (settleCache, log 19). -/
def Obligations.DeadlineExpiryClosesTheSlice : Prop :=
  ∀ (s : State) (i : SlotId),
    (∀ d, d < 64 → i = slotOf (s.frontier + BitVec.ofNat 32 d) → (s.ctx i).state = .opened → (s.ctx i).deadline = 0 →
      (∀ e, e < d → ((s.ctx (slotOf (s.frontier + BitVec.ofNat 32 e))).state = .opened →
        (s.ctx (slotOf (s.frontier + BitVec.ofNat 32 e))).deadline ≠ 0)) →
      ∃ t, exec .deadlineExpiry s = .next t ∧ ClosedAs s t i .expired) ∧
    ((∀ j, (s.ctx j).state = .opened → (s.ctx j).deadline ≠ 0) → exec .deadlineExpiry s = .next s.settleCache)

/-- R182, R183, R81 and R22: the advance of the slot counter, after what fell due in the slot that ends (`u`; log 3):
the counter grows by one, the SLOT item's length governs the new slot, the hold decision is made with the level as it
stands and the level's share of PRESSURE, and in a slot that is not held the deadline of every OPEN context falls by
one; nothing else changes. What fell due and was not taken by its own command (R23, R35, R93, R189) is taken first, in
the model's order (log 3): in slice order from the frontier every OPEN context whose deadline remaining is 0 closes
EXPIRED, then in ascending number each receiver's timer, then the dispatch waits, then in ascending number each port's
quiet period, each with the effect of its own command. With nothing due nothing is done. The cache's own work follows
(settleCache, log 19). -/
def Obligations.SlotAdvanceCounts : Prop :=
  (∀ (s u : State) (share : Nat) (held : Bool), u = s.takeDue.settleCache →
    share = (if u.pressure.level = 1 then ((s.contents .pressure)[4]).toNat
      else if u.pressure.level = 2 then ((s.contents .pressure)[5]).toNat
      else if u.pressure.level = 3 then ((s.contents .pressure)[6]).toNat else 0) →
    (held = true ↔ (s.counter + 1).toNat % 16 < share) →
    exec .slotAdvance s = .next { u with
      counter := s.counter + 1
      slotLength := ((s.contents .slot)[0]).toNat
      pressure := { u.pressure with held := held, heldFor := s.counter + 1 }
      contexts := Vector.ofFn fun i =>
        if (u.ctx i).state = .opened ∧ held = false then { u.ctx i with deadline := (u.ctx i).deadline - 1 }
        else u.ctx i }) ∧
  (∀ s : State, (∀ i, (s.ctx i).state = .opened → (s.ctx i).deadline ≠ 0) →
    (∀ r e, (s.rx r).link = .probation ∨ (s.rx r).link = .barred → (s.rx r).timer = some e →
      ahead (e - s.counter) = true) →
    (∀ e ∈ s.ready, e.elapsed = true ∨ (s.counter - e.since).toNat < s.dispatchWait) →
    (∀ p e, (s.port p).state = .active ∨ (s.port p).state = .draining → (s.port p).quietUntil = some e →
      ahead (e - s.counter) = true) →
    s.takeDue = s) ∧
  (∀ (s a b c : State),
    a = ((List.range 64).map fun d => slotOf (s.frontier + BitVec.ofNat 32 d)).foldl (fun w i =>
      if (w.ctx i).state = .opened ∧ (w.ctx i).deadline = 0 then w.closeContext i .expired else w) s →
    b = (List.finRange 24).foldl (fun w r => (w.expireProbation r).expireBar r) a → c = b.elapseWaits →
    s.takeDue = (((c.endQuietPeriod 0).endQuietPeriod 1).endQuietPeriod 2).endQuietPeriod 3) ∧
  ∀ s : State,
    (∀ i reason, ClosedAs s (s.closeContext i reason) i reason) ∧
    (∀ r, exec (.probationExpiry r) s = .next (s.expireProbation r) ∧ exec (.barExpiry r) s = .next (s.expireBar r)) ∧
    exec .dispatchWaitElapse s = .next s.elapseWaits.settleCache ∧
    ∀ p, exec (.quietPeriodEnd p) s = .next (s.endQuietPeriod p)

/-! ## Fragment store -/

/-- R64, R65 and R47: the port is granted to the receiver that wants it and comes first after the one served last, in
ascending number, 23 followed by 0. It moves one burst into its write page; the words stand there in order and every
other byte of the store is as before; its record grows by the burst. Where this writes the last word of a segment
whose verdict is taken, the verdict is delivered (settleVerdict). With no receiver wanting the port nothing moves (log
2). The cache's own work follows (settleCache, log 19). -/
def Obligations.BurstWritesThePage : Prop :=
  (∀ x : Receiver, x.wantsPort = true ↔ x.record.isSome = true ∧ x.noPages = false ∧
    ∃ g rest, x.buffer = g :: rest ∧ g.place = .accepted ∧ g.payload ≠ []) ∧
  (∀ (s : State) (r : ReceiverId), s.nextGrant = some r ↔ (s.rx r).wantsPort = true ∧
    ∀ k, (k - (s.lastServed + 1)).val < (r - (s.lastServed + 1)).val → (s.rx k).wantsPort = false) ∧
  ∀ (s : State) (r : ReceiverId) (x : ProvisionalRecord) (g : BufferedSegment) (rest : List BufferedSegment)
    (moved : List Word) (a : Nat),
    (s.nextGrant = some r → s.pool.Canonical → (s.rx r).record = some x → x.writePage ≠ 0 → x.writeFill < 64 →
      (s.rx r).buffer = g :: rest → moved = g.payload.take (64 - x.writeFill) →
      a = 64 * x.writePage + x.writeFill →
      ∃ v : State, exec .storeBurst s = .next (v.settleVerdict r).settleCache ∧
        v = { s with
          lastServed := r
          receivers := s.receivers.set r { s.rx r with
            buffer := { g with payload := g.payload.drop moved.length } :: rest
            record := some { x with writeFill := x.writeFill + moved.length, written := x.written + moved.length } }
          pool := { s.pool with store := v.pool.store, conditions := v.pool.conditions } } ∧
        (∀ k w, moved[k]? = some w → Memory.readWord v.pool.store (a + k) = w ∧ v.pool.conditionOf (a + k) = .sound) ∧
        (∀ b, (b < 8 * a ∨ 8 * (a + moved.length) ≤ b) → Memory.read v.pool.store b = Memory.read s.pool.store b) ∧
        ∀ b, (b < a ∨ a + moved.length ≤ b) → v.pool.conditionOf b = s.pool.conditionOf b) ∧
    ((∀ k, (s.rx k).wantsPort = false) → exec .storeBurst s = .next s.settleCache)

/-- R66, R58, R59, R65, R76 and R67: a burst that needs a page, below the page limit, takes the head of the free list
as its write page, and the pressure level is evaluated. The page's own link is 0, and it is linked behind the record's
last page: its write page, else the chain's tail page before, else nothing. The words of the burst stand in it from
its start, and every other byte of the store is as before. A verdict taken before the last word is delivered
(settleVerdict, R47). With the free list empty the receiver holds with NO_PAGES and the grant passes to the next
receiver in the same burst. The cache's own work follows (settleCache, log 19). -/
def Obligations.BurstTakesAFreePage : Prop :=
  ∀ (s : State) (r : ReceiverId) (x : ProvisionalRecord) (g : BufferedSegment) (rest : List BufferedSegment),
    s.nextGrant = some r → (s.rx r).record = some x → x.writePage = 0 ∨ x.writeFill = 64 →
    (((s.ctx x.slot).chain x.source).words + 63) / 64 + x.pages < s.pageLimit → (s.rx r).buffer = g :: rest →
    (∀ page free moved last, s.pool.Canonical → s.pool.free = page :: free → moved = g.payload.take 64 →
      last = (if x.writePage = 0 then x.tailBefore else x.writePage) →
      ∃ v e : State, exec .storeBurst s = .next (v.settleVerdict r).settleCache ∧
        e = (s.setPool { s.pool with free := free, occupancy := s.pool.occupancy + 1 }).evaluate ∧
        v.pressure = e.pressure ∧ v.incidents = e.incidents ∧ v.lastServed = r ∧ v.contexts = s.contexts ∧
        v.pool = { s.pool with
          free := free, occupancy := s.pool.occupancy + 1, links := v.pool.links, store := v.pool.store
          conditions := v.pool.conditions } ∧
        (∀ b, v.pool.linkOf b = if b = last ∧ last ≠ 0 then page else if b = page then 0 else s.pool.linkOf b) ∧
        v.rx r = { s.rx r with
          buffer := { g with payload := g.payload.drop moved.length } :: rest
          record := some { x with
            firstPage := if x.firstPage = 0 then page else x.firstPage
            pages := x.pages + 1, writePage := page, writeFill := moved.length, written := x.written + moved.length } } ∧
        (∀ k, k ≠ r → v.rx k = s.rx k) ∧
        (∀ k w, moved[k]? = some w → Memory.readWord v.pool.store (64 * page + k) = w ∧
          v.pool.conditionOf (64 * page + k) = .sound) ∧
        (∀ b, (b < 512 * page ∨ 512 * page + 8 * moved.length ≤ b) →
          Memory.read v.pool.store b = Memory.read s.pool.store b) ∧
        ∀ b, (b < 64 * page ∨ 64 * page + moved.length ≤ b) → v.pool.conditionOf b = s.pool.conditionOf b) ∧
    ∀ u, s.pool.free = [] → u = (s.setLastServed r).setRx r { s.rx r with noPages := true } →
      exec .storeBurst s = exec .storeBurst u ∧
      ((∀ k, k ≠ r → (s.rx k).wantsPort = false) → exec .storeBurst s = .next u.settleCache)

/-- R61: a freed page goes to the tail of the free list, or, marked RETIRE_ON_FREE while the retired page table has
room, to that table; with the table full it goes back as SUSPECT and RETIRE_FULL is posted. Its link is 0 and
occupancy falls by one in every case. With occupancy below every threshold above the level, as every step leaves it,
no other incident is posted. -/
def Obligations.FreedPageGoesByItsAttribute : Prop :=
  ∀ (s : State) (n : Slice) (page : Nat), 1 ≤ s.pool.occupancy → s.pool.Canonical →
    (s.freePage n page).pool.linkOf page = 0 ∧ (s.freePage n page).pool.occupancy = s.pool.occupancy - 1 ∧
    (s.pool.attributeOf page ≠ .retireOnFree →
      (s.freePage n page).pool.free = s.pool.free ++ [page] ∧ (s.freePage n page).pool.retired = s.pool.retired ∧
      (s.freePage n page).pool.attributeOf page = s.pool.attributeOf page ∧
      (s.risen = none → (s.freePage n page).incidents = s.incidents)) ∧
    (s.pool.attributeOf page = .retireOnFree → s.pool.retired.length < 32 →
      (s.freePage n page).pool.retired = s.pool.retired ++ [page] ∧ (s.freePage n page).pool.free = s.pool.free ∧
      (s.freePage n page).pool.attributeOf page = .retireOnFree ∧
      (s.risen = none → (s.freePage n page).incidents = s.incidents)) ∧
    (s.pool.attributeOf page = .retireOnFree → 32 ≤ s.pool.retired.length →
      (s.freePage n page).pool.free = s.pool.free ++ [page] ∧ (s.freePage n page).pool.retired = s.pool.retired ∧
      (s.freePage n page).pool.attributeOf page = .suspect ∧
      (∃ u : State, s.freePage n page = u.post .retireFull .none (some n) (BitVec.ofNat 64 page)) ∧
      (s.risen = none → (s.freePage n page).incidents =
        (s.post .retireFull .none (some n) (BitVec.ofNat 64 page)).incidents))

/-- R19, R69 and R64: a page request at the page limit cuts the chain: it is CUT with its committed words, the
receiver's record is rolled back (its pages freed, VerdictsCommitOrRollBackTheRecord says which), its current fragment
is the slice of the record, the remainder of the segment is discarded, and the slice is checked for closure; no word
of the store changes. A verdict already taken is delivered with the remainder: it finds no record, and of a LAST or
ONLY it clears the current fragment. The grant then passes to the next receiver in the same burst, with no word
moved. -/
def Obligations.PageLimitCutsTheChain : Prop :=
  ∀ (s u v t : State) (r : ReceiverId) (x : ProvisionalRecord) (g : BufferedSegment) (rest : List BufferedSegment),
    s.nextGrant = some r → (s.rx r).record = some x → x.writePage = 0 ∨ x.writeFill = 64 →
    s.pageLimit ≤ (((s.ctx x.slot).chain x.source).words + 63) / 64 + x.pages → (s.rx r).buffer = g :: rest →
    u = ((s.setLastServed r).setCtx x.slot ((s.ctx x.slot).setChain x.source
      { (s.ctx x.slot).chain x.source with state := .cut })).rollback r →
    v = u.setRx r { u.rx r with
      current := if g.verdict ≠ none ∧ (g.header.kind = .last ∨ g.header.kind = .only) then none else some x.slice
      buffer := if g.verdict = none then { g with place := .remainder true, payload := [] } :: rest else rest } →
    t = v.closureCheck x.slot →
    exec .storeBurst s = exec .storeBurst t ∧
    ((∀ k, (t.rx k).wantsPort = false) → exec .storeBurst s = .next t.settleCache) ∧
    t.lastServed = r ∧ (t.rx r).record = none ∧ ((t.ctx x.slot).chain x.source).state = .cut ∧
    ((t.ctx x.slot).chain x.source).words = ((s.ctx x.slot).chain x.source).words ∧
    ∀ b, Memory.read t.pool.store b = Memory.read s.pool.store b

/-! ## Ingress pressure -/

/-- R77: the rising rule answers the highest level above the current one whose threshold occupancy has reached, and
nothing if there is none. With the default thresholds these are 12288, 14336 and 15360. -/
def Obligations.RisingRuleTakesTheHighestThreshold : Prop :=
  (∀ s : State, match s.risen with
    | some k => s.pressure.level < k ∧ s.threshold k ≤ s.pool.occupancy ∧
        ∀ m : Fin 4, k < m → s.pool.occupancy < s.threshold m
    | none => ∀ m : Fin 4, s.pressure.level < m → s.pool.occupancy < s.threshold m) ∧
  (∀ s : State, match s.risen with
    | some k => s.evaluated = k
    | none => s.evaluated = s.fallenFrom s.pressure.level) ∧
  ∀ s : State, s.items = Items.reset → s.threshold 1 = 12288 ∧ s.threshold 2 = 14336 ∧ s.threshold 3 = 15360

/-- R78: the falling rule goes down one level at a time while occupancy is below the level's threshold less the
margin, and a fall posts no incident. -/
def Obligations.FallingRuleStepsDown : Prop :=
  (∀ (s : State) (j : Fin 4), s.fallenFrom j ≤ j ∧
    (∀ m : Fin 4, s.fallenFrom j < m → m ≤ j → s.pool.occupancy < s.threshold m - s.margin) ∧
    (s.fallenFrom j = 0 ∨ s.threshold (s.fallenFrom j) - s.margin ≤ s.pool.occupancy)) ∧
  ∀ s : State, s.risen = none → s.evaluate = s.setPressure { s.pressure with level := s.fallenFrom s.pressure.level }

/-- R79: an evaluation that takes the level to P3 from below posts PRESSURE_HIGH with no source, no slice number and
the occupancy as its detail; every other evaluation posts nothing. -/
def Obligations.EntryIntoTheTopLevelPosts : Prop :=
  ∀ s : State,
    (s.pressure.level ≠ 3 → s.evaluated = 3 →
      s.evaluate = (s.setPressure { s.pressure with level := 3 }).post .pressureHigh .none none
        (BitVec.ofNat 64 s.pool.occupancy)) ∧
    (s.pressure.level = 3 ∨ s.evaluated ≠ 3 →
      s.evaluate = s.setPressure { s.pressure with level := s.evaluated })

/-- R84, R190, R191 and R197: each status line shows the condition its source selects, in its polarity; word 2i of
OUTPUTS is the source of line i, and word 2i + 1 its polarity. -/
def Obligations.StatusLinesShowTheirConditions : Prop :=
  ∀ (s : State) (i : Fin 4),
    (s.lineHigh i = true ↔ (s.condition (s.lineSource i) = true ↔ s.lineActiveLow i = false)) ∧
    (∀ j k : Fin 8, j.val = 2 * i.val → k.val = 2 * i.val + 1 →
      s.lineSource i = ((s.contents .outputs)[j]).toNat ∧
        (s.lineActiveLow i = true ↔ (s.contents .outputs)[k] = 1)) ∧
    s.condition 0 = false ∧
    (s.condition 1 = true ↔ ((s.contents .pressure)[7]).toNat ≤ s.pressure.level.val) ∧
    (s.condition 2 = true ↔ s.pressure.level ≠ 0) ∧
    (s.condition 3 = true ↔ ∃ r, (∃ q, s.mapping r = some q) ∧ s.enrolled r = true ∧ (s.rx r).link ≠ .up) ∧
    (s.condition 4 = true ↔ s.incidents ≠ []) ∧
    (s.condition 5 = true ↔ s.run = .running ∨ s.run = .draining) ∧
    (s.condition 6 = true ↔ ∀ p, (s.port p).state ≠ .active)

/-! ## Ready list and dispatch -/

/-- R88: an entry put into an ordered list of other slices leaves the list ordered by the distance from the frontier,
and holding just the entries it held and the new one. -/
def Obligations.ReadyListStaysOrdered : Prop :=
  ∀ (f : Slice) (e : ReadyEntry) (l : List ReadyEntry),
    l.Pairwise (fun a b => distance f a.slice < distance f b.slice) → (∀ x ∈ l, x.slice ≠ e.slice) →
    (insertEntry f e l).Pairwise (fun a b => distance f a.slice < distance f b.slice) ∧
    ∀ x, x ∈ insertEntry f e l ↔ x = e ∨ x ∈ l

/-- R90, R94, R95, R97, R98, R108, R110, R112, R142 and R195: what a walk does. It considers the entries from the
oldest to the newest. The port chosen for an entry is ACTIVE with an IDLE engine, is the slice's primary port or the
entry's wait has elapsed, and no such port stands before it in rank; none is chosen only if no port is such, and then
nothing changes. An assignment takes the entry off the list, sets the slot DELIVERING and gives the engine the slice
with the image header of that moment; with its descriptor CACHED the engine takes the buffer and is MOVING, else it is
in WAIT_BUFFER. -/
def Obligations.WalkAssignsToTheHighestRankedPort : Prop :=
  (∀ (s : State) (i : SlotId) (w : Vector Word 8), w = s.contents (.steer i) → s.items.ItemValid (.steer i) →
    (s.preference i).length = w[0].toNat ∧
    ∀ (j : Fin 8) (p : PortId), 1 ≤ j.val → j.val ≤ w[0].toNat →
      ((s.preference i)[j.val - 1]? = some p ↔ w[j].toNat = p.val)) ∧
  (∀ (s : State) (i : SlotId),
    s.ranking i = s.preference i ++ ([0, 1, 2, 3] : List PortId).filter (fun p => decide (p ∉ s.preference i)) ∧
    (∀ p, s.primary i = some p ↔ p ∈ s.preference i ∧ (s.port p).state = .active ∧
      ∀ v ∈ s.preference i, (s.port v).state = .active → (s.preference i).idxOf p ≤ (s.preference i).idxOf v)) ∧
  (∀ (s : State) (e : ReadyEntry),
    (∀ p, s.eligible e p = true ↔ (s.port p).state = .active ∧ (s.engine p).state = .idle ∧
      (s.primary (slotOf e.slice) = some p ∨ e.elapsed = true)) ∧
    (∀ p, s.bestPort e = some p → s.eligible e p = true ∧ ∀ v, s.eligible e v = true →
      (s.ranking (slotOf e.slice)).idxOf p ≤ (s.ranking (slotOf e.slice)).idxOf v) ∧
    (s.bestPort e = none → ∀ p, s.eligible e p = false)) ∧
  (∀ s : State, s.walk = s.ready.foldl (fun t e => t.considerEntry e) s) ∧
  ([ClosureReason.complete, .deficient, .expired].map ClosureReason.code = [1, 2, 3] ∧
    [SourceStatus.notExpected, .missing, .whole, .empty, .partial_, .cut, .feTruncated, .unexpected].map
      SourceStatus.code = [0, 1, 2, 3, 4, 5, 6, 7]) ∧
  ∀ (s : State) (e : ReadyEntry), (s.bestPort e = none → s.considerEntry e = s) ∧
    ∀ (p : PortId) (i : SlotId) (c : Context) (x : Closure) (d : Vector DirectoryEntry 24) (n : Count) (u : State)
      (g : Engine),
      s.bestPort e = some p → i = slotOf e.slice → c = s.ctx i → c.closure = some x → c.directory = some d →
      n = (s.ring p).consumed →
      u = (s.setReady (s.ready.filter fun y => decide (y.slice ≠ e.slice))).setCtx i { c with state := .delivering } →
      g.assigned = some (i, c.slice) → g.imageLength = 256 + 8 * c.totalWords → g.readPosition = 0 → g.bufferFill = 0 →
      g.cut = false → g.kind = .delivered →
      g.header =
        [fieldAt 0 c.slice.toNat ||| fieldAt 32 x.reason.code ||| fieldAt 36 p.val |||
            (flagAt 40 c.flags.duplicateSeen ||| flagAt 41 c.flags.lateSeen ||| flagAt 42 c.flags.crcSeen |||
              flagAt 43 c.flags.uncorrectable ||| flagAt 44 c.flags.redirected),
          fieldAt 0 c.openedAt.toNat ||| fieldAt 32 x.closedAt.toNat,
          fieldAt 0 c.expected.toNat ||| fieldAt 32 c.dropped.toNat, fieldAt 0 c.totalWords, 0, 0, 0, 0] ++
        d.toList.map (fun y => fieldAt 0 y.status.code ||| fieldAt 8 y.length ||| fieldAt 32 y.offset) →
      ((∀ b ∈ s.cache.entries, b.port = p → b.state = .cached → b.count ≠ n) → g.state = .waitBuffer →
        g.firstBuffer = none → g.buffers = 0 → s.considerEntry e = u.setEngine p g) ∧
      ((∃ b ∈ s.cache.entries, b.port = p ∧ b.state = .cached ∧ b.count = n) → g.state = .moving →
        g.firstBuffer = some n → g.buffers = 1 →
        s.considerEntry e = (u.setCache
          { s.cache with
            entries := s.cache.entries.map fun b =>
              if b.port = p ∧ b.state = .cached ∧ b.count = n then { b with state := .assigned } else b
            rings := s.cache.rings.set p { s.ring p with consumed := n + 1 }
            holds := s.cache.holds.set p none }).setEngine p g)

/-- R93: the waits that have run out are set, and a walk follows if there is one. With no ACTIVE port the walk assigns
nothing. The cache's own work follows (settleCache, log 19). -/
def Obligations.DispatchWaitElapses : Prop :=
  ∀ (s : State) (l : List ReadyEntry),
    l = s.ready.map (fun e => { e with
      elapsed := e.elapsed || decide (s.dispatchWait ≤ (s.counter - e.since).toNat) }) →
    (l = s.ready → exec .dispatchWaitElapse s = .next s.settleCache) ∧
    (l ≠ s.ready → exec .dispatchWaitElapse s = .next (s.setReady l).walk.settleCache) ∧
    ((∀ p, (s.port p).state ≠ .active) → exec .dispatchWaitElapse s = .next (s.setReady l).settleCache)

/-! ## Slice delivery -/

/-- R109, R111, R113, R114, R112, R142, R72 and R73: a WRITE of a MOVING engine that does not finish the image carries
its next bytes, header words first, to the place of the buffer they belong at, and the engine's positions advance past
them. The data words are read in order, the damage the WRITE finds taken first: each is given by its condition and
checked by the store (WordsRead; that damage comes with the WRITE, and never mends a word, is the model's choice, log
7). Where every word is sound they are given as they are stored, and the check does nothing. One that fills the
buffer, with fewer than 2^k buffers used, gives the buffer back and asks for the next: with the descriptor at
consumed-for-delivery CACHED the engine goes on in that buffer, else it is in WAIT_BUFFER, its buffer fill 0 as it
holds none (the model's choice, log 34). The address is the buffer's plus the buffer fill; past the 48-bit address
space it is a free value (log 35). The words of a WRITE message are those of R196. An engine in another state does not
write (log 2). The cache's own work follows (settleCache, log 19). -/
def Obligations.WriteIssuesOneMessage : Prop :=
  (∀ (a : Address) (data : List Word), data.length ≤ 32 → ∃ w0 w1, writeMessage a data = w0 :: w1 :: data ∧
    Laid w0 [(0, 8, 0x80), (16, 9, 8 * data.length)] ∧ Laid w1 [(0, 48, a.toNat)]) ∧
  (∀ (e : Engine) (b : CacheEntry), b.address.toNat + e.bufferFill < 2 ^ 48 →
    (e.writeAddress b).toNat = b.address.toNat + e.bufferFill) ∧
  (∀ (x : PagePool) (a : Nat) (c : WordCondition), x.Canonical →
    x.damage a c = { x with conditions := (x.damage a c).conditions } ∧
    ∀ b, (x.damage a c).conditionOf b = if b = a then
      (match x.conditionOf a, c with
        | .uncorrectable w, _ => .uncorrectable w
        | .singleBit, .sound => .singleBit
        | _, c => c) else x.conditionOf b) ∧
  (∀ (s t : State) (p : PortId) (i : SlotId) (first count : Nat) (words : List Word),
    (∀ j ∈ List.range' first count, s.pool.conditionOf (s.wordPlace i j) = .sound) →
    (WordsRead s p i first count [] words t ↔
      t = s ∧ words = (List.range' first count).map fun j => Memory.readWord s.pool.store (s.wordPlace i j))) ∧
  ∀ (p : PortId) (s : State) (found : List (Nat × WordCondition)),
    (∀ (i : SlotId) (n : Slice) (b : CacheEntry) (g : RingParameters) (e : Engine) (k first count : Nat)
        (words : List Word) (t u : State),
      e = s.engine p → e.state = .moving → e.assigned = some (i, n) → s.cache.currentBuffer p = some b →
      (s.ring p).parameters = some g → k = min 256 (min (b.length - e.bufferFill) (e.imageLength - e.readPosition)) →
      e.readPosition + k ≠ e.imageLength → first = (e.readPosition - 256) / 8 →
      count = (e.readPosition + k - 256 - (e.readPosition - 256)) / 8 → WordsRead s p i first count found words t →
      u = t.send p (writeMessage (e.writeAddress b) ((e.header.drop (e.readPosition / 8)).take (k / 8) ++ words)) →
      (e.bufferFill + k ≠ b.length → exec (.write p found) s = .next (u.setEngine p
        { e with readPosition := e.readPosition + k, bufferFill := e.bufferFill + k }).settleCache) ∧
      ∀ (left : List CacheEntry) (c : Count), e.bufferFill + k = b.length → e.buffers ≠ 2 ^ g.k →
        left = s.cache.entries.filter (fun x => decide (¬(x.port = p ∧ x.state = .assigned))) →
        c = (s.ring p).consumed →
        ((∀ x ∈ s.cache.entries, x.port = p → x.state = .cached → x.count ≠ c) →
          exec (.write p found) s = .next ((u.setCache { s.cache with entries := left }).setEngine p
            { e with state := .waitBuffer, readPosition := e.readPosition + k, bufferFill := 0 }).settleCache) ∧
        ((∃ x ∈ s.cache.entries, x.port = p ∧ x.state = .cached ∧ x.count = c) →
          exec (.write p found) s = .next ((u.setCache
            { s.cache with
              entries := left.map fun x =>
                if x.port = p ∧ x.state = .cached ∧ x.count = c then { x with state := .assigned } else x
              rings := s.cache.rings.set p { s.ring p with consumed := c + 1 }
              holds := s.cache.holds.set p none }).setEngine p
                { e with
                  readPosition := e.readPosition + k, bufferFill := 0, buffers := e.buffers + 1
                  firstBuffer := some (e.firstBuffer.getD c) }).settleCache)) ∧
    ((s.engine p).state ≠ .moving → exec (.write p found) s = .next s.settleCache)

/-- R114 to R120, R194, R111, R71, R27, R28, R146 and R158: the WRITE that finishes an image, or that fills the last
buffer the ring limit allows and so cuts the image, gives back the buffer; its words are read as WordsRead says (log
7). Without completion credit the engine waits for it, its buffer fill 0 as it holds no buffer (the model's choice,
log 34). With credit the completion record, its words those of R194, is written at its place in the completion ring,
produced advances and the record triggers a NOTIFY; the slice's pages are freed in source order, its slot is RETIRED
and the frontier advances; and the engine is IDLE. Freeing keeps the chains but for their pages, and a RETIRED slot
keeps its fields until the frontier passes it (the model's choice, log 31). The frontier passes the RETIRED slots from
its own on, which become UNOPENED, and slices are opened toward the newest strobe, stalled segments presented again
and run control told; with its slot not RETIRED nothing of this is done (the model's choice, log 24). An engine that
becomes IDLE ends FLUSHING with every engine IDLE, and then the draining of its port (this order is the model's
choice, log 28), at which the tag of a READ outstanding is abandoned. The cache's own work follows (settleCache, log
19). -/
def Obligations.LastWriteCompletesTheDelivery : Prop :=
  (∀ (c : Context) (n : Slice) (kind : RecordKind) (first : Count) (buffers total : Nat) (truncated cycle : Bool)
    (x : Closure) (d : Vector DirectoryEntry 24), c.closure = some x → c.directory = some d → buffers ≤ 65536 →
    total < 2 ^ 32 → c.firstUncorrectable.getD 0 < 2 ^ 32 →
    ∃ w0 w1 w2 w3 w4 w5 w7,
      completionRecord c n kind first buffers total truncated cycle = [w0, w1, w2, w3, w4, w5, 0, w7] ∧
      Laid w0 [(0, 32, n.toNat), (32, 2, if kind = .delivered then 1 else 2), (36, 2, x.reason.code)] ∧
      Laid w1 [(0, 32, first.toNat), (32, 17, buffers)] ∧
      Laid w2 [(0, 32, total), (32, 32, c.firstUncorrectable.getD 0)] ∧
      Laid w3 [(0, 32, x.closedAt.toNat), (32, 1, c.flags.duplicateSeen.toNat), (33, 1, c.flags.lateSeen.toNat),
        (34, 1, c.flags.crcSeen.toNat), (35, 1, c.flags.uncorrectable.toNat), (36, 1, c.flags.redirected.toNat),
        (37, 1, truncated.toNat)] ∧
      (∀ q : SourceId, (q.val < 16 → (w4.extractLsb' (4 * q.val) 4).toNat = d[q].status.code) ∧
        (16 ≤ q.val → (w5.extractLsb' (4 * (q.val - 16)) 4).toNat = d[q].status.code)) ∧
      w5.extractLsb' 32 32 = 0 ∧ Laid w7 [(63, 1, cycle.toNat)]) ∧
  (∀ (p : PortId) (s : State) (i : SlotId) (n : Slice) (b : CacheEntry) (g : RingParameters) (e : Engine)
    (k first count : Nat) (x : Ring) (record : List Word) (t u : State) (cut : Bool)
    (found : List (Nat × WordCondition)) (words : List Word),
    e = s.engine p → e.state = .moving → e.assigned = some (i, n) → s.cache.currentBuffer p = some b → x = s.ring p →
    x.parameters = some g → k = min 256 (min (b.length - e.bufferFill) (e.imageLength - e.readPosition)) →
    (e.readPosition + k = e.imageLength ∧ cut = e.cut ∨
      e.readPosition + k ≠ e.imageLength ∧ e.bufferFill + k = b.length ∧ e.buffers = 2 ^ g.k ∧ cut = true) →
    first = (e.readPosition - 256) / 8 → count = (e.readPosition + k - 256 - (e.readPosition - 256)) / 8 →
    WordsRead s p i first count found words t →
    u = (t.send p (writeMessage (e.writeAddress b)
      ((e.header.drop (e.readPosition / 8)).take (k / 8) ++ words))).setCache
          { s.cache with
            entries := s.cache.entries.filter fun y => decide (¬(y.port = p ∧ y.state = .assigned)) } →
    record = completionRecord (t.ctx i) n e.kind (e.firstBuffer.getD x.consumed) e.buffers (e.readPosition + k) cut
      (expectedCycle g.m x.produced) →
    ((x.produced - x.announcedConsumed).toNat < 2 ^ g.m →
      exec (.write p found) s = .next (((((((u.setEngine p
        { e with readPosition := e.readPosition + k, bufferFill := e.bufferFill + k, cut := cut }).send p
          (writeMessage (g.completionBase + BitVec.ofNat 48 (64 * (x.produced.toNat % 2 ^ g.m))) record)).setRing p
            { x with produced := x.produced + 1 }).trigger p).retire i).endOfDelivery p).settleCache)) ∧
    (2 ^ g.m ≤ (x.produced - x.announcedConsumed).toNat →
      exec (.write p found) s = .next ((u.setHold p none).setEngine p
        { e with
          state := .waitCredit, readPosition := e.readPosition + k, bufferFill := 0, cut := cut }).settleCache)) ∧
  (∀ (s : State) (i : SlotId) (u : State), u = s.freeSlice i →
    s.retire i = (u.setCtx i { u.ctx i with state := .retired }).frontierAdvance ∧
    ∀ (pages : SourceId → List Nat) (l : List Nat), (∀ q, ((s.ctx i).chain q).Holds s.pool (pages q)) →
      l = (List.finRange 24).flatMap pages → l.Nodup → s.FreesQuietly → s.pool.Canonical →
      u.pool.free = s.pool.free ++ l ∧ u.pool.occupancy = s.pool.occupancy - l.length ∧
      (∀ page, u.pool.linkOf page = if page ∈ l then 0 else s.pool.linkOf page) ∧
      u.pool.retired = s.pool.retired ∧ u.pool.attributes = s.pool.attributes ∧ u.incidents = s.incidents ∧
      (∀ j, j ≠ i → u.ctx j = s.ctx j) ∧
      u.ctx i = { s.ctx i with chains := Vector.ofFn fun q => { (s.ctx i).chain q with head := 0, tail := 0 } }) ∧
  (∀ (s u : State) (k : Nat) (retired : Nat → Prop),
    (∀ j, retired j ↔ (s.ctx (slotOf (s.frontier + BitVec.ofNat 32 j))).state = .retired ∧
      (s.ctx (slotOf (s.frontier + BitVec.ofNat 32 j))).slice = s.frontier + BitVec.ofNat 32 j) →
    (¬retired 0 → s.frontierAdvance = s) ∧
    (1 ≤ k → k ≤ 64 → (∀ j, j < k → retired j) → (k < 64 → ¬retired k) →
      u = { s with
        frontier := s.frontier + BitVec.ofNat 32 k
        contexts := Vector.ofFn fun j : SlotId =>
          if (j - slotOf s.frontier).val < k then Context.unopened else s.ctx j } →
      s.frontierAdvance = ((u.openToward s.newestStrobe).presentStalled).drainReport) ∧
    (s.run ≠ .draining ∨ s.newestOpened + 1 ≠ s.frontier → s.drainReport = s) ∧
    (s.run = .draining → s.newestOpened + 1 = s.frontier →
      s.drainReport = (s.setRun .stopped).presentStalled)) ∧
  ∀ (s u : State) (p : PortId), s.ready = [] → (∀ r, (s.rx r).early = false) →
    u = (s.setEngine p Engine.idle).setHold p none →
    ((s.port p).state ≠ .draining → s.endOfDelivery p =
      if s.run = .flushing ∧ ∀ v, v ≠ p → (s.engine v).state = .idle then u.setRun .stopped else u) ∧
    ((s.port p).state = .draining → ∃ c, s.endOfDelivery p =
      (((if s.run = .flushing ∧ ∀ v, v ≠ p → (s.engine v).state = .idle then u.setRun .stopped else u).setPort p
        { s.port p with state := .detached, notifyPending := false, quietUntil := none }).setCache c).send p
          detachedMessage ∧ c.rings[p] = Ring.torn ∧ (∀ x ∈ c.entries, x.port ≠ p) ∧
          (∀ y, s.cache.outstanding p = some y → c.slots[y] = none) ∧ c.holds[p] = none ∧
          TagJoins p (s.cache.outstanding p) s.cache c)

/-- R72, R73 and R60: what the store's check does when an engine reads a stored word, beside giving it. A corrected
word steps its page's attribute; an uncorrectable one marks its page RETIRE_ON_FREE, posts UNCORRECTABLE with the
slice and the page, sets the slice's flag and keeps the offset of the first one. -/
def Obligations.ReadCheckMarksPageAndSlice : Prop :=
  ∀ (s : State) (p : PortId) (i : SlotId) (j page : Nat) (w : Word), s.pool.Canonical →
    s.checked p i j page .sound = s ∧
    (s.checked p i j page .singleBit).contexts = s.contexts ∧
    (s.checked p i j page .singleBit).incidents = s.incidents ∧
    (s.checked p i j page .singleBit).pool.attributeOf page =
      (match s.pool.attributeOf page with
        | .clear => .suspect
        | .suspect | .retireOnFree => .retireOnFree) ∧
    (s.checked p i j page (.uncorrectable w)).pool.attributeOf page = .retireOnFree ∧
    (s.checked p i j page (.uncorrectable w)).incidents =
      (s.post .uncorrectable (.port p) (some (s.ctx i).slice) (BitVec.ofNat 64 page)).incidents ∧
    ((s.checked p i j page (.uncorrectable w)).ctx i).flags.uncorrectable = true ∧
    ((s.checked p i j page (.uncorrectable w)).ctx i).firstUncorrectable =
      some ((s.ctx i).firstUncorrectable.getD (256 + 8 * j)) ∧
    givenWord .sound w = w ∧ givenWord .singleBit w = w ∧ ∀ x, givenWord (.uncorrectable w) x = w

/-! ## Builder ports and descriptor rings -/

/-- R151 and R161: the link of a port that is not attached. It comes up into DETACHED with the record at its reset
values but for the last fault cause; it goes down into LINK_DOWN with its session cleared and its abandoned tags
ended. The cache's own work follows (settleCache, log 19). -/
def Obligations.LinkOfAnUnattachedPort : Prop :=
  ∀ (p : PortId) (s : State),
    ((s.port p).state = .linkDown → exec (.portLinkUp p) s = .next (s.setPort p
      { state := .detached, cause := (s.port p).cause, reservation := none, staging := Vector.replicate 8 none,
        cursor := none, notifyPending := false, quietUntil := none })) ∧
    ((s.port p).state ≠ .linkDown → exec (.portLinkUp p) s = .next s) ∧
    ((s.port p).state = .linkDown → exec (.portLinkDown p) s = .next s) ∧
    ((s.port p).state = .detached ∨ (s.port p).state = .faulted →
      exec (.portLinkDown p) s = .next ((s.setPort p
        { state := .linkDown, cause := (s.port p).cause, reservation := none, staging := Vector.replicate 8 none,
          cursor := none, notifyPending := false, quietUntil := none }).setCache
            { s.cache with abandoned := s.cache.abandoned.set p 0 }).settleCache)

/-- R161, R101, R121, R124 and R146: an ACTIVE or DRAINING port that loses its link is LINK_DOWN with cause LINK_LOST;
its engine is IDLE, its rings and cache entries are gone with every abandoned tag, and PORT_FAULT is posted. The slice
of a delivery it held has REDIRECTED set and is READY or, on another port, DELIVERING again: with no other port ACTIVE
it stands in the ready list at its place, its ready-since time restarted (DeliveryReturns). A FLUSHED wait it held
ends without a record. -/
def Obligations.LinkLossTakesThePortDown : Prop :=
  ∀ (p : PortId) (s : State), (s.port p).state = .active ∨ (s.port p).state = .draining →
    ∃ t, exec (.portLinkDown p) s = .next t ∧
      t.port p = { state := .linkDown, cause := some .linkLost, reservation := none, staging := Vector.replicate 8 none,
                   cursor := none, notifyPending := false, quietUntil := none } ∧
      t.engine p = Engine.idle ∧ t.ring p = Ring.torn ∧ (∀ e ∈ t.cache.entries, e.port ≠ p) ∧
      (∀ y, s.cache.outstanding p = some y → ∀ f, t.cache.slots[y] = some f → f.port ≠ p) ∧
      t.cache.holds[p] = none ∧ t.cache.abandoned[p] = 0 ∧
      DeliveryReturns p s t ∧
      ((s.engine p).kind = .delivered → t.incidents =
        (s.post .portFault (.port p) (s.engine p).slice 6).incidents) ∧
      FlushedWaitEnds p .linkLost s t

/-- R155, R153 and R196: the refusals of an ATTACH, the first found in the order of the rule, in the words of REFUSED
with its reason; LINK_DOWN takes no message (log 2). The cache's own work follows (settleCache, log 19). -/
def Obligations.AttachIsRefusedInOrder : Prop :=
  (∀ reason : RefusalReason, ∃ w, refusedMessage reason = [w] ∧ Laid w [(0, 8, 0x84), (16, 8, reason.code)]) ∧
  [RefusalReason.state, .descriptorBase, .descriptorSize, .completionBase, .completionSize, .overlap].map
    RefusalReason.code = [1, 2, 3, 4, 5, 6] ∧
  ∀ (p : PortId) (s : State) (d c : Address) (k m : BitVec 5) (kd kc : Nat), kd = 16 * 2 ^ k.toNat →
    kc = 64 * 2 ^ m.toNat →
    ((s.port p).state = .linkDown → exec (.attach p d k c m) s = .next s.settleCache) ∧
    ((s.port p).state = .active ∨ (s.port p).state = .draining →
      exec (.attach p d k c m) s = .next (s.send p (refusedMessage .state)).settleCache) ∧
    ((s.port p).state = .detached ∨ (s.port p).state = .faulted →
      if ¬(d.toNat % 64 = 0 ∧ d.toNat + kd ≤ 2 ^ 48) then
        exec (.attach p d k c m) s = .next (s.send p (refusedMessage .descriptorBase)).settleCache
      else if ¬(4 ≤ k.toNat ∧ k.toNat ≤ 16) then
        exec (.attach p d k c m) s = .next (s.send p (refusedMessage .descriptorSize)).settleCache
      else if ¬(c.toNat % 64 = 0 ∧ c.toNat + kc ≤ 2 ^ 48) then
        exec (.attach p d k c m) s = .next (s.send p (refusedMessage .completionBase)).settleCache
      else if ¬(4 ≤ m.toNat ∧ m.toNat ≤ 16) then
        exec (.attach p d k c m) s = .next (s.send p (refusedMessage .completionSize)).settleCache
      else if d.toNat < c.toNat + kc ∧ c.toNat < d.toNat + kd then
        exec (.attach p d k c m) s = .next (s.send p (refusedMessage .overlap)).settleCache
      else ∃ t, exec (.attach p d k c m) s = .next t ∧ (t.port p).state = .active)

/-- R155 and R196: an ATTACH that passes every check makes the port ACTIVE with its ring counts at 0, ends any
moderation, and is answered ATTACHED, whose word carries the k and m taken; with the ready list empty the walk it
causes assigns nothing. The cache's own work follows (settleCache, log 19). -/
def Obligations.AttachMakesThePortActive : Prop :=
  (∀ k m : Nat, k < 32 → m < 32 → ∃ w, attachedMessage k m = [w] ∧ Laid w [(0, 8, 0x83), (16, 5, k), (24, 5, m)]) ∧
  ∀ (p : PortId) (s : State) (d c : Address) (k m : BitVec 5),
    (s.port p).state = .detached ∨ (s.port p).state = .faulted → d.toNat % 64 = 0 → c.toNat % 64 = 0 →
    4 ≤ k.toNat → k.toNat ≤ 16 → 4 ≤ m.toNat → m.toNat ≤ 16 → d.toNat + 16 * 2 ^ k.toNat ≤ 2 ^ 48 →
    c.toNat + 64 * 2 ^ m.toNat ≤ 2 ^ 48 →
    (c.toNat + 64 * 2 ^ m.toNat ≤ d.toNat ∨ d.toNat + 16 * 2 ^ k.toNat ≤ c.toNat) →
    (s.ready = [] → exec (.attach p d k c m) s = .next (((s.setRing p
      { parameters := some { descriptorBase := d, k := k.toNat, completionBase := c, m := m.toNat }
        announced := 0, fetched := 0, consumed := 0, announcedConsumed := 0, produced := 0 }).setPort p
          { s.port p with state := .active, notifyPending := false, quietUntil := none }).send p
            (attachedMessage k.toNat m.toNat)).settleCache) ∧
    ∃ t, exec (.attach p d k c m) s = .next t ∧
      t.port p = { s.port p with state := .active, notifyPending := false, quietUntil := none } ∧
      s.sent[p] ++ [attachedMessage k.toNat m.toNat] <+: t.sent[p]

/-- R157, R158, R146, R147 and R196: a DETACH of an ACTIVE port drains it, and with its engine IDLE it is DETACHED at
once, its rings torn down, the tag of a READ outstanding abandoned and DETACHED sent; in DETACHED it is answered
DETACHED; in the other states it has no effect. The cache's own work follows (settleCache, log 19). -/
def Obligations.DetachDrainsThePort : Prop :=
  (∃ w, detachedMessage = [w] ∧ Laid w [(0, 8, 0x85)]) ∧
  ∀ (p : PortId) (s : State),
    ((s.port p).state = .active → (s.engine p).state = .idle → ∃ t, exec (.detach p) s = .next t ∧
      t.port p = { s.port p with state := .detached, notifyPending := false, quietUntil := none } ∧
      t.ring p = Ring.torn ∧ (∀ e ∈ t.cache.entries, e.port ≠ p) ∧
      (∀ y, s.cache.outstanding p = some y → ∀ f, t.cache.slots[y] = some f → f.port ≠ p) ∧
      TagJoins p (s.cache.outstanding p) s.cache t.cache ∧
      t.sent[p] = s.sent[p] ++ [detachedMessage]) ∧
    ((s.port p).state = .active → (s.engine p).state ≠ .idle → ∃ t, exec (.detach p) s = .next t ∧
      t.port p = { s.port p with state := .draining } ∧ t.engine p = s.engine p) ∧
    ((s.port p).state = .detached → exec (.detach p) s = .next (s.send p detachedMessage).settleCache) ∧
    ((s.port p).state = .draining ∨ (s.port p).state = .faulted ∨ (s.port p).state = .linkDown →
      exec (.detach p) s = .next s.settleCache)

/-- R131, R132, R117, R135, R136, R137, R144, R145 and R196: an ANNOUNCE whose counts pass the three checks installs
both; an engine that waits for credit then looks at its credit again, and writes its completion record or goes on
waiting, its buffer fill 0 (the model's choice, log 34). A port that is not attached takes no ANNOUNCE. The cache's
own work follows (settleCache, log 19): where the announced producer is then ahead of fetched for that port alone, and
no engine is in WAIT_BUFFER, its READ is sent. What that work consists of: when a port wants a fetch, the slot and the
size it gets, the READ in its words and what it reserves, the round-robin order, and the test, the victim, the rewind
and the hold of an eviction. -/
def Obligations.AnnounceInstallsTheCounts : Prop :=
  (∀ (tag n : Nat) (a : Address), tag < 256 → n < 4096 → ∃ w0 w1, readMessage tag n a = [w0, w1] ∧
    Laid w0 [(0, 8, 0x81), (16, 8, tag), (32, 16, 16 * n)] ∧ Laid w1 [(0, 48, a.toNat)]) ∧
  (∀ (p : PortId) (producer consumed : Count) (s : State) (x : Ring) (g : RingParameters) (u : State),
    x = s.ring p → u = s.setRing p { x with announced := producer, announcedConsumed := consumed } →
    ((s.port p).state = .active ∨ (s.port p).state = .draining → x.parameters = some g →
      (producer - x.announced).toNat < 2 ^ 31 →
      ((producer - x.consumed).toNat ≤ 2 ^ g.k ∨ 2 ^ 31 ≤ (producer - x.consumed).toNat) →
      (consumed - x.announcedConsumed).toNat ≤ (x.produced - x.announcedConsumed).toNat →
      ((s.engine p).state ≠ .waitCredit → exec (.announce p producer consumed) s = .next u.settleCache ∧
        ∀ (t : Fin 4) (n : Nat), (s.port p).state = .active → (∀ v, (s.engine v).state ≠ .waitBuffer) →
          (∀ v, v ≠ p → ahead ((s.ring v).announced - (s.ring v).fetched) = false) →
          ahead (producer - x.fetched) = true → s.cache.outstanding p = none → s.openSlot p = some t →
          n = min (max (producer - x.fetched).toNat s.fetchMin) (min s.fetchMax
            (min (s.perPortMax - s.cache.cachedCount p - s.cache.reservedCount p)
              (min (s.cache.sharedRoom p) (2 ^ g.k - x.fetched.toNat % 2 ^ g.k)))) → 1 ≤ n →
          exec (.announce p producer consumed) s = .next ((u.setCache
            { u.cache with
              slots := s.cache.slots.set t (some { port := p, first := x.fetched, n, reserved := n, producer })
              granted := p
              holds := s.cache.holds.set p none }).send p
                (readMessage t.val n (g.descriptorBase + BitVec.ofNat 48 (16 * (x.fetched.toNat % 2 ^ g.k)))))) ∧
      ∀ (i : SlotId) (n : Slice) (e : Engine), e = s.engine p → e.state = .waitCredit → e.assigned = some (i, n) →
        ((x.produced - consumed).toNat < 2 ^ g.m → ∃ t, exec (.announce p producer consumed) s = .next t ∧
          s.sent[p] ++ [writeMessage (g.completionBase + BitVec.ofNat 48 (64 * (x.produced.toNat % 2 ^ g.m)))
            (completionRecord (s.ctx i) n e.kind (e.firstBuffer.getD x.consumed) e.buffers e.readPosition e.cut
              (expectedCycle g.m x.produced))] <+: t.sent[p]) ∧
        (2 ^ g.m ≤ (x.produced - consumed).toNat → exec (.announce p producer consumed) s =
          .next ((u.setHold p none).setEngine p { e with bufferFill := 0 }).settleCache)) ∧
    ((s.port p).state = .detached ∨ (s.port p).state = .faulted ∨ (s.port p).state = .linkDown →
      exec (.announce p producer consumed) s = .next s.settleCache)) ∧
  (∀ (c : Cache) (p : PortId),
    c.cachedCount p = (c.entries.filter fun x => decide (x.port = p ∧ x.state = .cached)).length ∧
    (∀ t f, c.outstanding p = some t → c.slots[t] = some f → f.port = p) ∧
    (c.outstanding p = none → c.reservedCount p = 0) ∧
    (∀ t f, c.slots[t] = some f → f.port = p → (∀ (v : Fin 4) h, v ≠ t → c.slots[v] = some h → h.port ≠ p) →
      c.reservedCount p = f.reserved) ∧
    c.sharedRoom p = 64 - (c.entries.length + (c.reservedCount 0 + c.reservedCount 1 + c.reservedCount 2 +
      c.reservedCount 3)) - ((([0, 1, 2, 3] : List PortId).filter fun v => decide (v ≠ p)).map fun v =>
        (c.holds[v]).getD 0).sum) ∧
  (∀ (s : State) (p : PortId) (t : Fin 4), s.openSlot p = some t ↔
    (t.val < s.fetchSlots ∧ s.cache.slots[t] = none ∧ s.cache.abandonedTag p t = false) ∧
    ∀ v, v < t → ¬(v.val < s.fetchSlots ∧ s.cache.slots[v] = none ∧ s.cache.abandonedTag p v = false)) ∧
  (∀ (s : State) (p : PortId) (g : RingParameters) (n : Nat) (wants : Prop), (s.ring p).parameters = some g →
    (wants ↔ ((s.port p).state = .active ∨ (s.port p).state = .draining ∧ (s.engine p).assigned ≠ none) ∧
      s.cache.outstanding p = none ∧ ahead ((s.ring p).announced - (s.ring p).fetched) = true) →
    n = min (max ((s.ring p).announced - (s.ring p).fetched).toNat s.fetchMin) (min s.fetchMax
      (min (s.perPortMax - s.cache.cachedCount p - s.cache.reservedCount p)
        (min (s.cache.sharedRoom p) (2 ^ g.k - (s.ring p).fetched.toNat % 2 ^ g.k)))) →
    (¬wants ∨ s.openSlot p = none ∨ n = 0 → s.considerFetch p = s) ∧
    ∀ t, wants → s.openSlot p = some t → 1 ≤ n → s.considerFetch p = (s.setCache
      { s.cache with
        slots := s.cache.slots.set t (some
          { port := p, first := (s.ring p).fetched, n, reserved := n, producer := (s.ring p).announced })
        granted := p
        holds := s.cache.holds.set p none }).send p
          (readMessage t.val n (g.descriptorBase + BitVec.ofNat 48 (16 * ((s.ring p).fetched.toNat % 2 ^ g.k))))) ∧
  (∀ (s : State) (p : PortId) (starves : Prop) (mayLose : PortId → Prop),
    (starves ↔ (s.engine p).state = .waitBuffer ∧ s.cache.cachedCount p = 0 ∧ s.cache.reservedCount p = 0 ∧
      s.cache.holds[p] = none ∧ ahead ((s.ring p).announced - (s.ring p).fetched) = true ∧ s.cache.sharedRoom p = 0) →
    (∀ v, mayLose v ↔ v ≠ p ∧ 2 ≤ s.cache.cachedCount v ∧ s.cache.outstanding v = none) →
    (¬starves ∨ (∀ v, ¬mayLose v) → s.evictFor p = s) ∧
    ∀ v e, starves → mayLose v →
      (∀ w, mayLose w → s.cache.cachedCount w < s.cache.cachedCount v ∨
        s.cache.cachedCount w = s.cache.cachedCount v ∧ v ≤ w) →
      e = min s.fetchMin (s.cache.cachedCount v - 1) →
      s.evictFor p = s.setCache
        { s.cache with
          entries := s.cache.entries.filter fun x =>
            decide (¬(x.port = v ∧ x.state = .cached ∧ ((s.ring v).fetched - 1 - x.count).toNat < e))
          rings := s.cache.rings.set v { s.ring v with fetched := (s.ring v).fetched - BitVec.ofNat 32 e }
          holds := s.cache.holds.set p (some e) }) ∧
  ∀ s t : State, t = s.grantFetches →
    (∀ g, g = s.cache.granted →
      t = ((((s.considerFetch (g + 1)).considerFetch (g + 2)).considerFetch (g + 3)).considerFetch (g + 4))) ∧
    s.cachePass = (((t.evictFor 0).evictFor 1).evictFor 2).evictFor 3 ∧
    ((∀ p, s.considerFetch p = s ∧ s.evictFor p = s) → s.settleCache = s) ∧
    s.settleCache = s.cachePass.cachePass.cachePass.cachePass.grantFetches

/-- R154, R159, R101, R131, R138, R140, R141, R146, R147 and R124: what puts an ACTIVE or DRAINING port into FAULTED,
with its cause: counts that fail a check, an error answer to its READ, an answer that matches no READ of it or has
another length than its READ asks for, a descriptor that is not sound or was announced and is not valid, after any
that are valid, and a malformed message that answers no abandoned tag of it (logs 27 and 38). A delivery it held goes
back to the dispatcher. The tag of the READ outstanding at the teardown is abandoned; one answered with an error or a
wrong length is still outstanding, one answered with a descriptor that faults is not (the model's choice, log 20). The
cache's own work follows (settleCache, log 19). -/
def Obligations.PortFaultsTakeThePortDown : Prop :=
  [FaultCause.protocol, .ringInvalid, .memoryError, .unknownTag, .malformed, .linkLost].map FaultCause.code =
    [1, 2, 3, 4, 5, 6] ∧
  ∀ (p : PortId) (s : State) (x : Ring) (g : RingParameters) (left : Option (Fin 4)),
    (s.port p).state = .active ∨ (s.port p).state = .draining →
    x = s.ring p → x.parameters = some g → left = s.cache.outstanding p →
    (∀ producer consumed : Count,
      (2 ^ 31 ≤ (producer - x.announced).toNat ∨
        (2 ^ g.k < (producer - x.consumed).toNat ∧ (producer - x.consumed).toNat < 2 ^ 31) ∨
        (x.produced - x.announcedConsumed).toNat < (consumed - x.announcedConsumed).toNat) →
      ∃ t, exec (.announce p producer consumed) s = .next t ∧ Faulted p .protocol left s t) ∧
    (∀ (tag : BitVec 8) (i : Fin 4) (f : Fetch), tag.toNat = i.val → s.cache.slots[i] = some f → f.port = p →
      (∀ status, ∃ t, exec (.readDataError p tag status) s = .next t ∧ Faulted p .memoryError left s t) ∧
      (∀ data, data.length ≠ 2 * f.n → ∃ t, exec (.readData p tag data) s = .next t ∧ Faulted p .malformed left s t) ∧
      (∀ (data : List Word) (valid rest : List Descriptor) (d : Descriptor) (n : Count), data.length = 2 * f.n →
        (parseDescriptors data).take f.reserved = valid ++ d :: rest → n = f.first + BitVec.ofNat 32 valid.length →
        (∀ j y, valid[j]? = some y →
          y.cycle = expectedCycle g.k (f.first + BitVec.ofNat 32 j) ∧ 1 ≤ y.units ∧ y.units ≤ 2048 ∧
            y.address.toNat % 64 = 0) →
        (d.cycle = expectedCycle g.k n ∧ ¬(1 ≤ d.units ∧ d.units ≤ 2048 ∧ d.address.toNat % 64 = 0) ∨
          d.cycle ≠ expectedCycle g.k n ∧ ahead (f.producer - n) = true) →
        (∀ v h, v ≠ i → s.cache.slots[v] = some h → h.port ≠ p) →
        ∃ t, exec (.readData p tag data) s = .next t ∧ Faulted p .ringInvalid none s t)) ∧
    (∀ (tag : BitVec 8) (data : List Word) (status : Word),
      (∀ i : Fin 4, tag.toNat = i.val →
        s.cache.abandonedTag p i = false ∧ ∀ f, s.cache.slots[i] = some f → f.port ≠ p) →
      (∃ t, exec (.readData p tag data) s = .next t ∧ Faulted p .unknownTag left s t) ∧
      ∃ t, exec (.readDataError p tag status) s = .next t ∧ Faulted p .unknownTag left s t) ∧
    ∀ message, malformed message = true → s.cache.answersAbandoned p message = none →
      ∃ t, exec (.malformedMessage p message) s = .next t ∧ Faulted p .malformed left s t

/-- R154, R162, R147 and R196: the fields of the ten messages a builder sends, each read from the bits R196 gives it;
which type codes and lengths make a message malformed; and what becomes of a message without a ring. A malformed
message faults a DETACHED port, which holds no delivery, and is discarded in FAULTED and LINK_DOWN; an answer to no
READ is discarded; but the first READ-DATA with an abandoned tag, whatever its length, ends the tag and has no other
effect (log 27). That an answer of wrong length is malformed where its tag is not abandoned is the model's choice (log
38). The cache's own work follows (settleCache, log 19). -/
def Obligations.MessagesAreJudgedByTypeLengthAndTag : Prop :=
  (∀ (p : PortId) (w0 w1 w2 : Word) (code : BitVec 8) (data : List Word), code = w0.extractLsb' 0 8 →
    (code = 0x01 → messageCommand p [w0, w1, w2] = some (.attach p (w1.extractLsb' 0 48) (w1.extractLsb' 56 5)
      (w2.extractLsb' 0 48) (w2.extractLsb' 56 5))) ∧
    (code = 0x02 → messageCommand p [w0] = some (.detach p)) ∧
    (code = 0x03 → messageCommand p [w0, w1] = some (.announce p (w1.extractLsb' 0 32) (w1.extractLsb' 32 32))) ∧
    (code = 0x10 → messageCommand p [w0, w1] = some (.itemRead p (w1.extractLsb' 0 8) (w1.extractLsb' 8 8))) ∧
    (code = 0x11 → messageCommand p [w0] = some (.itemReadNext p)) ∧
    (code = 0x12 → messageCommand p [w0, w1, w2] = some (.itemStage p (w1.extractLsb' 0 8) w2)) ∧
    (code = 0x13 → messageCommand p [w0, w1] = some (.itemCommit p (w1.extractLsb' 0 8) (w1.extractLsb' 8 8))) ∧
    (code = 0x18 → messageCommand p [w0] = some (.incidentTake p)) ∧
    (code = 0x20 → messageCommand p (w0 :: data) = some (.readData p (w0.extractLsb' 16 8) data)) ∧
    (code = 0x21 → messageCommand p [w0, w1] = some (.readDataError p (w0.extractLsb' 16 8) w1)) ∧
    (malformed (w0 :: data) = false ↔ messageCommand p (w0 :: data) ≠ none) ∧
    (malformed (w0 :: data) = false ↔
      data.length = 0 ∧ (code = 0x02 ∨ code = 0x11 ∨ code = 0x18) ∨
        data.length = 1 ∧ (code = 0x03 ∨ code = 0x10 ∨ code = 0x13 ∨ code = 0x21) ∨
        data.length = 2 ∧ (code = 0x01 ∨ code = 0x12) ∨ code = 0x20)) ∧
  ∀ (p : PortId) (s : State),
    (∀ (message : List Word) (i : Fin 4), s.cache.answersAbandoned p message = some i ↔
      ∃ w0 rest, message = w0 :: rest ∧ (w0.extractLsb' 0 8 = 0x20#8 ∨ w0.extractLsb' 0 8 = 0x21#8) ∧
        (w0.extractLsb' 16 8).toNat = i.val ∧ s.cache.abandonedTag p i = true ∧
        ∀ f, s.cache.slots[i] = some f → f.port ≠ p) ∧
    (∀ message, malformed message = true →
      ((s.port p).state = .detached → s.cache.answersAbandoned p message = none →
        exec (.malformedMessage p message) s = .next ((s.setPort p
          { state := .faulted, cause := some .malformed, reservation := none, staging := Vector.replicate 8 none,
            cursor := (s.port p).cursor, notifyPending := false, quietUntil := none }).post .portFault (.port p)
              (s.engine p).slice 5).settleCache) ∧
      ((s.port p).state = .faulted ∧ s.cache.answersAbandoned p message = none ∨ (s.port p).state = .linkDown →
        exec (.malformedMessage p message) s = .next s.settleCache) ∧
      ∀ i, (s.port p).state ≠ .linkDown → s.cache.answersAbandoned p message = some i →
        exec (.malformedMessage p message) s = .next (s.setCache { s.cache with
          abandoned := s.cache.abandoned.set p (s.cache.abandoned[p] &&& ~~~(1#4 <<< i.val)) }).settleCache) ∧
    ∀ (data : List Word) (tag : BitVec 8) (status : Word),
      ((s.port p).state = .linkDown → exec (.readData p tag data) s = .next s.settleCache ∧
        exec (.readDataError p tag status) s = .next s.settleCache) ∧
      ((s.port p).state = .detached ∨ (s.port p).state = .faulted →
        (∀ i : Fin 4, tag.toNat = i.val →
          s.cache.abandonedTag p i = false ∧ ∀ f, s.cache.slots[i] = some f → f.port ≠ p) →
        exec (.readData p tag data) s = .next s.settleCache ∧
        exec (.readDataError p tag status) s = .next s.settleCache) ∧
      ((s.port p).state ≠ .linkDown → ∀ i : Fin 4, tag.toNat = i.val → s.cache.abandonedTag p i = true →
        (∀ f, s.cache.slots[i] = some f → f.port ≠ p) → ∀ u, u = (s.setCache
          { s.cache with
            abandoned := s.cache.abandoned.set p (s.cache.abandoned[p] &&& ~~~(1#4 <<< i.val)) }).settleCache →
        exec (.readData p tag data) s = .next u ∧ exec (.readDataError p tag status) s = .next u)

/-- R139 to R143, R129, R194, R112 and R145: an answer to the port's READ. Its descriptors, each two words with the
fields of R194, are taken in count order while its reservations are held, up to one whose cycle bit does not match,
beyond what was announced, which ends the READ without a fault. Those before it, valid and sound, are CACHED and
fetched follows them; the fetch slot is free again. Where one or more became CACHED, an engine in WAIT_BUFFER is
woken: it takes the entry at consumed-for-delivery if that is CACHED and is MOVING, its eviction hold ended, and goes
on waiting otherwise, its buffer fill 0 (the model's choice, log 34). The cache's own work follows (settleCache, log
19). -/
def Obligations.ReadDataCachesTheDescriptors : Prop :=
  (∀ (w0 w1 : Word) (l : List Word), parseDescriptors (w0 :: w1 :: l) =
      { address := w0.extractLsb' 0 48, units := (w1.extractLsb' 0 12).toNat, cycle := w1.getLsbD 63 } ::
        parseDescriptors l ∧ parseDescriptors [w0] = [] ∧ parseDescriptors [] = []) ∧
  (∀ (k : Nat) (n : Count), expectedCycle k n = true ↔ (n.toNat / 2 ^ k) % 2 = 0) ∧
  ∀ (p : PortId) (s : State) (tag : BitVec 8) (i : Fin 4) (f : Fetch) (g : RingParameters) (data : List Word)
    (valid rest : List Descriptor) (c : Cache) (e : Engine) (n m : Count),
    (s.port p).state = .active ∨ (s.port p).state = .draining → tag.toNat = i.val →
    s.cache.slots[i] = some f → f.port = p → (s.ring p).parameters = some g → data.length = 2 * f.n →
    (parseDescriptors data).take f.reserved = valid ++ rest → n = f.first + BitVec.ofNat 32 valid.length →
    (∀ j d, valid[j]? = some d → d.cycle = expectedCycle g.k (f.first + BitVec.ofNat 32 j) ∧ 1 ≤ d.units ∧
      d.units ≤ 2048 ∧ d.address.toNat % 64 = 0) →
    (∀ d, rest.head? = some d → d.cycle ≠ expectedCycle g.k n ∧ ahead (f.producer - n) = false) →
    c = { s.cache with
      slots := s.cache.slots.set i none
      entries := s.cache.entries ++ valid.mapIdx fun j d =>
        { port := p, count := f.first + BitVec.ofNat 32 j, address := d.address, length := 512 * d.units,
          state := .cached }
      rings := if valid = [] then s.cache.rings else s.cache.rings.set p { s.ring p with fetched := n } } →
    e = s.engine p → m = (s.ring p).consumed →
    (valid = [] ∨ e.state ≠ .waitBuffer → exec (.readData p tag data) s = .next (s.setCache c).settleCache) ∧
    (valid ≠ [] → e.state = .waitBuffer →
      ((∃ y ∈ c.entries, y.port = p ∧ y.state = .cached ∧ y.count = m) →
        exec (.readData p tag data) s = .next ((s.setCache
          { c with
            entries := c.entries.map fun y =>
              if y.port = p ∧ y.state = .cached ∧ y.count = m then { y with state := .assigned } else y
            rings := c.rings.set p { c.rings[p] with consumed := m + 1 }
            holds := c.holds.set p none }).setEngine p
              { e with
                state := .moving, bufferFill := 0, buffers := e.buffers + 1
                firstBuffer := some (e.firstBuffer.getD m) }).settleCache) ∧
      ((∀ y ∈ c.entries, y.port = p → y.state = .cached → y.count ≠ m) →
        exec (.readData p tag data) s = .next ((s.setCache c).setEngine p { e with bufferFill := 0 }).settleCache))

/-! ## Items and run control -/

/-- R167, R168, R169, R192, R196 and R197: ITEM-READ and ITEM-READ-NEXT reserve the item they name, forget what was
staged and answer with its generation and words; the table code and the number name an item of the catalogue, and the
item after the last of a table is its first; the replies are the words of R196; ITEM-STAGE writes one staging word. An
item that is not in the catalogue, a missing cursor and an index above 7 are answered as such, in a reply without item
fields (the model's choice, log 22). LINK_DOWN takes no request. What RUN and the status items LINKSTAT, PORTSTAT,
STORE, RETIRED and SLICESTAT show, word by word; that the slice number of LINKSTAT is 0 without a current fragment is
the model's choice (log 36). -/
def Obligations.ItemRequestsReserveAndStage : Prop :=
  ((∀ lsb n v : Nat, v < 2 ^ n → lsb + n ≤ 64 → Laid (fieldAt lsb v) [(lsb, n, v)]) ∧
    (∀ (lsb : Nat) (b : Bool), flagAt lsb b = fieldAt lsb b.toNat) ∧
    (∀ code : ReplyCode, ∃ w, plainReply code = [w] ∧ Laid w [(0, 8, 0x86), (16, 8, code.code)]) ∧
    (∀ (code : ReplyCode) (index : Nat) (n : ItemName) (g : BitVec 16), index < 256 →
      ∃ w, itemReply code index n g = [w] ∧ Laid w [(0, 8, 0x86), (16, 8, code.code), (24, 8, index),
        (32, 8, n.table), (40, 8, n.number), (48, 16, g.toNat)]) ∧
    (∀ (n : ItemName) (g : BitVec 16) (contents : Vector Word 8), ∃ w, readReply n g contents = w :: contents.toList ∧
      Laid w [(0, 8, 0x86), (16, 8, 1), (32, 8, n.table), (40, 8, n.number), (48, 16, g.toNat)]) ∧
    [ReplyCode.ok, .unknownItem, .readOnly, .conflict, .state, .rejected, .badIndex, .noCursor].map ReplyCode.code =
      [1, 2, 3, 4, 5, 6, 7, 8]) ∧
  ([ItemName.run, .slot, .assembly, .linktime, .pressure, .dispatch, .cache, .outputs, .store].map
      (fun n => (n.table, n.number)) = [(0, 0), (1, 0), (2, 0), (3, 0), (5, 0), (7, 0), (8, 0), (10, 0), (13, 0)] ∧
    (∀ r : ReceiverId, (ItemName.linkmap r).table = 4 ∧ (ItemName.linkmap r).number = r.val ∧
      (ItemName.linkstat r).table = 11 ∧ (ItemName.linkstat r).number = r.val) ∧
    (∀ i : SlotId, (ItemName.steer i).table = 6 ∧ (ItemName.steer i).number = i.val ∧
      (ItemName.slicestat i).table = 15 ∧ (ItemName.slicestat i).number = i.val) ∧
    (∀ p : PortId, (ItemName.portcfg p).table = 9 ∧ (ItemName.portcfg p).number = p.val ∧
      (ItemName.portstat p).table = 12 ∧ (ItemName.portstat p).number = p.val) ∧
    (∀ k : Fin 4, (ItemName.retired k).table = 14 ∧ (ItemName.retired k).number = k.val) ∧
    (∀ (table number : BitVec 8) (n : ItemName), ItemName.ofCodes table number = some n ↔
      table.toNat = n.table ∧ number.toNat = n.number) ∧
    ∀ (n : ItemName) (count : Nat), count = (if n.table = 4 ∨ n.table = 11 then 24
        else if n.table = 6 ∨ n.table = 15 then 64 else if n.table = 9 ∨ n.table = 12 ∨ n.table = 14 then 4 else 1) →
      n.next.table = n.table ∧ n.next.number = (n.number + 1) % count) ∧
  (∀ (p : PortId) (s : State) (table number index : BitVec 8) (value : Word) (reading : ItemName → State),
    (∀ n, reading n = (s.setPort p { s.port p with
        reservation := some (n, s.generation n), staging := Vector.replicate 8 none, cursor := some n }).send p
          (readReply n (s.generation n) (s.contents n))) →
    ((s.port p).state = .linkDown → exec (.itemRead p table number) s = .next s ∧ exec (.itemReadNext p) s = .next s ∧
      exec (.itemStage p index value) s = .next s) ∧
    ((s.port p).state ≠ .linkDown →
      (∀ n, ItemName.ofCodes table number = some n → exec (.itemRead p table number) s = .next (reading n)) ∧
      (ItemName.ofCodes table number = none →
        exec (.itemRead p table number) s = .next (s.send p (plainReply .unknownItem))) ∧
      (∀ n, (s.port p).cursor = some n → exec (.itemReadNext p) s = .next (reading n.next)) ∧
      ((s.port p).cursor = none → exec (.itemReadNext p) s = .next (s.send p (plainReply .noCursor))) ∧
      (∀ j : Fin 8, index.toNat = j.val → exec (.itemStage p index value) s =
        .next ((s.setPort p { s.port p with staging := (s.port p).staging.set j (some value) }).send p
          (plainReply .ok))) ∧
      (8 ≤ index.toNat → exec (.itemStage p index value) s = .next (s.send p (plainReply .badIndex))))) ∧
  ([RunState.stopped, .running, .draining, .flushing].map RunState.code = [0, 1, 2, 3] ∧
    [LinkState.down, .aligning, .probation, .up, .barred].map LinkState.code = [0, 1, 2, 3, 4] ∧
    [BarredReason.none, .lost, .burst].map BarredReason.code = [0, 1, 2] ∧
    [PortState.linkDown, .detached, .active, .draining, .faulted].map PortState.code = [0, 1, 2, 3, 4] ∧
    [none, some FaultCause.protocol, some .ringInvalid, some .memoryError, some .unknownTag, some .malformed,
      some .linkLost].map causeCode = [0, 1, 2, 3, 4, 5, 6] ∧
    [EngineState.idle, .waitBuffer, .moving, .waitCredit].map EngineState.code = [0, 1, 2, 3] ∧
    [SlotState.unopened, .opened, .ready, .delivering, .retired].map SlotState.code = [0, 1, 2, 3, 4]) ∧
  ∀ s : State,
    (s.contents .run).toList =
      [fieldAt 0 s.run.code, fieldAt 0 s.frontier.toNat, fieldAt 0 s.newestOpened.toNat,
        fieldAt 0 s.newestStrobe.toNat, 0, 0, 0, 0] ∧
    (∀ r x, x = s.rx r → (s.contents (.linkstat r)).toList =
      [fieldAt 0 x.link.code, fieldAt 0 x.barred.code,
        flagAt 0 (s.holdPressure r) ||| flagAt 1 x.early ||| flagAt 2 x.holdLow ||| flagAt 3 x.noPages,
        (match x.current with
          | some n => fieldAt 0 n.toNat ||| fieldAt 32 1
          | none => 0),
        fieldAt 0 x.errors.length, 0, 0, 0]) ∧
    (∀ p x, x = s.ring p → (s.contents (.portstat p)).toList =
      [fieldAt 0 (s.port p).state.code ||| fieldAt 8 (causeCode (s.port p).cause) ||| fieldAt 16 (s.engine p).state.code,
        fieldAt 0 x.announced.toNat ||| fieldAt 32 x.fetched.toNat,
        fieldAt 0 x.consumed.toNat ||| fieldAt 32 x.announcedConsumed.toNat, fieldAt 0 x.produced.toNat,
        fieldAt 0 (s.cache.cachedCount p) ||| fieldAt 8 (s.cache.reservedCount p) |||
          fieldAt 16 (match s.cache.outstanding p with
            | some y => y.val
            | none => 255) ||| fieldAt 24 (s.cache.holds[p].getD 255) ||| fieldAt 32 s.cache.abandoned[p].toNat,
        0, 0, 0]) ∧
    (s.contents .store).toList =
      [fieldAt 0 s.pool.free.length, fieldAt 0 s.pool.occupancy, fieldAt 0 s.pool.retired.length,
        fieldAt 0 s.pressure.level.val, 0, 0, 0, 0] ∧
    (∀ (k : Fin 4) (j : Fin 8), (s.contents (.retired k))[j] =
      fieldAt 0 (s.pool.retired.getD (8 * k.val + j.val) 0)) ∧
    ∀ (i : SlotId) (c : Context) (finals : SourceSet), c = s.ctx i →
      (∀ q, member finals q = true ↔ (c.chain q).state.final = true) →
      (s.contents (.slicestat i)).toList =
        [fieldAt 0 c.slice.toNat ||| fieldAt 32 c.state.code, fieldAt 0 c.expected.toNat, fieldAt 0 c.dropped.toNat,
          fieldAt 0 finals.toNat, fieldAt 0 c.deadline, 0, 0, 0]

/-- R170 to R172: a commit is refused for the first check that fails, in the order READ_ONLY, CONFLICT, STATE,
REJECTED with the index of the word; its attempt ends and nothing is installed. An item that is not in the catalogue
is UNKNOWN_ITEM, and LINK_DOWN takes no commit. The class of each item, by its table. The checks of each settable
item's words, one for each word. That a refusal carries the generation as it stands, and UNKNOWN_ITEM no item fields,
is the model's choice (log 22). The cache's own work follows (settleCache, log 19). -/
def Obligations.CommitsAreRefusedInOrder : Prop :=
  (∀ (p : PortId) (n : ItemName) (c : Instr) (s u : State), commitTarget c = some (p, n) →
    u = s.setPort p { s.port p with reservation := none, staging := Vector.replicate 8 none } →
    ((s.port p).state = .linkDown → exec c s = .next s) ∧
    ((s.port p).state ≠ .linkDown →
      (n.kind = .readOnly → exec c s = .next (u.send p (itemReply .readOnly 0 n (s.generation n))).settleCache) ∧
      (n.kind ≠ .readOnly → (s.port p).reservation ≠ some (n, s.generation n) →
        exec c s = .next (u.send p (itemReply .conflict 0 n (s.generation n))).settleCache) ∧
      ((s.port p).reservation = some (n, s.generation n) → s.run ≠ .stopped →
        (n.kind = .runLocked ∨ n.kind = .mixed ∧ (s.judged p n)[0] ≠ (s.contents n)[0]) →
        exec c s = .next (u.send p (itemReply .state 0 n (s.generation n))).settleCache) ∧
      (∀ k : Nat, n.kind ≠ .readOnly → (s.port p).reservation = some (n, s.generation n) →
        (s.run = .stopped ∨ n.kind = .live ∨ n.kind = .mixed ∧ (s.judged p n)[0] = (s.contents n)[0]) →
        (s.items.checks n (s.judged p n))[k]? = some false →
        (∀ j, j < k → (s.items.checks n (s.judged p n))[j]? = some true) →
        exec c s = .next (u.send p (itemReply .rejected k n (s.generation n))).settleCache)) ∧
    ∀ table number, ItemName.ofCodes table number = none → (s.port p).state ≠ .linkDown →
      exec (.itemCommit p table number) s = .next (u.send p (plainReply .unknownItem)).settleCache) ∧
  (∀ n : ItemName, n.kind = if n.table = 0 then .command else if n.table = 1 ∨ n.table = 8 then .runLocked
    else if n.table = 4 then .mixed else if 11 ≤ n.table then .readOnly else .live) ∧
  ∀ (x : Items) (words : Vector Word 8) (w : Fin 8 → Nat), (∀ i : Fin 8, w i = (words[i]).toNat) →
    x.checks .slot words = [decide (w 0 ≤ 4)] ∧
    x.checks .assembly words = [decide (8 ≤ w 0 ∧ w 0 ≤ 65535), decide (1 ≤ w 1 ∧ w 1 ≤ 4096)] ∧
    x.checks .linktime words = [decide (1 ≤ w 0 ∧ w 0 ≤ 4095), decide (1 ≤ w 1 ∧ w 1 ≤ 65535)] ∧
    (∀ r, x.checks (.linkmap r) words =
      [decide (w 0 = 255 ∨ w 0 ≤ 23 ∧ ∀ k : ReceiverId, k ≠ r → (((x.linkmap[k]).words)[0]).toNat ≠ w 0),
        decide (w 1 ≤ 1), decide (w 2 ≤ 1), decide (w 3 ≤ 1)]) ∧
    x.checks .pressure words =
      [decide (1 ≤ w 0 ∧ w 0 ≤ 16383), decide (1 ≤ w 1 ∧ w 1 ≤ 16383 ∧ w 0 < w 1),
        decide (1 ≤ w 2 ∧ w 2 ≤ 16383 ∧ w 1 < w 2), decide (1 ≤ w 3 ∧ w 3 ≤ w 0 - 1), decide (w 4 ≤ 14),
        decide (w 5 ≤ 14 ∧ w 4 ≤ w 5), decide (w 6 ≤ 14 ∧ w 5 ≤ w 6), decide (1 ≤ w 7 ∧ w 7 ≤ 3)] ∧
    (∀ i, x.checks (.steer i) words = decide (1 ≤ w 0 ∧ w 0 ≤ 4) ::
      ([decide (w 1 ≤ 3), decide (w 2 ≤ 3 ∧ w 2 ≠ w 1), decide (w 3 ≤ 3 ∧ w 3 ≠ w 1 ∧ w 3 ≠ w 2),
        decide (w 4 ≤ 3 ∧ w 4 ≠ w 1 ∧ w 4 ≠ w 2 ∧ w 4 ≠ w 3)].take (w 0))) ∧
    x.checks .dispatch words = [decide (w 0 ≤ 65535)] ∧
    x.checks .cache words =
      [decide (1 ≤ w 0 ∧ w 0 ≤ 4), decide (1 ≤ w 1 ∧ w 1 ≤ 32), decide (1 ≤ w 2 ∧ w 2 ≤ 16),
        decide (1 ≤ w 3 ∧ w 3 ≤ 16 ∧ w 2 ≤ w 3)] ∧
    (∀ p, x.checks (.portcfg p) words = [decide (w 0 ≤ 65535)]) ∧
    x.checks .outputs words =
      [decide (w 0 ≤ 6), decide (w 1 ≤ 1), decide (w 2 ≤ 6), decide (w 3 ≤ 1), decide (w 4 ≤ 6), decide (w 5 ≤ 1),
        decide (w 6 ≤ 6), decide (w 7 ≤ 1)]

/-- R170, R172, R173, R80, R91, R93 and R134: a commit that passes every check installs the words staged over those
installed, a word the item does not use as 0; the item's generation grows by one, the attempt ends and OK is answered
with the new generation, before what the installation causes (the model's choice, log 22): PRESSURE an evaluation of
the level, STEER a walk, DISPATCH the end of the waits that the new wait has run out for, with a walk if there is one,
and CACHE, for each port that holds more than the new per-port max, the release of its reservations, then the freeing
of its newest CACHED entries and the rewind of its fetched. The cache's own work follows (settleCache, log 19). -/
def Obligations.CommitsInstallTheWords : Prop :=
  ∀ (p : PortId) (n : ItemName) (c : Instr) (s u : State) (words : Vector Word 8), commitTarget c = some (p, n) →
    n.kind ≠ .readOnly → (s.port p).state ≠ .linkDown → (s.port p).reservation = some (n, s.generation n) →
    (s.run = .stopped ∨ n.kind = .live ∨ n.kind = .mixed ∧ (s.judged p n)[0] = (s.contents n)[0]) →
    (∀ b ∈ s.items.checks n (s.judged p n), b = true) →
    (∀ i : Fin 8, words[i] = if i.val < n.usedWords (s.judged p n) then ((s.port p).staging[i]).getD (s.contents n)[i]
      else 0) →
    u = ((s.setPort p { s.port p with reservation := none, staging := Vector.replicate 8 none }).setItems
      (s.items.put n { generation := s.generation n + 1, words := words })).send p
        (itemReply .ok 0 n (s.generation n + 1)) →
    (∃ t, exec c s = .next t ∧ t.items = u.items ∧ u.sent[p] <+: t.sent[p] ∧ (t.port p).reservation = none ∧
      (t.port p).staging = Vector.replicate 8 none ∧ t.run = s.run) ∧
    ((∀ i, n ≠ .steer i) → n ≠ .pressure → n ≠ .dispatch → n ≠ .cache → exec c s = .next u.settleCache) ∧
    (n = .pressure → exec c s = .next u.evaluate.settleCache) ∧
    (∀ i, n = .steer i → exec c s = .next u.walk.settleCache) ∧
    (∀ l : List ReadyEntry, n = .dispatch →
      l = s.ready.map (fun e => { e with
        elapsed := e.elapsed || decide ((words[0]).toNat ≤ (s.counter - e.since).toNat) }) →
      (l = s.ready → exec c s = .next u.settleCache) ∧
      (l ≠ s.ready → exec c s = .next (u.setReady l).walk.settleCache)) ∧
    ∀ excess released : PortId → Nat, n = .cache →
      (∀ v, excess v = s.cache.cachedCount v + s.cache.reservedCount v - (words[1]).toNat) →
      (∀ v, released v = min (excess v) (s.cache.reservedCount v)) →
      exec c s = .next (u.setCache
        { s.cache with
          entries := s.cache.entries.filter fun x => decide (¬(x.state = .cached ∧
            ((s.ring x.port).fetched - 1 - x.count).toNat < excess x.port - released x.port))
          slots := Vector.ofFn fun t => (s.cache.slots[t]).map fun f =>
            { f with reserved := f.reserved - released f.port }
          rings := Vector.ofFn fun v =>
            { s.ring v with fetched := (s.ring v).fetched - BitVec.ofNat 32 (excess v - released v) } }).settleCache

/-- R176 to R178 and R11: START in STOPPED begins a run at its start slice and STOP in RUNNING drains it, each
answered OK with RUN's new generation, before what the command causes (log 22). With no segment stalled nothing else
follows a START; a STOP discards whole each stalled segment of an early slice, without an incident. A commit without
RUN's reservation is answered CONFLICT, a command in a run state that does not permit it STATE, and one with no
command staged REJECTED with index 0, each with the generation as it stands (log 22). The cache's own work follows
(settleCache, log 19). -/
def Obligations.RunCommandsStartAndStop : Prop :=
  ∀ (p : PortId) (s ended u : State) (n : Slice) (refused : ReplyCode → State), (s.port p).state ≠ .linkDown →
    ended = s.setPort p { s.port p with reservation := none, staging := Vector.replicate 8 none } →
    n = (((s.port p).staging[1]).getD (BitVec.ofNat 64 s.frontier.toNat)).setWidth 32 →
    u = (ended.setItems { s.items with runGeneration := s.items.runGeneration + 1 }).send p
      (itemReply .ok 0 .run (s.items.runGeneration + 1)) →
    (∀ x, refused x = (ended.send p (itemReply x 0 .run s.items.runGeneration)).settleCache) →
    ((s.port p).reservation = some (.run, s.items.runGeneration) →
      ((s.port p).staging[0] = some 5 → s.run = .stopped → (∀ r, (s.rx r).early = false) →
        exec (.start p) s = .next ((((u.setRun .running).setFrontier n).setNewestOpened (n - 1)).setNewestStrobe
          (n - 1)).settleCache) ∧
      ((s.port p).staging[0] = some 6 → s.run = .running →
        ((∀ r, (s.rx r).early = false) → exec (.stop p) s = .next (u.setRun
          (if s.newestOpened - s.frontier + 1 = 0 then .stopped else .draining)).settleCache) ∧
        ((∀ r, (s.rx r).early = true → (s.rx r).link = .up ∧ ∃ g rest, (s.rx r).buffer = g :: rest ∧
            g.place = .waiting ∧ 64 ≤ distance s.frontier g.header.slice ∧
            ((s.rx r).current = none ∨ g.header.kind = .middle ∨ g.header.kind = .last)) →
          exec (.stop p) s = .next
            { u with
              run := if s.newestOpened - s.frontier + 1 = 0 then .stopped else .draining
              receivers := Vector.ofFn fun r =>
                match (s.rx r).early, (s.rx r).buffer with
                | true, g :: rest =>
                  { s.rx r with
                    early := false, buffer := rest
                    framer := if g.verdict = none then (s.rx r).framer.disowned else (s.rx r).framer }
                | _, _ => s.rx r }.settleCache)) ∧
      ((s.port p).staging[0] = some 5 → s.run ≠ .stopped → exec (.start p) s = .next (refused .state)) ∧
      ((s.port p).staging[0] = some 6 → s.run ≠ .running → exec (.stop p) s = .next (refused .state)) ∧
      ((s.port p).staging[0] = some 7 → s.run = .flushing → exec (.flush p) s = .next (refused .state)) ∧
      ((∀ w, (s.port p).staging[0] = some w → w ≠ 5 ∧ w ≠ 6 ∧ w ≠ 7) →
        exec (.itemCommit p 0 0) s = .next (refused .rejected))) ∧
    ((s.port p).reservation ≠ some (.run, s.items.runGeneration) →
      ((s.port p).staging[0] = some 5 → exec (.start p) s = .next (refused .conflict)) ∧
      ((s.port p).staging[0] = some 6 → exec (.stop p) s = .next (refused .conflict)) ∧
      ((s.port p).staging[0] = some 7 → exec (.flush p) s = .next (refused .conflict)))

/-- R32, R103, R123, R116 to R119 and R179: a FLUSH in RUNNING or DRAINING empties the ready list, rolls back every
record, leaves no slice OPEN or READY, and is FLUSHING until every engine is IDLE; in STOPPED it has no other effect
than its OK, which comes before everything else on its port (the model's choice, log 22). With every engine IDLE the
pages given up are those of the records in receiver order, then those of each OPEN or READY slice in slice order. An
engine that holds a slice writes a FLUSHED record of what it has written and is IDLE, or, without completion credit,
waits for it with that kind, its buffer fill 0 (the model's choice, log 34). The cache's own work follows
(settleCache, log 19). -/
def Obligations.FlushClosesOutTheRun : Prop :=
  ∀ (p : PortId) (s u : State), (s.port p).state ≠ .linkDown →
    (s.port p).reservation = some (.run, s.items.runGeneration) → (s.port p).staging[0] = some 7 →
    u = ((s.setPort p { s.port p with reservation := none, staging := Vector.replicate 8 none }).setItems
      { s.items with runGeneration := s.items.runGeneration + 1 }).send p
        (itemReply .ok 0 .run (s.items.runGeneration + 1)) →
    (s.run = .stopped → exec (.flush p) s = .next u.settleCache) ∧
    (s.run = .running ∨ s.run = .draining → ∃ t, exec (.flush p) s = .next t ∧
      (t.run = .flushing ∨ t.run = .stopped) ∧ (t.run = .flushing → ∃ v, (t.engine v).state ≠ .idle) ∧ t.ready = [] ∧
      t.items = u.items ∧ u.sent[p] <+: t.sent[p] ∧
      (∀ r, (t.rx r).record = none ∧ (t.rx r).current = none) ∧
      (∀ i, (t.ctx i).state ≠ .opened ∧ (t.ctx i).state ≠ .ready) ∧
      ((∀ v, (s.engine v).state = .idle) → t.pool =
        (((List.range 64).map fun d => slotOf (s.frontier + BitVec.ofNat 32 d)).foldl
          (fun w i => if (s.ctx i).state = .opened ∨ (s.ctx i).state = .ready then w.freeSlice i else w)
          ((List.finRange 24).foldl (fun w r => w.rollback r) s)).pool) ∧
      ∀ (v : PortId) (i : SlotId) (n : Slice) (g : RingParameters) (e : Engine) (x : Ring), e = s.engine v →
        x = s.ring v → e.state ≠ .idle → e.assigned = some (i, n) → x.parameters = some g →
        (s.ctx i).state = .delivering → (∀ w, w ≠ v → ∀ y, (s.engine w).assigned = some y → y.1 ≠ i) →
        ((x.produced - x.announcedConsumed).toNat < 2 ^ g.m → t.engine v = Engine.idle ∧
          writeMessage (g.completionBase + BitVec.ofNat 48 (64 * (x.produced.toNat % 2 ^ g.m)))
            (completionRecord (s.ctx i) n .flushed (e.firstBuffer.getD x.consumed) e.buffers e.readPosition e.cut
              (expectedCycle g.m x.produced)) ∈ t.sent[v]) ∧
        (2 ^ g.m ≤ (x.produced - x.announcedConsumed).toNat →
          t.engine v = { e with state := .waitCredit, bufferFill := 0, kind := .flushed }))

/-! ## Incidents and notification -/

/-- R185 and R188: a posted incident is appended while the queue holds fewer than 16 records; with 16 it is lost and
the newest record's overflow flag is set. One that takes the queue from no record to one triggers every ACTIVE or
DRAINING port, in ascending number (the model's choice, log 24): outside its quiet period the port sends a NOTIFY,
inside it has one pending; the other ports are left as they are. One posted into a queue that holds a record triggers
none. Nothing but the queue and the ports it notifies changes. -/
def Obligations.IncidentQueueKeepsSixteen : Prop :=
  ∀ (s : State) (kind : IncidentKind) (source : IncidentSource) (slice : Option Slice) (detail : Word) (t : State),
    t = s.post kind source slice detail →
    (s.incidents.length < 16 → t.incidents = s.incidents ++
      [{ kind, source, slice, detail, stamp := s.counter, overflow := false }]) ∧
    (∀ old newest, s.incidents = old ++ [newest] → 16 ≤ s.incidents.length →
      t = s.setIncidents (old ++ [{ newest with overflow := true }])) ∧
    (1 ≤ s.incidents.length → t = s.setIncidents t.incidents) ∧
    (∀ u, s.incidents = [] →
      u = s.setIncidents [{ kind, source, slice, detail, stamp := s.counter, overflow := false }] →
      t = (((u.trigger 0).trigger 1).trigger 2).trigger 3 ∧
      ∀ p, ((s.port p).state = .active ∨ (s.port p).state = .draining →
          (s.inQuietPeriod p = true → t.port p = { s.port p with notifyPending := true } ∧ t.sent[p] = s.sent[p]) ∧
          (s.inQuietPeriod p = false → t.sent[p] = s.sent[p] ++ [notifyMessage (s.ring p).produced 1] ∧
            (t.port p).notifyPending = false)) ∧
        ((s.port p).state ≠ .active → (s.port p).state ≠ .draining →
          t.port p = s.port p ∧ t.sent[p] = s.sent[p])) ∧
    t.receivers = s.receivers ∧ t.contexts = s.contexts ∧ t.pool = s.pool ∧ t.cache = s.cache ∧ t.engines = s.engines ∧
    t.ready = s.ready ∧ t.items = s.items ∧ t.run = s.run ∧ t.pressure = s.pressure ∧ t.frontier = s.frontier ∧
    t.newestOpened = s.newestOpened ∧ t.newestStrobe = s.newestStrobe ∧ t.lastServed = s.lastServed ∧
    t.counter = s.counter ∧ t.slotLength = s.slotLength ∧ t.pending = s.pending

/-- R186 and R196: an INCIDENT-TAKE removes the oldest record and answers with it and the number of records left, or
answers EMPTY, in the words of R196; that the source number of a record without a source is 0 is the model's choice
(log 37). It is taken on a port in any state with a link. -/
def Obligations.IncidentTakeRemovesTheOldest : Prop :=
  (∃ w, emptyReply = [w] ∧ Laid w [(0, 8, 0x87), (16, 8, 2)]) ∧
  (∀ (i : Incident) (left : Nat) (source : Nat × Nat), left < 32 →
    source = (match i.source with
      | .none => (0, 0)
      | .link r => (1, r.val)
      | .port p => (2, p.val)) →
    ∃ w0 w1 w2 w4, incidentReply i left = [w0, w1, w2, i.detail, w4] ∧
      Laid w0 [(0, 8, 0x87), (16, 8, 1), (24, 5, left)] ∧
      Laid w1 [(0, 8, i.kind.code), (8, 2, source.1), (16, 5, source.2), (24, 1, i.slice.isSome.toNat),
        (25, 1, i.overflow.toNat)] ∧
      Laid w2 [(0, 32, (i.slice.getD 0).toNat)] ∧ Laid w4 [(0, 32, i.stamp.toNat)]) ∧
  [IncidentKind.linkUp, .linkLost, .errorBurst, .crcBad, .framing, .misrouted, .rxOverrun, .duplicate, .late, .timing,
    .uncorrectable, .retireFull, .portFault, .pressureHigh].map IncidentKind.code =
      [1, 2, 3, 4, 5, 6, 7, 8, 9, 10, 11, 12, 13, 14] ∧
  ∀ (p : PortId) (s : State),
    ((s.port p).state ≠ .linkDown →
      (s.incidents = [] → exec (.incidentTake p) s = .next (s.send p emptyReply)) ∧
      ∀ i rest, s.incidents = i :: rest →
        exec (.incidentTake p) s = .next ((s.setIncidents rest).send p (incidentReply i rest.length))) ∧
    ((s.port p).state = .linkDown → exec (.incidentTake p) s = .next s)

/-- R188, R189 and R196: a trigger sends a NOTIFY, in the words of R196, outside the quiet period and marks it pending
inside. At the end of the quiet period a pending NOTIFY is sent and a new period begins, else the port is outside one;
before its end nothing happens (log 2). A trigger at the slot that ends a quiet period, before its end is taken, sends
the one NOTIFY of the slot and leaves none pending (log 32). -/
def Obligations.NotifyFollowsTheQuietPeriod : Prop :=
  (∀ (produced : Count) (queued : Nat), queued < 32 → ∃ w0 w1, notifyMessage produced queued = [w0, w1] ∧
    Laid w0 [(0, 8, 0x82)] ∧ Laid w1 [(0, 32, produced.toNat), (32, 5, queued)]) ∧
  ∀ (p : PortId) (s : State) (v : Option Stamp) (message : List Word),
    v = (if s.moderation p = 0 then none else some (s.counter + BitVec.ofNat 32 (s.moderation p))) →
    message = notifyMessage (s.ring p).produced s.incidents.length →
    ((s.port p).state = .active ∨ (s.port p).state = .draining →
      ((s.inQuietPeriod p = true ↔ ∃ e, (s.port p).quietUntil = some e ∧ ahead (e - s.counter) = true)) ∧
      (s.inQuietPeriod p = true → s.trigger p = s.setPort p { s.port p with notifyPending := true }) ∧
      (s.inQuietPeriod p = false → s.trigger p =
        (s.send p message).setPort p { s.port p with quietUntil := v, notifyPending := false }) ∧
      ∀ e, (s.port p).quietUntil = some e →
        (ahead (e - s.counter) = true → exec (.quietPeriodEnd p) s = .next s) ∧
        (ahead (e - s.counter) = false → (s.port p).notifyPending = true → exec (.quietPeriodEnd p) s = .next
          ((s.send p message).setPort p { s.port p with quietUntil := v, notifyPending := false })) ∧
        (ahead (e - s.counter) = false → (s.port p).notifyPending = false →
          exec (.quietPeriodEnd p) s = .next (s.setPort p { s.port p with quietUntil := none }))) ∧
    ((s.port p).state ≠ .active → (s.port p).state ≠ .draining → s.trigger p = s ∧
      exec (.quietPeriodEnd p) s = .next s) ∧
    ((s.port p).quietUntil = none → exec (.quietPeriodEnd p) s = .next s)

/-! ## What commands leave alone, and what every step keeps -/

/-- But for a device reset: no command but STORE_BURST changes a byte of the store or the receiver last served, no
command touches the queue, only a slot advance changes the slot counter, the slot length and the hold decision, only
commits change the items, and requests, messages about incidents and the end of a quiet period leave the whole of
assembly, delivery and the cache as they are. -/
def Obligations.CommandsLeaveTheRest : Prop :=
  ∀ (c : Instr) (s t : State), exec c s = .next t → c ≠ .deviceReset →
    t.pending = s.pending ∧
    (c ≠ .storeBurst → t.lastServed = s.lastServed ∧
      ∀ a, Memory.read t.pool.store a = Memory.read s.pool.store a) ∧
    ((∀ p found, c ≠ .write p found) → c ≠ .storeBurst → t.pool.conditions = s.pool.conditions) ∧
    (c ≠ .slotAdvance → t.counter = s.counter ∧ t.slotLength = s.slotLength ∧ t.pressure.held = s.pressure.held ∧
      t.pressure.heldFor = s.pressure.heldFor) ∧
    match c with
    | .idle _ | .portLinkUp _ | .itemRead _ _ _ | .itemReadNext _ | .itemStage _ _ _ | .incidentTake _
    | .quietPeriodEnd _ =>
      t.receivers = s.receivers ∧ t.pool = s.pool ∧ t.contexts = s.contexts ∧ t.pressure = s.pressure ∧
        t.ready = s.ready ∧ t.engines = s.engines ∧ t.cache = s.cache ∧ t.newestOpened = s.newestOpened ∧
        t.frontier = s.frontier ∧ t.run = s.run ∧ t.items = s.items ∧ t.newestStrobe = s.newestStrobe
    | .signalPresent _ | .signalAbsent _ | .alignmentFound _ | .alignmentLost _ | .startSymbol _ | .dataWord _ _
    | .brokenWord _ | .endSymbol _ | .probationExpiry _ | .barExpiry _ | .storeBurst | .deadlineExpiry
    | .dispatchWaitElapse | .attach _ _ _ _ _ | .detach _ =>
      t.newestOpened = s.newestOpened ∧ t.frontier = s.frontier ∧ t.run = s.run ∧ t.items = s.items ∧
        t.newestStrobe = s.newestStrobe
    | .placement _ => t.frontier = s.frontier ∧ t.run = s.run ∧ t.items = s.items ∧ t.newestStrobe = s.newestStrobe
    | .write _ _ | .portLinkDown _ | .announce _ _ _ | .readData _ _ _ | .readDataError _ _ _
    | .malformedMessage _ _ => t.items = s.items ∧ t.newestStrobe = s.newestStrobe
    | .sliceStart _ => t.items = s.items ∧ t.run = s.run
    | .itemCommit _ _ _ | .start _ | .stop _ | .flush _ | .pressureCommit _ | .steerCommit _ _ | .dispatchCommit _
    | .cacheCommit _ | .linkmapCommit _ _ | .slotCommit _ | .outputsCommit _ => True
    | .slotAdvance => t.items = s.items
    | .deviceReset => True

/-- The invariants below hold after device reset. -/
def Obligations.ResetKeepsTheInvariants : Prop :=
  State.reset.Bounded ∧ State.reset.EnginesAttached ∧ State.reset.PressureTrue

/-- Every step keeps the bounds of the error-time lists, the elastic buffers, the retired page table and the incident
queue, and the canonical form of the store's tables. -/
def Obligations.StepKeepsTheBounds : Prop := ∀ s t : State, s.Bounded → step s = .next t → t.Bounded

/-- R107: every step keeps every engine at work only on an ACTIVE or DRAINING port, and with a slice. -/
def Obligations.StepKeepsTheEnginesAttached : Prop :=
  ∀ s t : State, s.EnginesAttached → step s = .next t → t.EnginesAttached

/-- R172, R76, R81 and R83: every step keeps the installed items valid by R172, the pressure level standing to
occupancy as R76 says, and the hold decision the current slot's, with the slots of period index 14 and 15 never
held. -/
def Obligations.StepKeepsItemsAndPressureTrue : Prop :=
  ∀ s t : State, s.PressureTrue → step s = .next t → t.PressureTrue
end

