-- ==== Sys2Proof/Laws/Items.lean ====
section
/-! SUPPORT. A commit that passes its checks keeps every installed item valid (R170, R172). -/

namespace Sys2Proof.Machine

/-- A word the item uses is installed as judged. -/
theorem ItemName.installed_get (n : ItemName) (words : Vector Word 8) (i : Fin 8) (h : i.val < n.usedWords words) :
    (n.installed words)[i] = words[i] := by
  simp [ItemName.installed, h]

theorem steerChecks_congr {v w : Fin 8 → Nat} (h : ∀ i : Fin 8, i.val < 1 + w 0 → v i = w i) :
    steerChecks v = steerChecks w := by
  have h0 : v 0 = w 0 := h 0 (by simp)
  unfold steerChecks
  rw [h0]
  by_cases a1 : w 0 = 0
  · simp [a1]
  have h1 : v 1 = w 1 := h 1 (by simp; omega)
  by_cases a2 : w 0 = 1
  · simp [a2, h1]
  have h2 : v 2 = w 2 := h 2 (by simp; omega)
  by_cases a3 : w 0 = 2
  · simp [a3, h1, h2]
  have h3 : v 3 = w 3 := h 3 (by simp; omega)
  by_cases a4 : w 0 = 3
  · simp [a4, h1, h2, h3]
  have h4 : v 4 = w 4 := h 4 (by simp; omega)
  simp only [h1, h2, h3, h4]

/-- The checks read only words that the item uses. -/
theorem Items.checks_installed (x : Items) (n : ItemName) (words : Vector Word 8) :
    x.checks n (n.installed words) = x.checks n words := by
  have k : ∀ i : Fin 8, i.val < n.usedWords words → ((n.installed words)[i]).toNat = (words[i]).toNat :=
    fun i h => congrArg BitVec.toNat (n.installed_get words i h)
  cases n
  case steer i =>
    exact steerChecks_congr (v := fun j => (((ItemName.steer i).installed words)[j]).toNat) (w := fun j => (words[j]).toNat) k
  case slot => simp only [Items.checks, k 0 (by simp [ItemName.usedWords])]
  case dispatch => simp only [Items.checks, k 0 (by simp [ItemName.usedWords])]
  case portcfg => simp only [Items.checks, k 0 (by simp [ItemName.usedWords])]
  case assembly =>
    simp only [Items.checks, k 0 (by simp [ItemName.usedWords]), k 1 (by simp [ItemName.usedWords])]
  case linktime =>
    simp only [Items.checks, k 0 (by simp [ItemName.usedWords]), k 1 (by simp [ItemName.usedWords])]
  case linkmap r =>
    simp only [Items.checks, Items.linkmapChecks, k 0 (by simp [ItemName.usedWords]), k 1 (by simp [ItemName.usedWords]),
      k 2 (by simp [ItemName.usedWords]), k 3 (by simp [ItemName.usedWords])]
  case cache =>
    simp only [Items.checks, cacheChecks, k 0 (by simp [ItemName.usedWords]), k 1 (by simp [ItemName.usedWords]),
      k 2 (by simp [ItemName.usedWords]), k 3 (by simp [ItemName.usedWords])]
  case pressure => exact congrArg pressureChecks (funext fun i => k i i.isLt)
  case outputs => exact congrArg outputsChecks (funext fun i => k i i.isLt)
  all_goals rfl

/-- Only LINKMAP's checks read the other items. -/
theorem Items.checks_other (x y : Items) (n : ItemName) (words : Vector Word 8) (h : ∀ r, n ≠ .linkmap r) :
    x.checks n words = y.checks n words := by
  cases n
  case linkmap r => exact absurd rfl (h r)
  all_goals rfl

theorem Items.get_put_self {n : ItemName} (x : Items) (v : Item) (hr : n ≠ .run) (h : n.kind ≠ .readOnly) :
    (x.put n v).get n = some v := by
  cases n <;> simp_all [Items.put, Items.get, ItemName.kind]

theorem Items.get_put_ne {n m : ItemName} (x : Items) (v : Item) (h : n ≠ m) : (x.put n v).get m = x.get m := by
  cases n <;> cases m <;> (try simp_all [Items.put, Items.get]) <;>
    exact Vector.getElem_set_ne _ _ (fun e => h (Fin.ext e))

theorem Items.put_pressure {n : ItemName} (x : Items) (v : Item) (h : n ≠ .pressure) :
    (x.put n v).pressure = x.pressure := by
  cases n <;> first | rfl | exact absurd rfl h

/-- A source is free for receiver `r` where no other receiver is mapped to it. -/
theorem Items.sourceFree_iff (x : Items) (r : ReceiverId) (q : Nat) :
    x.sourceFree r q = true ↔ ∀ y, y ≠ r → (x.linkmap[y]).value 0 ≠ q := by
  simp only [Items.sourceFree, List.all_eq_true, allReceivers, List.mem_finRange, true_implies, Bool.or_eq_true,
    beq_iff_eq, bne_iff_ne]
  exact ⟨fun h y hy => (h y).resolve_left hy, fun h y => or_iff_not_imp_left.2 (h y)⟩

/-- Installing words that pass their checks keeps the items valid. -/
theorem Items.valid_put {x : Items} {n : ItemName} (g : BitVec 16) (words : Vector Word 8) (hr : n ≠ .run)
    (hk : n.kind ≠ .readOnly) (hc : (x.checks n words).all id = true) (h : x.Valid) :
    (x.put n { generation := g, words := n.installed words }).Valid := by
  intro m
  unfold Items.ItemValid
  by_cases e : n = m
  · subst e
    rw [Items.get_put_self x _ hr hk]
    show (Items.checks _ n (n.installed words)).all id = true
    rw [Items.checks_installed]
    by_cases l : ∃ r, n = .linkmap r
    · obtain ⟨r, rfl⟩ := l
      have s : ∀ q, x.sourceFree r q = (x.put (.linkmap r) { generation := g, words := (ItemName.linkmap r).installed words }).sourceFree r q := by
        intro q
        rw [Bool.eq_iff_iff, Items.sourceFree_iff, Items.sourceFree_iff]
        refine forall_congr' fun y => imp_congr_right fun hy => ?_
        simp only [Items.put]
        rw [Fin.getElem_fin, Fin.getElem_fin, Vector.getElem_set_ne _ _ (fun e => hy (Fin.ext e).symm)]
      simp only [Items.checks, Items.linkmapChecks] at hc ⊢
      rw [← s]; exact hc
    · rw [Items.checks_other _ x n words fun r er => l ⟨r, er⟩]; exact hc
  · rw [Items.get_put_ne x _ e]
    have hm : (x.checks m (wordsOf (x.get m))).all id = true := h m
    by_cases l : ∃ r, m = .linkmap r
    · obtain ⟨r, rfl⟩ := l
      by_cases k : ∃ q, n = .linkmap q
      · obtain ⟨q, rfl⟩ := k
        have hqr : q ≠ r := fun e' => e (by rw [e'])
        simp only [Items.checks, Items.linkmapChecks, Items.get, wordsOf, List.all_cons, List.all_nil, id_eq,
          Bool.and_true, Bool.and_eq_true, Bool.or_eq_true, beq_iff_eq, decide_eq_true_eq] at hc hm ⊢
        refine ⟨hm.1.imp_right fun a => ⟨a.1, ?_⟩, hm.2⟩
        rw [Items.sourceFree_iff]
        intro y hy
        by_cases ey : y = q
        · subst ey
          have hv : (x.put (.linkmap y) { generation := g, words := (ItemName.linkmap y).installed words }).linkmap[y] =
              { generation := g, words := (ItemName.linkmap y).installed words } := by simp [Items.put]
          rw [hv]
          show ((ItemName.linkmap y).installed words)[0].toNat ≠ _
          rw [show ((ItemName.linkmap y).installed words)[0] = words[0] from
            ItemName.installed_get _ words 0 (by simp [ItemName.usedWords])]
          rcases hc.1 with c | c
          · exact fun e' => absurd (lt_of_eq_of_lt (c.symm.trans e') (of_decide_eq_true a.1)) (by decide)
          · exact fun e' => (Items.sourceFree_iff _ _ _).1 c.2 r (fun k => hqr k.symm) e'.symm
        · have hv : (x.put (.linkmap q) { generation := g, words := (ItemName.linkmap q).installed words }).linkmap[y] =
              x.linkmap[y] := by
            simp only [Items.put]
            exact Vector.getElem_set_ne _ _ (fun k => ey (Fin.ext k).symm)
          rw [hv]; exact (Items.sourceFree_iff _ _ _).1 a.2 y hy
      · have s : (x.put n { generation := g, words := n.installed words }).linkmap = x.linkmap := by
          cases n <;> first | rfl | exact absurd ⟨_, rfl⟩ k
        simp only [Items.checks, Items.linkmapChecks, Items.sourceFree, s] at hm ⊢
        exact hm
    · rw [Items.checks_other _ x m _ fun r er => l ⟨r, er⟩]; exact hm
end Sys2Proof.Machine
end

