-- ==== Sys2Proof/Laws/Memory.lean ====
section
/-! SUPPORT. Sparse tables: reading after a write, and every operation keeps the canonical form. -/

namespace Sys2Proof.Machine

variable {α : Type} [DecidableEq α] {d : α}

/-- A table canonical from `lo` on is canonical from anything lower on. -/
theorem Cells.wfFrom_mono {lo lo' : Nat} (h : lo' ≤ lo) {m : List (Nat × α)} (w : Cells.wfFrom d lo m = true) :
    Cells.wfFrom d lo' m = true := by
  cases m with
  | nil => rfl
  | cons e rest =>
    obtain ⟨k, v⟩ := e
    simp only [Cells.wfFrom, Bool.and_eq_true, decide_eq_true_eq] at w ⊢
    exact ⟨⟨h.trans w.1.1, w.1.2⟩, w.2⟩

/-- A write at an address not below `lo` keeps the canonical form. -/
theorem Cells.wfFrom_put {lo a : Nat} (x : α) (h : lo ≤ a) {m : List (Nat × α)} (w : Cells.wfFrom d lo m = true) :
    Cells.wfFrom d lo (Cells.put d m a x) = true := by
  induction m generalizing lo with
  | nil =>
    by_cases hx : x = d <;> simp [Cells.put, hx, Cells.wfFrom, h]
  | cons e rest ih =>
    obtain ⟨k, v⟩ := e
    simp only [Cells.wfFrom, Bool.and_eq_true, decide_eq_true_eq] at w
    obtain ⟨⟨hk, hv⟩, hr⟩ := w
    by_cases hak : a < k
    · by_cases hx : x = d
      · simp [Cells.put, hak, hx, Cells.wfFrom, hk, hv, hr]
      · simp [Cells.put, hak, hx, Cells.wfFrom, h, hv, hr, Nat.succ_le_of_lt hak]
    · by_cases hae : a = k
      · subst hae
        by_cases hx : x = d
        · simpa [Cells.put, hx] using Cells.wfFrom_mono (Nat.le_succ_of_le hk) hr
        · simp [Cells.put, hx, Cells.wfFrom, hk, hr]
      · have : k + 1 ≤ a := by omega
        simp [Cells.put, hak, hae, Cells.wfFrom, hk, hv, ih this hr]

/-- Every write keeps the canonical form. -/
theorem Cells.wf_put (m : List (Nat × α)) (a : Nat) (x : α) (w : Cells.wf d m = true) :
    Cells.wf d (Cells.put d m a x) = true :=
  Cells.wfFrom_put x (Nat.zero_le a) w

/-- An address below every listed one reads as `d`. -/
theorem Cells.get_below {lo a : Nat} (h : a < lo) {m : List (Nat × α)} (w : Cells.wfFrom d lo m = true) :
    Cells.get d m a = d := by
  induction m generalizing lo with
  | nil => rfl
  | cons e rest ih =>
    obtain ⟨k, v⟩ := e
    simp only [Cells.wfFrom, Bool.and_eq_true, decide_eq_true_eq] at w
    have hk : k ≠ a := by omega
    simp only [Cells.get, hk, if_false]
    exact ih (lo := k + 1) (by omega) w.2

/-- What a write leaves at another address. -/
theorem Cells.get_put_ne (m : List (Nat × α)) {a b : Nat} (x : α) (h : b ≠ a) :
    Cells.get d (Cells.put d m a x) b = Cells.get d m b := by
  induction m with
  | nil =>
    by_cases hx : x = d
    · simp [Cells.put, hx]
    · simp [Cells.put, hx, Cells.get, Ne.symm h]
  | cons e rest ih =>
    obtain ⟨k, v⟩ := e
    by_cases hak : a < k
    · by_cases hx : x = d
      · simp [Cells.put, hak, hx]
      · simp [Cells.put, hak, hx, Cells.get, Ne.symm h]
    · by_cases hae : a = k
      · subst hae
        by_cases hx : x = d
        · simp [Cells.put, hx, Cells.get, Ne.symm h]
        · simp [Cells.put, hx, Cells.get, Ne.symm h]
      · simp only [Cells.put, hak, hae, if_false, Cells.get, ih]

/-- What a write leaves at its own address, in a canonical table. -/
theorem Cells.get_put_self {lo : Nat} {m : List (Nat × α)} (a : Nat) (x : α) (w : Cells.wfFrom d lo m = true) :
    Cells.get d (Cells.put d m a x) a = x := by
  induction m generalizing lo with
  | nil =>
    by_cases hx : x = d <;> simp [Cells.put, hx, Cells.get]
  | cons e rest ih =>
    obtain ⟨k, v⟩ := e
    simp only [Cells.wfFrom, Bool.and_eq_true, decide_eq_true_eq] at w
    obtain ⟨⟨hk, hv⟩, hr⟩ := w
    by_cases hak : a < k
    · by_cases hx : x = d
      · have hka : k ≠ a := by omega
        simp only [Cells.put, hak, hx, if_true, Cells.get, hka, if_false]
        exact Cells.get_below (lo := k + 1) (by omega) hr
      · simp [Cells.put, hak, hx, Cells.get]
    · by_cases hae : a = k
      · subst hae
        by_cases hx : x = d
        · simp only [Cells.put, lt_irrefl, hx, if_false, if_true]
          exact Cells.get_below (Nat.lt_succ_self a) hr
        · simp [Cells.put, hx, Cells.get]
      · have hka : k ≠ a := Ne.symm hae
        simp only [Cells.put, hak, hae, if_false, Cells.get, hka]
        exact ih hr

/-! ## The fragment store -/

/-- A byte write keeps the store canonical. -/
theorem Memory.wf_write (m : List Host.Cell) (a : Nat) (b : BitVec 8) (w : Memory.wf m = true) :
    Memory.wf (Memory.write m a b) = true := Cells.wf_put m a b w

/-- A byte reads back as written. -/
theorem Memory.read_write_self (m : List Host.Cell) (a : Nat) (b : BitVec 8) (w : Memory.wf m = true) :
    Memory.read (Memory.write m a b) a = b := Cells.get_put_self a b w

/-- A byte write leaves every other byte. -/
theorem Memory.read_write_ne (m : List Host.Cell) {a c : Nat} (b : BitVec 8) (h : c ≠ a) :
    Memory.read (Memory.write m a b) c = Memory.read m c := Cells.get_put_ne m b h

/-- Writing the bytes of a word keeps the store canonical. -/
theorem Memory.wf_writeBytes (w : Nat) (x : Word) (n : Nat) (m : List Host.Cell) (h : Memory.wf m = true) :
    Memory.wf (Memory.writeBytes w x n m) = true := by
  induction n generalizing m with
  | zero => exact h
  | succ n ih => exact ih _ (Memory.wf_write m _ _ h)

/-- A word write keeps the store canonical. -/
theorem Memory.wf_writeWord (m : List Host.Cell) (w : Nat) (x : Word) (h : Memory.wf m = true) :
    Memory.wf (Memory.writeWord m w x) = true := Memory.wf_writeBytes w x 8 m h

/-- Writing the first `n` bytes of word `w` leaves every byte outside them. -/
theorem Memory.read_writeBytes_ne (w : Nat) (x : Word) (n : Nat) (m : List Host.Cell) {a : Nat}
    (h : ∀ k, k < n → a ≠ 8 * w + k) : Memory.read (Memory.writeBytes w x n m) a = Memory.read m a := by
  induction n generalizing m with
  | zero => rfl
  | succ n ih =>
    rw [Memory.writeBytes, ih _ fun k hk => h k (Nat.lt_succ_of_lt hk)]
    exact Memory.read_write_ne m _ (h n (Nat.lt_succ_self n))

/-- Byte `k` of word `w` reads back as written. -/
theorem Memory.read_writeBytes_self (w : Nat) (x : Word) (n : Nat) (m : List Host.Cell) (hw : Memory.wf m = true)
    {k : Nat} (hk : k < n) : Memory.read (Memory.writeBytes w x n m) (8 * w + k) = wordByte x k := by
  induction n generalizing m with
  | zero => omega
  | succ n ih =>
    rw [Memory.writeBytes]
    by_cases h : k = n
    · subst h
      rw [Memory.read_writeBytes_ne w x k _ (by intro j hj; omega)]
      exact Memory.read_write_self m _ _ hw
    · exact ih _ (Memory.wf_write m _ _ hw) (by omega)

/-- A word write leaves every other word. -/
theorem Memory.readWord_writeWord_ne (m : List Host.Cell) {w v : Nat} (x : Word) (h : v ≠ w) :
    Memory.readWord (Memory.writeWord m w x) v = Memory.readWord m v := by
  have e : ∀ j, j < 8 → Memory.read (Memory.writeWord m w x) (8 * v + j) = Memory.read m (8 * v + j) := fun j hj =>
    Memory.read_writeBytes_ne w x 8 m (by intro k hk; omega)
  simp only [Memory.readWord, e 7 (by omega), e 6 (by omega), e 5 (by omega), e 4 (by omega), e 3 (by omega),
    e 2 (by omega), e 1 (by omega), show Memory.read (Memory.writeWord m w x) (8 * v) = Memory.read m (8 * v) from
      e 0 (by omega)]

/-- The eight bytes of a word, put together again. -/
theorem wordByte_append (x : Word) :
    wordByte x 7 ++ wordByte x 6 ++ wordByte x 5 ++ wordByte x 4 ++ wordByte x 3 ++ wordByte x 2 ++ wordByte x 1 ++
      wordByte x 0 = x := by
  apply BitVec.eq_of_getLsbD_eq
  intro i hi
  simp only [wordByte, BitVec.getLsbD_append, BitVec.getLsbD_extractLsb']
  interval_cases i <;> simp

/-- A word reads back as written. -/
theorem Memory.readWord_writeWord_self (m : List Host.Cell) (w : Nat) (x : Word) (hw : Memory.wf m = true) :
    Memory.readWord (Memory.writeWord m w x) w = x := by
  have e : ∀ j, j < 8 → Memory.read (Memory.writeWord m w x) (8 * w + j) = wordByte x j := fun j hj =>
    Memory.read_writeBytes_self w x 8 m hw hj
  simp only [Memory.readWord, e 7 (by omega), e 6 (by omega), e 5 (by omega), e 4 (by omega), e 3 (by omega),
    e 2 (by omega), e 1 (by omega), show Memory.read (Memory.writeWord m w x) (8 * w) = wordByte x 0 from
      e 0 (by omega)]
  exact wordByte_append x

/-! ## The page pool -/

/-- Writing a word into a page keeps the pool sound. -/
theorem PagePool.sound_writeWord {pool : PagePool} (h : pool.Sound) (a : Nat) (x : Word) :
    (pool.writeWord a x).Sound :=
  ⟨⟨Memory.wf_writeWord _ _ _ h.1.1, Cells.wf_put _ _ _ h.1.2.1, h.1.2.2.1, h.1.2.2.2⟩, h.2⟩

/-- Writing words into a page keeps the pool sound. -/
theorem PagePool.sound_writeWords {pool : PagePool} (h : pool.Sound) (a : Nat) (xs : List Word) :
    (PagePool.writeWords a xs pool).Sound := by
  induction xs generalizing a pool with
  | nil => exact h
  | cons x rest ih => exact ih (PagePool.sound_writeWord h a x) (a + 1)

/-- Writing words changes nothing of the pool but its words and their conditions. -/
theorem PagePool.writeWords_occupancy (a : Nat) (xs : List Word) (pool : PagePool) :
    (PagePool.writeWords a xs pool).occupancy = pool.occupancy := by
  induction xs generalizing a pool with
  | nil => rfl
  | cons x rest ih => rw [PagePool.writeWords, ih]; rfl

/-- Setting a link entry keeps the pool sound. -/
theorem PagePool.sound_setLink {pool : PagePool} (h : pool.Sound) (page next : Nat) : (pool.setLink page next).Sound :=
  ⟨⟨h.1.1, h.1.2.1, Cells.wf_put _ _ _ h.1.2.2.1, h.1.2.2.2⟩, h.2⟩

/-- Setting an attribute keeps the pool sound. -/
theorem PagePool.sound_setAttribute {pool : PagePool} (h : pool.Sound) (page : Nat) (x : PageAttribute) :
    (pool.setAttribute page x).Sound :=
  ⟨⟨h.1.1, h.1.2.1, h.1.2.2.1, Cells.wf_put _ _ _ h.1.2.2.2⟩, h.2⟩

/-- Taking a page off the free list keeps the pool sound. -/
theorem PagePool.sound_taken {pool : PagePool} (h : pool.Sound) (page : Nat) (rest : List Nat) :
    (pool.taken page rest).Sound :=
  ⟨⟨h.1.1, h.1.2.1, Cells.wf_put _ _ _ h.1.2.2.1, h.1.2.2.2⟩, h.2⟩

/-- Freeing a page to the free list keeps the pool sound. -/
theorem PagePool.sound_freed {pool : PagePool} (h : pool.Sound) (page : Nat) : (pool.freed page).Sound :=
  ⟨⟨h.1.1, h.1.2.1, Cells.wf_put _ _ _ h.1.2.2.1, h.1.2.2.2⟩, h.2⟩

/-- Withdrawing a page while the retired page table has room keeps the pool sound. -/
theorem PagePool.sound_withdrawn {pool : PagePool} (h : pool.Sound) (page : Nat)
    (room : pool.retired.length < Config.retiredEntries) : (pool.withdrawn page).Sound := by
  refine ⟨⟨h.1.1, h.1.2.1, Cells.wf_put _ _ _ h.1.2.2.1, h.1.2.2.2⟩, ?_⟩
  simp only [PagePool.withdrawn, List.length_append, List.length_singleton]
  exact room

/-- Damaging a stored word keeps the pool sound. -/
theorem PagePool.sound_damage {pool : PagePool} (h : pool.Sound) (a : Nat) (c : WordCondition) :
    (pool.damage a c).Sound :=
  ⟨⟨h.1.1, Cells.wf_put _ _ _ h.1.2.1, h.1.2.2.1, h.1.2.2.2⟩, h.2⟩

/-- The pool after device reset is sound: its store lists nothing. -/
theorem PagePool.sound_reset : PagePool.reset.Sound := by
  refine ⟨⟨rfl, rfl, rfl, rfl⟩, Nat.zero_le _⟩

/-- The store after device reset is canonical. -/
theorem Memory.wf_reset : Memory.wf State.reset.pool.store = true := rfl

end Sys2Proof.Machine
end

