-- ==== Sys2Proof/Laws/State.lean ====
section
/-! SUPPORT. What each update of the state changes and what it leaves, one lemma per field and per read. -/

namespace Sys2Proof.Machine.State

variable (s : State)

/-! ### setRx -/

@[simp] theorem setRx_receivers (r : ReceiverId) (x : Receiver) : (s.setRx r x).receivers = s.receivers.set r x := rfl
@[simp] theorem setRx_lastServed (r : ReceiverId) (x : Receiver) : (s.setRx r x).lastServed = s.lastServed := rfl
@[simp] theorem setRx_pool (r : ReceiverId) (x : Receiver) : (s.setRx r x).pool = s.pool := rfl
@[simp] theorem setRx_frontier (r : ReceiverId) (x : Receiver) : (s.setRx r x).frontier = s.frontier := rfl
@[simp] theorem setRx_newestOpened (r : ReceiverId) (x : Receiver) : (s.setRx r x).newestOpened = s.newestOpened := rfl
@[simp] theorem setRx_newestStrobe (r : ReceiverId) (x : Receiver) : (s.setRx r x).newestStrobe = s.newestStrobe := rfl
@[simp] theorem setRx_contexts (r : ReceiverId) (x : Receiver) : (s.setRx r x).contexts = s.contexts := rfl
@[simp] theorem setRx_pressure (r : ReceiverId) (x : Receiver) : (s.setRx r x).pressure = s.pressure := rfl
@[simp] theorem setRx_ready (r : ReceiverId) (x : Receiver) : (s.setRx r x).ready = s.ready := rfl
@[simp] theorem setRx_engines (r : ReceiverId) (x : Receiver) : (s.setRx r x).engines = s.engines := rfl
@[simp] theorem setRx_cache (r : ReceiverId) (x : Receiver) : (s.setRx r x).cache = s.cache := rfl
@[simp] theorem setRx_ports (r : ReceiverId) (x : Receiver) : (s.setRx r x).ports = s.ports := rfl
@[simp] theorem setRx_sent (r : ReceiverId) (x : Receiver) : (s.setRx r x).sent = s.sent := rfl
@[simp] theorem setRx_items (r : ReceiverId) (x : Receiver) : (s.setRx r x).items = s.items := rfl
@[simp] theorem setRx_run (r : ReceiverId) (x : Receiver) : (s.setRx r x).run = s.run := rfl
@[simp] theorem setRx_incidents (r : ReceiverId) (x : Receiver) : (s.setRx r x).incidents = s.incidents := rfl
@[simp] theorem setRx_counter (r : ReceiverId) (x : Receiver) : (s.setRx r x).counter = s.counter := rfl
@[simp] theorem setRx_slotLength (r : ReceiverId) (x : Receiver) : (s.setRx r x).slotLength = s.slotLength := rfl
@[simp] theorem setRx_pending (r : ReceiverId) (x : Receiver) : (s.setRx r x).pending = s.pending := rfl
@[simp] theorem setRx_ctx (r : ReceiverId) (x : Receiver) (k : SlotId) : (s.setRx r x).ctx k = s.ctx k := rfl
@[simp] theorem setRx_engine (r : ReceiverId) (x : Receiver) (k : PortId) : (s.setRx r x).engine k = s.engine k := rfl
@[simp] theorem setRx_port (r : ReceiverId) (x : Receiver) (k : PortId) : (s.setRx r x).port k = s.port k := rfl
@[simp] theorem setRx_ring (r : ReceiverId) (x : Receiver) (k : PortId) : (s.setRx r x).ring k = s.ring k := rfl

/-! ### setLastServed -/

@[simp] theorem setLastServed_receivers (r : ReceiverId) : (s.setLastServed r).receivers = s.receivers := rfl
@[simp] theorem setLastServed_lastServed (r : ReceiverId) : (s.setLastServed r).lastServed = r := rfl
@[simp] theorem setLastServed_pool (r : ReceiverId) : (s.setLastServed r).pool = s.pool := rfl
@[simp] theorem setLastServed_frontier (r : ReceiverId) : (s.setLastServed r).frontier = s.frontier := rfl
@[simp] theorem setLastServed_newestOpened (r : ReceiverId) : (s.setLastServed r).newestOpened = s.newestOpened := rfl
@[simp] theorem setLastServed_newestStrobe (r : ReceiverId) : (s.setLastServed r).newestStrobe = s.newestStrobe := rfl
@[simp] theorem setLastServed_contexts (r : ReceiverId) : (s.setLastServed r).contexts = s.contexts := rfl
@[simp] theorem setLastServed_pressure (r : ReceiverId) : (s.setLastServed r).pressure = s.pressure := rfl
@[simp] theorem setLastServed_ready (r : ReceiverId) : (s.setLastServed r).ready = s.ready := rfl
@[simp] theorem setLastServed_engines (r : ReceiverId) : (s.setLastServed r).engines = s.engines := rfl
@[simp] theorem setLastServed_cache (r : ReceiverId) : (s.setLastServed r).cache = s.cache := rfl
@[simp] theorem setLastServed_ports (r : ReceiverId) : (s.setLastServed r).ports = s.ports := rfl
@[simp] theorem setLastServed_sent (r : ReceiverId) : (s.setLastServed r).sent = s.sent := rfl
@[simp] theorem setLastServed_items (r : ReceiverId) : (s.setLastServed r).items = s.items := rfl
@[simp] theorem setLastServed_run (r : ReceiverId) : (s.setLastServed r).run = s.run := rfl
@[simp] theorem setLastServed_incidents (r : ReceiverId) : (s.setLastServed r).incidents = s.incidents := rfl
@[simp] theorem setLastServed_counter (r : ReceiverId) : (s.setLastServed r).counter = s.counter := rfl
@[simp] theorem setLastServed_slotLength (r : ReceiverId) : (s.setLastServed r).slotLength = s.slotLength := rfl
@[simp] theorem setLastServed_pending (r : ReceiverId) : (s.setLastServed r).pending = s.pending := rfl
@[simp] theorem setLastServed_rx (r : ReceiverId) (k : ReceiverId) : (s.setLastServed r).rx k = s.rx k := rfl
@[simp] theorem setLastServed_ctx (r : ReceiverId) (k : SlotId) : (s.setLastServed r).ctx k = s.ctx k := rfl
@[simp] theorem setLastServed_engine (r : ReceiverId) (k : PortId) : (s.setLastServed r).engine k = s.engine k := rfl
@[simp] theorem setLastServed_port (r : ReceiverId) (k : PortId) : (s.setLastServed r).port k = s.port k := rfl
@[simp] theorem setLastServed_ring (r : ReceiverId) (k : PortId) : (s.setLastServed r).ring k = s.ring k := rfl

/-! ### setPool -/

@[simp] theorem setPool_receivers (x : PagePool) : (s.setPool x).receivers = s.receivers := rfl
@[simp] theorem setPool_lastServed (x : PagePool) : (s.setPool x).lastServed = s.lastServed := rfl
@[simp] theorem setPool_pool (x : PagePool) : (s.setPool x).pool = x := rfl
@[simp] theorem setPool_frontier (x : PagePool) : (s.setPool x).frontier = s.frontier := rfl
@[simp] theorem setPool_newestOpened (x : PagePool) : (s.setPool x).newestOpened = s.newestOpened := rfl
@[simp] theorem setPool_newestStrobe (x : PagePool) : (s.setPool x).newestStrobe = s.newestStrobe := rfl
@[simp] theorem setPool_contexts (x : PagePool) : (s.setPool x).contexts = s.contexts := rfl
@[simp] theorem setPool_pressure (x : PagePool) : (s.setPool x).pressure = s.pressure := rfl
@[simp] theorem setPool_ready (x : PagePool) : (s.setPool x).ready = s.ready := rfl
@[simp] theorem setPool_engines (x : PagePool) : (s.setPool x).engines = s.engines := rfl
@[simp] theorem setPool_cache (x : PagePool) : (s.setPool x).cache = s.cache := rfl
@[simp] theorem setPool_ports (x : PagePool) : (s.setPool x).ports = s.ports := rfl
@[simp] theorem setPool_sent (x : PagePool) : (s.setPool x).sent = s.sent := rfl
@[simp] theorem setPool_items (x : PagePool) : (s.setPool x).items = s.items := rfl
@[simp] theorem setPool_run (x : PagePool) : (s.setPool x).run = s.run := rfl
@[simp] theorem setPool_incidents (x : PagePool) : (s.setPool x).incidents = s.incidents := rfl
@[simp] theorem setPool_counter (x : PagePool) : (s.setPool x).counter = s.counter := rfl
@[simp] theorem setPool_slotLength (x : PagePool) : (s.setPool x).slotLength = s.slotLength := rfl
@[simp] theorem setPool_pending (x : PagePool) : (s.setPool x).pending = s.pending := rfl
@[simp] theorem setPool_rx (x : PagePool) (k : ReceiverId) : (s.setPool x).rx k = s.rx k := rfl
@[simp] theorem setPool_ctx (x : PagePool) (k : SlotId) : (s.setPool x).ctx k = s.ctx k := rfl
@[simp] theorem setPool_engine (x : PagePool) (k : PortId) : (s.setPool x).engine k = s.engine k := rfl
@[simp] theorem setPool_port (x : PagePool) (k : PortId) : (s.setPool x).port k = s.port k := rfl
@[simp] theorem setPool_ring (x : PagePool) (k : PortId) : (s.setPool x).ring k = s.ring k := rfl

/-! ### setFrontier -/

@[simp] theorem setFrontier_receivers (n : Slice) : (s.setFrontier n).receivers = s.receivers := rfl
@[simp] theorem setFrontier_lastServed (n : Slice) : (s.setFrontier n).lastServed = s.lastServed := rfl
@[simp] theorem setFrontier_pool (n : Slice) : (s.setFrontier n).pool = s.pool := rfl
@[simp] theorem setFrontier_frontier (n : Slice) : (s.setFrontier n).frontier = n := rfl
@[simp] theorem setFrontier_newestOpened (n : Slice) : (s.setFrontier n).newestOpened = s.newestOpened := rfl
@[simp] theorem setFrontier_newestStrobe (n : Slice) : (s.setFrontier n).newestStrobe = s.newestStrobe := rfl
@[simp] theorem setFrontier_contexts (n : Slice) : (s.setFrontier n).contexts = s.contexts := rfl
@[simp] theorem setFrontier_pressure (n : Slice) : (s.setFrontier n).pressure = s.pressure := rfl
@[simp] theorem setFrontier_ready (n : Slice) : (s.setFrontier n).ready = s.ready := rfl
@[simp] theorem setFrontier_engines (n : Slice) : (s.setFrontier n).engines = s.engines := rfl
@[simp] theorem setFrontier_cache (n : Slice) : (s.setFrontier n).cache = s.cache := rfl
@[simp] theorem setFrontier_ports (n : Slice) : (s.setFrontier n).ports = s.ports := rfl
@[simp] theorem setFrontier_sent (n : Slice) : (s.setFrontier n).sent = s.sent := rfl
@[simp] theorem setFrontier_items (n : Slice) : (s.setFrontier n).items = s.items := rfl
@[simp] theorem setFrontier_run (n : Slice) : (s.setFrontier n).run = s.run := rfl
@[simp] theorem setFrontier_incidents (n : Slice) : (s.setFrontier n).incidents = s.incidents := rfl
@[simp] theorem setFrontier_counter (n : Slice) : (s.setFrontier n).counter = s.counter := rfl
@[simp] theorem setFrontier_slotLength (n : Slice) : (s.setFrontier n).slotLength = s.slotLength := rfl
@[simp] theorem setFrontier_pending (n : Slice) : (s.setFrontier n).pending = s.pending := rfl
@[simp] theorem setFrontier_rx (n : Slice) (k : ReceiverId) : (s.setFrontier n).rx k = s.rx k := rfl
@[simp] theorem setFrontier_ctx (n : Slice) (k : SlotId) : (s.setFrontier n).ctx k = s.ctx k := rfl
@[simp] theorem setFrontier_engine (n : Slice) (k : PortId) : (s.setFrontier n).engine k = s.engine k := rfl
@[simp] theorem setFrontier_port (n : Slice) (k : PortId) : (s.setFrontier n).port k = s.port k := rfl
@[simp] theorem setFrontier_ring (n : Slice) (k : PortId) : (s.setFrontier n).ring k = s.ring k := rfl

/-! ### setNewestOpened -/

@[simp] theorem setNewestOpened_receivers (n : Slice) : (s.setNewestOpened n).receivers = s.receivers := rfl
@[simp] theorem setNewestOpened_lastServed (n : Slice) : (s.setNewestOpened n).lastServed = s.lastServed := rfl
@[simp] theorem setNewestOpened_pool (n : Slice) : (s.setNewestOpened n).pool = s.pool := rfl
@[simp] theorem setNewestOpened_frontier (n : Slice) : (s.setNewestOpened n).frontier = s.frontier := rfl
@[simp] theorem setNewestOpened_newestOpened (n : Slice) : (s.setNewestOpened n).newestOpened = n := rfl
@[simp] theorem setNewestOpened_newestStrobe (n : Slice) : (s.setNewestOpened n).newestStrobe = s.newestStrobe := rfl
@[simp] theorem setNewestOpened_contexts (n : Slice) : (s.setNewestOpened n).contexts = s.contexts := rfl
@[simp] theorem setNewestOpened_pressure (n : Slice) : (s.setNewestOpened n).pressure = s.pressure := rfl
@[simp] theorem setNewestOpened_ready (n : Slice) : (s.setNewestOpened n).ready = s.ready := rfl
@[simp] theorem setNewestOpened_engines (n : Slice) : (s.setNewestOpened n).engines = s.engines := rfl
@[simp] theorem setNewestOpened_cache (n : Slice) : (s.setNewestOpened n).cache = s.cache := rfl
@[simp] theorem setNewestOpened_ports (n : Slice) : (s.setNewestOpened n).ports = s.ports := rfl
@[simp] theorem setNewestOpened_sent (n : Slice) : (s.setNewestOpened n).sent = s.sent := rfl
@[simp] theorem setNewestOpened_items (n : Slice) : (s.setNewestOpened n).items = s.items := rfl
@[simp] theorem setNewestOpened_run (n : Slice) : (s.setNewestOpened n).run = s.run := rfl
@[simp] theorem setNewestOpened_incidents (n : Slice) : (s.setNewestOpened n).incidents = s.incidents := rfl
@[simp] theorem setNewestOpened_counter (n : Slice) : (s.setNewestOpened n).counter = s.counter := rfl
@[simp] theorem setNewestOpened_slotLength (n : Slice) : (s.setNewestOpened n).slotLength = s.slotLength := rfl
@[simp] theorem setNewestOpened_pending (n : Slice) : (s.setNewestOpened n).pending = s.pending := rfl
@[simp] theorem setNewestOpened_rx (n : Slice) (k : ReceiverId) : (s.setNewestOpened n).rx k = s.rx k := rfl
@[simp] theorem setNewestOpened_ctx (n : Slice) (k : SlotId) : (s.setNewestOpened n).ctx k = s.ctx k := rfl
@[simp] theorem setNewestOpened_engine (n : Slice) (k : PortId) : (s.setNewestOpened n).engine k = s.engine k := rfl
@[simp] theorem setNewestOpened_port (n : Slice) (k : PortId) : (s.setNewestOpened n).port k = s.port k := rfl
@[simp] theorem setNewestOpened_ring (n : Slice) (k : PortId) : (s.setNewestOpened n).ring k = s.ring k := rfl

/-! ### setNewestStrobe -/

@[simp] theorem setNewestStrobe_receivers (n : Slice) : (s.setNewestStrobe n).receivers = s.receivers := rfl
@[simp] theorem setNewestStrobe_lastServed (n : Slice) : (s.setNewestStrobe n).lastServed = s.lastServed := rfl
@[simp] theorem setNewestStrobe_pool (n : Slice) : (s.setNewestStrobe n).pool = s.pool := rfl
@[simp] theorem setNewestStrobe_frontier (n : Slice) : (s.setNewestStrobe n).frontier = s.frontier := rfl
@[simp] theorem setNewestStrobe_newestOpened (n : Slice) : (s.setNewestStrobe n).newestOpened = s.newestOpened := rfl
@[simp] theorem setNewestStrobe_newestStrobe (n : Slice) : (s.setNewestStrobe n).newestStrobe = n := rfl
@[simp] theorem setNewestStrobe_contexts (n : Slice) : (s.setNewestStrobe n).contexts = s.contexts := rfl
@[simp] theorem setNewestStrobe_pressure (n : Slice) : (s.setNewestStrobe n).pressure = s.pressure := rfl
@[simp] theorem setNewestStrobe_ready (n : Slice) : (s.setNewestStrobe n).ready = s.ready := rfl
@[simp] theorem setNewestStrobe_engines (n : Slice) : (s.setNewestStrobe n).engines = s.engines := rfl
@[simp] theorem setNewestStrobe_cache (n : Slice) : (s.setNewestStrobe n).cache = s.cache := rfl
@[simp] theorem setNewestStrobe_ports (n : Slice) : (s.setNewestStrobe n).ports = s.ports := rfl
@[simp] theorem setNewestStrobe_sent (n : Slice) : (s.setNewestStrobe n).sent = s.sent := rfl
@[simp] theorem setNewestStrobe_items (n : Slice) : (s.setNewestStrobe n).items = s.items := rfl
@[simp] theorem setNewestStrobe_run (n : Slice) : (s.setNewestStrobe n).run = s.run := rfl
@[simp] theorem setNewestStrobe_incidents (n : Slice) : (s.setNewestStrobe n).incidents = s.incidents := rfl
@[simp] theorem setNewestStrobe_counter (n : Slice) : (s.setNewestStrobe n).counter = s.counter := rfl
@[simp] theorem setNewestStrobe_slotLength (n : Slice) : (s.setNewestStrobe n).slotLength = s.slotLength := rfl
@[simp] theorem setNewestStrobe_pending (n : Slice) : (s.setNewestStrobe n).pending = s.pending := rfl
@[simp] theorem setNewestStrobe_rx (n : Slice) (k : ReceiverId) : (s.setNewestStrobe n).rx k = s.rx k := rfl
@[simp] theorem setNewestStrobe_ctx (n : Slice) (k : SlotId) : (s.setNewestStrobe n).ctx k = s.ctx k := rfl
@[simp] theorem setNewestStrobe_engine (n : Slice) (k : PortId) : (s.setNewestStrobe n).engine k = s.engine k := rfl
@[simp] theorem setNewestStrobe_port (n : Slice) (k : PortId) : (s.setNewestStrobe n).port k = s.port k := rfl
@[simp] theorem setNewestStrobe_ring (n : Slice) (k : PortId) : (s.setNewestStrobe n).ring k = s.ring k := rfl

/-! ### setCtx -/

@[simp] theorem setCtx_receivers (i : SlotId) (x : Context) : (s.setCtx i x).receivers = s.receivers := rfl
@[simp] theorem setCtx_lastServed (i : SlotId) (x : Context) : (s.setCtx i x).lastServed = s.lastServed := rfl
@[simp] theorem setCtx_pool (i : SlotId) (x : Context) : (s.setCtx i x).pool = s.pool := rfl
@[simp] theorem setCtx_frontier (i : SlotId) (x : Context) : (s.setCtx i x).frontier = s.frontier := rfl
@[simp] theorem setCtx_newestOpened (i : SlotId) (x : Context) : (s.setCtx i x).newestOpened = s.newestOpened := rfl
@[simp] theorem setCtx_newestStrobe (i : SlotId) (x : Context) : (s.setCtx i x).newestStrobe = s.newestStrobe := rfl
@[simp] theorem setCtx_contexts (i : SlotId) (x : Context) : (s.setCtx i x).contexts = s.contexts.set i x := rfl
@[simp] theorem setCtx_pressure (i : SlotId) (x : Context) : (s.setCtx i x).pressure = s.pressure := rfl
@[simp] theorem setCtx_ready (i : SlotId) (x : Context) : (s.setCtx i x).ready = s.ready := rfl
@[simp] theorem setCtx_engines (i : SlotId) (x : Context) : (s.setCtx i x).engines = s.engines := rfl
@[simp] theorem setCtx_cache (i : SlotId) (x : Context) : (s.setCtx i x).cache = s.cache := rfl
@[simp] theorem setCtx_ports (i : SlotId) (x : Context) : (s.setCtx i x).ports = s.ports := rfl
@[simp] theorem setCtx_sent (i : SlotId) (x : Context) : (s.setCtx i x).sent = s.sent := rfl
@[simp] theorem setCtx_items (i : SlotId) (x : Context) : (s.setCtx i x).items = s.items := rfl
@[simp] theorem setCtx_run (i : SlotId) (x : Context) : (s.setCtx i x).run = s.run := rfl
@[simp] theorem setCtx_incidents (i : SlotId) (x : Context) : (s.setCtx i x).incidents = s.incidents := rfl
@[simp] theorem setCtx_counter (i : SlotId) (x : Context) : (s.setCtx i x).counter = s.counter := rfl
@[simp] theorem setCtx_slotLength (i : SlotId) (x : Context) : (s.setCtx i x).slotLength = s.slotLength := rfl
@[simp] theorem setCtx_pending (i : SlotId) (x : Context) : (s.setCtx i x).pending = s.pending := rfl
@[simp] theorem setCtx_rx (i : SlotId) (x : Context) (k : ReceiverId) : (s.setCtx i x).rx k = s.rx k := rfl
@[simp] theorem setCtx_engine (i : SlotId) (x : Context) (k : PortId) : (s.setCtx i x).engine k = s.engine k := rfl
@[simp] theorem setCtx_port (i : SlotId) (x : Context) (k : PortId) : (s.setCtx i x).port k = s.port k := rfl
@[simp] theorem setCtx_ring (i : SlotId) (x : Context) (k : PortId) : (s.setCtx i x).ring k = s.ring k := rfl

/-! ### setPressure -/

@[simp] theorem setPressure_receivers (x : Pressure) : (s.setPressure x).receivers = s.receivers := rfl
@[simp] theorem setPressure_lastServed (x : Pressure) : (s.setPressure x).lastServed = s.lastServed := rfl
@[simp] theorem setPressure_pool (x : Pressure) : (s.setPressure x).pool = s.pool := rfl
@[simp] theorem setPressure_frontier (x : Pressure) : (s.setPressure x).frontier = s.frontier := rfl
@[simp] theorem setPressure_newestOpened (x : Pressure) : (s.setPressure x).newestOpened = s.newestOpened := rfl
@[simp] theorem setPressure_newestStrobe (x : Pressure) : (s.setPressure x).newestStrobe = s.newestStrobe := rfl
@[simp] theorem setPressure_contexts (x : Pressure) : (s.setPressure x).contexts = s.contexts := rfl
@[simp] theorem setPressure_pressure (x : Pressure) : (s.setPressure x).pressure = x := rfl
@[simp] theorem setPressure_ready (x : Pressure) : (s.setPressure x).ready = s.ready := rfl
@[simp] theorem setPressure_engines (x : Pressure) : (s.setPressure x).engines = s.engines := rfl
@[simp] theorem setPressure_cache (x : Pressure) : (s.setPressure x).cache = s.cache := rfl
@[simp] theorem setPressure_ports (x : Pressure) : (s.setPressure x).ports = s.ports := rfl
@[simp] theorem setPressure_sent (x : Pressure) : (s.setPressure x).sent = s.sent := rfl
@[simp] theorem setPressure_items (x : Pressure) : (s.setPressure x).items = s.items := rfl
@[simp] theorem setPressure_run (x : Pressure) : (s.setPressure x).run = s.run := rfl
@[simp] theorem setPressure_incidents (x : Pressure) : (s.setPressure x).incidents = s.incidents := rfl
@[simp] theorem setPressure_counter (x : Pressure) : (s.setPressure x).counter = s.counter := rfl
@[simp] theorem setPressure_slotLength (x : Pressure) : (s.setPressure x).slotLength = s.slotLength := rfl
@[simp] theorem setPressure_pending (x : Pressure) : (s.setPressure x).pending = s.pending := rfl
@[simp] theorem setPressure_rx (x : Pressure) (k : ReceiverId) : (s.setPressure x).rx k = s.rx k := rfl
@[simp] theorem setPressure_ctx (x : Pressure) (k : SlotId) : (s.setPressure x).ctx k = s.ctx k := rfl
@[simp] theorem setPressure_engine (x : Pressure) (k : PortId) : (s.setPressure x).engine k = s.engine k := rfl
@[simp] theorem setPressure_port (x : Pressure) (k : PortId) : (s.setPressure x).port k = s.port k := rfl
@[simp] theorem setPressure_ring (x : Pressure) (k : PortId) : (s.setPressure x).ring k = s.ring k := rfl

/-! ### setReady -/

@[simp] theorem setReady_receivers (x : List ReadyEntry) : (s.setReady x).receivers = s.receivers := rfl
@[simp] theorem setReady_lastServed (x : List ReadyEntry) : (s.setReady x).lastServed = s.lastServed := rfl
@[simp] theorem setReady_pool (x : List ReadyEntry) : (s.setReady x).pool = s.pool := rfl
@[simp] theorem setReady_frontier (x : List ReadyEntry) : (s.setReady x).frontier = s.frontier := rfl
@[simp] theorem setReady_newestOpened (x : List ReadyEntry) : (s.setReady x).newestOpened = s.newestOpened := rfl
@[simp] theorem setReady_newestStrobe (x : List ReadyEntry) : (s.setReady x).newestStrobe = s.newestStrobe := rfl
@[simp] theorem setReady_contexts (x : List ReadyEntry) : (s.setReady x).contexts = s.contexts := rfl
@[simp] theorem setReady_pressure (x : List ReadyEntry) : (s.setReady x).pressure = s.pressure := rfl
@[simp] theorem setReady_ready (x : List ReadyEntry) : (s.setReady x).ready = x := rfl
@[simp] theorem setReady_engines (x : List ReadyEntry) : (s.setReady x).engines = s.engines := rfl
@[simp] theorem setReady_cache (x : List ReadyEntry) : (s.setReady x).cache = s.cache := rfl
@[simp] theorem setReady_ports (x : List ReadyEntry) : (s.setReady x).ports = s.ports := rfl
@[simp] theorem setReady_sent (x : List ReadyEntry) : (s.setReady x).sent = s.sent := rfl
@[simp] theorem setReady_items (x : List ReadyEntry) : (s.setReady x).items = s.items := rfl
@[simp] theorem setReady_run (x : List ReadyEntry) : (s.setReady x).run = s.run := rfl
@[simp] theorem setReady_incidents (x : List ReadyEntry) : (s.setReady x).incidents = s.incidents := rfl
@[simp] theorem setReady_counter (x : List ReadyEntry) : (s.setReady x).counter = s.counter := rfl
@[simp] theorem setReady_slotLength (x : List ReadyEntry) : (s.setReady x).slotLength = s.slotLength := rfl
@[simp] theorem setReady_pending (x : List ReadyEntry) : (s.setReady x).pending = s.pending := rfl
@[simp] theorem setReady_rx (x : List ReadyEntry) (k : ReceiverId) : (s.setReady x).rx k = s.rx k := rfl
@[simp] theorem setReady_ctx (x : List ReadyEntry) (k : SlotId) : (s.setReady x).ctx k = s.ctx k := rfl
@[simp] theorem setReady_engine (x : List ReadyEntry) (k : PortId) : (s.setReady x).engine k = s.engine k := rfl
@[simp] theorem setReady_port (x : List ReadyEntry) (k : PortId) : (s.setReady x).port k = s.port k := rfl
@[simp] theorem setReady_ring (x : List ReadyEntry) (k : PortId) : (s.setReady x).ring k = s.ring k := rfl

/-! ### setEngine -/

@[simp] theorem setEngine_receivers (p : PortId) (x : Engine) : (s.setEngine p x).receivers = s.receivers := rfl
@[simp] theorem setEngine_lastServed (p : PortId) (x : Engine) : (s.setEngine p x).lastServed = s.lastServed := rfl
@[simp] theorem setEngine_pool (p : PortId) (x : Engine) : (s.setEngine p x).pool = s.pool := rfl
@[simp] theorem setEngine_frontier (p : PortId) (x : Engine) : (s.setEngine p x).frontier = s.frontier := rfl
@[simp] theorem setEngine_newestOpened (p : PortId) (x : Engine) : (s.setEngine p x).newestOpened = s.newestOpened := rfl
@[simp] theorem setEngine_newestStrobe (p : PortId) (x : Engine) : (s.setEngine p x).newestStrobe = s.newestStrobe := rfl
@[simp] theorem setEngine_contexts (p : PortId) (x : Engine) : (s.setEngine p x).contexts = s.contexts := rfl
@[simp] theorem setEngine_pressure (p : PortId) (x : Engine) : (s.setEngine p x).pressure = s.pressure := rfl
@[simp] theorem setEngine_ready (p : PortId) (x : Engine) : (s.setEngine p x).ready = s.ready := rfl
@[simp] theorem setEngine_engines (p : PortId) (x : Engine) : (s.setEngine p x).engines = s.engines.set p x := rfl
@[simp] theorem setEngine_cache (p : PortId) (x : Engine) : (s.setEngine p x).cache = s.cache := rfl
@[simp] theorem setEngine_ports (p : PortId) (x : Engine) : (s.setEngine p x).ports = s.ports := rfl
@[simp] theorem setEngine_sent (p : PortId) (x : Engine) : (s.setEngine p x).sent = s.sent := rfl
@[simp] theorem setEngine_items (p : PortId) (x : Engine) : (s.setEngine p x).items = s.items := rfl
@[simp] theorem setEngine_run (p : PortId) (x : Engine) : (s.setEngine p x).run = s.run := rfl
@[simp] theorem setEngine_incidents (p : PortId) (x : Engine) : (s.setEngine p x).incidents = s.incidents := rfl
@[simp] theorem setEngine_counter (p : PortId) (x : Engine) : (s.setEngine p x).counter = s.counter := rfl
@[simp] theorem setEngine_slotLength (p : PortId) (x : Engine) : (s.setEngine p x).slotLength = s.slotLength := rfl
@[simp] theorem setEngine_pending (p : PortId) (x : Engine) : (s.setEngine p x).pending = s.pending := rfl
@[simp] theorem setEngine_rx (p : PortId) (x : Engine) (k : ReceiverId) : (s.setEngine p x).rx k = s.rx k := rfl
@[simp] theorem setEngine_ctx (p : PortId) (x : Engine) (k : SlotId) : (s.setEngine p x).ctx k = s.ctx k := rfl
@[simp] theorem setEngine_port (p : PortId) (x : Engine) (k : PortId) : (s.setEngine p x).port k = s.port k := rfl
@[simp] theorem setEngine_ring (p : PortId) (x : Engine) (k : PortId) : (s.setEngine p x).ring k = s.ring k := rfl

/-! ### setCache -/

@[simp] theorem setCache_receivers (x : Cache) : (s.setCache x).receivers = s.receivers := rfl
@[simp] theorem setCache_lastServed (x : Cache) : (s.setCache x).lastServed = s.lastServed := rfl
@[simp] theorem setCache_pool (x : Cache) : (s.setCache x).pool = s.pool := rfl
@[simp] theorem setCache_frontier (x : Cache) : (s.setCache x).frontier = s.frontier := rfl
@[simp] theorem setCache_newestOpened (x : Cache) : (s.setCache x).newestOpened = s.newestOpened := rfl
@[simp] theorem setCache_newestStrobe (x : Cache) : (s.setCache x).newestStrobe = s.newestStrobe := rfl
@[simp] theorem setCache_contexts (x : Cache) : (s.setCache x).contexts = s.contexts := rfl
@[simp] theorem setCache_pressure (x : Cache) : (s.setCache x).pressure = s.pressure := rfl
@[simp] theorem setCache_ready (x : Cache) : (s.setCache x).ready = s.ready := rfl
@[simp] theorem setCache_engines (x : Cache) : (s.setCache x).engines = s.engines := rfl
@[simp] theorem setCache_cache (x : Cache) : (s.setCache x).cache = x := rfl
@[simp] theorem setCache_ports (x : Cache) : (s.setCache x).ports = s.ports := rfl
@[simp] theorem setCache_sent (x : Cache) : (s.setCache x).sent = s.sent := rfl
@[simp] theorem setCache_items (x : Cache) : (s.setCache x).items = s.items := rfl
@[simp] theorem setCache_run (x : Cache) : (s.setCache x).run = s.run := rfl
@[simp] theorem setCache_incidents (x : Cache) : (s.setCache x).incidents = s.incidents := rfl
@[simp] theorem setCache_counter (x : Cache) : (s.setCache x).counter = s.counter := rfl
@[simp] theorem setCache_slotLength (x : Cache) : (s.setCache x).slotLength = s.slotLength := rfl
@[simp] theorem setCache_pending (x : Cache) : (s.setCache x).pending = s.pending := rfl
@[simp] theorem setCache_rx (x : Cache) (k : ReceiverId) : (s.setCache x).rx k = s.rx k := rfl
@[simp] theorem setCache_ctx (x : Cache) (k : SlotId) : (s.setCache x).ctx k = s.ctx k := rfl
@[simp] theorem setCache_engine (x : Cache) (k : PortId) : (s.setCache x).engine k = s.engine k := rfl
@[simp] theorem setCache_port (x : Cache) (k : PortId) : (s.setCache x).port k = s.port k := rfl

/-! ### setPort -/

@[simp] theorem setPort_receivers (p : PortId) (x : Port) : (s.setPort p x).receivers = s.receivers := rfl
@[simp] theorem setPort_lastServed (p : PortId) (x : Port) : (s.setPort p x).lastServed = s.lastServed := rfl
@[simp] theorem setPort_pool (p : PortId) (x : Port) : (s.setPort p x).pool = s.pool := rfl
@[simp] theorem setPort_frontier (p : PortId) (x : Port) : (s.setPort p x).frontier = s.frontier := rfl
@[simp] theorem setPort_newestOpened (p : PortId) (x : Port) : (s.setPort p x).newestOpened = s.newestOpened := rfl
@[simp] theorem setPort_newestStrobe (p : PortId) (x : Port) : (s.setPort p x).newestStrobe = s.newestStrobe := rfl
@[simp] theorem setPort_contexts (p : PortId) (x : Port) : (s.setPort p x).contexts = s.contexts := rfl
@[simp] theorem setPort_pressure (p : PortId) (x : Port) : (s.setPort p x).pressure = s.pressure := rfl
@[simp] theorem setPort_ready (p : PortId) (x : Port) : (s.setPort p x).ready = s.ready := rfl
@[simp] theorem setPort_engines (p : PortId) (x : Port) : (s.setPort p x).engines = s.engines := rfl
@[simp] theorem setPort_cache (p : PortId) (x : Port) : (s.setPort p x).cache = s.cache := rfl
@[simp] theorem setPort_ports (p : PortId) (x : Port) : (s.setPort p x).ports = s.ports.set p x := rfl
@[simp] theorem setPort_sent (p : PortId) (x : Port) : (s.setPort p x).sent = s.sent := rfl
@[simp] theorem setPort_items (p : PortId) (x : Port) : (s.setPort p x).items = s.items := rfl
@[simp] theorem setPort_run (p : PortId) (x : Port) : (s.setPort p x).run = s.run := rfl
@[simp] theorem setPort_incidents (p : PortId) (x : Port) : (s.setPort p x).incidents = s.incidents := rfl
@[simp] theorem setPort_counter (p : PortId) (x : Port) : (s.setPort p x).counter = s.counter := rfl
@[simp] theorem setPort_slotLength (p : PortId) (x : Port) : (s.setPort p x).slotLength = s.slotLength := rfl
@[simp] theorem setPort_pending (p : PortId) (x : Port) : (s.setPort p x).pending = s.pending := rfl
@[simp] theorem setPort_rx (p : PortId) (x : Port) (k : ReceiverId) : (s.setPort p x).rx k = s.rx k := rfl
@[simp] theorem setPort_ctx (p : PortId) (x : Port) (k : SlotId) : (s.setPort p x).ctx k = s.ctx k := rfl
@[simp] theorem setPort_engine (p : PortId) (x : Port) (k : PortId) : (s.setPort p x).engine k = s.engine k := rfl
@[simp] theorem setPort_ring (p : PortId) (x : Port) (k : PortId) : (s.setPort p x).ring k = s.ring k := rfl

/-! ### setSent -/

@[simp] theorem setSent_receivers (p : PortId) (x : List (List Word)) : (s.setSent p x).receivers = s.receivers := rfl
@[simp] theorem setSent_lastServed (p : PortId) (x : List (List Word)) : (s.setSent p x).lastServed = s.lastServed := rfl
@[simp] theorem setSent_pool (p : PortId) (x : List (List Word)) : (s.setSent p x).pool = s.pool := rfl
@[simp] theorem setSent_frontier (p : PortId) (x : List (List Word)) : (s.setSent p x).frontier = s.frontier := rfl
@[simp] theorem setSent_newestOpened (p : PortId) (x : List (List Word)) : (s.setSent p x).newestOpened = s.newestOpened := rfl
@[simp] theorem setSent_newestStrobe (p : PortId) (x : List (List Word)) : (s.setSent p x).newestStrobe = s.newestStrobe := rfl
@[simp] theorem setSent_contexts (p : PortId) (x : List (List Word)) : (s.setSent p x).contexts = s.contexts := rfl
@[simp] theorem setSent_pressure (p : PortId) (x : List (List Word)) : (s.setSent p x).pressure = s.pressure := rfl
@[simp] theorem setSent_ready (p : PortId) (x : List (List Word)) : (s.setSent p x).ready = s.ready := rfl
@[simp] theorem setSent_engines (p : PortId) (x : List (List Word)) : (s.setSent p x).engines = s.engines := rfl
@[simp] theorem setSent_cache (p : PortId) (x : List (List Word)) : (s.setSent p x).cache = s.cache := rfl
@[simp] theorem setSent_ports (p : PortId) (x : List (List Word)) : (s.setSent p x).ports = s.ports := rfl
@[simp] theorem setSent_sent (p : PortId) (x : List (List Word)) : (s.setSent p x).sent = s.sent.set p x := rfl
@[simp] theorem setSent_items (p : PortId) (x : List (List Word)) : (s.setSent p x).items = s.items := rfl
@[simp] theorem setSent_run (p : PortId) (x : List (List Word)) : (s.setSent p x).run = s.run := rfl
@[simp] theorem setSent_incidents (p : PortId) (x : List (List Word)) : (s.setSent p x).incidents = s.incidents := rfl
@[simp] theorem setSent_counter (p : PortId) (x : List (List Word)) : (s.setSent p x).counter = s.counter := rfl
@[simp] theorem setSent_slotLength (p : PortId) (x : List (List Word)) : (s.setSent p x).slotLength = s.slotLength := rfl
@[simp] theorem setSent_pending (p : PortId) (x : List (List Word)) : (s.setSent p x).pending = s.pending := rfl
@[simp] theorem setSent_rx (p : PortId) (x : List (List Word)) (k : ReceiverId) : (s.setSent p x).rx k = s.rx k := rfl
@[simp] theorem setSent_ctx (p : PortId) (x : List (List Word)) (k : SlotId) : (s.setSent p x).ctx k = s.ctx k := rfl
@[simp] theorem setSent_engine (p : PortId) (x : List (List Word)) (k : PortId) : (s.setSent p x).engine k = s.engine k := rfl
@[simp] theorem setSent_port (p : PortId) (x : List (List Word)) (k : PortId) : (s.setSent p x).port k = s.port k := rfl
@[simp] theorem setSent_ring (p : PortId) (x : List (List Word)) (k : PortId) : (s.setSent p x).ring k = s.ring k := rfl

/-! ### setItems -/

@[simp] theorem setItems_receivers (x : Items) : (s.setItems x).receivers = s.receivers := rfl
@[simp] theorem setItems_lastServed (x : Items) : (s.setItems x).lastServed = s.lastServed := rfl
@[simp] theorem setItems_pool (x : Items) : (s.setItems x).pool = s.pool := rfl
@[simp] theorem setItems_frontier (x : Items) : (s.setItems x).frontier = s.frontier := rfl
@[simp] theorem setItems_newestOpened (x : Items) : (s.setItems x).newestOpened = s.newestOpened := rfl
@[simp] theorem setItems_newestStrobe (x : Items) : (s.setItems x).newestStrobe = s.newestStrobe := rfl
@[simp] theorem setItems_contexts (x : Items) : (s.setItems x).contexts = s.contexts := rfl
@[simp] theorem setItems_pressure (x : Items) : (s.setItems x).pressure = s.pressure := rfl
@[simp] theorem setItems_ready (x : Items) : (s.setItems x).ready = s.ready := rfl
@[simp] theorem setItems_engines (x : Items) : (s.setItems x).engines = s.engines := rfl
@[simp] theorem setItems_cache (x : Items) : (s.setItems x).cache = s.cache := rfl
@[simp] theorem setItems_ports (x : Items) : (s.setItems x).ports = s.ports := rfl
@[simp] theorem setItems_sent (x : Items) : (s.setItems x).sent = s.sent := rfl
@[simp] theorem setItems_items (x : Items) : (s.setItems x).items = x := rfl
@[simp] theorem setItems_run (x : Items) : (s.setItems x).run = s.run := rfl
@[simp] theorem setItems_incidents (x : Items) : (s.setItems x).incidents = s.incidents := rfl
@[simp] theorem setItems_counter (x : Items) : (s.setItems x).counter = s.counter := rfl
@[simp] theorem setItems_slotLength (x : Items) : (s.setItems x).slotLength = s.slotLength := rfl
@[simp] theorem setItems_pending (x : Items) : (s.setItems x).pending = s.pending := rfl
@[simp] theorem setItems_rx (x : Items) (k : ReceiverId) : (s.setItems x).rx k = s.rx k := rfl
@[simp] theorem setItems_ctx (x : Items) (k : SlotId) : (s.setItems x).ctx k = s.ctx k := rfl
@[simp] theorem setItems_engine (x : Items) (k : PortId) : (s.setItems x).engine k = s.engine k := rfl
@[simp] theorem setItems_port (x : Items) (k : PortId) : (s.setItems x).port k = s.port k := rfl
@[simp] theorem setItems_ring (x : Items) (k : PortId) : (s.setItems x).ring k = s.ring k := rfl

/-! ### setRun -/

@[simp] theorem setRun_receivers (x : RunState) : (s.setRun x).receivers = s.receivers := rfl
@[simp] theorem setRun_lastServed (x : RunState) : (s.setRun x).lastServed = s.lastServed := rfl
@[simp] theorem setRun_pool (x : RunState) : (s.setRun x).pool = s.pool := rfl
@[simp] theorem setRun_frontier (x : RunState) : (s.setRun x).frontier = s.frontier := rfl
@[simp] theorem setRun_newestOpened (x : RunState) : (s.setRun x).newestOpened = s.newestOpened := rfl
@[simp] theorem setRun_newestStrobe (x : RunState) : (s.setRun x).newestStrobe = s.newestStrobe := rfl
@[simp] theorem setRun_contexts (x : RunState) : (s.setRun x).contexts = s.contexts := rfl
@[simp] theorem setRun_pressure (x : RunState) : (s.setRun x).pressure = s.pressure := rfl
@[simp] theorem setRun_ready (x : RunState) : (s.setRun x).ready = s.ready := rfl
@[simp] theorem setRun_engines (x : RunState) : (s.setRun x).engines = s.engines := rfl
@[simp] theorem setRun_cache (x : RunState) : (s.setRun x).cache = s.cache := rfl
@[simp] theorem setRun_ports (x : RunState) : (s.setRun x).ports = s.ports := rfl
@[simp] theorem setRun_sent (x : RunState) : (s.setRun x).sent = s.sent := rfl
@[simp] theorem setRun_items (x : RunState) : (s.setRun x).items = s.items := rfl
@[simp] theorem setRun_run (x : RunState) : (s.setRun x).run = x := rfl
@[simp] theorem setRun_incidents (x : RunState) : (s.setRun x).incidents = s.incidents := rfl
@[simp] theorem setRun_counter (x : RunState) : (s.setRun x).counter = s.counter := rfl
@[simp] theorem setRun_slotLength (x : RunState) : (s.setRun x).slotLength = s.slotLength := rfl
@[simp] theorem setRun_pending (x : RunState) : (s.setRun x).pending = s.pending := rfl
@[simp] theorem setRun_rx (x : RunState) (k : ReceiverId) : (s.setRun x).rx k = s.rx k := rfl
@[simp] theorem setRun_ctx (x : RunState) (k : SlotId) : (s.setRun x).ctx k = s.ctx k := rfl
@[simp] theorem setRun_engine (x : RunState) (k : PortId) : (s.setRun x).engine k = s.engine k := rfl
@[simp] theorem setRun_port (x : RunState) (k : PortId) : (s.setRun x).port k = s.port k := rfl
@[simp] theorem setRun_ring (x : RunState) (k : PortId) : (s.setRun x).ring k = s.ring k := rfl

/-! ### setIncidents -/

@[simp] theorem setIncidents_receivers (x : List Incident) : (s.setIncidents x).receivers = s.receivers := rfl
@[simp] theorem setIncidents_lastServed (x : List Incident) : (s.setIncidents x).lastServed = s.lastServed := rfl
@[simp] theorem setIncidents_pool (x : List Incident) : (s.setIncidents x).pool = s.pool := rfl
@[simp] theorem setIncidents_frontier (x : List Incident) : (s.setIncidents x).frontier = s.frontier := rfl
@[simp] theorem setIncidents_newestOpened (x : List Incident) : (s.setIncidents x).newestOpened = s.newestOpened := rfl
@[simp] theorem setIncidents_newestStrobe (x : List Incident) : (s.setIncidents x).newestStrobe = s.newestStrobe := rfl
@[simp] theorem setIncidents_contexts (x : List Incident) : (s.setIncidents x).contexts = s.contexts := rfl
@[simp] theorem setIncidents_pressure (x : List Incident) : (s.setIncidents x).pressure = s.pressure := rfl
@[simp] theorem setIncidents_ready (x : List Incident) : (s.setIncidents x).ready = s.ready := rfl
@[simp] theorem setIncidents_engines (x : List Incident) : (s.setIncidents x).engines = s.engines := rfl
@[simp] theorem setIncidents_cache (x : List Incident) : (s.setIncidents x).cache = s.cache := rfl
@[simp] theorem setIncidents_ports (x : List Incident) : (s.setIncidents x).ports = s.ports := rfl
@[simp] theorem setIncidents_sent (x : List Incident) : (s.setIncidents x).sent = s.sent := rfl
@[simp] theorem setIncidents_items (x : List Incident) : (s.setIncidents x).items = s.items := rfl
@[simp] theorem setIncidents_run (x : List Incident) : (s.setIncidents x).run = s.run := rfl
@[simp] theorem setIncidents_incidents (x : List Incident) : (s.setIncidents x).incidents = x := rfl
@[simp] theorem setIncidents_counter (x : List Incident) : (s.setIncidents x).counter = s.counter := rfl
@[simp] theorem setIncidents_slotLength (x : List Incident) : (s.setIncidents x).slotLength = s.slotLength := rfl
@[simp] theorem setIncidents_pending (x : List Incident) : (s.setIncidents x).pending = s.pending := rfl
@[simp] theorem setIncidents_rx (x : List Incident) (k : ReceiverId) : (s.setIncidents x).rx k = s.rx k := rfl
@[simp] theorem setIncidents_ctx (x : List Incident) (k : SlotId) : (s.setIncidents x).ctx k = s.ctx k := rfl
@[simp] theorem setIncidents_engine (x : List Incident) (k : PortId) : (s.setIncidents x).engine k = s.engine k := rfl
@[simp] theorem setIncidents_port (x : List Incident) (k : PortId) : (s.setIncidents x).port k = s.port k := rfl
@[simp] theorem setIncidents_ring (x : List Incident) (k : PortId) : (s.setIncidents x).ring k = s.ring k := rfl

/-! ### setTime -/

@[simp] theorem setTime_receivers (t : Stamp) (n : Nat) : (s.setTime t n).receivers = s.receivers := rfl
@[simp] theorem setTime_lastServed (t : Stamp) (n : Nat) : (s.setTime t n).lastServed = s.lastServed := rfl
@[simp] theorem setTime_pool (t : Stamp) (n : Nat) : (s.setTime t n).pool = s.pool := rfl
@[simp] theorem setTime_frontier (t : Stamp) (n : Nat) : (s.setTime t n).frontier = s.frontier := rfl
@[simp] theorem setTime_newestOpened (t : Stamp) (n : Nat) : (s.setTime t n).newestOpened = s.newestOpened := rfl
@[simp] theorem setTime_newestStrobe (t : Stamp) (n : Nat) : (s.setTime t n).newestStrobe = s.newestStrobe := rfl
@[simp] theorem setTime_contexts (t : Stamp) (n : Nat) : (s.setTime t n).contexts = s.contexts := rfl
@[simp] theorem setTime_pressure (t : Stamp) (n : Nat) : (s.setTime t n).pressure = s.pressure := rfl
@[simp] theorem setTime_ready (t : Stamp) (n : Nat) : (s.setTime t n).ready = s.ready := rfl
@[simp] theorem setTime_engines (t : Stamp) (n : Nat) : (s.setTime t n).engines = s.engines := rfl
@[simp] theorem setTime_cache (t : Stamp) (n : Nat) : (s.setTime t n).cache = s.cache := rfl
@[simp] theorem setTime_ports (t : Stamp) (n : Nat) : (s.setTime t n).ports = s.ports := rfl
@[simp] theorem setTime_sent (t : Stamp) (n : Nat) : (s.setTime t n).sent = s.sent := rfl
@[simp] theorem setTime_items (t : Stamp) (n : Nat) : (s.setTime t n).items = s.items := rfl
@[simp] theorem setTime_run (t : Stamp) (n : Nat) : (s.setTime t n).run = s.run := rfl
@[simp] theorem setTime_incidents (t : Stamp) (n : Nat) : (s.setTime t n).incidents = s.incidents := rfl
@[simp] theorem setTime_counter (t : Stamp) (n : Nat) : (s.setTime t n).counter = t := rfl
@[simp] theorem setTime_slotLength (t : Stamp) (n : Nat) : (s.setTime t n).slotLength = n := rfl
@[simp] theorem setTime_pending (t : Stamp) (n : Nat) : (s.setTime t n).pending = s.pending := rfl
@[simp] theorem setTime_rx (t : Stamp) (n : Nat) (k : ReceiverId) : (s.setTime t n).rx k = s.rx k := rfl
@[simp] theorem setTime_ctx (t : Stamp) (n : Nat) (k : SlotId) : (s.setTime t n).ctx k = s.ctx k := rfl
@[simp] theorem setTime_engine (t : Stamp) (n : Nat) (k : PortId) : (s.setTime t n).engine k = s.engine k := rfl
@[simp] theorem setTime_port (t : Stamp) (n : Nat) (k : PortId) : (s.setTime t n).port k = s.port k := rfl
@[simp] theorem setTime_ring (t : Stamp) (n : Nat) (k : PortId) : (s.setTime t n).ring k = s.ring k := rfl

/-! ### setPending -/

@[simp] theorem setPending_receivers (q : List Instr) : (s.setPending q).receivers = s.receivers := rfl
@[simp] theorem setPending_lastServed (q : List Instr) : (s.setPending q).lastServed = s.lastServed := rfl
@[simp] theorem setPending_pool (q : List Instr) : (s.setPending q).pool = s.pool := rfl
@[simp] theorem setPending_frontier (q : List Instr) : (s.setPending q).frontier = s.frontier := rfl
@[simp] theorem setPending_newestOpened (q : List Instr) : (s.setPending q).newestOpened = s.newestOpened := rfl
@[simp] theorem setPending_newestStrobe (q : List Instr) : (s.setPending q).newestStrobe = s.newestStrobe := rfl
@[simp] theorem setPending_contexts (q : List Instr) : (s.setPending q).contexts = s.contexts := rfl
@[simp] theorem setPending_pressure (q : List Instr) : (s.setPending q).pressure = s.pressure := rfl
@[simp] theorem setPending_ready (q : List Instr) : (s.setPending q).ready = s.ready := rfl
@[simp] theorem setPending_engines (q : List Instr) : (s.setPending q).engines = s.engines := rfl
@[simp] theorem setPending_cache (q : List Instr) : (s.setPending q).cache = s.cache := rfl
@[simp] theorem setPending_ports (q : List Instr) : (s.setPending q).ports = s.ports := rfl
@[simp] theorem setPending_sent (q : List Instr) : (s.setPending q).sent = s.sent := rfl
@[simp] theorem setPending_items (q : List Instr) : (s.setPending q).items = s.items := rfl
@[simp] theorem setPending_run (q : List Instr) : (s.setPending q).run = s.run := rfl
@[simp] theorem setPending_incidents (q : List Instr) : (s.setPending q).incidents = s.incidents := rfl
@[simp] theorem setPending_counter (q : List Instr) : (s.setPending q).counter = s.counter := rfl
@[simp] theorem setPending_slotLength (q : List Instr) : (s.setPending q).slotLength = s.slotLength := rfl
@[simp] theorem setPending_pending (q : List Instr) : (s.setPending q).pending = q := rfl
@[simp] theorem setPending_rx (q : List Instr) (k : ReceiverId) : (s.setPending q).rx k = s.rx k := rfl
@[simp] theorem setPending_ctx (q : List Instr) (k : SlotId) : (s.setPending q).ctx k = s.ctx k := rfl
@[simp] theorem setPending_engine (q : List Instr) (k : PortId) : (s.setPending q).engine k = s.engine k := rfl
@[simp] theorem setPending_port (q : List Instr) (k : PortId) : (s.setPending q).port k = s.port k := rfl
@[simp] theorem setPending_ring (q : List Instr) (k : PortId) : (s.setPending q).ring k = s.ring k := rfl

/-! ### countDeadlines, setRing and setHold -/

@[simp] theorem countDeadlines_receivers : s.countDeadlines.receivers = s.receivers := by unfold countDeadlines; rfl
@[simp] theorem countDeadlines_lastServed : s.countDeadlines.lastServed = s.lastServed := by unfold countDeadlines; rfl
@[simp] theorem countDeadlines_pool : s.countDeadlines.pool = s.pool := by unfold countDeadlines; rfl
@[simp] theorem countDeadlines_frontier : s.countDeadlines.frontier = s.frontier := by unfold countDeadlines; rfl
@[simp] theorem countDeadlines_newestOpened : s.countDeadlines.newestOpened = s.newestOpened := by unfold countDeadlines; rfl
@[simp] theorem countDeadlines_newestStrobe : s.countDeadlines.newestStrobe = s.newestStrobe := by unfold countDeadlines; rfl
@[simp] theorem countDeadlines_pressure : s.countDeadlines.pressure = s.pressure := by unfold countDeadlines; rfl
@[simp] theorem countDeadlines_ready : s.countDeadlines.ready = s.ready := by unfold countDeadlines; rfl
@[simp] theorem countDeadlines_engines : s.countDeadlines.engines = s.engines := by unfold countDeadlines; rfl
@[simp] theorem countDeadlines_cache : s.countDeadlines.cache = s.cache := by unfold countDeadlines; rfl
@[simp] theorem countDeadlines_ports : s.countDeadlines.ports = s.ports := by unfold countDeadlines; rfl
@[simp] theorem countDeadlines_sent : s.countDeadlines.sent = s.sent := by unfold countDeadlines; rfl
@[simp] theorem countDeadlines_items : s.countDeadlines.items = s.items := by unfold countDeadlines; rfl
@[simp] theorem countDeadlines_run : s.countDeadlines.run = s.run := by unfold countDeadlines; rfl
@[simp] theorem countDeadlines_incidents : s.countDeadlines.incidents = s.incidents := by unfold countDeadlines; rfl
@[simp] theorem countDeadlines_counter : s.countDeadlines.counter = s.counter := by unfold countDeadlines; rfl
@[simp] theorem countDeadlines_slotLength : s.countDeadlines.slotLength = s.slotLength := by unfold countDeadlines; rfl
@[simp] theorem countDeadlines_pending : s.countDeadlines.pending = s.pending := by unfold countDeadlines; rfl
@[simp] theorem countDeadlines_rx (k : ReceiverId) : s.countDeadlines.rx k = s.rx k := by
  unfold countDeadlines rx; rfl
@[simp] theorem countDeadlines_engine (k : PortId) : s.countDeadlines.engine k = s.engine k := by
  unfold countDeadlines engine; rfl
@[simp] theorem countDeadlines_port (k : PortId) : s.countDeadlines.port k = s.port k := by
  unfold countDeadlines port; rfl
@[simp] theorem countDeadlines_ring (k : PortId) : s.countDeadlines.ring k = s.ring k := by
  unfold countDeadlines ring; rfl
@[simp] theorem countDeadlines_ctx (i : SlotId) : s.countDeadlines.ctx i = (s.ctx i).counted := by
  simp [countDeadlines, ctx]

/-! ### Reading back an indexed update -/

@[simp] theorem setRx_rx_self (r : ReceiverId) (x : Receiver) : (s.setRx r x).rx r = x := by
  simp [setRx, rx]
theorem setRx_rx_ne (r : ReceiverId) (x : Receiver) (k : ReceiverId) (h : r ≠ k) : (s.setRx r x).rx k = s.rx k := by
  simp only [setRx, rx, Fin.getElem_fin]
  exact Vector.getElem_set_ne _ _ (fun e => h (Fin.ext e))
theorem setRx_rx (r : ReceiverId) (x : Receiver) (k : ReceiverId) : (s.setRx r x).rx k = if r = k then x else s.rx k := by
  split
  · next e => subst e; exact setRx_rx_self s r x
  · next e => exact setRx_rx_ne s r x k e
@[simp] theorem setRx_rx_same (s : State) (r : ReceiverId) : s.setRx r (s.rx r) = s := by
  cases s; simp [setRx, rx]

@[simp] theorem setCtx_ctx_self (i : SlotId) (x : Context) : (s.setCtx i x).ctx i = x := by
  simp [setCtx, ctx]
theorem setCtx_ctx_ne (i : SlotId) (x : Context) (k : SlotId) (h : i ≠ k) : (s.setCtx i x).ctx k = s.ctx k := by
  simp only [setCtx, ctx, Fin.getElem_fin]
  exact Vector.getElem_set_ne _ _ (fun e => h (Fin.ext e))
theorem setCtx_ctx (i : SlotId) (x : Context) (k : SlotId) : (s.setCtx i x).ctx k = if i = k then x else s.ctx k := by
  split
  · next e => subst e; exact setCtx_ctx_self s i x
  · next e => exact setCtx_ctx_ne s i x k e
@[simp] theorem setCtx_ctx_same (s : State) (i : SlotId) : s.setCtx i (s.ctx i) = s := by
  cases s; simp [setCtx, ctx]

@[simp] theorem setEngine_engine_self (p : PortId) (x : Engine) : (s.setEngine p x).engine p = x := by
  simp [setEngine, engine]
theorem setEngine_engine_ne (p : PortId) (x : Engine) (k : PortId) (h : p ≠ k) : (s.setEngine p x).engine k = s.engine k := by
  simp only [setEngine, engine, Fin.getElem_fin]
  exact Vector.getElem_set_ne _ _ (fun e => h (Fin.ext e))
theorem setEngine_engine (p : PortId) (x : Engine) (k : PortId) : (s.setEngine p x).engine k = if p = k then x else s.engine k := by
  split
  · next e => subst e; exact setEngine_engine_self s p x
  · next e => exact setEngine_engine_ne s p x k e
@[simp] theorem setEngine_engine_same (s : State) (p : PortId) : s.setEngine p (s.engine p) = s := by
  cases s; simp [setEngine, engine]

@[simp] theorem setPort_port_self (p : PortId) (x : Port) : (s.setPort p x).port p = x := by
  simp [setPort, port]
theorem setPort_port_ne (p : PortId) (x : Port) (k : PortId) (h : p ≠ k) : (s.setPort p x).port k = s.port k := by
  simp only [setPort, port, Fin.getElem_fin]
  exact Vector.getElem_set_ne _ _ (fun e => h (Fin.ext e))
theorem setPort_port (p : PortId) (x : Port) (k : PortId) : (s.setPort p x).port k = if p = k then x else s.port k := by
  split
  · next e => subst e; exact setPort_port_self s p x
  · next e => exact setPort_port_ne s p x k e
@[simp] theorem setPort_port_same (s : State) (p : PortId) : s.setPort p (s.port p) = s := by
  cases s; simp [setPort, port]

@[simp] theorem setCache_ring (x : Cache) (p : PortId) : (s.setCache x).ring p = x.rings[p] := rfl
@[simp] theorem setRing_ring_self (p : PortId) (x : Ring) : (s.setRing p x).ring p = x := by simp [setRing, ring]
theorem setRing_ring_ne (p : PortId) (x : Ring) (k : PortId) (h : p ≠ k) : (s.setRing p x).ring k = s.ring k := by
  simp only [setRing, ring, setCache, Fin.getElem_fin]
  exact Vector.getElem_set_ne _ _ (fun e => h (Fin.ext e))

end Sys2Proof.Machine.State
end

