-- ==== Sys2Proof/Laws/Leads.lean ====
section
/-! SUPPORT. What a step can do, said once: every command's effect is a chain of the updates of `Prim`, so a property that
each of those keeps is kept by every step. -/

namespace Sys2Proof.Machine

-- Each lemma's default argument is looked up while others are still being checked; one at a time, no thread waits.
set_option Elab.async false

/-- The updates a step is made of. A hypothesis says what an update keeps. The number orders the updates by how far they
reach (0 messages and incidents, 1 assembly and delivery, 2 opening, 3 the frontier and the run, 4 the items and the strobe,
5 time); the Bool marks those that touch the words of the store or the write port's pointer. -/
inductive Prim : Nat → Bool → State → State → Prop
  | rx (s : State) (r : ReceiverId) (x : Receiver) (h : (s.rx r).Bounded → x.Bounded) : Prim 1 false s (s.setRx r x)
  | lastServed (s : State) (r : ReceiverId) : Prim 1 true s (s.setLastServed r)
  | pool (s : State) (x : PagePool) (h : s.pool.Sound → x.Sound) (ho : x.occupancy = s.pool.occupancy := by rfl)
      (hw : x.store = s.pool.store ∧ x.conditions = s.pool.conditions := by exact ⟨rfl, rfl⟩) :
      Prim 1 false s (s.setPool x)
  | words (s : State) (x : PagePool) (h : s.pool.Sound → x.Sound) (ho : x.occupancy = s.pool.occupancy := by rfl) :
      Prim 1 true s (s.setPool x)
  | pages (s : State) (x : PagePool) (h : s.pool.Sound → x.Sound)
      (hw : x.store = s.pool.store ∧ x.conditions = s.pool.conditions := by exact ⟨rfl, rfl⟩) :
      Prim 1 false s (s.setPool x).evaluate
  | frontier (s : State) (n : Slice) : Prim 3 false s (s.setFrontier n)
  | newestOpened (s : State) (n : Slice) : Prim 2 false s (s.setNewestOpened n)
  | newestStrobe (s : State) (n : Slice) : Prim 4 false s (s.setNewestStrobe n)
  | ctx (s : State) (i : SlotId) (x : Context) : Prim 1 false s (s.setCtx i x)
  | deadlines (s : State) : Prim 5 false s s.countDeadlines
  | ready (s : State) (x : List ReadyEntry) : Prim 1 false s (s.setReady x)
  | engine (s : State) (p : PortId) (x : Engine) (h : EngineOk (s.engine p) (s.port p) → EngineOk x (s.port p)) :
      Prim 1 false s (s.setEngine p x)
  | cache (s : State) (x : Cache) : Prim 1 false s (s.setCache x)
  | port (s : State) (p : PortId) (x : Port) (h : EngineOk (s.engine p) (s.port p) → EngineOk (s.engine p) x) :
      Prim 0 false s (s.setPort p x)
  | sent (s : State) (p : PortId) (x : List (List Word)) : Prim 0 false s (s.setSent p x)
  | items (s : State) (x : Items) (hp : x.pressure = s.items.pressure) (h : s.items.Valid → x.Valid) :
      Prim 4 false s (s.setItems x)
  | pressureItem (s : State) (x : Items) (p : PortId) (l : List (List Word)) (h : s.items.Valid → x.Valid) :
      Prim 4 false s ((s.setItems x).setSent p l).evaluate
  | run (s : State) (x : RunState) : Prim 3 false s (s.setRun x)
  | incidents (s : State) (x : List Incident)
      (h : s.incidents.length ≤ Config.incidentRecords → x.length ≤ Config.incidentRecords) :
      Prim 0 false s (s.setIncidents x)
  | time (s : State) (t : Stamp) (n : Nat) : Prim 5 false s (s.setTime t n).decideHold
  | reset (s t : State) (h : execDeviceReset s = .next t) : Prim 6 false s t

/-- A chain of updates of reach at most `lv`; `ws` says whether it may touch the words of the store. -/
inductive Leads (lv : Nat) (ws : Bool) : State → State → Prop
  | refl (s : State) : Leads lv ws s s
  | step {s t u : State} {k : Nat} {b : Bool} (h : Leads lv ws s t) (p : Prim k b t u) (hk : k ≤ lv)
      (hb : b = true → ws = true) : Leads lv ws s u

variable {lv : Nat} {ws : Bool}

namespace Leads

theorem trans {s t u : State} (h : Leads lv ws s t) (k : Leads lv ws t u) : Leads lv ws s u := by
  induction k with
  | refl => exact h
  | step _ p hk hb ih => exact ih.step p hk hb

theorem one {s t : State} {k : Nat} {b : Bool} (p : Prim k b s t) (hk : k ≤ lv := by omega)
    (hb : b = true → ws = true := by simp) : Leads lv ws s t := (refl s).step p hk hb

/-- A chain of smaller reach is one of larger reach. -/
theorem mono {s t : State} {m : Nat} {v : Bool} (h : Leads lv ws s t) (hm : lv ≤ m) (hv : ws = true → v = true) :
    Leads m v s t := by
  induction h with
  | refl => exact refl _
  | step _ p hk hb ih => exact ih.step p (hk.trans hm) fun x => hv (hb x)

/-- A property that every update of the chain's reach keeps is kept by the chain. -/
theorem keeps {P : State → Prop}
    (hP : ∀ k b s t, Prim k b s t → k ≤ lv → (b = true → ws = true) → P s → P t) {s t : State} (h : Leads lv ws s t)
    (hs : P s) : P t := by
  induction h with
  | refl => exact hs
  | step _ p hk hb ih => exact hP _ _ _ _ p hk hb ih

theorem each {α : Type} (xs : List α) (f : α → State → State) (h : ∀ x s, Leads lv ws s (f x s)) (s : State) :
    Leads lv ws s (s.each xs f) := by
  induction xs generalizing s with
  | nil => exact refl s
  | cons x rest ih => exact (h x s).trans (ih (f x s))

theorem ite {c : Prop} [Decidable c] {s a b : State} (ha : c → Leads lv ws s a) (hb : ¬c → Leads lv ws s b) :
    Leads lv ws s (if c then a else b) := by
  split
  · next h => exact ha h
  · next h => exact hb h

end Leads

/-! ## Receivers: what keeps their bounds -/

/-- Removing the head of an elastic buffer keeps the bounds. -/
theorem Receiver.held_tail_le (x : Receiver) : (x.buffer.tail.map BufferedSegment.held).sum ≤ x.held := by
  unfold Receiver.held
  cases x.buffer with
  | nil => simp
  | cons g rest => simp

theorem Receiver.bounded_popHead {x : Receiver} (h : x.Bounded) : x.popHead.Bounded :=
  ⟨h.1, (Receiver.held_tail_le x).trans h.2⟩

theorem Receiver.bounded_withoutHead {x : Receiver} (h : x.Bounded) : x.withoutHead.Bounded := by
  have hl := Receiver.held_tail_le x
  unfold Receiver.withoutHead
  split
  · exact h
  · next g rest e =>
    rw [e] at hl
    exact ⟨h.1, hl.trans h.2⟩

theorem Receiver.bounded_setHead {x : Receiver} {g g' : BufferedSegment} (e : x.head = some g) (hg : g'.held ≤ g.held)
    (h : x.Bounded) : (x.setHead g').Bounded := by
  refine ⟨?_, ?_⟩
  · unfold Receiver.setHead; split <;> exact h.1
  · have hh := h.2
    unfold Receiver.head at e
    unfold Receiver.setHead
    split
    · next e' => rw [e'] at e; simp at e
    · next g0 rest e' =>
      rw [e'] at e
      simp only [List.head?_cons, Option.some.injEq] at e
      subst e
      unfold Receiver.held at hh ⊢
      rw [e'] at hh
      simp only [List.map_cons, List.sum_cons] at hh ⊢
      omega

theorem Receiver.bounded_verdictUnrecorded {x : Receiver} (g : BufferedSegment) (h : x.Bounded) :
    (x.verdictUnrecorded g).Bounded := by
  unfold Receiver.verdictUnrecorded; split <;> exact h

theorem Receiver.bounded_settleRemainder {x : Receiver} (h : x.Bounded) : x.settleRemainder.Bounded := by
  unfold Receiver.settleRemainder
  split
  · split
    · exact Receiver.bounded_verdictUnrecorded _ (Receiver.bounded_popHead h)
    · exact h
  · exact h

theorem Receiver.bounded_discardRemainder {x : Receiver} (b : Bool)
    (h : x.Bounded) : (x.discardRemainder b).Bounded := by
  unfold Receiver.discardRemainder
  split
  · next g e =>
    exact Receiver.bounded_settleRemainder
      (Receiver.bounded_setHead e (by simp [BufferedSegment.held]) h)
  · exact h

/-- Replacing the newest segment changes the words held by the difference of the two. -/
theorem held_replaceNewest {g g' : BufferedSegment} {l : List BufferedSegment} (e : l.getLast? = some g) :
    ((replaceNewest g' l).map BufferedSegment.held).sum + g.held = (l.map BufferedSegment.held).sum + g'.held := by
  induction l with
  | nil => simp at e
  | cons a rest ih =>
    cases rest with
    | nil =>
      simp only [List.getLast?_singleton, Option.some.injEq] at e
      subst e
      simp [replaceNewest]; omega
    | cons b rest =>
      rw [List.getLast?_cons_cons] at e
      have := ih e
      simp only [replaceNewest, List.map_cons, List.sum_cons] at this ⊢
      omega

theorem Receiver.bounded_setNewest {x : Receiver} {g g' : BufferedSegment} (e : x.newest = some g)
    (hg : g'.held ≤ g.held) (h : x.Bounded) : (x.setNewest g').Bounded := by
  refine ⟨h.1, ?_⟩
  have k := held_replaceNewest (g' := g') e
  have hh := h.2
  unfold Receiver.held at hh ⊢
  simp only [Receiver.setNewest]
  omega

/-! ## Incidents and messages -/

/-- Marking the newest record leaves the number of records. -/
theorem length_markNewest (l : List Incident) : (markNewest l).length = l.length := by
  induction l with
  | nil => rfl
  | cons a rest ih =>
    cases rest with
    | nil => rfl
    | cons b rest => simpa [markNewest] using ih

/-- A port record with the same state. -/
theorem Leads.portSame (s : State) (p : PortId) (x : Port) (h : x.state = (s.port p).state) :
    Leads lv ws s (s.setPort p x) :=
  .one (.port s p x fun k => by unfold EngineOk at k ⊢; rw [h]; exact k)

theorem leads_send (s : State) (p : PortId) (m : List Word) : Leads lv ws s (s.send p m) := .one (.sent s p _)

theorem leads_sendNotify (s : State) (p : PortId) : Leads lv ws s (s.sendNotify p) :=
  (leads_send s p _).trans (.portSame _ p _ rfl)

theorem leads_trigger (s : State) (p : PortId) : Leads lv ws s (s.trigger p) := by
  unfold State.trigger
  exact .ite (fun _ => .ite (fun _ => .portSame s p _ rfl) fun _ => leads_sendNotify s p) fun _ => .refl s

theorem leads_post (s : State) (k : IncidentKind) (c : IncidentSource) (n : Option Slice) (d : Word) :
    Leads lv ws s (s.post k c n d) := by
  unfold State.post
  refine .ite (fun h => ?_) fun _ => .one (.incidents s _ fun hs => by rw [length_markNewest]; exact hs)
  have a : Leads lv ws s (s.setIncidents
      (s.incidents ++ [{ kind := k, source := c, slice := n, detail := d, stamp := s.counter, overflow := false }])) :=
    .one (.incidents s _ fun _ => by simp only [List.length_append, List.length_singleton]; exact h)
  exact .ite (fun _ => a.trans (.each _ _ (fun p t => leads_trigger t p) _)) fun _ => a

/-! ## The page pool -/

theorem leads_setCurrent (s : State) (r : ReceiverId) (x : Option Slice)
    (hn : 1 ≤ lv := by omega) : Leads lv ws s (s.setCurrent r x) :=
  .one (.rx s r _ fun h => h)

theorem leads_clearNoPages (s : State) (r : ReceiverId)
    (hn : 1 ≤ lv := by omega) : Leads lv ws s (s.clearNoPages r) := .one (.rx s r _ fun h => h)

theorem leads_endNoPages (s : State) (hn : 1 ≤ lv := by omega) :
    Leads lv ws s s.endNoPages := .each _ _ (fun r t => leads_clearNoPages t r) s

theorem leads_freePage (s : State) (n : Slice) (page : Nat)
    (hn : 1 ≤ lv := by omega) : Leads lv ws s (s.freePage n page) := by
  unfold State.freePage
  refine .ite (fun _ => .ite (fun h => .one (.pages s _ fun k => PagePool.sound_withdrawn k page h)) fun _ => ?_) fun _ => ?_
  · exact ((Leads.one (.pages s _ fun k => PagePool.sound_setAttribute (PagePool.sound_freed k page) page _)).trans
      (leads_endNoPages _)).trans (leads_post _ _ _ _ _)
  · exact (Leads.one (.pages s _ fun k => PagePool.sound_freed k page)).trans (leads_endNoPages _)

theorem leads_freePages (s : State) (n : Slice) (l : List Nat)
    (hn : 1 ≤ lv := by omega) : Leads lv ws s (s.freePages n l) :=
  .each _ _ (fun page t => leads_freePage t n page) s

theorem leads_unlink (s : State) (x : ProvisionalRecord) (hn : 1 ≤ lv := by omega) : Leads lv ws s (s.unlink x) := by
  unfold State.unlink
  exact .ite (fun _ => .one (.pool s _ fun k => PagePool.sound_setLink k _ _)) fun _ => .refl s

theorem leads_rollback (s : State) (r : ReceiverId) (hn : 1 ≤ lv := by omega) : Leads lv ws s (s.rollback r) := by
  unfold State.rollback
  split
  · exact .refl s
  · exact ((leads_unlink s _).trans (leads_freePages _ _ _)).trans (.one (.rx _ r _ fun h => h))

theorem leads_freeChain (s : State) (i : SlotId) (q : SourceId)
    (hn : 1 ≤ lv := by omega) : Leads lv ws s (s.freeChain i q) :=
  (leads_freePages s _ _).trans (.one (.ctx _ i _))

theorem leads_freeSlice (s : State) (i : SlotId) (hn : 1 ≤ lv := by omega) : Leads lv ws s (s.freeSlice i) :=
  .each _ _ (fun q t => leads_freeChain t i q) s

theorem leads_abandonRecord (s : State) (r : ReceiverId)
    (hn : 1 ≤ lv := by omega) : Leads lv ws s (s.abandonRecord r) := by
  unfold State.abandonRecord
  exact .ite (fun _ => .refl s) fun _ =>
    (leads_rollback s r).trans (.one (.rx _ r _ fun h => Receiver.bounded_discardRemainder false h))

theorem leads_allocatePage (s : State) {page : Nat} {t : State} (h : s.allocatePage = some (page, t))
    (hn : 1 ≤ lv := by omega) : Leads lv ws s t := by
  unfold State.allocatePage at h
  split at h
  · simp at h
  · simp only [Option.some.injEq, Prod.mk.injEq] at h
    rw [← h.2]
    exact .one (.pages s _ fun k => PagePool.sound_taken k _ _)

/-! ## The descriptor cache and the engines' buffers -/

theorem leads_considerFetch (s : State) (p : PortId) (hn : 1 ≤ lv := by omega) : Leads lv ws s (s.considerFetch p) := by
  unfold State.considerFetch
  split
  · exact .ite (fun _ => (Leads.one (.cache s _)).trans (leads_send _ p _)) fun _ => .refl s
  · exact .refl s

theorem leads_evictFor (s : State) (p : PortId) (hn : 1 ≤ lv := by omega) : Leads lv ws s (s.evictFor p) := by
  unfold State.evictFor
  refine .ite (fun _ => ?_) fun _ => .refl s
  split
  · exact (Leads.one (.cache s _)).trans (.one (.cache _ _))
  · exact .refl s

theorem leads_grantFetches (s : State) (hn : 1 ≤ lv := by omega) :
    Leads lv ws s s.grantFetches := .each _ _ (fun p t => leads_considerFetch t p) s

theorem leads_cachePass (s : State) (hn : 1 ≤ lv := by omega) : Leads lv ws s s.cachePass :=
  (leads_grantFetches s).trans (.each _ _ (fun p t => leads_evictFor t p) _)

theorem leads_settleCache (s : State) (hn : 1 ≤ lv := by omega) : Leads lv ws s s.settleCache :=
  ((((leads_cachePass s).trans (leads_cachePass _)).trans (leads_cachePass _)).trans (leads_cachePass _)).trans
    (leads_grantFetches _)

/-- An engine that may be at work takes a buffer, or waits for one. -/
theorem leads_takeBuffer (s : State) (p : PortId)
    (h : EngineOk (s.engine p) (s.port p) → (s.port p).state.attached = true ∧ (s.engine p).assigned.isSome = true) (hn : 1 ≤ lv := by omega) :
    Leads lv ws s (s.takeBuffer p) := by
  unfold State.takeBuffer
  refine .ite (fun _ => ?_) fun _ => .one (.engine s p _ fun k => .inr (h k))
  exact ((Leads.one (.cache s _)).trans (.one (.cache _ _))).trans
    (.one (.engine _ p _ fun k => .inr ⟨(h k).1, (h k).2⟩))

/-- An engine that is not IDLE may be at work. -/
theorem busy_attached {e : Engine} {x : Port} (h : e.state ≠ .idle) (k : EngineOk e x) :
    x.state.attached = true ∧ e.assigned.isSome = true := k.resolve_left h

theorem leads_giveBack (s : State) (p : PortId)
    (hn : 1 ≤ lv := by omega) : Leads lv ws s (s.giveBack p) := .one (.cache s _)

theorem leads_wake (s : State) (p : PortId) (hn : 1 ≤ lv := by omega) : Leads lv ws s (s.wake p) := by
  unfold State.wake
  exact .ite (fun h => leads_takeBuffer s p (busy_attached (by rw [h]; decide))) fun _ => .refl s

/-! ## The dispatcher -/

theorem leads_assign (s : State) (e : ReadyEntry) (p : PortId) (h : (s.port p).state.attached = true)
    (hn : 1 ≤ lv := by omega) :
    Leads lv ws s (s.assign e p) := by
  unfold State.assign State.takeSlice
  refine (((Leads.one (.ready s _)).trans (.one (.ctx _ _ _))).trans
    (.one (.engine _ p _ fun _ => .inl rfl))).trans (leads_takeBuffer _ p fun _ => ⟨?_, ?_⟩)
  · simpa using h
  · simp [State.engineFor]

theorem bestPort_active {s : State} {e : ReadyEntry} {p : PortId} (h : s.bestPort e = some p) :
    (s.port p).state = .active := by
  have := List.find?_some h
  simp only [State.eligible, Bool.and_eq_true, beq_iff_eq] at this
  exact this.1.1

theorem leads_considerEntry (s : State) (e : ReadyEntry)
    (hn : 1 ≤ lv := by omega) : Leads lv ws s (s.considerEntry e) := by
  unfold State.considerEntry
  split
  · next p h => exact leads_assign s e p (by rw [bestPort_active h]; rfl)
  · exact .refl s

theorem leads_walk (s : State) (hn : 1 ≤ lv := by omega) :
    Leads lv ws s s.walk := .each _ _ (fun e t => leads_considerEntry t e) s

theorem leads_enterReady (s : State) (n : Slice) (hn : 1 ≤ lv := by omega) : Leads lv ws s (s.enterReady n) :=
  (Leads.one (.ready s _)).trans (leads_walk _)

theorem leads_elapseWaits (s : State) (hn : 1 ≤ lv := by omega) : Leads lv ws s s.elapseWaits := by
  unfold State.elapseWaits
  exact .ite (fun _ => (Leads.one (.ready s _)).trans (leads_walk _)) fun _ => .refl s

/-! ## The slice table -/

theorem leads_abandonFor (s : State) (i : SlotId) (r : ReceiverId)
    (hn : 1 ≤ lv := by omega) : Leads lv ws s (s.abandonFor i r) := by
  unfold State.abandonFor
  split
  · exact .ite (fun _ => leads_abandonRecord s r) fun _ => .refl s
  · exact .refl s

theorem leads_clearCurrent (s : State) (n : Slice) (r : ReceiverId)
    (hn : 1 ≤ lv := by omega) : Leads lv ws s (s.clearCurrent n r) := by
  unfold State.clearCurrent
  exact .ite (fun _ => leads_setCurrent s r _) fun _ => .refl s

theorem leads_closeContext (s : State) (i : SlotId) (reason : ClosureReason)
    (hn : 1 ≤ lv := by omega) : Leads lv ws s (s.closeContext i reason) := by
  unfold State.closeContext
  exact (((Leads.each _ _ (fun r t => leads_abandonFor t i r) s).trans
    (.each _ _ (fun r t => leads_clearCurrent t _ r) _)).trans (.one (.ctx _ i _))).trans (leads_enterReady _ _)

theorem leads_closureCheck (s : State) (i : SlotId) (hn : 1 ≤ lv := by omega) : Leads lv ws s (s.closureCheck i) := by
  unfold State.closureCheck
  exact .ite (fun _ => leads_closeContext s i _) fun _ => .refl s

theorem leads_breakChain (s : State) (i : SlotId) (q : SourceId)
    (hn : 1 ≤ lv := by omega) : Leads lv ws s (s.breakChain i q) := by
  unfold State.breakChain
  exact .ite (fun _ => (Leads.one (.ctx s i _)).trans (leads_closureCheck _ i)) fun _ => .refl s

theorem leads_openNext (s : State) (hn : 2 ≤ lv := by omega) : Leads lv ws s s.openNext :=
  ((Leads.one (.ctx s _ _)).trans (.one (.newestOpened _ _))).trans (leads_closureCheck _ _)

theorem leads_openThrough (s : State) (t : Slice) (hn : 2 ≤ lv := by omega) : Leads lv ws s (s.openThrough t) :=
  .each _ _ (fun _ u => leads_openNext u) s

theorem leads_openToward (s : State) (x : Slice) (hn : 2 ≤ lv := by omega) : Leads lv ws s (s.openToward x) := by
  unfold State.openToward
  refine .ite (fun _ => ?_) fun _ => .refl s
  split
  · exact leads_openThrough s _
  · exact leads_openThrough s _
  · exact .refl s

theorem leads_commitRecord (s : State) (r : ReceiverId) (x : ProvisionalRecord) (h : SegmentHeader)
    (hn : 1 ≤ lv := by omega) :
    Leads lv ws s (s.commitRecord r x h) := by
  have a : Leads lv ws s ((s.setCtx x.slot ((s.ctx x.slot).commit x h)).setRx r
      { (s.setCtx x.slot ((s.ctx x.slot).commit x h)).rx r with record := none, current := h.fragmentAfter }) :=
    (Leads.one (.ctx s _ _)).trans (.one (.rx _ r _ fun k => k))
  unfold State.commitRecord
  exact .ite (fun _ => a.trans (leads_closureCheck _ _)) fun _ => a

theorem leads_rejectRecord (s : State) (r : ReceiverId) (x : ProvisionalRecord) (v : Verdict)
    (hn : 1 ≤ lv := by omega) :
    Leads lv ws s (s.rejectRecord r x v) := by
  have a : Leads lv ws s ((s.rollback r).setCurrent r none) := (leads_rollback s r).trans (leads_setCurrent _ r none)
  unfold State.rejectRecord
  exact (Leads.ite (fun _ => a.trans (.one (.ctx _ _ _))) fun _ => a).trans (leads_breakChain _ _ _)

theorem leads_deliver (s : State) (r : ReceiverId) (g : BufferedSegment) (v : Verdict)
    (hn : 1 ≤ lv := by omega) : Leads lv ws s (s.deliver r g v) := by
  have a : Leads lv ws s (s.setRx r (s.rx r).popHead) := .one (.rx s r _ Receiver.bounded_popHead)
  unfold State.deliver
  dsimp only
  split
  · exact a.trans (.one (.rx _ r _ fun k => Receiver.bounded_verdictUnrecorded g k))
  · exact .ite (fun _ => a.trans (leads_commitRecord _ _ _ _)) fun _ => a.trans (leads_rejectRecord _ _ _ _)

theorem leads_settleVerdict (s : State) (r : ReceiverId)
    (hn : 1 ≤ lv := by omega) : Leads lv ws s (s.settleVerdict r) := by
  unfold State.settleVerdict
  split
  · exact .refl s
  · split
    · exact .refl s
    · exact .ite (fun _ => leads_deliver s r _ _) fun _ => .refl s

theorem leads_cutFragment (s : State) (r : ReceiverId) (q : SourceId) (k : SegmentKind) (hn : 1 ≤ lv := by omega) :
    Leads lv ws s (s.cutFragment r q k) := by
  unfold State.cutFragment
  split
  · exact .refl s
  · exact .ite (fun _ => (Leads.ite (fun _ => leads_breakChain s _ q) fun _ => .refl s).trans (leads_setCurrent _ r _))
      fun _ => .refl s

theorem Receiver.bounded_acceptHead {x : Receiver} (h : x.Bounded) : x.acceptHead.Bounded := by
  unfold Receiver.acceptHead
  split
  · next g e => exact Receiver.bounded_setHead e (by simp only [BufferedSegment.held]; split <;> omega) h
  · exact h

theorem Receiver.bounded_accepting {x : Receiver} (record : ProvisionalRecord) (h : x.Bounded) :
    (x.accepting record).Bounded :=
  ⟨(Receiver.bounded_acceptHead h).1, (Receiver.bounded_acceptHead h).2⟩

theorem leads_accept (s : State) (r : ReceiverId) (q : SourceId) (h : SegmentHeader)
    (hn : 2 ≤ lv := by omega) : Leads lv ws s (s.accept r q h) := by
  have a : Leads lv ws s (if (s.ctx (slotOf h.slice)).state = .unopened then s.openThrough h.slice else s) :=
    .ite (fun _ => leads_openThrough s _) fun _ => .refl s
  unfold State.accept
  exact ((a.trans (.one (.rx _ r _ fun k => Receiver.bounded_accepting _ k))).trans
    (.ite (fun _ => .one (.ctx _ _ _)) fun _ => .refl _)).trans (leads_settleVerdict _ r)

theorem leads_markLateSeen (s : State) (n : Slice) (hn : 1 ≤ lv := by omega) : Leads lv ws s (s.markLateSeen n) := by
  unfold State.markLateSeen
  exact .ite (fun _ => .one (.ctx s _ _)) fun _ => .refl s

theorem leads_breakPlaced (s : State) (n : Slice) (q : SourceId)
    (hn : 1 ≤ lv := by omega) : Leads lv ws s (s.breakPlaced n q) := by
  unfold State.breakPlaced
  exact .ite (fun _ => leads_breakChain s _ q) fun _ => .refl s

theorem leads_discardEffects (s : State) (r : ReceiverId) (q : SourceId)
    (h : SegmentHeader) (x : DiscardReason) (hn : 1 ≤ lv := by omega) :
    Leads lv ws s (s.discardEffects r q h x) := by
  unfold State.discardEffects
  split
  · exact .refl s
  · exact (leads_markLateSeen s _).trans (leads_post _ _ _ _ _)
  · exact (leads_post s _ _ _ _).trans (leads_breakPlaced _ _ _)
  · exact (Leads.one (.ctx s _ _)).trans (leads_post _ _ _ _ _)
  · exact .ite (fun _ => leads_setCurrent s r _) fun _ => .refl s

theorem leads_discardWhole (s : State) (r : ReceiverId) (hn : 1 ≤ lv := by omega) : Leads lv ws s (s.discardWhole r) :=
  .one (.rx s r _ Receiver.bounded_withoutHead)

theorem leads_judge (s : State) (r : ReceiverId) (q : SourceId) (h : SegmentHeader)
    (hn : 2 ≤ lv := by omega) : Leads lv ws s (s.judge r q h) := by
  have a := leads_cutFragment (lv := lv) (ws := ws) s r q h.kind
  unfold State.judge
  dsimp only
  split
  · exact a.trans (leads_accept _ _ _ _)
  · exact a.trans (.one (.rx _ r _ fun k => k))
  · exact (a.trans (leads_discardWhole _ r)).trans (leads_discardEffects _ _ _ _ _)

theorem leads_present (s : State) (r : ReceiverId) (hn : 2 ≤ lv := by omega) : Leads lv ws s (s.present r) := by
  unfold State.present
  refine .ite (fun _ => ?_) fun _ => .refl s
  split
  · exact .refl s
  · split
    · exact .ite (fun _ => leads_judge s r _ _) fun _ => leads_discardWhole s r
    · exact leads_discardWhole s r

theorem leads_presentAgain (s : State) (r : ReceiverId)
    (hn : 2 ≤ lv := by omega) : Leads lv ws s (s.presentAgain r) := by
  unfold State.presentAgain
  exact .ite (fun _ => leads_present s r) fun _ => .refl s

theorem leads_presentStalled (s : State) (hn : 2 ≤ lv := by omega) :
    Leads lv ws s s.presentStalled := .each _ _ (fun r t => leads_presentAgain t r) s

theorem leads_changeRun (s : State) (x : RunState) (hn : 3 ≤ lv := by omega) : Leads lv ws s (s.changeRun x) :=
  (Leads.one (.run s x)).trans (leads_presentStalled _)

theorem leads_cutAtLimit (s : State) (r : ReceiverId) (x : ProvisionalRecord)
    (hn : 1 ≤ lv := by omega) : Leads lv ws s (s.cutAtLimit r x) := by
  unfold State.cutAtLimit
  exact ((((Leads.one (.ctx s _ _)).trans (leads_rollback _ r)).trans (leads_setCurrent _ r _)).trans
    (.one (.rx _ r _ fun k => Receiver.bounded_discardRemainder true k))).trans (leads_closureCheck _ _)

theorem leads_linkLoss (s : State) (r : ReceiverId) (q : SourceId)
    (hn : 1 ≤ lv := by omega) : Leads lv ws s (s.linkLoss r q) := by
  unfold State.linkLoss
  exact (((leads_rollback s r).trans (leads_setCurrent _ r none)).trans
    (.each _ _ (fun i u => .one (.ctx u i _)) _)).trans (.each _ _ (fun i u => leads_closureCheck u i) _)

theorem leads_passRetired (fuel : Nat) (s : State)
    (hn : 3 ≤ lv := by omega) : Leads lv ws s (State.passRetired fuel s) := by
  induction fuel generalizing s with
  | zero => exact .refl s
  | succ n ih =>
    unfold State.passRetired
    exact .ite (fun _ => ((Leads.one (.ctx s _ _)).trans (.one (.frontier _ _))).trans (ih _)) fun _ => .refl s

theorem leads_drainReport (s : State) (hn : 3 ≤ lv := by omega) : Leads lv ws s s.drainReport := by
  unfold State.drainReport
  exact .ite (fun _ => leads_changeRun s _) fun _ => .refl s

theorem leads_frontierAdvance (s : State) (hn : 3 ≤ lv := by omega) : Leads lv ws s s.frontierAdvance := by
  unfold State.frontierAdvance
  exact .ite (fun _ => (((leads_passRetired 64 s).trans (leads_openToward _ _)).trans (leads_presentStalled _)).trans
    (leads_drainReport _)) fun _ => .refl s

theorem leads_retire (s : State) (i : SlotId) (hn : 3 ≤ lv := by omega) : Leads lv ws s (s.retire i) :=
  ((leads_freeSlice s i).trans (.one (.ctx _ i _))).trans (leads_frontierAdvance _)

/-! ## The store write port -/

theorem leads_setRecord (s : State) (r : ReceiverId) (x : ProvisionalRecord)
    (hn : 1 ≤ lv := by omega) : Leads lv ws s (s.setRecord r x) :=
  .one (.rx s r _ fun k => k)

theorem leads_extendRecord (s : State) (r : ReceiverId) (x y : ProvisionalRecord) (t : State)
    (h : s.extendRecord r x = some (y, t)) (hn : 1 ≤ lv := by omega) : Leads lv ws s t := by
  unfold State.extendRecord at h
  split at h
  · simp at h
  · next page u e =>
    simp only [Option.some.injEq, Prod.mk.injEq] at h
    rw [← h.2]
    refine ((leads_allocatePage s e).trans (.one (.pool _ _ ?_ ?_ ?_))).trans (.one (.rx _ r _ fun k => k))
    rotate_left
    · unfold PagePool.linkBehind; split <;> rfl
    · unfold PagePool.linkBehind; split <;> exact ⟨rfl, rfl⟩
    · intro k; unfold PagePool.linkBehind; split
      · exact k
      · exact PagePool.sound_setLink k _ _

theorem leads_burst (s : State) (r : ReceiverId) (x : ProvisionalRecord)
    (hn : 1 ≤ lv := by omega) : Leads lv true s (s.burst r x) := by
  unfold State.burst
  split
  · exact .refl s
  · next g e =>
    dsimp only
    refine Leads.trans (Leads.trans (Leads.trans (Leads.one (.words s _ (fun k => PagePool.sound_writeWords k _ _)
      (PagePool.writeWords_occupancy _ _ _))) (.one (.rx _ r _ fun k => ?_)))
      (leads_setRecord _ r _)) (leads_settleVerdict _ r)
    refine Receiver.bounded_setHead (g := g) (by simpa using e) ?_ k
    simp only [BufferedSegment.held, List.length_drop]
    omega

/-- The state a grant came to. -/
def Grant.state : Grant → State
  | .moved s => s
  | .refused s => s

theorem leads_serve (s : State) (r : ReceiverId) (hn : 1 ≤ lv := by omega) : Leads lv true s (s.serve r).state := by
  have a : Leads lv true s (s.setLastServed r) := .one (.lastServed s r)
  unfold State.serve
  dsimp only
  split
  · exact a
  · split
    · split
      · exact a.trans (leads_cutAtLimit _ _ _)
      · split
        · exact a.trans (.one (.rx _ r _ fun k => k))
        · next h => exact (a.trans (leads_extendRecord _ _ _ _ _ h)).trans (leads_burst _ _ _)
    · exact a.trans (leads_burst _ _ _)

theorem leads_grantPort (fuel : Nat) (s : State)
    (hn : 1 ≤ lv := by omega) : Leads lv true s (State.grantPort fuel s) := by
  induction fuel generalizing s with
  | zero => exact .refl s
  | succ n ih =>
    unfold State.grantPort
    split
    · exact .refl s
    · next r _ =>
      have a := leads_serve (lv := lv) s r
      split
      · next h => rw [h] at a; exact a
      · next h => rw [h] at a; exact a.trans (ih _)

end Sys2Proof.Machine
end

