-- ==== Sys2Proof/Laws/ExecLeads.lean ====
section
/-! SUPPORT. Every command's effect is a chain of updates: the receivers, the engines, the ports, the items and time, and
with them exec and step. -/

namespace Sys2Proof.Machine

-- Each lemma's default argument is looked up while others are still being checked; one at a time, no thread waits.
set_option Elab.async false

variable {lv : Nat} {ws : Bool}

/-! ## Receivers -/

theorem leads_setLink (s : State) (r : ReceiverId) (x : LinkState)
    (hn : 1 ≤ lv := by omega) : Leads lv ws s (s.setLink r x) := .one (.rx s r _ fun k => k)

theorem leads_leaveProbation (s : State) (r : ReceiverId) (x : LinkState)
    (hn : 1 ≤ lv := by omega) : Leads lv ws s (s.leaveProbation r x) :=
  .one (.rx s r _ fun k => k)

theorem leads_enterProbation (s : State) (r : ReceiverId)
    (hn : 1 ≤ lv := by omega) : Leads lv ws s (s.enterProbation r) := .one (.rx s r _ fun k => k)

theorem leads_enterUp (s : State) (r : ReceiverId) (hn : 1 ≤ lv := by omega) : Leads lv ws s (s.enterUp r) := by
  have a : Leads lv ws s (s.setRx r { s.rx r with link := .up, timer := none, errors := [] }) :=
    .one (.rx s r _ fun k => ⟨Nat.zero_le _, k.2⟩)
  unfold State.enterUp
  exact .ite (fun _ => a) fun _ => a.trans (leads_post _ _ _ _ _)

theorem leads_postUpLoss (s : State) (r : ReceiverId) (x : UpLoss) : Leads lv ws s (s.postUpLoss r x) := by
  unfold State.postUpLoss
  split
  · exact .ite (fun _ => .refl s) fun _ => leads_post s _ _ _ _
  · exact .ite (fun _ => .refl s) fun _ => leads_post s _ _ _ _
  · exact leads_post s _ _ _ _

theorem Receiver.bounded_barredWith {x : Receiver} (reason : BarredReason) (t : Option Stamp) (h : x.Bounded) :
    (x.barredWith reason t).Bounded := ⟨h.1, Nat.zero_le _⟩

theorem leads_leaveUp (s : State) (r : ReceiverId) (x : UpLoss)
    (hn : 1 ≤ lv := by omega) : Leads lv ws s (s.leaveUp r x) := by
  have a : Leads lv ws s (s.setRx r ((s.rx r).barredWith x.reason (s.timerFor s.barTime))) :=
    .one (.rx s r _ fun k => Receiver.bounded_barredWith _ _ k)
  unfold State.leaveUp
  dsimp only
  split
  · exact (a.trans (leads_linkLoss _ r _)).trans (leads_postUpLoss _ _ _)
  · exact a.trans (leads_postUpLoss _ _ _)

theorem leads_expireProbation (s : State) (r : ReceiverId)
    (hn : 1 ≤ lv := by omega) : Leads lv ws s (s.expireProbation r) := by
  unfold State.expireProbation
  exact .ite (fun _ => leads_enterUp s r) fun _ => .refl s

theorem leads_expireBar (s : State) (r : ReceiverId) (hn : 1 ≤ lv := by omega) : Leads lv ws s (s.expireBar r) := by
  unfold State.expireBar
  exact .ite (fun _ => leads_setLink s r _) fun _ => .refl s

theorem leads_setFramer (s : State) (r : ReceiverId) (x : Framer)
    (hn : 1 ≤ lv := by omega) : Leads lv ws s (s.setFramer r x) := .one (.rx s r _ fun k => k)

theorem leads_postFraming (s : State) (r : ReceiverId) (c : FramingCause) (h : Option SegmentHeader) :
    Leads lv ws s (s.postFraming r c h) := by
  unfold State.postFraming
  exact .ite (fun _ => leads_post s _ _ _ _) fun _ => .refl s

theorem leads_holdVerdict (s : State) (r : ReceiverId) (v : Verdict)
    (hn : 1 ≤ lv := by omega) : Leads lv ws s (s.holdVerdict r v) := by
  unfold State.holdVerdict
  split
  · exact .refl s
  · next g e => exact .one (.rx s r _ fun k => Receiver.bounded_setNewest e (le_refl _) k)

theorem leads_framingVerdict (s : State) (r : ReceiverId) (o : OpenSegment) (c : FramingCause)
    (hn : 1 ≤ lv := by omega) :
    Leads lv ws s (s.framingVerdict r o c) := by
  unfold State.framingVerdict
  split
  · exact leads_postFraming s r c _
  · exact ((leads_postFraming s r c _).trans (leads_holdVerdict _ r _)).trans (leads_settleVerdict _ r)
  · exact leads_postFraming s r c _
  all_goals exact .refl s

theorem leads_framingError (s : State) (r : ReceiverId) (o : OpenSegment) (c : FramingCause) (f : Framer)
    (hn : 1 ≤ lv := by omega) :
    Leads lv ws s (s.framingError r o c f) := by
  unfold State.framingError
  split
  · exact leads_leaveProbation s r _
  · exact (leads_setFramer s r f).trans (leads_framingVerdict _ r o c)
  all_goals exact .refl s

theorem leads_strayRun (s : State) (r : ReceiverId) (hn : 1 ≤ lv := by omega) : Leads lv ws s (s.strayRun r) := by
  unfold State.strayRun
  split
  · exact leads_leaveProbation s r _
  · exact (leads_setFramer s r _).trans (leads_postFraming _ r _ _)
  all_goals exact .refl s

theorem leads_refuseHeader (s : State) (r : ReceiverId) (o : OpenSegment)
    (h : SegmentHeader) (c : FramingCause) (hn : 1 ≤ lv := by omega) :
    Leads lv ws s (s.refuseHeader r o h c) := by
  unfold State.refuseHeader
  split
  · exact leads_leaveProbation s r _
  · exact .ite (fun _ => leads_setFramer s r _) fun _ => (leads_setFramer s r _).trans (leads_postFraming _ r _ _)
  all_goals exact .refl s

theorem leads_openSegment (s : State) (r : ReceiverId) (hn : 1 ≤ lv := by omega) : Leads lv ws s (s.openSegment r) := by
  unfold State.openSegment
  split
  · exact leads_setFramer s r _
  · exact leads_setFramer s r _
  all_goals exact .refl s

theorem leads_postOverrun (s : State) (r : ReceiverId) (h : Option SegmentHeader) :
    Leads lv ws s (s.postOverrun r h) := by
  unfold State.postOverrun
  exact .ite (fun _ => leads_post s _ _ _ _) fun _ => .refl s

theorem leads_loseHeader (s : State) (r : ReceiverId) (h : Option SegmentHeader) (hn : 1 ≤ lv := by omega) :
    Leads lv ws s (s.loseHeader r h) :=
  (leads_setFramer s r _).trans (leads_postOverrun _ r h)

/-- A receiver takes a segment's header words while two words are free. -/
theorem Receiver.bounded_admit {x : Receiver} (h : SegmentHeader) (f : Framer) (room : 2 ≤ x.room) (k : x.Bounded) :
    Receiver.Bounded { x with buffer := x.buffer ++ [h.buffered], framer := f } := by
  refine ⟨k.1, ?_⟩
  have hk := k.2
  unfold Receiver.room at room
  unfold Receiver.held at room hk ⊢
  simp only [List.map_append, List.map_cons, List.map_nil, List.sum_append, List.sum_cons, List.sum_nil,
    SegmentHeader.buffered, BufferedSegment.held, List.length_nil] at room hk ⊢
  omega

theorem leads_takeIn (s : State) (r : ReceiverId) (o : OpenSegment) (h : SegmentHeader)
    (hn : 1 ≤ lv := by omega) : Leads lv ws s (s.takeIn r o h) := by
  unfold State.takeIn
  exact .ite (fun room => .one (.rx s r _ fun k => Receiver.bounded_admit h _ room k)) fun _ =>
    leads_loseHeader s r _

theorem leads_dispose (s : State) (r : ReceiverId) (o : OpenSegment) (h : SegmentHeader)
    (hn : 1 ≤ lv := by omega) : Leads lv ws s (s.dispose r o h) := by
  unfold State.dispose
  split
  · exact leads_setFramer s r _
  · exact .ite (fun _ => .ite (fun _ => leads_takeIn s r o h) fun _ =>
      (leads_setFramer s r _).trans (leads_post _ _ _ _ _)) fun _ => leads_setFramer s r _

theorem leads_takeHeader (s : State) (r : ReceiverId) (o : OpenSegment) (w : Word)
    (hn : 1 ≤ lv := by omega) : Leads lv ws s (s.takeHeader r o w) := by
  unfold State.takeHeader
  dsimp only
  split
  · exact leads_refuseHeader s r _ _ _
  · exact .ite (fun _ => leads_dispose s r _ _) fun _ => leads_setFramer s r _

theorem leads_overrun (s : State) (r : ReceiverId) (h : SegmentHeader)
    (hn : 1 ≤ lv := by omega) : Leads lv ws s (s.overrun r h) :=
  (((leads_setFramer s r _).trans (leads_postOverrun _ r _)).trans (leads_holdVerdict _ r _)).trans
    (leads_settleVerdict _ r)

/-- A receiver takes one more payload word while a word is free. -/
theorem Receiver.bounded_payload {x : Receiver} {g : BufferedSegment} (w : Word) (e : x.newest = some g)
    (room : x.room ≠ 0) (k : x.Bounded) : (x.setNewest { g with payload := g.payload ++ [w] }).Bounded := by
  refine ⟨k.1, ?_⟩
  have hk := k.2
  have hr := held_replaceNewest (g' := { g with payload := g.payload ++ [w] }) e
  unfold Receiver.room at room
  unfold Receiver.held at room hk ⊢
  simp only [Receiver.setNewest, BufferedSegment.held, List.length_append, List.length_singleton] at hr ⊢
  omega

theorem leads_storePayload (s : State) (r : ReceiverId) (o : OpenSegment) (h : SegmentHeader) (w : Word)
    (hn : 1 ≤ lv := by omega) :
    Leads lv ws s (s.storePayload r o h w) := by
  unfold State.storePayload
  dsimp only
  split
  · exact .refl s
  · next g e =>
    have a : (s.rx r).room ≠ 0 →
        Leads lv ws s (s.setRx r { (s.rx r).setNewest { g with payload := g.payload ++ [w] } with framer := .segment o }) :=
      fun room => .one (.rx s r _ fun k =>
        ⟨(Receiver.bounded_payload w e room k).1, (Receiver.bounded_payload w e room k).2⟩)
    split
    · exact leads_setFramer s r _
    · exact .ite (fun _ => leads_overrun s r h) a
    · exact .ite (fun _ => leads_overrun s r h) a

theorem leads_takeBody (s : State) (r : ReceiverId) (o : OpenSegment) (h : SegmentHeader) (w : Word)
    (hn : 1 ≤ lv := by omega) :
    Leads lv ws s (s.takeBody r o h w) := by
  unfold State.takeBody
  exact .ite (fun _ => .ite (fun _ => leads_storePayload s r _ h w) fun _ => leads_setFramer s r _) fun _ =>
    .ite (fun _ => leads_setFramer s r _) fun _ => leads_framingError s r o _ _

theorem leads_takeWord (s : State) (r : ReceiverId) (o : OpenSegment) (w : Word)
    (hn : 1 ≤ lv := by omega) : Leads lv ws s (s.takeWord r o w) := by
  unfold State.takeWord
  split
  · exact leads_takeBody s r o _ w
  · exact .ite (fun _ => .ite (fun _ => leads_loseHeader s r none) fun _ => leads_setFramer s r _)
      fun _ => leads_takeHeader s r o w

theorem length_appendStamp {l : List Stamp} (t : Stamp) (h : l.length ≤ Config.errorStamps) :
    (appendStamp l t).length ≤ Config.errorStamps := by
  unfold appendStamp
  split
  · simp only [List.length_append, List.length_tail, List.length_singleton]
    have : 1 ≤ Config.errorStamps := by decide
    omega
  · simp only [List.length_append, List.length_singleton]; omega

theorem leads_countError (s : State) (r : ReceiverId) (hn : 1 ≤ lv := by omega) : Leads lv ws s (s.countError r) := by
  have a : Leads lv ws s (s.setRx r { s.rx r with errors := appendStamp (s.rx r).errors s.counter }) :=
    .one (.rx s r _ fun k => ⟨length_appendStamp _ k.1, k.2⟩)
  unfold State.countError
  exact .ite (fun _ => a.trans (leads_leaveUp _ r _)) fun _ => a

theorem leads_postCrcBad (s : State) (r : ReceiverId) (o : OpenSegment) : Leads lv ws s (s.postCrcBad r o) := by
  unfold State.postCrcBad
  split
  · exact .ite (fun _ => leads_post s _ _ _ _) fun _ => .refl s
  · exact .ite (fun _ => leads_post s _ _ _ _) fun _ => .refl s
  · exact .refl s

theorem leads_keepVerdict (s : State) (r : ReceiverId) (o : OpenSegment) (v : Verdict)
    (hn : 1 ≤ lv := by omega) : Leads lv ws s (s.keepVerdict r o v) := by
  unfold State.keepVerdict
  exact .ite (fun _ => (leads_holdVerdict s r v).trans (leads_settleVerdict _ r)) fun _ => .refl s

theorem leads_crcVerdict (s : State) (r : ReceiverId) (o : OpenSegment)
    (hn : 1 ≤ lv := by omega) : Leads lv ws s (s.crcVerdict r o) := by
  have a := (leads_postCrcBad (lv := lv) (ws := ws) s r o).trans (leads_countError _ r)
  unfold State.crcVerdict
  exact .ite (fun _ => a.trans (leads_keepVerdict _ r o _)) fun _ => a

theorem leads_finishSegment (s : State) (r : ReceiverId) (o : OpenSegment)
    (hn : 1 ≤ lv := by omega) : Leads lv ws s (s.finishSegment r o) := by
  have a := leads_setFramer (lv := lv) (ws := ws) s r .idle
  unfold State.finishSegment
  dsimp only
  split
  · exact a
  · exact leads_leaveProbation s r _
  · exact .ite (fun _ => a) fun _ => .ite (fun _ => a.trans (leads_keepVerdict _ r o _)) fun _ =>
      a.trans (leads_crcVerdict _ r o)
  all_goals exact .refl s

theorem leads_start (s : State) (r : ReceiverId) (hn : 1 ≤ lv := by omega) : Leads lv ws s (s.start r) := by
  unfold State.start
  split
  · exact leads_openSegment s r
  · exact leads_openSegment s r
  · exact leads_openSegment s r
  · exact (leads_framingError s r _ _ _).trans (leads_openSegment _ r)

theorem leads_word (s : State) (r : ReceiverId) (w : Word) (hn : 1 ≤ lv := by omega) : Leads lv ws s (s.word r w) := by
  unfold State.word
  split
  · exact leads_strayRun s r
  · exact .refl s
  · exact .refl s
  · exact leads_takeWord s r _ w

theorem leads_brokenWord (s : State) (r : ReceiverId) (hn : 1 ≤ lv := by omega) : Leads lv ws s (s.brokenWord r) := by
  unfold State.brokenWord
  split
  · exact .refl s
  · exact .refl s
  · exact .refl s
  · exact leads_framingError s r _ _ _

theorem leads_ending (s : State) (r : ReceiverId) (hn : 1 ≤ lv := by omega) : Leads lv ws s (s.ending r) := by
  unfold State.ending
  split
  · exact leads_strayRun s r
  · exact .refl s
  · exact leads_setFramer s r _
  · exact .ite (fun _ => leads_finishSegment s r _) fun _ => leads_framingError s r _ _ _

/-! ## Delivery -/

theorem leads_damageFound (s : State) (i : SlotId) (a b : Nat) (f : Nat × WordCondition) (hn : 1 ≤ lv := by omega) :
    Leads lv true s (s.damageFound i a b f) := by
  unfold State.damageFound
  exact .ite (fun _ => .one (.words s _ fun k => PagePool.sound_damage k _ _)) fun _ => .refl s

theorem leads_checked (s : State) (p : PortId) (i : SlotId) (j page : Nat) (c : WordCondition)
    (hn : 1 ≤ lv := by omega) :
    Leads lv ws s (s.checked p i j page c) := by
  have a (x : PageAttribute) : Leads lv ws s (s.setPool (s.pool.setAttribute page x)) :=
    .one (.pool s _ fun k => PagePool.sound_setAttribute k _ _)
  unfold State.checked
  split
  · exact .refl s
  · exact a _
  · exact ((a _).trans (leads_post _ _ _ _ _)).trans (.one (.ctx _ i _))

theorem leads_readFold (p : PortId) (i : SlotId) (l : List Nat) (x : List Word × State) (hn : 1 ≤ lv := by omega) :
    Leads lv ws x.2 (l.foldl (State.readWord p i) x).2 := by
  induction l generalizing x with
  | nil => exact .refl _
  | cons j rest ih => exact (leads_checked x.2 p i j _ _).trans (ih (State.readWord p i x j))

theorem leads_readWords (s : State) (p : PortId) (i : SlotId) (a b : Nat)
    (hn : 1 ≤ lv := by omega) : Leads lv ws s (s.readWords p i a b).2 :=
  leads_readFold p i _ ([], s)

theorem leads_writeRecord (s : State) (p : PortId) (i : SlotId) (n : Slice) (ring : RingParameters)
    (hn : 1 ≤ lv := by omega) :
    Leads lv ws s (s.writeRecord p i n ring) :=
  ((leads_send s p _).trans (.one (.cache _ _))).trans (leads_trigger _ p)

theorem leads_flushingEnd (s : State) (hn : 3 ≤ lv := by omega) : Leads lv ws s s.flushingEnd := by
  unfold State.flushingEnd
  exact .ite (fun _ => leads_changeRun s _) fun _ => .refl s

theorem leads_idleEngine (s : State) (p : PortId) (hn : 1 ≤ lv := by omega) : Leads lv ws s (s.idleEngine p) :=
  (Leads.one (.engine s p _ fun _ => .inl rfl)).trans (.one (.cache _ _))

theorem leads_drainingEnd (s : State) (p : PortId) (hn : 1 ≤ lv := by omega) : Leads lv ws s (s.drainingEnd p) := by
  unfold State.drainingEnd
  exact .ite (fun h => ((Leads.one (.port s p _ fun _ => .inl h.2)).trans (.one (.cache _ _))).trans (leads_send _ p _))
    fun _ => .refl s

theorem leads_endOfDelivery (s : State) (p : PortId) (hn : 3 ≤ lv := by omega) : Leads lv ws s (s.endOfDelivery p) :=
  (((leads_idleEngine s p).trans (leads_walk _)).trans (leads_flushingEnd _)).trans (leads_drainingEnd _ p)

theorem leads_complete (s : State) (p : PortId) (i : SlotId) (n : Slice) (ring : RingParameters)
    (hn : 3 ≤ lv := by omega) :
    Leads lv ws s (s.complete p i n ring) :=
  ((leads_writeRecord s p i n ring).trans (leads_retire _ i)).trans (leads_endOfDelivery _ p)

/-- An engine that is not IDLE goes on to completion credit. -/
theorem leads_proceedToCredit (s : State) (p : PortId) (h : (s.engine p).state ≠ .idle) (hn : 3 ≤ lv := by omega) :
    Leads lv ws s (s.proceedToCredit p) := by
  have a : Leads lv ws s (s.waitCredit p) :=
    (Leads.one (.cache s _)).trans
      (.one (.engine (s.setHold p none) p { s.engine p with state := .waitCredit, bufferFill := 0 } fun k =>
        .inr ⟨(busy_attached (e := s.engine p) h k).1, (busy_attached (e := s.engine p) h k).2⟩))
  unfold State.proceedToCredit
  split
  · exact .ite (fun _ => leads_complete s p _ _ _) fun _ => a
  · exact .refl s

/-- An engine that is not IDLE changes its record, but for its state and its slice. -/
theorem leads_engineKeeps (s : State) (p : PortId) (x : Engine) (hs : x.state = (s.engine p).state)
    (ha : x.assigned = (s.engine p).assigned) (hn : 1 ≤ lv := by omega) : Leads lv ws s (s.setEngine p x) :=
  .one (.engine s p x fun k => by unfold EngineOk at k ⊢; rw [hs, ha]; exact k)

theorem leads_afterWrite (s : State) (p : PortId) (b : CacheEntry) (ring : RingParameters)
    (h : (s.engine p).state ≠ .idle) (hn : 3 ≤ lv := by omega) : Leads lv ws s (s.afterWrite p b ring) := by
  have a := leads_giveBack (lv := lv) (ws := ws) s p
  have c : Leads lv ws s ((s.giveBack p).setEngine p { s.engine p with cut := true }) :=
    a.trans (leads_engineKeeps _ p _ rfl rfl)
  unfold State.afterWrite
  dsimp only
  refine .ite (fun _ => a.trans (leads_proceedToCredit _ p h)) fun _ => .ite (fun _ => ?_) fun _ => .refl s
  refine .ite (fun _ => c.trans (leads_proceedToCredit _ p (by simpa using h))) fun _ =>
    a.trans (leads_takeBuffer _ p (busy_attached h))

/-- What each member of a list leaves alone, the whole list leaves alone. -/
theorem each_keeps {α β : Type} (g : State → β) (xs : List α) (f : α → State → State) (h : ∀ x s, g (f x s) = g s)
    (s : State) : g (s.each xs f) = g s := by
  induction xs generalizing s with
  | nil => rfl
  | cons x rest ih => exact (ih (f x s)).trans (h x s)

theorem trigger_engines (s : State) (p : PortId) : (s.trigger p).engines = s.engines := by
  unfold State.trigger State.sendNotify
  split
  · split <;> rfl
  · rfl

theorem post_engines (s : State) (k : IncidentKind) (c : IncidentSource) (n : Option Slice) (d : Word) :
    (s.post k c n d).engines = s.engines := by
  unfold State.post
  split
  · split
    · exact (each_keeps State.engines _ _ (fun p t => trigger_engines t p) _)
    · rfl
  · rfl

theorem checked_engines (s : State) (p : PortId) (i : SlotId) (j page : Nat) (c : WordCondition) :
    (s.checked p i j page c).engines = s.engines := by
  unfold State.checked
  split
  · rfl
  · rfl
  · exact post_engines _ _ _ _ _

theorem readFold_engines (p : PortId) (i : SlotId) (l : List Nat) (x : List Word × State) :
    (l.foldl (State.readWord p i) x).2.engines = x.2.engines := by
  induction l generalizing x with
  | nil => rfl
  | cons j rest ih => exact (ih (State.readWord p i x j)).trans (checked_engines _ _ _ _ _ _)

theorem damageFound_engines (s : State) (i : SlotId) (a b : Nat) (f : Nat × WordCondition) :
    (s.damageFound i a b f).engines = s.engines := by
  unfold State.damageFound; split <;> rfl

theorem leads_wrote (t : State) (p : PortId) (b : CacheEntry) (ring : RingParameters) (m : List Word) (n : Nat)
    (h : (t.engine p).state = .moving) (hn : 3 ≤ lv := by omega) :
    Leads lv ws t (((t.send p m).setEngine p (((t.send p m).engine p).wrote n)).afterWrite p b ring) := by
  refine ((leads_send t p m).trans (leads_engineKeeps _ p (((t.send p m).engine p).wrote n) rfl rfl)).trans
    (leads_afterWrite _ p b ring ?_)
  rw [State.setEngine_engine_self]
  exact fun k => EngineState.noConfusion (h.symm.trans k)

theorem leads_issueWrite (s : State) (p : PortId) (i : SlotId) (b : CacheEntry) (ring : RingParameters)
    (f : List (Nat × WordCondition)) (h : (s.engine p).state = .moving) (hn : 3 ≤ lv := by omega) : Leads lv true s (s.issueWrite p i b ring f) := by
  have e : ∀ a c, (((s.each f fun f t => t.damageFound i a c f).readWords p i a c).2.engine p).state = .moving := by
    intro a c
    rw [← h]
    unfold State.engine State.readWords
    rw [readFold_engines, each_keeps State.engines _ _ (fun f t => damageFound_engines t i _ _ f)]
  unfold State.issueWrite
  exact ((Leads.each f _ (fun f t => leads_damageFound t i _ _ f) s).trans (leads_readWords _ p i _ _)).trans
    (leads_wrote _ p b ring _ _ (e _ _))

theorem leads_engineWrite (s : State) (p : PortId) (f : List (Nat × WordCondition))
    (hn : 3 ≤ lv := by omega) : Leads lv true s (s.engineWrite p f) := by
  unfold State.engineWrite
  split
  · next h =>
    split
    · exact leads_issueWrite s p _ _ _ f h
    · exact .refl s
  · exact .refl s

theorem leads_returnSlice (s : State) (i : SlotId) (n : Slice)
    (hn : 1 ≤ lv := by omega) : Leads lv ws s (s.returnSlice i n) :=
  (Leads.one (.ctx s i _)).trans (leads_enterReady _ n)

theorem leads_releaseSlice (s : State) (e : Engine) (hn : 3 ≤ lv := by omega) : Leads lv ws s (s.releaseSlice e) := by
  unfold State.releaseSlice
  split
  · exact .refl s
  · split
    · exact leads_returnSlice s _ _
    · exact (leads_retire s _).trans (leads_flushingEnd _)

/-- A busy engine turns to a FLUSHED record and goes on to its credit. -/
theorem leads_turnFlushed (s : State) (p : PortId) (h : (s.engine p).state ≠ .idle) (hn : 3 ≤ lv := by omega) :
    Leads lv ws s ((s.setEngine p { s.engine p with kind := .flushed }).proceedToCredit p) :=
  (leads_engineKeeps s p { s.engine p with kind := .flushed } rfl rfl).trans
    (leads_proceedToCredit (s.setEngine p { s.engine p with kind := .flushed }) p (by simpa using h))

theorem leads_flushEngine (s : State) (p : PortId) (hn : 3 ≤ lv := by omega) : Leads lv ws s (s.flushEngine p) := by
  unfold State.flushEngine
  split
  · exact .refl s
  · next h => exact (leads_giveBack s p).trans (leads_turnFlushed (s.giveBack p) p (fun k => EngineState.noConfusion (h.symm.trans k)))
  · next h => exact leads_turnFlushed s p (fun k => EngineState.noConfusion (h.symm.trans k))
  · next h => exact leads_turnFlushed s p (fun k => EngineState.noConfusion (h.symm.trans k))

/-! ## Ports -/

theorem idleEngine_engine (s : State) (p : PortId) : (s.idleEngine p).engine p = Engine.idle := by
  unfold State.idleEngine; simp [State.setHold]

theorem leads_takeDown (s : State) (p : PortId) (x : Port) (b : Bool)
    (hn : 3 ≤ lv := by omega) : Leads lv ws s (s.takeDown p x b) :=
  (((leads_idleEngine s p).trans
    (.one (.port _ p x fun _ => .inl (by rw [idleEngine_engine]; rfl)))).trans
    (leads_releaseSlice _ _)).trans (.one (.cache _ _))

theorem leads_walkIf (s : State) (b : Bool) (hn : 1 ≤ lv := by omega) : Leads lv ws s (s.walkIf b) := by
  unfold State.walkIf
  exact .ite (fun _ => leads_walk s) fun _ => .refl s

theorem leads_postPortFault (s : State) (p : PortId) (c : FaultCause) (n : Option Slice) :
    Leads lv ws s (s.postPortFault p c n) := leads_post s _ _ _ _

/-- A port that is not attached has an IDLE engine, so its record may change. -/
theorem leads_portDetached (s : State) (p : PortId) (x : Port) (h : ¬(s.port p).state.attached = true) :
    Leads lv ws s (s.setPort p x) := .one (.port s p x fun k => .inl (k.resolve_right fun a => h a.1))

theorem leads_fault (s : State) (p : PortId) (c : FaultCause)
    (hn : 3 ≤ lv := by omega) : Leads lv ws s (s.fault p c) := by
  unfold State.fault
  exact ((Leads.ite (fun _ => leads_takeDown s p _ _) fun h => leads_portDetached s p _ h).trans
    (leads_postPortFault _ p c _)).trans (leads_walkIf _ _)

theorem leads_endTags (s : State) (p : PortId)
    (hn : 1 ≤ lv := by omega) : Leads lv ws s (s.endTags p) := .one (.cache s _)

theorem leads_loseLink (s : State) (p : PortId) (hn : 3 ≤ lv := by omega) : Leads lv ws s (s.loseLink p) := by
  unfold State.loseLink
  exact .ite (fun _ => (((leads_takeDown s p _ _).trans (leads_endTags _ p)).trans
    (leads_postPortFault _ p _ _)).trans (leads_walkIf _ _)) fun h =>
      (leads_portDetached s p _ h).trans (leads_endTags _ p)

theorem leads_setRing (s : State) (p : PortId) (x : Ring)
    (hn : 1 ≤ lv := by omega) : Leads lv ws s (s.setRing p x) := .one (.cache s _)

theorem leads_attachPort (s : State) (p : PortId) (x : RingParameters)
    (hn : 1 ≤ lv := by omega) : Leads lv ws s (s.attachPort p x) := by
  unfold State.attachPort
  exact (((leads_setRing s p _).trans (.one (.port _ p _ fun k => k.imp id fun a => ⟨rfl, a.2⟩))).trans
    (leads_send _ p _)).trans (leads_walk _)

theorem leads_validateAttach (s : State) (p : PortId) (x : RingParameters)
    (hn : 1 ≤ lv := by omega) : Leads lv ws s (s.validateAttach p x) := by
  unfold State.validateAttach
  split
  · exact leads_send s p _
  · exact leads_attachPort s p x

theorem leads_takeAttach (s : State) (p : PortId) (x : RingParameters)
    (hn : 1 ≤ lv := by omega) : Leads lv ws s (s.takeAttach p x) := by
  unfold State.takeAttach
  split
  · exact leads_validateAttach s p x
  · exact leads_validateAttach s p x
  · exact leads_send s p _
  · exact leads_send s p _
  · exact .refl s

theorem leads_takeDetach (s : State) (p : PortId) (hn : 1 ≤ lv := by omega) : Leads lv ws s (s.takeDetach p) := by
  unfold State.takeDetach
  split
  · exact ((Leads.one (.port s p { s.port p with state := .draining } fun k => k.imp id fun a => ⟨rfl, a.2⟩)).trans
      (leads_walk _)).trans (leads_drainingEnd _ p)
  · exact leads_send s p _
  all_goals exact .refl s

theorem leads_wakeCredit (s : State) (p : PortId) (hn : 3 ≤ lv := by omega) : Leads lv ws s (s.wakeCredit p) := by
  unfold State.wakeCredit
  exact .ite (fun h => leads_proceedToCredit s p (fun k => EngineState.noConfusion (h.symm.trans k))) fun _ => .refl s

theorem leads_checkAnnounce (s : State) (p : PortId) (a b : Count)
    (hn : 3 ≤ lv := by omega) : Leads lv ws s (s.checkAnnounce p a b) := by
  unfold State.checkAnnounce
  split
  · exact .refl s
  · exact .ite (fun _ => (leads_setRing s p _).trans (leads_wakeCredit _ p)) fun _ => leads_fault s p _

theorem leads_takeAnnounce (s : State) (p : PortId) (a b : Count)
    (hn : 3 ≤ lv := by omega) : Leads lv ws s (s.takeAnnounce p a b) := by
  unfold State.takeAnnounce
  exact .ite (fun _ => leads_checkAnnounce s p a b) fun _ => .refl s

theorem leads_takeReturn (s : State) (p : PortId) (t : Fin 4) (f : Fetch) (k : Nat) (d : List Word)
    (hn : 3 ≤ lv := by omega) :
    Leads lv ws s (s.takeReturn p t f k d) := by
  have a (x : Cache) : Leads lv ws s (s.setCache x) := .one (.cache s x)
  unfold State.takeReturn
  exact .ite (fun _ => (a _).trans (leads_fault _ p _)) fun _ => .ite (fun _ => (a _).trans (leads_wake _ p)) fun _ => a _

theorem leads_answerRead (s : State) (p : PortId) (t : Fin 4) (f : Fetch) (d : List Word) (hn : 3 ≤ lv := by omega) :
    Leads lv ws s (s.answerRead p t f d) := by
  unfold State.answerRead
  split
  · exact .refl s
  · exact .ite (fun _ => leads_takeReturn s p t f _ d) fun _ => leads_fault s p _

theorem leads_unknownTag (s : State) (p : PortId) (hn : 3 ≤ lv := by omega) : Leads lv ws s (s.unknownTag p) := by
  unfold State.unknownTag
  exact .ite (fun _ => leads_fault s p _) fun _ => .refl s

theorem leads_endTag (s : State) (p : PortId) (t : Fin 4)
    (hn : 1 ≤ lv := by omega) : Leads lv ws s (s.endTag p t) := .one (.cache s _)

theorem leads_takeReadData (s : State) (p : PortId) (t : BitVec 8) (d : List Word)
    (hn : 3 ≤ lv := by omega) : Leads lv ws s (s.takeReadData p t d) := by
  unfold State.takeReadData
  refine .ite (fun _ => ?_) fun _ => .refl s
  split
  · exact leads_answerRead s p _ _ d
  · exact leads_endTag s p _
  · exact leads_unknownTag s p

theorem leads_takeReadError (s : State) (p : PortId) (t : BitVec 8)
    (hn : 3 ≤ lv := by omega) : Leads lv ws s (s.takeReadError p t) := by
  unfold State.takeReadError
  refine .ite (fun _ => ?_) fun _ => .refl s
  split
  · exact leads_fault s p _
  · exact leads_endTag s p _
  · exact leads_unknownTag s p

theorem leads_takeMalformed (s : State) (p : PortId) (m : List Word) (hn : 3 ≤ lv := by omega) :
    Leads lv ws s (s.takeMalformed p m) := by
  unfold State.takeMalformed
  split
  · exact .refl s
  all_goals
    split
    · exact leads_endTag s p _
    · first | exact leads_fault s p _ | exact .refl s

/-! ## Items -/

theorem leads_readItem (s : State) (p : PortId) (n : ItemName) : Leads lv ws s (s.readItem p n) :=
  (Leads.portSame s p { s.port p with reservation := some (n, s.generation n), staging := noStaging, cursor := some n }
    rfl).trans (leads_send _ p _)

theorem leads_takeItemRead (s : State) (p : PortId) (n : Option ItemName) : Leads lv ws s (s.takeItemRead p n) := by
  unfold State.takeItemRead
  split
  · exact leads_readItem s p _
  · exact leads_send s p _

theorem leads_takeReadNext (s : State) (p : PortId) : Leads lv ws s (s.takeReadNext p) := by
  unfold State.takeReadNext
  split
  · exact leads_readItem s p _
  · exact leads_send s p _

theorem leads_stage (s : State) (p : PortId) (i : Fin 8) (x : Word) : Leads lv ws s (s.stage p i x) :=
  .portSame s p { s.port p with staging := (s.port p).staging.set i (some x) } rfl

theorem leads_takeStage (s : State) (p : PortId) (i : BitVec 8) (x : Word) : Leads lv ws s (s.takeStage p i x) := by
  unfold State.takeStage
  split
  · exact (leads_stage s p _ x).trans (leads_send _ p _)
  · exact leads_send s p _

theorem leads_endAttempt (s : State) (p : PortId) : Leads lv ws s (s.endAttempt p) :=
  .portSame s p { s.port p with reservation := none, staging := noStaging } rfl

theorem leads_evaluate (s : State) (hn : 1 ≤ lv := by omega) :
    Leads lv ws s s.evaluate := .one (.pages s s.pool fun k => k)

/-- A commit that passes installs its item, replies and causes what follows. -/
theorem leads_installItem (s : State) (p : PortId) (n : ItemName) (words : Vector Word 8) (hr : n ≠ .run)
    (hk : n.kind ≠ .readOnly) (hc : (s.items.checks n words).all id = true) (hn : 4 ≤ lv := by omega) : Leads lv ws s (s.installItem p n words) := by
  have v : s.items.Valid →
      (s.items.put n { generation := s.generation n + 1, words := n.installed words }).Valid :=
    Items.valid_put _ _ hr hk hc
  by_cases e : n = .pressure
  · subst e
    exact .one (.pressureItem s _ p _ v)
  · have a : ∀ m, Leads lv ws s ((s.install n words).send p m) := fun m =>
      (Leads.one (.items s _ (Items.put_pressure _ _ e) v)).trans (leads_send _ p m)
    unfold State.installItem State.installEffect
    dsimp only
    split
    · exact absurd rfl e
    · exact (a _).trans (leads_walk _)
    · exact (a _).trans (leads_elapseWaits _)
    · exact (a _).trans (.one (.cache _ _))
    all_goals exact a _

theorem leads_startRun (s : State) (n : Slice) (hn : 4 ≤ lv := by omega) : Leads lv ws s (s.startRun n) := by
  unfold State.startRun
  exact ((((Leads.one (.run s _)).trans (.one (.frontier _ _))).trans (.one (.newestOpened _ _))).trans
    (.one (.newestStrobe _ _))).trans (leads_presentStalled _)

theorem leads_stopRun (s : State) (hn : 3 ≤ lv := by omega) :
    Leads lv ws s s.stopRun := (leads_changeRun s _).trans (leads_drainReport _)

theorem leads_flushReceiver (s : State) (r : ReceiverId)
    (hn : 1 ≤ lv := by omega) : Leads lv ws s (s.flushReceiver r) :=
  (leads_abandonRecord s r).trans (leads_setCurrent _ r _)

theorem leads_flushSlot (s : State) (i : SlotId) (hn : 1 ≤ lv := by omega) : Leads lv ws s (s.flushSlot i) := by
  unfold State.flushSlot
  exact .ite (fun _ => (leads_freeSlice s i).trans (.one (.ctx _ i _))) fun _ => .refl s

theorem leads_flushSlices (s : State) (hn : 3 ≤ lv := by omega) : Leads lv ws s s.flushSlices := by
  unfold State.flushSlices
  exact (((Leads.each _ _ (fun r t => leads_flushReceiver t r) s).trans
    (.each _ _ (fun i t => leads_flushSlot t i) _)).trans (leads_frontierAdvance _)).trans (leads_presentStalled _)

theorem leads_flushRun (s : State) (hn : 3 ≤ lv := by omega) : Leads lv ws s s.flushRun := by
  unfold State.flushRun State.enterFlushing
  exact .ite (fun _ => .refl s) fun _ => ((((Leads.one (.run s _)).trans (.one (.ready _ _))).trans
    (leads_flushSlices _)).trans (.each _ _ (fun p t => leads_flushEngine t p) _)).trans (leads_flushingEnd _)

theorem leads_carryOut (s : State) (c : RunCommand) (n : Slice)
    (hn : 4 ≤ lv := by omega) : Leads lv ws s (s.carryOut c n) := by
  cases c
  · exact leads_startRun s n
  · exact leads_stopRun s
  · exact leads_flushRun s

theorem leads_installRun (s : State) (p : PortId) (words : Vector Word 8)
    (hn : 4 ≤ lv := by omega) : Leads lv ws s (s.installRun p words) := by
  have a : ∀ m, Leads lv ws s ((s.setItems { s.items with runGeneration := s.items.runGeneration + 1 }).send p m) := fun m =>
    (Leads.one (.items s { s.items with runGeneration := s.items.runGeneration + 1 } rfl
      fun k n => k n)).trans (leads_send _ p m)
  unfold State.installRun
  dsimp only
  split
  · exact (a _).trans (leads_carryOut _ _ _)
  · exact a _

/-- No check fails where no refusal is found. -/
theorem commitRefusal_none {s : State} {p : PortId} {n : ItemName} (h : s.commitRefusal p n = none) :
    n.kind ≠ .readOnly ∧ (s.checks p n (s.judged p n)).all id = true := by
  unfold State.commitRefusal at h
  split at h
  · simp at h
  · next k =>
    split at h
    · simp at h
    · split at h
      · simp at h
      · split at h
        · simp at h
        · next e =>
          refine ⟨k, ?_⟩
          rw [List.findIdx?_eq_none_iff] at e
          rw [List.all_eq_true]
          exact fun x hx => by simpa using e x hx

theorem leads_commitItem (s : State) (p : PortId) (n : ItemName)
    (hn : 4 ≤ lv := by omega) : Leads lv ws s (s.commitItem p n) := by
  have a := leads_endAttempt (lv := lv) (ws := ws) s p
  unfold State.commitItem
  dsimp only
  split
  · exact a.trans (leads_send _ p _)
  · next h =>
    refine .ite (fun _ => a.trans (leads_installRun _ p _)) fun hr => a.trans (leads_installItem _ p n _ hr ?_ ?_)
    · exact (commitRefusal_none h).1
    · have := (commitRefusal_none h).2
      rwa [State.checks, if_neg hr] at this

theorem leads_takeCommit (s : State) (p : PortId) (n : Option ItemName)
    (hn : 4 ≤ lv := by omega) : Leads lv ws s (s.takeCommit p n) := by
  unfold State.takeCommit
  split
  · exact leads_commitItem s p _
  · exact (leads_endAttempt s p).trans (leads_send _ p _)

theorem leads_commitOn (s : State) (p : PortId) (n : Option ItemName)
    (hn : 4 ≤ lv := by omega) : Leads lv ws s (s.commitOn p n) := by
  unfold State.commitOn
  exact .ite (fun _ => (leads_takeCommit s p n).trans (leads_settleCache _)) fun _ => .refl s

theorem leads_commitRun (s : State) (p : PortId) (c : RunCommand)
    (hn : 4 ≤ lv := by omega) : Leads lv ws s (s.commitRun p c) := by
  unfold State.commitRun
  exact .ite (fun _ => leads_commitOn s p _) fun _ => .refl s

/-! ## Time -/

theorem leads_expireSlot (s : State) (i : SlotId) (hn : 1 ≤ lv := by omega) : Leads lv ws s (s.expireSlot i) := by
  unfold State.expireSlot
  exact .ite (fun _ => leads_closeContext s i _) fun _ => .refl s

theorem leads_expireFirst (s : State) (hn : 1 ≤ lv := by omega) : Leads lv ws s s.expireFirst := by
  unfold State.expireFirst
  split
  · exact leads_expireSlot s _
  · exact .refl s

theorem leads_endQuietPeriod (s : State) (p : PortId) : Leads lv ws s (s.endQuietPeriod p) := by
  unfold State.endQuietPeriod
  dsimp only
  exact .ite (fun _ => .ite (fun _ => leads_sendNotify s p) fun _ =>
    .portSame s p { s.port p with quietUntil := none } rfl) fun _ => .refl s

theorem leads_takeDue (s : State) (hn : 1 ≤ lv := by omega) : Leads lv ws s s.takeDue := by
  unfold State.takeDue
  exact (((Leads.each _ _ (fun i t => leads_expireSlot t i) s).trans
    (.each _ _ (fun r t => (leads_expireProbation t r).trans (leads_expireBar _ r)) _)).trans (leads_elapseWaits _)).trans
    (.each _ _ (fun p t => leads_endQuietPeriod t p) _)

theorem leads_tick (s : State) (hn : 5 ≤ lv := by omega) : Leads lv ws s s.tick := by
  have a : Leads lv ws s (s.setTime (s.counter + 1) (s.items.slot.value 0)).decideHold := .one (.time s _ _)
  unfold State.tick
  exact .ite (fun _ => a) fun _ => a.trans (.one (.deadlines _))

/-! ## The commands -/

theorem leads_setSignal (s : State) (r : ReceiverId) (x : Bool)
    (hn : 1 ≤ lv := by omega) : Leads lv ws s (s.setSignal r x) := .one (.rx s r _ fun k => k)

/-- How far a command reaches (`Prim`). -/
def reach : Instr → Nat
  | .idle _ | .portLinkUp _ | .itemRead _ _ _ | .itemReadNext _ | .itemStage _ _ _ | .incidentTake _
  | .quietPeriodEnd _ => 0
  | .signalPresent _ | .signalAbsent _ | .alignmentFound _ | .alignmentLost _ | .startSymbol _ | .dataWord _ _
  | .brokenWord _ | .endSymbol _ | .probationExpiry _ | .barExpiry _ | .storeBurst | .deadlineExpiry
  | .dispatchWaitElapse | .attach _ _ _ _ _ | .detach _ => 1
  | .placement _ => 2
  | .write _ _ | .portLinkDown _ | .announce _ _ _ | .readData _ _ _ | .readDataError _ _ _ | .malformedMessage _ _ => 3
  | .sliceStart _ | .itemCommit _ _ _ | .start _ | .stop _ | .flush _ | .pressureCommit _ | .steerCommit _ _
  | .dispatchCommit _ | .cacheCommit _ | .linkmapCommit _ _ | .slotCommit _ | .outputsCommit _ => 4
  | .slotAdvance => 5
  | .deviceReset => 6

/-- Whether a command may touch the words of the store or the write port's pointer (`Prim`). -/
def writesStore : Instr → Bool
  | .storeBurst | .write _ _ => true
  | _ => false

/-- Every command's next state is reached by a chain of updates of the command's reach. -/
theorem exec_leads {c : Instr} {s t : State} (h : exec c s = .next t) : Leads (reach c) (writesStore c) s t := by
  cases c <;> simp only [exec, reach, writesStore] at h ⊢
  case deviceReset => exact .one (.reset s t h)
  case signalPresent r =>
    unfold execSignalPresent at h
    dsimp only at h
    split at h <;> simp only [Host.Outcome.next.injEq] at h <;> subst h
    · exact (leads_setSignal s r _).trans (leads_setLink _ r _)
    all_goals exact leads_setSignal s r _
  case signalAbsent r =>
    unfold execSignalAbsent at h
    dsimp only at h
    split at h <;> simp only [Host.Outcome.next.injEq] at h <;> subst h
    · exact (leads_setSignal s r _).trans (leads_setLink _ r _)
    · exact (leads_setSignal s r _).trans (leads_leaveProbation _ r _)
    · exact ((leads_setSignal s r _).trans (leads_leaveUp _ r _)).trans (leads_settleCache _)
    all_goals exact leads_setSignal s r _
  case alignmentFound r =>
    unfold execAlignmentFound at h
    split at h <;> simp only [Host.Outcome.next.injEq] at h <;> subst h
    · exact leads_enterProbation s r
    all_goals exact .refl s
  case alignmentLost r =>
    unfold execAlignmentLost at h
    split at h <;> simp only [Host.Outcome.next.injEq] at h <;> subst h
    · exact leads_leaveProbation s r _
    · exact (leads_leaveUp s r _).trans (leads_settleCache _)
    all_goals exact .refl s
  case startSymbol r =>
    unfold execStartSymbol at h
    split at h <;> simp only [Host.Outcome.next.injEq] at h <;> subst h
    · exact (leads_start s r).trans (leads_settleCache _)
    · exact .refl s
  case dataWord r w =>
    unfold execDataWord at h
    split at h <;> simp only [Host.Outcome.next.injEq] at h <;> subst h
    · exact (leads_word s r w).trans (leads_settleCache _)
    · exact .refl s
  case brokenWord r =>
    unfold execBrokenWord at h
    split at h <;> simp only [Host.Outcome.next.injEq] at h <;> subst h
    · exact (leads_brokenWord s r).trans (leads_settleCache _)
    · exact .refl s
  case idle r =>
    unfold execIdle at h
    simp only [Host.Outcome.next.injEq] at h
    subst h
    exact .refl s
  case endSymbol r =>
    unfold execEndSymbol at h
    split at h <;> simp only [Host.Outcome.next.injEq] at h <;> subst h
    · exact (leads_ending s r).trans (leads_settleCache _)
    · exact .refl s
  case probationExpiry r =>
    unfold execProbationExpiry at h
    simp only [Host.Outcome.next.injEq] at h
    subst h
    exact leads_expireProbation s r
  case barExpiry r =>
    unfold execBarExpiry at h
    simp only [Host.Outcome.next.injEq] at h
    subst h
    exact leads_expireBar s r
  case sliceStart n =>
    unfold execSliceStart at h
    split at h
    · split at h <;> simp only [Host.Outcome.next.injEq] at h <;> subst h
      · exact ((Leads.one (.newestStrobe s n)).trans (leads_openToward _ n)).trans (leads_settleCache _)
      · exact leads_post s _ _ _ _
    all_goals (simp only [Host.Outcome.next.injEq] at h; subst h; exact .refl s)
  case placement r =>
    unfold execPlacement at h
    split at h <;> simp only [Host.Outcome.next.injEq] at h <;> subst h
    · exact .refl s
    · exact (leads_present s r).trans (leads_settleCache _)
  case storeBurst =>
    unfold execStoreBurst at h
    simp only [Host.Outcome.next.injEq] at h
    subst h
    exact (leads_grantPort _ s).trans (leads_settleCache _)
  case slotAdvance =>
    unfold execSlotAdvance at h
    simp only [Host.Outcome.next.injEq] at h
    subst h
    exact ((leads_takeDue s).trans (leads_settleCache _)).trans (leads_tick _)
  case deadlineExpiry =>
    unfold execDeadlineExpiry at h
    simp only [Host.Outcome.next.injEq] at h
    subst h
    exact (leads_expireFirst s).trans (leads_settleCache _)
  case dispatchWaitElapse =>
    unfold execDispatchWaitElapse at h
    simp only [Host.Outcome.next.injEq] at h
    subst h
    exact (leads_elapseWaits s).trans (leads_settleCache _)
  case quietPeriodEnd p =>
    unfold execQuietPeriodEnd at h
    simp only [Host.Outcome.next.injEq] at h
    subst h
    exact leads_endQuietPeriod s p
  case write p f =>
    unfold execWrite at h
    simp only [Host.Outcome.next.injEq] at h
    subst h
    exact (leads_engineWrite s p f).trans (leads_settleCache _)
  case portLinkUp p =>
    unfold execPortLinkUp at h
    split at h <;> simp only [Host.Outcome.next.injEq] at h <;> subst h
    · next e => exact leads_portDetached s p _ (by rw [e]; decide)
    all_goals exact .refl s
  case portLinkDown p =>
    unfold execPortLinkDown at h
    split at h <;> simp only [Host.Outcome.next.injEq] at h <;> subst h
    · exact .refl s
    all_goals exact (leads_loseLink s p).trans (leads_settleCache _)
  case attach p a k b m =>
    unfold execAttach at h
    simp only [Host.Outcome.next.injEq] at h
    subst h
    exact (leads_takeAttach s p _).trans (leads_settleCache _)
  case detach p =>
    unfold execDetach at h
    simp only [Host.Outcome.next.injEq] at h
    subst h
    exact (leads_takeDetach s p).trans (leads_settleCache _)
  case announce p a b =>
    unfold execAnnounce at h
    simp only [Host.Outcome.next.injEq] at h
    subst h
    exact (leads_takeAnnounce s p a b).trans (leads_settleCache _)
  case readData p t d =>
    unfold execReadData at h
    simp only [Host.Outcome.next.injEq] at h
    subst h
    exact (leads_takeReadData s p t d).trans (leads_settleCache _)
  case readDataError p t w =>
    unfold execReadDataError at h
    simp only [Host.Outcome.next.injEq] at h
    subst h
    exact (leads_takeReadError s p t).trans (leads_settleCache _)
  case malformedMessage p m =>
    unfold execMalformedMessage at h
    split at h <;> simp only [Host.Outcome.next.injEq] at h <;> subst h
    · exact (leads_takeMalformed s p m).trans (leads_settleCache _)
    · exact .refl s
  case itemRead p a b =>
    unfold execItemRead at h
    split at h <;> simp only [Host.Outcome.next.injEq] at h <;> subst h
    · exact leads_takeItemRead s p _
    · exact .refl s
  case itemReadNext p =>
    unfold execItemReadNext at h
    split at h <;> simp only [Host.Outcome.next.injEq] at h <;> subst h
    · exact leads_takeReadNext s p
    · exact .refl s
  case itemStage p i w =>
    unfold execItemStage at h
    split at h <;> simp only [Host.Outcome.next.injEq] at h <;> subst h
    · exact leads_takeStage s p i w
    · exact .refl s
  case incidentTake p =>
    unfold execIncidentTake at h
    split at h
    · split at h <;> simp only [Host.Outcome.next.injEq] at h <;> subst h
      · exact leads_send s p _
      · next e =>
        exact (Leads.one (.incidents s _ fun k => by rw [e, List.length_cons] at k; omega)).trans (leads_send _ p _)
    · simp only [Host.Outcome.next.injEq] at h
      subst h
      exact .refl s
  case start p => cases h; exact leads_commitRun s p _
  case stop p => cases h; exact leads_commitRun s p _
  case flush p => cases h; exact leads_commitRun s p _
  case itemCommit p a b => cases h; exact leads_commitOn s p _
  case pressureCommit p => cases h; exact leads_commitOn s p _
  case steerCommit p i => cases h; exact leads_commitOn s p _
  case dispatchCommit p => cases h; exact leads_commitOn s p _
  case cacheCommit p => cases h; exact leads_commitOn s p _
  case linkmapCommit p r => cases h; exact leads_commitOn s p _
  case slotCommit p => cases h; exact leads_commitOn s p _
  case outputsCommit p => cases h; exact leads_commitOn s p _

end Sys2Proof.Machine
end

