-- ==== Sys2Proof/Laws/Keeps.lean ====
section
/-! SUPPORT. What every update of `Prim` keeps: the invariants of Safety.lean, and the fields its reach does not
    touch. -/

namespace Sys2Proof.Machine

/-- A trigger changes nothing but a port record and the messages sent. -/
theorem trigger_keeps {α : Type} (g : State → α) (hs : ∀ s p x, g (s.setSent p x) = g s) (hp : ∀ s p x, g (s.setPort p
    x) = g s)
    (s : State) (p : PortId) : g (s.trigger p) = g s := by
  unfold State.trigger State.sendNotify State.send
  split
  · split
    · exact hp _ _ _
    · rw [hp, hs]
  · rfl

/-- A post changes nothing but the incidents, port records and the messages sent. -/
theorem post_keeps {α : Type} (g : State → α) (hs : ∀ s p x, g (s.setSent p x) = g s)
    (hp : ∀ s p x, g (s.setPort p x) = g s) (hi : ∀ s x, g (s.setIncidents x) = g s)
    (s : State) (k : IncidentKind) (c : IncidentSource) (n : Option Slice) (d : Word) : g (s.post k c n d) = g s := by
  unfold State.post
  split
  · split
    · rw [each_keeps g _ _ fun p t => trigger_keeps g hs hp t p]; exact hi _ _
    · exact hi _ _
  · exact hi _ _

/-- An evaluation changes nothing but the pressure level and what a post changes. -/
theorem evaluate_keeps {α : Type} (g : State → α) (hs : ∀ s p x, g (s.setSent p x) = g s)
    (hp : ∀ s p x, g (s.setPort p x) = g s) (hi : ∀ s x, g (s.setIncidents x) = g s)
    (hq : ∀ s x, g (s.setPressure x) = g s) (s : State) : g s.evaluate = g s := by
  unfold State.evaluate
  split
  · rw [post_keeps g hs hp hi]; exact hq _ _
  · exact hq _ _

/-- The pressure state after an evaluation. -/
theorem evaluate_pressure (s : State) : s.evaluate.pressure = { s.pressure with level := s.evaluated } := by
  unfold State.evaluate
  split
  · rw [post_keeps State.pressure (fun _ _ _ => rfl) (fun _ _ _ => rfl) (fun _ _ => rfl)]; rfl
  · rfl

/-- A post keeps the bound of the incident queue (R185). -/
theorem post_incidents (s : State) (k : IncidentKind) (c : IncidentSource) (n : Option Slice) (d : Word)
    (h : s.incidents.length ≤ Config.incidentRecords) : (s.post k c n d).incidents.length ≤ Config.incidentRecords := by
  unfold State.post
  split
  · next l =>
    have : (s.incidents ++ [{ kind := k, source := c, slice := n, detail := d, stamp := s.counter, overflow :=
        false : Incident }]).length ≤ Config.incidentRecords := by
      simp; omega
    split
    · rw [each_keeps State.incidents _ _ fun p t => trigger_keeps State.incidents (fun _ _ _ => rfl) (fun _ _ _ =>
        rfl) t p]
      exact this
    · exact this
  · simp [length_markNewest]; exact h

/-- The bounds are read from three fields. -/
theorem bounded_congr {s t : State} (hr : t.receivers = s.receivers) (hp : t.pool = s.pool)
    (hi : t.incidents = s.incidents)
    (h : s.Bounded) : t.Bounded := by
  unfold State.Bounded State.rx at *
  rw [hr, hp, hi]; exact h

/-- The state of an engine against its port is read from two fields. -/
theorem engines_congr {s t : State} (he : t.engines = s.engines) (hp : t.ports = s.ports) {k : PortId}
    (h : EngineOk (s.engine k) (s.port k)) : EngineOk (t.engine k) (t.port k) := by
  unfold State.engine State.port at *
  rw [he, hp]; exact h

/-- The pressure relation is read from four fields. -/
theorem pressure_congr {s t : State} (hi : t.items.pressure = s.items.pressure) (ho : t.pool.occupancy =
    s.pool.occupancy)
    (hp : t.pressure = s.pressure) (hc : t.counter = s.counter)
        (h : s.LevelTrue ∧ s.HoldTrue) : t.LevelTrue ∧ t.HoldTrue := by
  unfold State.LevelTrue State.HoldTrue State.threshold State.margin at *
  rw [hi, ho, hp, hc]; exact h

/-- Every update keeps the bounds. -/
theorem prim_bounded (s t : State) {k : Nat} {b : Bool} (p : Prim k b s t) (h : s.Bounded) : t.Bounded := by
  obtain ⟨h1, h2, h3⟩ := h
  cases p with
  | rx _ r x hx =>
    refine ⟨fun k => ?_, h2, h3⟩
    rw [State.setRx_rx]; split
    · next e => subst e; exact hx (h1 _)
    · exact h1 k
  | pool _ x hx => exact ⟨h1, hx h2, h3⟩
  | words _ x hx => exact ⟨h1, hx h2, h3⟩
  | pages _ x hx =>
    refine ⟨fun k => ?_, ?_, ?_⟩
    · rw [evaluate_keeps (fun s => s.rx k) (fun _ _ _ => rfl) (fun _ _ _ => rfl) (fun _ _ => rfl) (fun _ _ => rfl)]
      exact h1 k
    · rw [evaluate_keeps State.pool (fun _ _ _ => rfl) (fun _ _ _ => rfl) (fun _ _ => rfl) (fun _ _ => rfl)]
      exact hx h2
    · unfold State.evaluate; split
      · exact post_incidents _ _ _ _ _ h3
      · exact h3
  | pressureItem _ x p l hx =>
    refine ⟨fun k => ?_, ?_, ?_⟩
    · rw [evaluate_keeps (fun s => s.rx k) (fun _ _ _ => rfl) (fun _ _ _ => rfl) (fun _ _ => rfl) (fun _ _ => rfl)]
      exact h1 k
    · rw [evaluate_keeps State.pool (fun _ _ _ => rfl) (fun _ _ _ => rfl) (fun _ _ => rfl) (fun _ _ => rfl)]
      exact h2
    · unfold State.evaluate; split
      · exact post_incidents _ _ _ _ _ h3
      · exact h3
  | incidents _ x hx => exact ⟨h1, h2, hx h3⟩
  | reset _ _ hr =>
    unfold execDeviceReset at hr
    cases hr
    refine ⟨fun k => ?_, ⟨⟨h2.1.1, h2.1.2.1, rfl, rfl⟩, by simp [PagePool.reset]⟩, by simp [State.reset]⟩
    simp [State.rx, State.reset, Receiver.reset, Receiver.Bounded, Receiver.held]
  | deadlines => exact bounded_congr (by simp) (by simp) (by simp) ⟨h1, h2, h3⟩
  | _ => exact bounded_congr rfl rfl rfl ⟨h1, h2, h3⟩

/-- Every update keeps engines at work attached. -/
theorem prim_engines (s t : State) {m : Nat} {b : Bool} (p : Prim m b s t)
    (h : s.EnginesAttached) : t.EnginesAttached := by
  intro k
  have hk := h k
  have ev : ∀ u : State, EngineOk (u.engine k) (u.port k) → EngineOk (u.evaluate.engine k) (u.evaluate.port k) := by
    intro u hu
    have e1 : u.evaluate.engine k = u.engine k :=
        evaluate_keeps (fun s => s.engine k) (fun _ _ _ => rfl) (fun _ _ _ => rfl) (fun _ _ => rfl) (fun _ _ => rfl) u
    rw [e1]
    have : ∀ (p : PortId) (u : State), (((u.trigger p).port k).state) = (u.port k).state := by
      intro p u
      unfold State.trigger State.sendNotify
      split
      · split <;> (rw [State.setPort_port]; split <;> simp_all [State.send])
      · rfl
    have e2 : (u.evaluate.port k).state = (u.port k).state := by
      have po : ∀ (u : State) a b c d, ((u.post a b c d).port k).state = (u.port k).state := by
        intro u a b c d
        unfold State.post
        split
        · split
          · rw [each_keeps (fun s => (s.port k).state) _ _ fun p t => this p t]; rfl
          · rfl
        · rfl
      unfold State.evaluate
      split
      · rw [po]; rfl
      · rfl
    unfold EngineOk at hu ⊢
    rw [e2]; exact hu
  cases p with
  | engine _ p x hx =>
    rw [State.setEngine_engine]; split
    · next e => subst e; exact hx hk
    · exact hk
  | port _ p x hx =>
    rw [State.setPort_port]; split
    · next e => subst e; exact hx hk
    · exact hk
  | pages _ x hx => exact ev _ hk
  | pressureItem _ x p l hx => exact ev _ hk
  | reset _ _ hr =>
    unfold execDeviceReset at hr
    cases hr
    exact .inl (by simp [State.engine, State.reset, Engine.idle])
  | deadlines => exact engines_congr (by simp) (by simp) hk
  | _ => exact engines_congr rfl rfl hk

theorem evaluate_items (s : State) : s.evaluate.items = s.items :=
    evaluate_keeps State.items (fun _ _ _ => rfl) (fun _ _ _ => rfl) (fun _ _ => rfl) (fun _ _ => rfl) s
theorem evaluate_pool (s : State) : s.evaluate.pool = s.pool :=
    evaluate_keeps State.pool (fun _ _ _ => rfl) (fun _ _ _ => rfl) (fun _ _ => rfl) (fun _ _ => rfl) s
theorem evaluate_counter (s : State) : s.evaluate.counter = s.counter :=
    evaluate_keeps State.counter (fun _ _ _ => rfl) (fun _ _ _ => rfl) (fun _ _ => rfl) (fun _ _ => rfl) s

/-- The default items pass their checks (R166). -/
theorem items_reset_valid : Items.reset.Valid := by
  intro n
  unfold Items.ItemValid
  cases n
  case linkmap r => revert r; decide +kernel
  case steer r => revert r; decide +kernel
  case portcfg r => revert r; decide +kernel
  all_goals rfl

/-- Every update keeps the installed items valid. -/
theorem prim_valid (s t : State) {k : Nat} {b : Bool} (p : Prim k b s t) (h : s.items.Valid) : t.items.Valid := by
  cases p with
  | items _ x _ hx => exact hx h
  | pages _ x hx => rw [evaluate_items]; exact h
  | pressureItem _ x p l hx => rw [evaluate_items]; exact hx h
  | reset _ _ hr => unfold execDeviceReset at hr; cases hr; exact items_reset_valid
  | sent | port | cache | engine | ready | ctx | newestStrobe | newestOpened | frontier | pool | words | lastServed |
      rx | run | incidents | time => exact h
  | deadlines => rw [State.countDeadlines_items]; exact h

/-- The relations and ranges of the pressure settings that the invariants rest on (R80). -/
structure PSound (s : State) : Prop where
  t1 : s.threshold 1 < s.threshold 2
  t2 : s.threshold 2 < s.threshold 3
  h1 : 1 ≤ s.margin
  h2 : s.margin < s.threshold 1
  n1 : s.holdShare 1 ≤ 14
  n2 : s.holdShare 2 ≤ 14
  n3 : s.holdShare 3 ≤ 14

/-- Valid items hold sound pressure settings (R80). -/
theorem psound {s : State} (h : s.items.Valid) : PSound s := by
  have k : ∀ w : Fin 8 → Nat, (pressureChecks w).all id = true →
      w 0 < w 1 ∧ w 1 < w 2 ∧ 1 ≤ w 3 ∧ w 3 < w 0 ∧ w 4 ≤ 14 ∧ w 5 ≤ 14 ∧ w 6 ≤ 14 := by
    intro w hw
    simp [pressureChecks, inRange] at hw
    omega
  have t := k (fun i => s.items.pressure.value i) (h .pressure)
  exact ⟨t.1, t.2.1, t.2.2.1, t.2.2.2.1, t.2.2.2.2.1, t.2.2.2.2.2.1, t.2.2.2.2.2.2⟩

/-- After an evaluation the level stands to occupancy as R76 says. -/
theorem levelTrue_evaluate {s : State} (h : s.items.Valid) : s.evaluate.LevelTrue := by
  have k := psound h
  obtain ⟨t1, t2, h1, h2, -, -, -⟩ := k
  have et : ∀ k, s.evaluate.threshold k = s.threshold k := by
    intro k; unfold State.threshold; rw [evaluate_items]
  have em : s.evaluate.margin = s.margin := by unfold State.margin; rw [evaluate_items]
  have eo : s.evaluate.pool.occupancy = s.pool.occupancy := by rw [evaluate_pool]
  unfold State.LevelTrue
  rw [evaluate_pressure, em, eo]
  simp only [et]
  unfold State.evaluated State.risen State.fallenFrom State.below
  generalize s.pressure.level = j
  generalize s.pool.occupancy = o at *
  generalize s.threshold 1 = a1 at *
  generalize s.threshold 2 = a2 at *
  generalize s.threshold 3 = a3 at *
  generalize s.margin = m at *
  by_cases c1 : a1 ≤ o <;> by_cases c2 : a2 ≤ o <;> by_cases c3 : a3 ≤ o <;> by_cases d1 : o < a1 - m <;>
    by_cases d2 : o < a2 - m <;> by_cases d3 : o < a3 - m <;> fin_cases j <;> simp [c1, c2, c3, d1, d2, d3] <;> omega

/-- Every update keeps the pressure relation. -/
theorem prim_pressure (s t : State) {k : Nat} {b : Bool} (p : Prim k b s t) (h : s.PressureTrue) : t.PressureTrue := by
  obtain ⟨hv, hl, hh⟩ := h
  refine ⟨prim_valid s t p hv, ?_⟩
  cases p with
  | pool _ x hx ho => exact ⟨by unfold State.LevelTrue at hl ⊢; simp only [State.setPool_pool, ho]; exact hl, hh⟩
  | words _ x hx ho => exact ⟨by unfold State.LevelTrue at hl ⊢; simp only [State.setPool_pool, ho]; exact hl, hh⟩
  | pages _ x hx =>
    refine ⟨levelTrue_evaluate hv, ?_⟩
    unfold State.HoldTrue at hh ⊢
    rw [evaluate_counter, evaluate_pressure]; exact hh
  | pressureItem _ x p l hx =>
    refine ⟨levelTrue_evaluate (hx hv), ?_⟩
    unfold State.HoldTrue at hh ⊢
    rw [evaluate_counter, evaluate_pressure]; exact hh
  | items _ x hp hx =>
    refine ⟨?_, hh⟩
    unfold State.LevelTrue State.threshold State.margin at hl ⊢
    simp only [State.setItems_items, hp]; exact hl
  | time _ a b =>
    refine ⟨hl, rfl, ?_⟩
    obtain ⟨-, -, -, -, n1, n2, n3⟩ := psound hv
    simp only [State.decideHold, State.setPressure_pressure, decide_eq_true_eq]
    intro hx
    have e : ∀ k, ((s.setTime a b).holdShare k) = s.holdShare k := fun _ => rfl
    rw [e] at hx
    have : ∀ k, s.holdShare k ≤ 14 := by intro k; fin_cases k <;> simp_all [State.holdShare]
    exact lt_of_lt_of_le hx (this _)
  | reset _ _ hr =>
    unfold execDeviceReset at hr; cases hr
    refine ⟨?_, rfl, fun h => Bool.noConfusion h⟩
    show (0:Nat) < Items.reset.pressure.value 0
    decide +kernel
  | deadlines => exact pressure_congr (by simp) (by simp) (by simp) (by simp) ⟨hl, hh⟩
  | _ => exact pressure_congr rfl rfl rfl rfl ⟨hl, hh⟩

/-! ## What a command's reach leaves alone -/

/-- What stays as it is from `s` to `t` under updates of reach at most `lv`. -/
structure Unreached (lv : Nat) (ws : Bool) (s t : State) : Prop where
  pending : t.pending = s.pending
  time : lv ≤ 4 → t.counter = s.counter ∧ t.slotLength = s.slotLength ∧ t.pressure.held = s.pressure.held ∧
    t.pressure.heldFor = s.pressure.heldFor
  items : lv ≤ 3 → t.items = s.items ∧ t.newestStrobe = s.newestStrobe
  run : lv ≤ 2 → t.run = s.run ∧ t.frontier = s.frontier
  opened : lv ≤ 1 → t.newestOpened = s.newestOpened
  assembly : lv = 0 → t.receivers = s.receivers ∧ t.pool = s.pool ∧ t.contexts = s.contexts ∧ t.pressure = s.pressure ∧
    t.ready = s.ready ∧ t.engines = s.engines ∧ t.cache = s.cache
  store : ws = false → lv ≤ 5 → t.pool.store = s.pool.store ∧ t.pool.conditions = s.pool.conditions ∧
    t.lastServed = s.lastServed

theorem Unreached.refl (lv : Nat) (ws : Bool) (s : State) : Unreached lv ws s s :=
  ⟨rfl, fun _ => ⟨rfl, rfl, rfl, rfl⟩, fun _ => ⟨rfl, rfl⟩, fun _ => ⟨rfl, rfl⟩, fun _ => rfl,
    fun _ => ⟨rfl, rfl, rfl, rfl, rfl, rfl, rfl⟩, fun _ _ => ⟨rfl, rfl, rfl⟩⟩

theorem Unreached.trans {lv : Nat} {ws : Bool} {s t u : State} (h : Unreached lv ws s t) (k : Unreached lv ws t u) :
    Unreached lv ws s u where
  pending := k.pending.trans h.pending
  time l := ⟨(k.time l).1.trans (h.time l).1, (k.time l).2.1.trans (h.time l).2.1,
    (k.time l).2.2.1.trans (h.time l).2.2.1, (k.time l).2.2.2.trans (h.time l).2.2.2⟩
  items l := ⟨(k.items l).1.trans (h.items l).1, (k.items l).2.trans (h.items l).2⟩
  run l := ⟨(k.run l).1.trans (h.run l).1, (k.run l).2.trans (h.run l).2⟩
  opened l := (k.opened l).trans (h.opened l)
  assembly l := by
    obtain ⟨a1, a2, a3, a4, a5, a6, a7⟩ := h.assembly l
    obtain ⟨b1, b2, b3, b4, b5, b6, b7⟩ := k.assembly l
    exact ⟨b1.trans a1, b2.trans a2, b3.trans a3, b4.trans a4, b5.trans a5, b6.trans a6, b7.trans a7⟩
  store w l := ⟨(k.store w l).1.trans (h.store w l).1, (k.store w l).2.1.trans (h.store w l).2.1,
    (k.store w l).2.2.trans (h.store w l).2.2⟩

/-- An evaluation reaches as far as assembly. -/
theorem evaluate_unreached (s : State) : Unreached 1 false s s.evaluate where
  pending := evaluate_keeps State.pending (fun _ _ _ => rfl) (fun _ _ _ => rfl) (fun _ _ => rfl) (fun _ _ => rfl) s
  time _ := ⟨evaluate_counter s,
    evaluate_keeps State.slotLength (fun _ _ _ => rfl) (fun _ _ _ => rfl) (fun _ _ => rfl) (fun _ _ => rfl) s,
    by rw [evaluate_pressure], by rw [evaluate_pressure]⟩
  items _ := ⟨evaluate_items s,
    evaluate_keeps State.newestStrobe (fun _ _ _ => rfl) (fun _ _ _ => rfl) (fun _ _ => rfl) (fun _ _ => rfl) s⟩
  run _ := ⟨evaluate_keeps State.run (fun _ _ _ => rfl) (fun _ _ _ => rfl) (fun _ _ => rfl) (fun _ _ => rfl) s,
    evaluate_keeps State.frontier (fun _ _ _ => rfl) (fun _ _ _ => rfl) (fun _ _ => rfl) (fun _ _ => rfl) s⟩
  opened _ := evaluate_keeps State.newestOpened (fun _ _ _ => rfl) (fun _ _ _ => rfl) (fun _ _ => rfl) (fun _ _ =>
      rfl) s
  assembly l := absurd l (by decide)
  store _ _ := ⟨by rw [evaluate_pool], by rw [evaluate_pool],
    evaluate_keeps State.lastServed (fun _ _ _ => rfl) (fun _ _ _ => rfl) (fun _ _ => rfl) (fun _ _ => rfl) s⟩

/-- What an update of a given reach leaves alone. -/
theorem prim_unreached {k : Nat} {b : Bool} {s t : State} (p : Prim k b s t) : Unreached k b s t := by
  cases p with
  | pages _ x _ hw =>
    have e := evaluate_unreached (s.setPool x)
    exact ⟨e.pending, fun l => e.time (by omega), fun l => e.items (by omega), fun l => e.run (by omega),
      fun l => e.opened (by omega), fun l => absurd l (by decide),
      fun _ _ => ⟨(e.store rfl (by omega)).1.trans hw.1, (e.store rfl (by omega)).2.1.trans hw.2, (e.store rfl (by
          omega)).2.2⟩⟩
  | pressureItem _ x p l _ =>
    have e := evaluate_unreached ((s.setItems x).setSent p l)
    exact ⟨e.pending, fun l => e.time (by omega), fun l => absurd l (by decide), fun l => absurd l (by decide),
      fun l => absurd l (by decide), fun l => absurd l (by decide), fun _ _ => e.store rfl (by omega)⟩
  | pool _ x _ _ hw =>
    exact ⟨rfl, fun _ => ⟨rfl, rfl, rfl, rfl⟩, fun _ => ⟨rfl, rfl⟩, fun _ => ⟨rfl, rfl⟩, fun _ => rfl,
      fun l => absurd l (by decide), fun _ _ => ⟨hw.1, hw.2, rfl⟩⟩
  | words _ x _ _ =>
    exact ⟨rfl, fun _ => ⟨rfl, rfl, rfl, rfl⟩, fun _ => ⟨rfl, rfl⟩, fun _ => ⟨rfl, rfl⟩, fun _ => rfl,
      fun l => absurd l (by decide), fun l _ => absurd l (by decide)⟩
  | lastServed _ r =>
    exact ⟨rfl, fun _ => ⟨rfl, rfl, rfl, rfl⟩, fun _ => ⟨rfl, rfl⟩, fun _ => ⟨rfl, rfl⟩, fun _ => rfl,
      fun l => absurd l (by decide), fun l _ => absurd l (by decide)⟩
  | frontier _ n =>
    exact ⟨rfl, fun _ => ⟨rfl, rfl, rfl, rfl⟩, fun _ => ⟨rfl, rfl⟩, fun l => absurd l (by decide), fun _ => rfl,
      fun l => absurd l (by decide), fun _ _ => ⟨rfl, rfl, rfl⟩⟩
  | run _ x =>
    exact ⟨rfl, fun _ => ⟨rfl, rfl, rfl, rfl⟩, fun _ => ⟨rfl, rfl⟩, fun l => absurd l (by decide), fun _ => rfl,
      fun l => absurd l (by decide), fun _ _ => ⟨rfl, rfl, rfl⟩⟩
  | newestOpened _ n =>
    exact ⟨rfl, fun _ => ⟨rfl, rfl, rfl, rfl⟩, fun _ => ⟨rfl, rfl⟩, fun _ => ⟨rfl, rfl⟩, fun l => absurd l (by decide),
      fun l => absurd l (by decide), fun _ _ => ⟨rfl, rfl, rfl⟩⟩
  | newestStrobe _ n =>
    exact ⟨rfl, fun _ => ⟨rfl, rfl, rfl, rfl⟩, fun l => absurd l (by decide), fun _ => ⟨rfl, rfl⟩, fun _ => rfl,
      fun l => absurd l (by decide), fun _ _ => ⟨rfl, rfl, rfl⟩⟩
  | items _ x _ _ =>
    exact ⟨rfl, fun _ => ⟨rfl, rfl, rfl, rfl⟩, fun l => absurd l (by decide), fun _ => ⟨rfl, rfl⟩, fun _ => rfl,
      fun l => absurd l (by decide), fun _ _ => ⟨rfl, rfl, rfl⟩⟩
  | time _ a b =>
    exact ⟨rfl, fun l => absurd l (by decide), fun l => absurd l (by decide), fun l => absurd l (by decide),
      fun l => absurd l (by decide), fun l => absurd l (by decide), fun _ _ => ⟨rfl, rfl, rfl⟩⟩
  | deadlines _ =>
    exact ⟨by simp, fun l => absurd l (by decide), fun l => absurd l (by decide), fun l => absurd l (by decide),
      fun l => absurd l (by decide), fun l => absurd l (by decide), fun _ _ => ⟨by simp, by simp, by simp⟩⟩
  | reset _ _ hr =>
    unfold execDeviceReset at hr
    cases hr
    exact ⟨rfl, fun l => absurd l (by decide), fun l => absurd l (by decide), fun l => absurd l (by decide),
      fun l => absurd l (by decide), fun l => absurd l (by decide), fun _ l => absurd l (by decide)⟩
  | sent _ p x =>
    exact ⟨rfl, fun _ => ⟨rfl, rfl, rfl, rfl⟩, fun _ => ⟨rfl, rfl⟩, fun _ => ⟨rfl, rfl⟩, fun _ => rfl,
      fun _ => ⟨rfl, rfl, rfl, rfl, rfl, rfl, rfl⟩, fun _ _ => ⟨rfl, rfl, rfl⟩⟩
  | port _ p x _ =>
    exact ⟨rfl, fun _ => ⟨rfl, rfl, rfl, rfl⟩, fun _ => ⟨rfl, rfl⟩, fun _ => ⟨rfl, rfl⟩, fun _ => rfl,
      fun _ => ⟨rfl, rfl, rfl, rfl, rfl, rfl, rfl⟩, fun _ _ => ⟨rfl, rfl, rfl⟩⟩
  | incidents _ x _ =>
    exact ⟨rfl, fun _ => ⟨rfl, rfl, rfl, rfl⟩, fun _ => ⟨rfl, rfl⟩, fun _ => ⟨rfl, rfl⟩, fun _ => rfl,
      fun _ => ⟨rfl, rfl, rfl, rfl, rfl, rfl, rfl⟩, fun _ _ => ⟨rfl, rfl, rfl⟩⟩
  | _ =>
    exact ⟨rfl, fun _ => ⟨rfl, rfl, rfl, rfl⟩, fun _ => ⟨rfl, rfl⟩, fun _ => ⟨rfl, rfl⟩, fun _ => rfl,
      fun l => absurd l (by decide), fun _ _ => ⟨rfl, rfl, rfl⟩⟩

/-- A smaller reach leaves alone what a larger one does. -/
theorem Unreached.wider {k lv : Nat} {b ws : Bool} {s t : State} (h : Unreached k b s t) (hk : k ≤ lv)
    (hb : b = true → ws = true) : Unreached lv ws s t where
  pending := h.pending
  time l := h.time (hk.trans l)
  items l := h.items (hk.trans l)
  run l := h.run (hk.trans l)
  opened l := h.opened (hk.trans l)
  assembly l := h.assembly (by omega)
  store w l := h.store (by cases b <;> simp_all) (hk.trans l)

/-- What a chain of a given reach leaves alone. -/
theorem Leads.unreached {lv : Nat} {ws : Bool} {s t : State} (h : Leads lv ws s t) : Unreached lv ws s t := by
  induction h with
  | refl => exact .refl _ _ _
  | step _ p hk hb ih => exact ih.trans ((prim_unreached p).wider hk hb)

/-- What a command of a given reach leaves alone. -/
theorem exec_unreached {c : Instr} {s t : State} (h : exec c s = .next t) :
    Unreached (reach c) (writesStore c) s t := (exec_leads h).unreached

/-! ## What the cache does on its own -/

/-- The cache's own work changes nothing but the cache and the messages sent. -/
theorem settleCache_keeps {α : Type} (g : State → α) (hc : ∀ s x, g (s.setCache x) = g s)
    (hs : ∀ s p x, g (s.setSent p x) = g s) (s : State) : g s.settleCache = g s := by
  have f : ∀ p t, g (State.considerFetch t p) = g t := by
    intro p t
    unfold State.considerFetch State.issueFetch State.send
    split
    · dsimp only; split
      · rw [hs, hc]
      · rfl
    · rfl
  have e : ∀ p t, g (State.evictFor t p) = g t := by
    intro p t
    unfold State.evictFor State.setHold
    split
    · split
      · dsimp only; rw [hc, hc]
      · rfl
    · rfl
  have gr : ∀ t, g (State.grantFetches t) = g t := fun t => each_keeps g _ _ f t
  have ps : ∀ t, g (State.cachePass t) = g t := fun t => (each_keeps g _ _ e _).trans (gr t)
  unfold State.settleCache
  rw [gr, ps, ps, ps, ps]

end Sys2Proof.Machine
end

