-- ==== Sys2Proof/Laws/Shared.lean ====
section
/-! SUPPORT. Lemmas about the shared operations, for proofs to cite: replacing twice, what posting an incident, evaluating
the level and the cache's own work leave alone, what a commit row does, and the operations on states where they have
nothing to do. -/

namespace Sys2Proof.Machine

/-! ## Replacing twice -/

@[simp] theorem State.setRx_setRx (s : State) (r : ReceiverId) (x y : Receiver) :
    (s.setRx r x).setRx r y = s.setRx r y := by simp [State.setRx]
@[simp] theorem State.setCtx_setCtx (s : State) (i : SlotId) (x y : Context) :
    (s.setCtx i x).setCtx i y = s.setCtx i y := by simp [State.setCtx]
@[simp] theorem State.setEngine_setEngine (s : State) (p : PortId) (x y : Engine) :
    (s.setEngine p x).setEngine p y = s.setEngine p y := by simp [State.setEngine]
@[simp] theorem State.setPort_setPort (s : State) (p : PortId) (x y : Port) :
    (s.setPort p x).setPort p y = s.setPort p y := by simp [State.setPort]
@[simp] theorem State.setCache_setCache (s : State) (x y : Cache) : (s.setCache x).setCache y = s.setCache y := rfl
@[simp] theorem State.setPool_setPool (s : State) (x y : PagePool) : (s.setPool x).setPool y = s.setPool y := rfl
@[simp] theorem State.setReady_setReady (s : State) (x y : List ReadyEntry) :
    (s.setReady x).setReady y = s.setReady y := rfl
@[simp] theorem State.setRun_setRun (s : State) (x y : RunState) : (s.setRun x).setRun y = s.setRun y := rfl
theorem State.setRx_self (s : State) (r : ReceiverId) : s.setRx r (s.rx r) = s := by
  cases s; simp [State.setRx, State.rx]
theorem State.setCtx_self (s : State) (i : SlotId) : s.setCtx i (s.ctx i) = s := by
  cases s; simp [State.setCtx, State.ctx]

/-- Replacing the newest segment of a buffer leaves its head segment waiting, or with words still to be written. -/
theorem Receiver.head_setNewest (x : Receiver) (g g' : BufferedSegment) (e : x.newest = some g)
    (hp : g'.place = g.place) (hw : g'.payload = g.payload)
    (h : ∀ f, x.head = some f → f.place = .waiting ∨ f.payload ≠ []) :
    ∀ f, (x.setNewest g').head = some f → f.place = .waiting ∨ f.payload ≠ [] := by
  intro f hf
  unfold Receiver.setNewest Receiver.head Receiver.newest at *
  cases hb : x.buffer with
  | nil => simp [hb] at e
  | cons a rest =>
    cases rest with
    | nil =>
      simp [hb, replaceNewest] at e hf h
      subst hf e; rw [hp, hw]; exact h
    | cons b rest =>
      simp [hb, replaceNewest] at hf h
      subst hf; exact h

/-! ## Settings are read from the items -/

theorem State.mapping_congr {s t : State} (h : t.items = s.items) (r : ReceiverId) : t.mapping r = s.mapping r := by
  unfold State.mapping State.linkmap; rw [h]
theorem State.enrolled_congr {s t : State} (h : t.items = s.items) (r : ReceiverId) : t.enrolled r = s.enrolled r := by
  unfold State.enrolled State.linkmap; rw [h]
@[simp] theorem State.setRx_mapping (s : State) (r k : ReceiverId) (x : Receiver) :
    (s.setRx r x).mapping k = s.mapping k := rfl
@[simp] theorem State.setRx_enrolled (s : State) (r k : ReceiverId) (x : Receiver) :
    (s.setRx r x).enrolled k = s.enrolled k := rfl
@[simp] theorem State.setRx_upMask (s : State) (r k : ReceiverId) (x : Receiver) :
    (s.setRx r x).upMask k = s.upMask k := rfl
@[simp] theorem State.setRx_lostMask (s : State) (r k : ReceiverId) (x : Receiver) :
    (s.setRx r x).lostMask k = s.lostMask k := rfl

/-! ## Posting an incident -/

@[simp] theorem post_receivers (s : State) (k : IncidentKind) (c : IncidentSource) (n : Option Slice) (d : Word) :
    (s.post k c n d).receivers = s.receivers :=
  post_keeps State.receivers (fun _ _ _ => rfl) (fun _ _ _ => rfl) (fun _ _ => rfl) s k c n d
@[simp] theorem post_rx (s : State) (k : IncidentKind) (c : IncidentSource) (n : Option Slice) (d : Word)
    (r : ReceiverId) : (s.post k c n d).rx r = s.rx r := by unfold State.rx; rw [post_receivers]
@[simp] theorem post_contexts (s : State) (k : IncidentKind) (c : IncidentSource) (n : Option Slice) (d : Word) :
    (s.post k c n d).contexts = s.contexts :=
  post_keeps State.contexts (fun _ _ _ => rfl) (fun _ _ _ => rfl) (fun _ _ => rfl) s k c n d
@[simp] theorem post_ctx (s : State) (k : IncidentKind) (c : IncidentSource) (n : Option Slice) (d : Word)
    (i : SlotId) : (s.post k c n d).ctx i = s.ctx i := by unfold State.ctx; rw [post_contexts]
@[simp] theorem post_pool (s : State) (k : IncidentKind) (c : IncidentSource) (n : Option Slice) (d : Word) :
    (s.post k c n d).pool = s.pool :=
  post_keeps State.pool (fun _ _ _ => rfl) (fun _ _ _ => rfl) (fun _ _ => rfl) s k c n d
@[simp] theorem post_cache (s : State) (k : IncidentKind) (c : IncidentSource) (n : Option Slice) (d : Word) :
    (s.post k c n d).cache = s.cache :=
  post_keeps State.cache (fun _ _ _ => rfl) (fun _ _ _ => rfl) (fun _ _ => rfl) s k c n d
@[simp] theorem post_items (s : State) (k : IncidentKind) (c : IncidentSource) (n : Option Slice) (d : Word) :
    (s.post k c n d).items = s.items :=
  post_keeps State.items (fun _ _ _ => rfl) (fun _ _ _ => rfl) (fun _ _ => rfl) s k c n d
@[simp] theorem post_run (s : State) (k : IncidentKind) (c : IncidentSource) (n : Option Slice) (d : Word) :
    (s.post k c n d).run = s.run :=
  post_keeps State.run (fun _ _ _ => rfl) (fun _ _ _ => rfl) (fun _ _ => rfl) s k c n d

/-- A trigger commutes with an update of a field it neither reads nor changes. -/
theorem trigger_setRx (s : State) (r : ReceiverId) (x : Receiver) (p : PortId) :
    (s.setRx r x).trigger p = (s.trigger p).setRx r x := by
  unfold State.trigger
  rw [State.setRx_port]
  have : (s.setRx r x).inQuietPeriod p = s.inQuietPeriod p := rfl
  rw [this]
  split
  · split <;> rfl
  · rfl

/-- So does a post. -/
theorem post_setRx (s : State) (r : ReceiverId) (x : Receiver) (k : IncidentKind) (c : IncidentSource)
    (n : Option Slice) (d : Word) : (s.setRx r x).post k c n d = (s.post k c n d).setRx r x := by
  have key : ∀ (l : List PortId) (t : State),
      (t.setRx r x).each l (fun p t => t.trigger p) = (t.each l fun p t => t.trigger p).setRx r x := by
    intro l
    induction l with
    | nil => intro t; rfl
    | cons a l ih =>
      intro t
      show ((t.setRx r x).trigger a).each l _ = ((t.trigger a).each l _).setRx r x
      rw [trigger_setRx, ih]
  unfold State.post
  rw [State.setRx_incidents, State.setRx_counter]
  split
  · dsimp only
    split
    · rw [show ∀ l, (s.setRx r x).setIncidents l = (s.setIncidents l).setRx r x from fun _ => rfl]
      exact key _ _
    · rfl
  · rfl

/-- What the queue holds after a post depends on the queue and the slot counter alone. -/
theorem post_incidents_congr {s t : State} (k : IncidentKind) (c : IncidentSource) (n : Option Slice) (d : Word)
    (hi : t.incidents = s.incidents) (hc : t.counter = s.counter) :
    (t.post k c n d).incidents = (s.post k c n d).incidents := by
  have f : ∀ u : State, (u.post k c n d).incidents =
      if u.incidents.length < Config.incidentRecords then
        u.incidents ++ [{ kind := k, source := c, slice := n, detail := d, stamp := u.counter, overflow := false }]
      else markNewest u.incidents := by
    intro u
    unfold State.post
    split
    · dsimp only
      split
      · rw [each_keeps State.incidents _ _ fun p t =>
          trigger_keeps State.incidents (fun _ _ _ => rfl) (fun _ _ _ => rfl) t p]
        rfl
      · rfl
    · rfl
  rw [f, f, hi, hc]

/-! ## The cache's own work -/

@[simp] theorem settleCache_rx (s : State) (r : ReceiverId) : s.settleCache.rx r = s.rx r :=
  settleCache_keeps (fun t => t.rx r) (fun _ _ => rfl) (fun _ _ _ => rfl) s
@[simp] theorem settleCache_ctx (s : State) (i : SlotId) : s.settleCache.ctx i = s.ctx i :=
  settleCache_keeps (fun t => t.ctx i) (fun _ _ => rfl) (fun _ _ _ => rfl) s
@[simp] theorem settleCache_contexts (s : State) : s.settleCache.contexts = s.contexts :=
  settleCache_keeps State.contexts (fun _ _ => rfl) (fun _ _ _ => rfl) s
@[simp] theorem settleCache_pool (s : State) : s.settleCache.pool = s.pool :=
  settleCache_keeps State.pool (fun _ _ => rfl) (fun _ _ _ => rfl) s
@[simp] theorem settleCache_port (s : State) (p : PortId) : s.settleCache.port p = s.port p :=
  settleCache_keeps (fun t => t.port p) (fun _ _ => rfl) (fun _ _ _ => rfl) s
@[simp] theorem settleCache_engine (s : State) (p : PortId) : s.settleCache.engine p = s.engine p :=
  settleCache_keeps (fun t => t.engine p) (fun _ _ => rfl) (fun _ _ _ => rfl) s
@[simp] theorem settleCache_incidents (s : State) : s.settleCache.incidents = s.incidents :=
  settleCache_keeps State.incidents (fun _ _ => rfl) (fun _ _ _ => rfl) s
@[simp] theorem settleCache_ready (s : State) : s.settleCache.ready = s.ready :=
  settleCache_keeps State.ready (fun _ _ => rfl) (fun _ _ _ => rfl) s
@[simp] theorem settleCache_items (s : State) : s.settleCache.items = s.items :=
  settleCache_keeps State.items (fun _ _ => rfl) (fun _ _ _ => rfl) s
@[simp] theorem settleCache_run (s : State) : s.settleCache.run = s.run :=
  settleCache_keeps State.run (fun _ _ => rfl) (fun _ _ _ => rfl) s
@[simp] theorem settleCache_lastServed (s : State) : s.settleCache.lastServed = s.lastServed :=
  settleCache_keeps State.lastServed (fun _ _ => rfl) (fun _ _ _ => rfl) s
@[simp] theorem settleCache_pressure (s : State) : s.settleCache.pressure = s.pressure :=
  settleCache_keeps State.pressure (fun _ _ => rfl) (fun _ _ _ => rfl) s
@[simp] theorem settleCache_counter (s : State) : s.settleCache.counter = s.counter :=
  settleCache_keeps State.counter (fun _ _ => rfl) (fun _ _ _ => rfl) s

/-! ## Operations with nothing to do -/

/-- A loop whose body changes nothing changes nothing. -/
theorem State.each_id {α : Type} (xs : List α) (f : α → State → State) (s : State) (h : ∀ x ∈ xs, f x s = s) :
    s.each xs f = s := by
  unfold State.each
  induction xs with
  | nil => rfl
  | cons a l ih => rw [List.foldl_cons, h a (by simp)]; exact ih fun x hx => h x (by simp [hx])

theorem State.presentStalled_id (s : State) (h : ∀ r, (s.rx r).early = false) : s.presentStalled = s :=
  State.each_id _ _ _ fun r _ => by unfold State.presentAgain; simp [h r]

theorem State.walk_empty (s : State) (h : s.ready = []) : s.walk = s := by unfold State.walk; rw [h]; rfl

/-- The verdict of a head segment that waits for placement, or has words still to be written, is not delivered. -/
theorem State.settleVerdict_waiting (s : State) (r : ReceiverId)
    (h : ∀ f, (s.rx r).head = some f → f.place = .waiting ∨ f.payload ≠ []) : s.settleVerdict r = s := by
  unfold State.settleVerdict
  cases hh : (s.rx r).head with
  | none => rfl
  | some g =>
    cases hv : g.verdict with
    | none => simp [hv]
    | some v => rcases h g hh with e | e <;> cases hp : g.place <;> simp_all [BufferedSegment.emptied]

/-! ## Reading sound words -/

/-- Words that are all sound are given as they are stored, and the reading changes nothing. -/
theorem State.readWords_sound (s : State) (p : PortId) (i : SlotId) (first count : Nat)
    (h : ∀ j ∈ List.range' first count,
      s.pool.conditionOf (wordAddress (s.locate i j).1 (s.locate i j).2) = .sound) :
    s.readWords p i first count =
      ((List.range' first count).map fun j =>
        Memory.readWord s.pool.store (wordAddress (s.locate i j).1 (s.locate i j).2), s) := by
  unfold State.readWords
  have key : ∀ (l : List Nat) (acc : List Word),
      (∀ j ∈ l, s.pool.conditionOf (wordAddress (s.locate i j).1 (s.locate i j).2) = .sound) →
      l.foldl (State.readWord p i) (acc, s) =
        (acc ++ l.map fun j => Memory.readWord s.pool.store (wordAddress (s.locate i j).1 (s.locate i j).2), s) := by
    intro l
    induction l with
    | nil => intro acc _; simp
    | cons a l ih =>
      intro acc hl
      have e : State.readWord p i (acc, s) a =
          (acc ++ [Memory.readWord s.pool.store (wordAddress (s.locate i a).1 (s.locate i a).2)], s) := by
        unfold State.readWord
        simp [hl a (by simp), givenWord, State.checked]
      rw [List.foldl_cons, e, ih _ fun j hj => hl j (by simp [hj])]
      simp
  rw [key _ _ h]; simp

/-- What a WRITE of a MOVING engine is. -/
theorem exec_write {p : PortId} {s : State} {i : SlotId} {n : Slice} {b : CacheEntry} {g : RingParameters}
    (hm : (s.engine p).state = .moving) (ha : (s.engine p).assigned = some (i, n))
    (hb : s.cache.currentBuffer p = some b) (hg : (s.ring p).parameters = some g) (found : List (Nat × WordCondition)) :
    exec (.write p found) s = .next (s.issueWrite p i b g found).settleCache := by
  show execWrite p found s = _
  unfold execWrite State.engineWrite
  simp [hm, ha, hb, hg]

/-- A WRITE changes no word of the store: the damage it finds changes what the check says of the words (R72). -/
theorem exec_write_store {p : PortId} {found : List (Nat × WordCondition)} {s t : State}
    (h : exec (.write p found) s = .next t) : t.pool.store = s.pool.store ∧ t.lastServed = s.lastServed := by
  replace h : execWrite p found s = .next t := h
  unfold execWrite at h
  simp only [Host.Outcome.next.injEq] at h
  subst h
  have key : ∀ i b ring, (s.engine p).state = .moving →
      (s.issueWrite p i b ring found).pool.store = s.pool.store ∧
        (s.issueWrite p i b ring found).lastServed = s.lastServed := by
    intro i b ring hm
    have e : ∀ a c, (((s.each found fun f t => t.damageFound i a c f).readWords p i a c).2.engine p).state = .moving := by
      intro a c
      rw [← hm]
      unfold State.engine State.readWords
      rw [readFold_engines, each_keeps State.engines _ _ (fun f t => damageFound_engines t i _ _ f)]
    have d : ∀ a c, (s.each found fun f t => t.damageFound i a c f).pool.store = s.pool.store ∧
        (s.each found fun f t => t.damageFound i a c f).lastServed = s.lastServed := fun a c =>
      ⟨each_keeps (fun t => t.pool.store) _ _ (fun f t => by unfold State.damageFound; split <;> rfl) s,
        each_keeps State.lastServed _ _ (fun f t => by unfold State.damageFound; split <;> rfl) s⟩
    have l : ∀ a c m n, Leads 3 false (s.each found fun f t => t.damageFound i a c f)
        (((((s.each found fun f t => t.damageFound i a c f).readWords p i a c).2.send p m).setEngine p
          (((((s.each found fun f t => t.damageFound i a c f).readWords p i a c).2.send p m).engine p).wrote n)).afterWrite p
            b ring) := fun a c m n => (leads_readWords _ p i a c).trans (leads_wrote _ p b ring m n (e a c))
    unfold State.issueWrite
    have u := fun a c m n => (l a c m n).unreached.store rfl (by omega)
    exact ⟨(u _ _ _ _).1.trans (d _ _).1, (u _ _ _ _).2.2.trans (d _ _).2⟩
  rw [settleCache_pool, settleCache_lastServed]
  unfold State.engineWrite
  split
  · next hm =>
    split
    · exact key _ _ _ hm
    · exact ⟨rfl, rfl⟩
  · exact ⟨rfl, rfl⟩

/-! ## Messages -/

theorem PortState.linked_of_ne {x : PortState} (h : x ≠ .linkDown) : x.linked = true := by
  cases x <;> simp_all [PortState.linked]

theorem PortState.attached_iff (x : PortState) : x.attached = true ↔ x = .active ∨ x = .draining := by
  cases x <;> simp [PortState.attached]

theorem tagSlot_eq {tag : BitVec 8} {i : Fin 4} (h : tag.toNat = i.val) : tagSlot tag = some i := by
  unfold tagSlot
  rw [dif_pos (by omega)]
  congr 1; ext; exact h

theorem tagSlot_some {tag : BitVec 8} {i : Fin 4} (h : tagSlot tag = some i) : tag.toNat = i.val := by
  unfold tagSlot at h
  split at h
  · cases h; rfl
  · cases h

/-- A tag that names neither a READ of the port nor an abandoned tag of it is unknown (R138). -/
theorem Cache.matchTag_unknown {c : Cache} {p : PortId} {tag : BitVec 8}
    (h : ∀ i : Fin 4, tag.toNat = i.val → c.abandonedTag p i = false ∧ ∀ f, c.slots[i] = some f → f.port ≠ p) :
    c.matchTag p tag = .unknown := by
  unfold Cache.matchTag
  cases ht : tagSlot tag with
  | none => rfl
  | some i =>
    obtain ⟨ha, hf⟩ := h i (tagSlot_some ht)
    dsimp only
    unfold Cache.matchSlot
    simp only [ha]
    cases hs : c.slots[i] with
    | none => rfl
    | some f => simp [hf f hs]

/-- The tag of the port's READ in flight matches it (R138). -/
theorem Cache.matchTag_outstanding {c : Cache} {p : PortId} {tag : BitVec 8} {i : Fin 4} {f : Fetch}
    (h : tag.toNat = i.val) (hs : c.slots[i] = some f) (hf : f.port = p) : c.matchTag p tag = .outstanding i f := by
  unfold Cache.matchTag
  rw [tagSlot_eq h]
  dsimp only
  unfold Cache.matchSlot
  simp [hs, hf]

/-- A tag is abandoned just where it names an abandoned tag of the port and no READ of it (R138, R147). -/
theorem Cache.matchTag_abandoned_iff (c : Cache) (p : PortId) (tag : BitVec 8) (i : Fin 4) :
    c.matchTag p tag = .abandoned i ↔
      tag.toNat = i.val ∧ c.abandonedTag p i = true ∧ ∀ f, c.slots[i] = some f → f.port ≠ p := by
  constructor
  · intro h
    unfold Cache.matchTag at h
    cases ht : tagSlot tag with
    | none => simp [ht] at h
    | some j =>
      rw [ht] at h
      dsimp only at h
      unfold Cache.matchSlot at h
      have hj := tagSlot_some ht
      cases hs : c.slots[j] with
      | none =>
        by_cases ha : c.abandonedTag p j = true
        · simp only [hs, ha, if_true] at h
          injection h with h
          subst h
          exact ⟨hj, ha, fun f hf => by simp [hs] at hf⟩
        · simp [hs, ha] at h
      | some f =>
        by_cases hf : f.port = p
        · simp [hs, hf] at h
        · by_cases ha : c.abandonedTag p j = true
          · simp only [hs, hf, ha, if_true, if_false] at h
            injection h with h
            subst h
            exact ⟨hj, ha, fun g hg => by rw [hs] at hg; cases hg; exact hf⟩
          · simp [hs, hf, ha] at h
  · rintro ⟨h1, h2, h3⟩
    unfold Cache.matchTag
    rw [tagSlot_eq h1]
    dsimp only
    unfold Cache.matchSlot
    simp only [h2, if_true]
    cases hs : c.slots[i] with
    | none => rfl
    | some f => simp [h3 f hs]

/-- A commit row of an item other than RUN is a commit of its item (R170). -/
theorem exec_commit {p : PortId} {n : ItemName} {c : Instr} (s : State) (h : commitTarget c = some (p, n)) :
    exec c s = .next (s.commitOn p (some n)) ∧ n ≠ .run := by
  cases c <;> simp only [commitTarget, reduceCtorEq, Option.some.injEq, Prod.mk.injEq] at h
  case itemCommit q t k =>
    cases hm : ItemName.ofCodes t k with
    | none => simp [hm] at h
    | some m =>
      refine ⟨?_, fun e => ?_⟩
      · show execItemCommit q t k s = _
        unfold execItemCommit
        rw [hm] at h ⊢
        cases m <;> simp_all
      · rw [hm] at h
        cases m <;> simp_all
  all_goals (obtain ⟨rfl, rfl⟩ := h; exact ⟨rfl, by simp⟩)

end Sys2Proof.Machine
end

