-- ==== Sys2Proof/Laws/Pages.lean ====
section
/-! SUPPORT. What freeing pages does: the level falls, quiet frees post nothing, a run of linked pages is freed whole, and
what a rollback (R69) and the freeing of a slice (R71) leave. -/

namespace Sys2Proof.Machine

/-! ## Evaluating and freeing -/

/-- No level can be risen to just when occupancy lies below every threshold above the level (R77). -/
theorem State.risen_none_iff (s : State) :
    s.risen = none ↔ ∀ m : Fin 4, s.pressure.level < m → s.pool.occupancy < s.threshold m := by
  have f : ∀ P : Fin 4 → Prop, (∀ m, P m) ↔ P 0 ∧ P 1 ∧ P 2 ∧ P 3 := fun P =>
    ⟨fun h => ⟨h 0, h 1, h 2, h 3⟩, fun h m => by fin_cases m <;> simp_all⟩
  rw [f]
  unfold State.risen
  dsimp only
  generalize s.pressure.level = j
  fin_cases j <;> simp <;> grind

/-- The falling rule goes down, past levels whose threshold less the margin lies above occupancy (R78). -/
theorem State.fallenFrom_le (s : State) (j : Fin 4) :
    s.fallenFrom j ≤ j ∧ ∀ m : Fin 4, s.fallenFrom j < m → m ≤ j → s.pool.occupancy < s.threshold m - s.margin := by
  unfold State.fallenFrom State.below
  refine ⟨?_, fun m => ?_⟩
  · fin_cases j <;> simp <;> grind
  · fin_cases j <;> fin_cases m <;> simp <;> grind

/-- An evaluation with nothing to rise to falls, and posts nothing (R78). -/
theorem State.evaluate_falls (s : State) (h : s.risen = none) :
    s.evaluate = s.setPressure { s.pressure with level := s.fallenFrom s.pressure.level } := by
  have hf := s.fallenFrom_le s.pressure.level
  have he : s.evaluated = s.fallenFrom s.pressure.level := by unfold State.evaluated; rw [h]
  unfold State.evaluate
  dsimp only
  rw [he, if_neg]
  rintro ⟨h1, h2⟩
  rw [h2] at hf
  have := hf.1
  generalize s.pressure.level = j at *
  fin_cases j <;> simp_all

/-- An evaluation leaves nothing to rise to, where there was nothing before. -/
theorem State.evaluate_risen (s : State) (h : s.risen = none) : s.evaluate.risen = none := by
  rw [s.evaluate_falls h]
  rw [State.risen_none_iff] at h ⊢
  intro m hm
  change s.fallenFrom s.pressure.level < m at hm
  show s.pool.occupancy < s.threshold m
  by_cases hl : s.pressure.level < m
  · exact h m hl
  · have := (s.fallenFrom_le s.pressure.level).2 m hm (not_lt.mp hl)
    omega

/-- The end of NO_PAGES keeps whatever replacing a receiver keeps. -/
theorem State.endNoPages_keeps {α : Type} (g : State → α) (h : ∀ s r x, g (s.setRx r x) = g s) (s : State) :
    g s.endNoPages = g s :=
  each_keeps g _ _ (fun _ _ => h _ _ _) s

/-- The pool once a page is freed (R61). -/
theorem freePage_pool (s : State) (n : Slice) (page : Nat) (h : s.pool.attributeOf page ≠ .retireOnFree) :
    (s.freePage n page).pool = s.pool.freed page := by
  unfold State.freePage
  rw [if_neg h, State.endNoPages_keeps State.pool (fun _ _ _ => rfl), evaluate_pool]
  rfl

/-- Freeing a page quietly posts nothing, and leaves the next free as quiet. -/
theorem freePage_quiet {s : State} (h : s.FreesQuietly) (n : Slice) (page : Nat) :
    (s.freePage n page).FreesQuietly ∧ (s.freePage n page).incidents = s.incidents := by
  obtain ⟨ha, hr⟩ := h
  have hr' : (s.setPool (s.pool.freed page)).risen = none := by
    rw [State.risen_none_iff] at hr ⊢
    intro m hm
    have := hr m hm
    show s.pool.occupancy - 1 < s.threshold m
    omega
  refine ⟨⟨fun k => ?_, ?_⟩, ?_⟩
  · rw [freePage_pool s n page (ha page)]
    exact ha k
  · unfold State.freePage
    rw [if_neg (ha page), State.endNoPages_keeps State.risen (fun _ _ _ => rfl)]
    exact State.evaluate_risen _ hr'
  · unfold State.freePage
    rw [if_neg (ha page), State.endNoPages_keeps State.incidents (fun _ _ _ => rfl), State.evaluate_falls _ hr']
    rfl

/-- A loop whose body keeps a property and an observation keeps both. -/
theorem each_invariant {α β : Type} {P : State → Prop} (g : State → β) (xs : List α) (f : α → State → State)
    (h : ∀ x s, P s → P (f x s) ∧ g (f x s) = g s) {s : State} (hs : P s) : P (s.each xs f) ∧ g (s.each xs f) = g s := by
  unfold State.each
  induction xs generalizing s with
  | nil => exact ⟨hs, rfl⟩
  | cons x rest ih =>
    have k := ih (h x s hs).1
    exact ⟨k.1, k.2.trans (h x s hs).2⟩

/-- Freeing pages posts nothing where freeing is quiet. -/
theorem freePages_quiet {s : State} (h : s.FreesQuietly) (n : Slice) (l : List Nat) :
    (s.freePages n l).FreesQuietly ∧ (s.freePages n l).incidents = s.incidents :=
  each_invariant (P := State.FreesQuietly) State.incidents l _ (fun page _ hs => freePage_quiet hs n page) h

/-- Quiet freeing is read from three fields. -/
theorem FreesQuietly_congr {s t : State} (hp : t.pool.attributes = s.pool.attributes)
    (ho : t.pool.occupancy = s.pool.occupancy) (hl : t.pressure = s.pressure) (hi : t.items = s.items)
    (h : s.FreesQuietly) : t.FreesQuietly := by
  refine ⟨fun page => ?_, ?_⟩
  · unfold PagePool.attributeOf; rw [hp]; exact h.1 page
  · rw [State.risen_none_iff, hl, ho]
    have := (State.risen_none_iff s).mp h.2
    intro m hm
    have k := this m hm
    unfold State.threshold at *
    rw [hi]; exact k

/-- A rollback posts nothing where freeing is quiet. -/
theorem rollback_quiet {s : State} (h : s.FreesQuietly) (r : ReceiverId) :
    (s.rollback r).FreesQuietly ∧ (s.rollback r).incidents = s.incidents := by
  unfold State.rollback
  cases (s.rx r).record with
  | none => exact ⟨h, rfl⟩
  | some x =>
    have hu : (s.unlink x).FreesQuietly ∧ (s.unlink x).incidents = s.incidents := by
      unfold State.unlink
      split
      · exact ⟨FreesQuietly_congr rfl rfl rfl rfl h, rfl⟩
      · exact ⟨h, rfl⟩
    have hf := freePages_quiet hu.1 x.slice ((s.unlink x).pool.run x.writePage x.pages x.firstPage)
    exact ⟨FreesQuietly_congr rfl rfl rfl rfl hf.1, hf.2.trans hu.2⟩


/-- A walk changes nothing but the ready list, contexts, engines and the cache. -/
theorem walk_keeps {α : Type} (g : State → α) (hr : ∀ s x, g (s.setReady x) = g s) (hx : ∀ s i x, g (s.setCtx i x) = g s)
    (he : ∀ s p x, g (s.setEngine p x) = g s) (hc : ∀ s x, g (s.setCache x) = g s) (s : State) : g s.walk = g s := by
  refine each_keeps g _ _ (fun e t => ?_) s
  unfold State.considerEntry
  split
  · unfold State.assign State.takeSlice State.takeBuffer State.setHold
    dsimp only
    split
    · rw [he, hc, hc, he, hx, hr]
    · rw [he, he, hx, hr]
  · rfl

/-- Receiver `r` loses its record for slot `i`: quiet where freeing is. -/
theorem abandonFor_quiet {s : State} (h : s.FreesQuietly) (i : SlotId) (r : ReceiverId) :
    (s.abandonFor i r).FreesQuietly ∧ (s.abandonFor i r).incidents = s.incidents := by
  unfold State.abandonFor State.abandonRecord
  dsimp only
  split
  · split
    · split
      · exact ⟨h, rfl⟩
      · have k := rollback_quiet h r
        exact ⟨FreesQuietly_congr rfl rfl rfl rfl k.1, k.2⟩
    · exact ⟨h, rfl⟩
  · exact ⟨h, rfl⟩

/-- Clearing a current fragment posts nothing. -/
theorem clearCurrent_quiet {s : State} (h : s.FreesQuietly) (n : Slice) (r : ReceiverId) :
    (s.clearCurrent n r).FreesQuietly ∧ (s.clearCurrent n r).incidents = s.incidents := by
  unfold State.clearCurrent
  split
  · exact ⟨FreesQuietly_congr rfl rfl rfl rfl h, rfl⟩
  · exact ⟨h, rfl⟩

/-- A walk posts nothing. -/
theorem walk_quiet {s : State} (h : s.FreesQuietly) : s.walk.FreesQuietly ∧ s.walk.incidents = s.incidents := by
  refine ⟨FreesQuietly_congr ?_ ?_ ?_ ?_ h, ?_⟩
  · exact walk_keeps (fun s => s.pool.attributes) (fun _ _ => rfl) (fun _ _ _ => rfl) (fun _ _ _ => rfl) (fun _ _ => rfl) s
  · exact walk_keeps (fun s => s.pool.occupancy) (fun _ _ => rfl) (fun _ _ _ => rfl) (fun _ _ _ => rfl) (fun _ _ => rfl) s
  · exact walk_keeps State.pressure (fun _ _ => rfl) (fun _ _ _ => rfl) (fun _ _ _ => rfl) (fun _ _ => rfl) s
  · exact walk_keeps State.items (fun _ _ => rfl) (fun _ _ _ => rfl) (fun _ _ _ => rfl) (fun _ _ => rfl) s
  · exact walk_keeps State.incidents (fun _ _ => rfl) (fun _ _ _ => rfl) (fun _ _ _ => rfl) (fun _ _ => rfl) s

/-- A closure posts nothing where freeing is quiet. -/
theorem closeContext_quiet {s : State} (h : s.FreesQuietly) (i : SlotId) (reason : ClosureReason) :
    (s.closeContext i reason).FreesQuietly ∧ (s.closeContext i reason).incidents = s.incidents := by
  unfold State.closeContext State.enterReady
  dsimp only
  have k1 := each_invariant (P := State.FreesQuietly) State.incidents allReceivers (fun r u => u.abandonFor i r)
    (fun r _ hs => abandonFor_quiet hs i r) h
  have k2 := each_invariant (P := State.FreesQuietly) State.incidents allReceivers
    (fun r u => u.clearCurrent (s.ctx i).slice r) (fun r _ hs => clearCurrent_quiet hs _ r) k1.1
  generalize State.each _ _ (State.each _ _ s) = t at k2 ⊢
  have k3 := walk_quiet (s := (t.setCtx i ((t.ctx i).closed reason t.counter)).setReady
    (insertEntry t.frontier (t.newEntry (s.ctx i).slice) t.ready)) (FreesQuietly_congr rfl rfl rfl rfl k2.1)
  exact ⟨k3.1, k3.2.trans (k2.2.trans k1.2)⟩

/-- A closure check posts nothing where freeing is quiet. -/
theorem closureCheck_quiet {s : State} (h : s.FreesQuietly) (i : SlotId) :
    (s.closureCheck i).FreesQuietly ∧ (s.closureCheck i).incidents = s.incidents := by
  unfold State.closureCheck
  split
  · exact closeContext_quiet h _ _
  · exact ⟨h, rfl⟩

/-- A link-loss notice posts nothing where freeing is quiet (R25). -/
theorem linkLoss_quiet {s : State} (h : s.FreesQuietly) (r : ReceiverId) (q : SourceId) :
    (s.linkLoss r q).FreesQuietly ∧ (s.linkLoss r q).incidents = s.incidents := by
  unfold State.linkLoss
  dsimp only
  have k1 := rollback_quiet h r
  have k2 : ((s.rollback r).setCurrent r none).FreesQuietly := FreesQuietly_congr rfl rfl rfl rfl k1.1
  have k3 := each_invariant (P := State.FreesQuietly) State.incidents
    (((s.rollback r).setCurrent r none).slotsInOrder.filter (((s.rollback r).setCurrent r none).losesSource q))
    (fun i u => u.setCtx i ((u.ctx i).dropSource q)) (fun _ _ hs => ⟨FreesQuietly_congr rfl rfl rfl rfl hs, rfl⟩) k2
  have k4 := each_invariant (P := State.FreesQuietly) State.incidents
    ((((s.rollback r).setCurrent r none).slotsInOrder.filter (((s.rollback r).setCurrent r none).losesSource q)).filter
      (((s.rollback r).setCurrent r none).lossMatters q))
    (fun i u => u.closureCheck i) (fun i _ hs => closureCheck_quiet hs i) k3.1
  exact ⟨k4.1, k4.2.trans (k3.2.trans k1.2)⟩


/-! ## Runs of pages -/

/-- The run from the first of linked pages to the last is those pages (R69, R71). -/
theorem PagePool.run_linked (pool : PagePool) (last : Nat) :
    ∀ (pages : List Nat) (fuel : Nat), pool.Linked pages → pages.length ≤ fuel → (pages ≠ [] → pages.getLast? = some last) →
      pool.run last fuel (pages.headD 0) = pages := by
  intro pages
  induction pages with
  | nil => intro fuel _ _ _; cases fuel <;> simp [PagePool.run]
  | cons a rest ih =>
    intro fuel ⟨hn, h0, hl⟩ hf hx
    cases fuel with
    | zero => simp at hf
    | succ fuel =>
      have ha : a ≠ 0 := fun e => h0 (by simp [e])
      rw [List.headD_cons, PagePool.run, if_neg ha]
      cases rest with
      | nil =>
        have : a = last := by simpa using hx (by simp)
        rw [if_pos this]
      | cons b rest =>
        have hb : pool.linkOf a = b := hl 0 a b rfl rfl
        have hlast : (b :: rest).getLast? = some last := by simpa using hx (by simp)
        have : a ≠ last := by
          intro e
          have hm : last ∈ b :: rest := List.mem_of_getLast? hlast
          exact (List.nodup_cons.mp hn).1 (e ▸ hm)
        rw [if_neg this, hb]
        have := ih fuel ⟨(List.nodup_cons.mp hn).2, fun h => h0 (by simp [h]), fun j x y hx hy => hl (j + 1) x y hx hy⟩
          (by simpa using hf) (fun _ => hlast)
        rw [List.headD_cons] at this
        rw [this]

/-- The pool once pages are freed one after another. -/
def PagePool.freedAll (pool : PagePool) (l : List Nat) : PagePool := l.foldl PagePool.freed pool

/-- What the pool holds once pages are freed to the free list in their order (R61). -/
theorem PagePool.freedAll_spec (l : List Nat) : ∀ pool : PagePool, pool.Canonical →
    (pool.freedAll l).Canonical ∧ (pool.freedAll l).free = pool.free ++ l ∧
    (pool.freedAll l).occupancy = pool.occupancy - l.length ∧ (pool.freedAll l).retired = pool.retired ∧
    (pool.freedAll l).store = pool.store ∧ (pool.freedAll l).conditions = pool.conditions ∧
    (pool.freedAll l).attributes = pool.attributes ∧
    ∀ page, (pool.freedAll l).linkOf page = if page ∈ l then 0 else pool.linkOf page := by
  induction l with
  | nil => intro pool h; simp [PagePool.freedAll, h]
  | cons a l ih =>
    intro pool h
    have hc : (pool.freed a).Canonical := ⟨h.1, h.2.1, Cells.wf_put _ _ _ h.2.2.1, h.2.2.2⟩
    obtain ⟨k1, k2, k3, k4, k5, k6, k7, k8⟩ := ih _ hc
    refine ⟨k1, ?_, ?_, k4, k5, k6, k7, fun page => ?_⟩
    · rw [show pool.freedAll (a :: l) = (pool.freed a).freedAll l from rfl, k2]
      show (pool.free ++ [a]) ++ l = _
      simp
    · rw [show pool.freedAll (a :: l) = (pool.freed a).freedAll l from rfl, k3]
      show pool.occupancy - 1 - l.length = _
      rw [List.length_cons]; omega
    · rw [show pool.freedAll (a :: l) = (pool.freed a).freedAll l from rfl, k8]
      have hs : (pool.freed a).linkOf a = 0 := Cells.get_put_self (lo := 0) a 0 h.2.2.1
      by_cases e : page = a
      · subst e; simp [hs]
      · have hne : (pool.freed a).linkOf page = pool.linkOf page := Cells.get_put_ne _ _ e
        simp [hne, e]

/-- The pool after quiet frees. -/
theorem freePages_pool (n : Slice) : ∀ (l : List Nat) (s : State), s.FreesQuietly →
    (s.freePages n l).pool = s.pool.freedAll l := by
  intro l
  induction l with
  | nil => intro s _; rfl
  | cons a l ih =>
    intro s h
    rw [show s.freePages n (a :: l) = (s.freePage n a).freePages n l from rfl, ih _ (freePage_quiet h n a).1,
      freePage_pool s n a (h.1 a)]
    rfl

/-- What freeing a page changes: the pool, the level, NO_PAGES, and what a post changes. -/
theorem freePage_keeps {α : Type} (g : State → α) (hs : ∀ s p x, g (s.setSent p x) = g s)
    (hp : ∀ s p x, g (s.setPort p x) = g s) (hi : ∀ s x, g (s.setIncidents x) = g s)
    (hq : ∀ s x, g (s.setPressure x) = g s) (hl : ∀ s x, g (s.setPool x) = g s)
    (hr : ∀ s r, g (s.clearNoPages r) = g s) (s : State) (n : Slice) (page : Nat) : g (s.freePage n page) = g s := by
  have he := fun s => evaluate_keeps g hs hp hi hq s
  have hn : ∀ s : State, g s.endNoPages = g s := fun s => each_keeps g _ _ (fun r t => hr t r) s
  unfold State.freePage
  split
  · split
    · rw [he, hl]
    · rw [post_keeps g hs hp hi, hn, he, hl]
  · rw [hn, he, hl]

/-- Freeing pages keeps whatever each of its updates keeps. -/
theorem freePages_keeps {α : Type} (g : State → α) (hs : ∀ s p x, g (s.setSent p x) = g s)
    (hp : ∀ s p x, g (s.setPort p x) = g s) (hi : ∀ s x, g (s.setIncidents x) = g s)
    (hq : ∀ s x, g (s.setPressure x) = g s) (hl : ∀ s x, g (s.setPool x) = g s)
    (hr : ∀ s r, g (s.clearNoPages r) = g s) (s : State) (n : Slice) (l : List Nat) : g (s.freePages n l) = g s :=
  each_keeps g _ _ (fun page t => freePage_keeps g hs hp hi hq hl hr t n page) s

/-- Freeing pages leaves the contexts alone. -/
theorem freePages_contexts (s : State) (n : Slice) (l : List Nat) : (s.freePages n l).contexts = s.contexts :=
  freePages_keeps State.contexts (fun _ _ _ => rfl) (fun _ _ _ => rfl) (fun _ _ => rfl) (fun _ _ => rfl) (fun _ _ => rfl)
    (fun _ _ => rfl) s n l

/-- The receivers after NO_PAGES has ended everywhere (R67). -/
theorem endNoPages_rx (s : State) (k : ReceiverId) : s.endNoPages.rx k = { s.rx k with noPages := false } := by
  have key : ∀ (l : List ReceiverId) (t : State),
      (t.each l fun r t => t.clearNoPages r).rx k = if k ∈ l then { t.rx k with noPages := false } else t.rx k := by
    intro l
    induction l with
    | nil => intro t; rfl
    | cons a l ih =>
      intro t
      rw [show t.each (a :: l) (fun r t => t.clearNoPages r) = (t.clearNoPages a).each l fun r t => t.clearNoPages r from rfl,
        ih]
      unfold State.clearNoPages
      rw [State.setRx_rx]
      by_cases e : k = a
      · subst e; simp
      · simp [Ne.symm e, e]
  show (s.each allReceivers fun r t => t.clearNoPages r).rx k = _
  rw [key]
  simp [allReceivers]

/-- The receivers after quiet frees: NO_PAGES ends with the first (R67). -/
theorem freePages_rx (n : Slice) (k : ReceiverId) : ∀ (l : List Nat) (s : State), s.FreesQuietly →
    (s.freePages n l).rx k = if l = [] then s.rx k else { s.rx k with noPages := false } := by
  intro l
  induction l with
  | nil => intro s _; rfl
  | cons a l ih =>
    intro s h
    rw [show s.freePages n (a :: l) = (s.freePage n a).freePages n l from rfl, ih _ (freePage_quiet h n a).1]
    have : (s.freePage n a).rx k = { s.rx k with noPages := false } := by
      unfold State.freePage
      rw [if_neg (h.1 a), endNoPages_rx, evaluate_keeps (fun t => t.rx k) (fun _ _ _ => rfl) (fun _ _ _ => rfl)
        (fun _ _ => rfl) (fun _ _ => rfl)]
      rfl
    rw [this]
    simp

/-- A rollback where freeing is quiet (R69). -/
theorem rollback_spec {s : State} {r : ReceiverId} {x : ProvisionalRecord} {pages : List Nat}
    (hx : (s.rx r).record = some x) (hp : x.Holds s.pool pages) (ht : x.tailBefore ∉ pages) (hq : s.FreesQuietly)
    (hc : s.pool.Canonical) :
    (s.rollback r).pool.free = s.pool.free ++ pages ∧ (s.rollback r).pool.occupancy = s.pool.occupancy - pages.length ∧
    (s.rollback r).pool.retired = s.pool.retired ∧ (s.rollback r).pool.store = s.pool.store ∧
    (s.rollback r).pool.conditions = s.pool.conditions ∧ (s.rollback r).pool.attributes = s.pool.attributes ∧
    (∀ page, (s.rollback r).pool.linkOf page =
      if page ∈ pages ∨ page = x.tailBefore ∧ page ≠ 0 ∧ pages ≠ [] then 0 else s.pool.linkOf page) ∧
    (∀ k, (s.rollback r).rx k = { s.rx k with
      record := if k = r then none else (s.rx k).record
      noPages := if pages = [] ∧ k ≠ r then (s.rx k).noPages else false }) ∧
    (s.rollback r).contexts = s.contexts ∧ (s.rollback r).incidents = s.incidents := by
  obtain ⟨hl, hlen, hfirst, hlast⟩ := hp
  have hne : x.firstPage ≠ 0 ↔ pages ≠ [] := by
    cases pages with
    | nil => simp at hfirst ⊢; omega
    | cons a l =>
      simp at hfirst ⊢
      intro e; exact hl.2.1 (by simp [hfirst, e])
  have hu : (s.unlink x).FreesQuietly ∧ (s.unlink x).pool.Canonical ∧ (s.unlink x).pool.Linked pages ∧
      (∀ page, (s.unlink x).pool.linkOf page =
        if page = x.tailBefore ∧ page ≠ 0 ∧ pages ≠ [] then 0 else s.pool.linkOf page) ∧
      (s.unlink x).pool.free = s.pool.free ∧ (s.unlink x).pool.occupancy = s.pool.occupancy ∧
      (s.unlink x).pool.retired = s.pool.retired ∧ (s.unlink x).pool.store = s.pool.store ∧
      (s.unlink x).pool.conditions = s.pool.conditions ∧ (s.unlink x).pool.attributes = s.pool.attributes ∧
      (s.unlink x).contexts = s.contexts ∧ (s.unlink x).incidents = s.incidents ∧ ∀ k, (s.unlink x).rx k = s.rx k := by
    unfold State.unlink
    split
    · next h =>
      have hlink : ∀ page, (s.pool.setLink x.tailBefore 0).linkOf page =
          if page = x.tailBefore ∧ page ≠ 0 ∧ pages ≠ [] then 0 else s.pool.linkOf page := by
        intro page
        by_cases e : page = x.tailBefore
        · subst e
          rw [if_pos ⟨rfl, h.2, hne.mp h.1⟩]
          exact Cells.get_put_self (lo := 0) _ 0 hc.2.2.1
        · rw [if_neg (fun k => e k.1)]
          exact Cells.get_put_ne _ _ e
      refine ⟨FreesQuietly_congr rfl rfl rfl rfl hq, ⟨hc.1, hc.2.1, Cells.wf_put _ _ _ hc.2.2.1, hc.2.2.2⟩,
        ⟨hl.1, hl.2.1, fun j a b ha hb => ?_⟩, hlink, rfl, rfl, rfl, rfl, rfl, rfl, rfl, rfl, fun _ => rfl⟩
      rw [State.setPool_pool, hlink, if_neg]
      · exact hl.2.2 j a b ha hb
      · rintro ⟨e, _⟩
        exact ht (e ▸ List.mem_of_getElem? ha)
    · next h =>
      refine ⟨hq, hc, hl, fun page => ?_, rfl, rfl, rfl, rfl, rfl, rfl, rfl, rfl, fun _ => rfl⟩
      rw [if_neg]
      rintro ⟨e, e0, ep⟩
      exact h ⟨hne.mpr ep, e ▸ e0⟩
  obtain ⟨u1, u2, u3, u4, u5, u6, u7, u8, u9, u10, u11, u12, u13⟩ := hu
  have hrun : (s.unlink x).pool.run x.writePage x.pages x.firstPage = pages := by
    rw [← hfirst]; exact PagePool.run_linked _ _ pages _ u3 (le_of_eq hlen) hlast
  have hb : s.rollback r = ((s.unlink x).freePages x.slice pages).dropRecord r := by
    unfold State.rollback; rw [hx]; dsimp only; rw [hrun]
  have hpool : (s.rollback r).pool = (s.unlink x).pool.freedAll pages := by
    rw [hb]; exact freePages_pool _ _ _ u1
  obtain ⟨_, f2, f3, f4, f5, f6, f7, f8⟩ := PagePool.freedAll_spec pages _ u2
  rw [hpool]
  refine ⟨by rw [f2, u5], by rw [f3, u6], by rw [f4, u7], by rw [f5, u8], by rw [f6, u9], by rw [f7, u10], fun page => ?_,
    fun k => ?_, ?_, (rollback_quiet hq r).2⟩
  · rw [f8, u4]
    by_cases h1 : page ∈ pages <;> simp [h1]
  · rw [hb]
    unfold State.dropRecord
    rw [State.setRx_rx, freePages_rx _ _ _ _ u1, freePages_rx _ _ _ _ u1, u13, u13]
    by_cases e : k = r
    · subst e; by_cases hpg : pages = [] <;> simp [hpg]
    · by_cases hpg : pages = [] <;> simp [hpg, e, Ne.symm e]
  · rw [hb]
    show (State.freePages _ _ _).contexts = _
    rw [freePages_contexts, u11]


/-! ## Freeing a slice (R71) -/

/-- A chain of a context after one chain is replaced. -/
theorem Context.setChain_chain (c : Context) (q v : SourceId) (x : Chain) :
    (c.setChain q x).chain v = if q = v then x else c.chain v := by
  unfold Context.setChain Context.chain
  by_cases e : q = v
  · subst e; simp
  · have : q.val ≠ v.val := fun h => e (Fin.ext h)
    simp [e, this]

/-- One chain is freed where freeing is quiet. -/
theorem freeChain_spec {s : State} {i : SlotId} {q : SourceId} {pages : List Nat}
    (hp : ((s.ctx i).chain q).Holds s.pool pages) (hq : s.FreesQuietly) :
    (s.freeChain i q).pool = s.pool.freedAll pages ∧ (s.freeChain i q).FreesQuietly ∧
    (s.freeChain i q).incidents = s.incidents ∧
    (s.freeChain i q).contexts =
      s.contexts.set i ((s.ctx i).setChain q { (s.ctx i).chain q with head := 0, tail := 0 }) := by
  obtain ⟨hl, hlen, hfirst, hlast⟩ := hp
  have hrun : s.pool.run ((s.ctx i).chain q).tail Config.maxChainPages ((s.ctx i).chain q).head = pages := by
    rw [← hfirst]
    refine PagePool.run_linked _ _ pages _ hl hlen fun hne => ?_
    rw [← hlast, List.getLastD_eq_getLast?]
    cases h : pages.getLast? with
    | none => simp at h; exact absurd h hne
    | some y => rfl
  have hf := freePages_quiet hq (s.ctx i).slice pages
  have hc : ∀ k, (s.freePages (s.ctx i).slice pages).ctx k = s.ctx k := fun k => by
    unfold State.ctx; rw [freePages_contexts]
  have e : s.freeChain i q = (s.freePages (s.ctx i).slice pages).setCtx i
      ((s.ctx i).setChain q { (s.ctx i).chain q with head := 0, tail := 0 }) := by
    unfold State.freeChain; dsimp only; rw [hrun, hc]
  rw [e]
  refine ⟨freePages_pool _ _ _ hq, FreesQuietly_congr rfl rfl rfl rfl hf.1, hf.2, ?_⟩
  show (State.freePages _ _ _).contexts.set _ _ = _
  rw [freePages_contexts]

/-- The pages of a chain depend on their own link entries alone. -/
theorem Chain.Holds_congr {c : Chain} {pool pool' : PagePool} {pages : List Nat}
    (h : ∀ page ∈ pages, pool'.linkOf page = pool.linkOf page) (hp : c.Holds pool pages) : c.Holds pool' pages :=
  ⟨⟨hp.1.1, hp.1.2.1, fun j a b ha hb => (h a (List.mem_of_getElem? ha)).trans (hp.1.2.2 j a b ha hb)⟩, hp.2⟩

/-- Every chain of a slice is freed, in source order, where freeing is quiet (R71). -/
theorem freeSlice_spec {s : State} {i : SlotId} {pages : SourceId → List Nat}
    (hp : ∀ q, ((s.ctx i).chain q).Holds s.pool (pages q)) (hn : (allSources.flatMap pages).Nodup) (hq : s.FreesQuietly)
    (hc : s.pool.Canonical) :
    (s.freeSlice i).pool = s.pool.freedAll (allSources.flatMap pages) ∧ (s.freeSlice i).FreesQuietly ∧
    (s.freeSlice i).incidents = s.incidents ∧ (∀ k, k ≠ i → (s.freeSlice i).ctx k = s.ctx k) ∧
    (s.freeSlice i).ctx i =
      { s.ctx i with chains := Vector.ofFn fun q => { (s.ctx i).chain q with head := 0, tail := 0 } } := by
  have key : ∀ (l : List SourceId) (t : State), l.Nodup → (∀ q ∈ l, ((t.ctx i).chain q).Holds t.pool (pages q)) →
      (l.flatMap pages).Nodup → t.FreesQuietly → t.pool.Canonical →
      (t.each l fun q u => u.freeChain i q).pool = t.pool.freedAll (l.flatMap pages) ∧
      (t.each l fun q u => u.freeChain i q).FreesQuietly ∧
      (t.each l fun q u => u.freeChain i q).incidents = t.incidents ∧
      (∀ k, k ≠ i → (t.each l fun q u => u.freeChain i q).ctx k = t.ctx k) ∧
      (t.each l fun q u => u.freeChain i q).ctx i = { t.ctx i with chains := Vector.ofFn fun q =>
        if q ∈ l then { (t.ctx i).chain q with head := 0, tail := 0 } else (t.ctx i).chain q } := by
    intro l
    induction l with
    | nil =>
      intro t _ _ _ hq _
      refine ⟨rfl, hq, rfl, fun _ _ => rfl, ?_⟩
      show t.ctx i = _
      cases h : t.ctx i with | mk a b c d e f g j k l m n =>
      simp [Context.chain]
    | cons q l ih =>
      intro t hnl hp hn hq hc
      rw [List.flatMap_cons] at hn
      obtain ⟨f1, f2, f3, f4⟩ := freeChain_spec (hp q (by simp)) hq
      have hctx : ∀ k, (t.freeChain i q).ctx k =
          if i = k then (t.ctx i).setChain q { (t.ctx i).chain q with head := 0, tail := 0 } else t.ctx k := by
        intro k
        have : (t.freeChain i q).ctx k =
            (t.setCtx i ((t.ctx i).setChain q { (t.ctx i).chain q with head := 0, tail := 0 })).ctx k := by
          unfold State.ctx; rw [f4]; rfl
        rw [this, State.setCtx_ctx]
      have hch : ∀ v, v ≠ q → ((t.freeChain i q).ctx i).chain v = (t.ctx i).chain v := by
        intro v hv
        rw [hctx, if_pos rfl]
        rw [Context.setChain_chain, if_neg (Ne.symm hv)]
      obtain ⟨g1, g2, g3, g4, g5⟩ := ih (t.freeChain i q) (List.nodup_cons.mp hnl).2 (fun v hv => by
        have hvq : v ≠ q := fun e => (List.nodup_cons.mp hnl).1 (e ▸ hv)
        rw [hch v hvq]
        refine Chain.Holds_congr (fun page hpg => ?_) (hp v (by simp [hv]))
        rw [f1, (PagePool.freedAll_spec _ _ hc).2.2.2.2.2.2.2, if_neg]
        intro h
        exact (List.nodup_append.mp hn).2.2 page h page (List.mem_flatMap.mpr ⟨v, hv, hpg⟩) rfl)
        (List.nodup_append.mp hn).2.1 f2 (f1 ▸ (PagePool.freedAll_spec _ _ hc).1)
      rw [show (t.each (q :: l) fun q u => u.freeChain i q) = (t.freeChain i q).each l fun q u => u.freeChain i q from rfl]
      refine ⟨?_, g2, g3.trans f3, fun k hk => ?_, ?_⟩
      · rw [g1, f1, List.flatMap_cons]
        simp [PagePool.freedAll]
      · rw [g4 k hk, hctx, if_neg (Ne.symm hk)]
      · rw [g5]
        have hset : (t.freeChain i q).ctx i = { t.ctx i with chains := ((t.freeChain i q).ctx i).chains } := by
          rw [hctx, if_pos rfl]; rfl
        rw [hset]
        have : ∀ (c : Context) (x y : Vector Chain 24), x = y → ({ c with chains := x } : Context) = { c with chains := y } := by
          rintro c x y rfl; rfl
        apply this
        ext j hj
        simp only [Vector.getElem_ofFn]
        by_cases e : (⟨j, hj⟩ : SourceId) = q
        · have hql : (⟨j, hj⟩ : SourceId) ∉ l := e ▸ (List.nodup_cons.mp hnl).1
          rw [if_neg hql, if_pos (by simp [e]), e]
          rw [hctx, if_pos rfl]
          unfold Context.setChain Context.chain
          simp
        · have := hch ⟨j, hj⟩ e
          unfold Context.chain at this ⊢
          simp only [List.mem_cons, e, false_or]
          rw [this]
  obtain ⟨k1, k2, k3, k4, k5⟩ := key allSources s (List.nodup_finRange 24) (fun q _ => hp q) hn hq hc
  refine ⟨k1, k2, k3, k4, ?_⟩
  show (s.each allSources fun q u => u.freeChain i q).ctx i = _
  rw [k5]
  simp [allSources]

end Sys2Proof.Machine
end

