-- ==== Sys2Proof/Laws/Closing.lean ====
section
/-! SUPPORT. What abandoned records, the walk and a closure (R21) do. -/

namespace Sys2Proof.Machine

/-! ## What a rollback and an abandoned record leave alone -/

/-- A trigger leaves every port in its state. -/
theorem trigger_portState (s : State) (p k : PortId) : ((s.trigger p).port k).state = (s.port k).state := by
  unfold State.trigger State.sendNotify State.send
  split
  · split <;> (rw [State.setPort_port]; split <;> simp_all)
  · rfl

/-- Posting an incident leaves every port in its state. -/
theorem post_portState (s : State) (kd : IncidentKind) (c : IncidentSource) (n : Option Slice) (d : Word) (k : PortId) :
    ((s.post kd c n d).port k).state = (s.port k).state := by
  unfold State.post
  split
  · split
    · rw [each_keeps (fun t => (t.port k).state) _ _ fun p t => trigger_portState t p k]; rfl
    · rfl
  · rfl

/-- An evaluation of the level leaves every port in its state. -/
theorem evaluate_portState (s : State) (k : PortId) : (s.evaluate.port k).state = (s.port k).state := by
  unfold State.evaluate
  split
  · rw [post_portState]; rfl
  · rfl

/-- Freeing a page leaves every port in its state. -/
theorem freePage_portState (s : State) (n : Slice) (page : Nat) (k : PortId) :
    ((s.freePage n page).port k).state = (s.port k).state := by
  have hn : ∀ s : State, (s.endNoPages.port k).state = (s.port k).state := fun s =>
    State.endNoPages_keeps (fun t => (t.port k).state) (fun _ _ _ => rfl) s
  unfold State.freePage
  split
  · split
    · rw [evaluate_portState]; rfl
    · rw [post_portState, hn, evaluate_portState]; rfl
  · rw [hn, evaluate_portState]; rfl

/-- A rollback changes the pool, the level, receivers, and what a post changes. -/
theorem rollback_keeps {α : Type} (g : State → α) (hf : ∀ s n page, g (s.freePage n page) = g s)
    (hl : ∀ s x, g (s.setPool x) = g s) (hr : ∀ s r x, g (s.setRx r x) = g s) (s : State) (r : ReceiverId) :
    g (s.rollback r) = g s := by
  unfold State.rollback
  split
  · rfl
  · next x _ =>
    dsimp only
    unfold State.dropRecord State.freePages
    rw [hr, each_keeps g _ _ fun page t => hf t _ page]
    unfold State.unlink
    split
    · exact hl _ _
    · rfl

/-- Abandoning a record keeps whatever freeing a page and replacing a receiver keep. -/
theorem abandonFor_keeps {α : Type} (g : State → α) (hf : ∀ s n page, g (s.freePage n page) = g s)
    (hl : ∀ s x, g (s.setPool x) = g s) (hr : ∀ s r x, g (s.setRx r x) = g s) (s : State) (i : SlotId) (r : ReceiverId) :
    g (s.abandonFor i r) = g s := by
  unfold State.abandonFor State.abandonRecord
  dsimp only
  split
  · split
    · split
      · rfl
      · rw [hr, rollback_keeps g hf hl hr]
    · rfl
  · rfl

/-- A rollback removes receiver `r`'s record and leaves every other receiver its record and its current fragment. -/
theorem rollback_rx (s : State) (r k : ReceiverId) :
    ((s.rollback r).rx k).record = (if k = r then none else (s.rx k).record) ∧
      ((s.rollback r).rx k).current = (s.rx k).current := by
  have hf : ∀ (l : List Nat) (n : Slice) (t : State), ((t.freePages n l).rx k).record = (t.rx k).record ∧
      ((t.freePages n l).rx k).current = (t.rx k).current := by
    intro l n t
    refine ⟨?_, ?_⟩
    · refine freePages_keeps (fun t => (t.rx k).record) (fun _ _ _ => rfl) (fun _ _ _ => rfl) (fun _ _ => rfl)
        (fun _ _ => rfl) (fun _ _ => rfl) (fun s r => ?_) t n l
      unfold State.clearNoPages; rw [State.setRx_rx]; split <;> simp_all
    · refine freePages_keeps (fun t => (t.rx k).current) (fun _ _ _ => rfl) (fun _ _ _ => rfl) (fun _ _ => rfl)
        (fun _ _ => rfl) (fun _ _ => rfl) (fun s r => ?_) t n l
      unfold State.clearNoPages; rw [State.setRx_rx]; split <;> simp_all
  unfold State.rollback
  split
  · next h => by_cases e : k = r <;> simp [e, h]
  · next x _ =>
    dsimp only
    have hu : (s.unlink x).rx k = s.rx k := by unfold State.unlink; split <;> rfl
    obtain ⟨h1, h2⟩ := hf ((s.unlink x).pool.run x.writePage x.pages x.firstPage) x.slice (s.unlink x)
    unfold State.dropRecord
    rw [State.setRx_rx]
    by_cases e : r = k
    · subst e; rw [if_pos rfl, if_pos rfl]; exact ⟨rfl, by rw [← hu]; exact h2⟩
    · rw [if_neg e, if_neg (Ne.symm e), h1, h2, hu]; exact ⟨rfl, rfl⟩

/-- Discarding the remainder of a segment keeps the record, and keeps or clears the current fragment. -/
theorem Receiver.discardRemainder_keeps (x : Receiver) (b : Bool) :
    (x.discardRemainder b).record = x.record ∧
      ((x.discardRemainder b).current = x.current ∨ (x.discardRemainder b).current = none) := by
  unfold Receiver.discardRemainder Receiver.settleRemainder Receiver.verdictUnrecorded Receiver.setHead Receiver.popHead
  split
  · dsimp only
    repeat' split
    all_goals first | exact ⟨rfl, .inl rfl⟩ | exact ⟨rfl, .inr rfl⟩
  · exact ⟨rfl, .inl rfl⟩

/-- Abandoning the records for slot `i`: receiver `k` keeps its record if it is for another slot, and its current
fragment stays or is cleared. -/
theorem abandonFor_rx (s : State) (i : SlotId) (r k : ReceiverId) :
    (((s.abandonFor i r).rx k).record = (s.rx k).record ∨ ((s.abandonFor i r).rx k).record = none) ∧
    (k = r → ∀ y, ((s.abandonFor i r).rx k).record = some y → y.slot ≠ i) ∧
    (((s.abandonFor i r).rx k).current = (s.rx k).current ∨ ((s.abandonFor i r).rx k).current = none) := by
  unfold State.abandonFor
  split
  · next x hx =>
    split
    · unfold State.abandonRecord
      rw [if_neg (by rw [hx]; simp)]
      dsimp only
      rw [State.setRx_rx]
      obtain ⟨a1, a2⟩ := rollback_rx s r k
      by_cases e : r = k
      · subst e
        obtain ⟨d1, d2⟩ := Receiver.discardRemainder_keeps ((s.rollback r).rx r) false
        rw [if_pos rfl] at a1 ⊢
        rw [a1] at d1
        rw [a2] at d2
        exact ⟨.inr d1, fun _ y hy => absurd (d1.symm.trans hy) (by simp), d2⟩
      · rw [if_neg e, a1, if_neg (Ne.symm e), a2]
        exact ⟨.inl rfl, fun h => absurd h.symm e, .inl rfl⟩
    · next hi =>
      exact ⟨.inl rfl, fun e y hy => Option.some.inj (hx.symm.trans (e ▸ hy)) ▸ hi, .inl rfl⟩
  · next hx => exact ⟨.inl rfl, fun e y hy => absurd (hx.symm.trans (e ▸ hy)) (by simp), .inl rfl⟩

/-- A loop over the receivers establishes for each what its own turn does, where no turn undoes it. -/
theorem each_establishes {α : Type} {P : α → State → Prop} (f : α → State → State)
    (hk : ∀ x y s, P x s → P x (f y s)) (hd : ∀ x s, P x (f x s)) :
    ∀ (l : List α) (s : State) (x : α), x ∈ l → P x (s.each l f) := by
  intro l
  induction l with
  | nil => intro s x hx; cases hx
  | cons a l ih =>
    intro s x hx
    show P x ((f a s).each l f)
    by_cases e : x = a
    · subst e
      have : ∀ (l : List α) (t : State), P x t → P x (t.each l f) := by
        intro l
        induction l with
        | nil => intro t h; exact h
        | cons b l ih => intro t h; exact ih _ (hk x b t h)
      exact this l _ (hd x s)
    · exact ih _ x (List.mem_of_ne_of_mem e hx)

/-- What every body of a loop keeps, the loop keeps. -/
theorem each_holds {α : Type} {P : State → Prop} (f : α → State → State) (hk : ∀ x s, P s → P (f x s)) (l : List α)
    {s : State} (h : P s) : P (s.each l f) :=
  (each_invariant (P := P) (fun _ => ()) l f (fun x s hs => ⟨hk x s hs, rfl⟩) h).1

/-! ## The walk -/

/-- A walk takes a context from READY to DELIVERING at most, and changes nothing else of it (R98). -/
theorem walk_ctx (s : State) (i : SlotId) :
    ∃ x, (x = (s.ctx i).state ∨ x = .delivering) ∧ s.walk.ctx i = { s.ctx i with state := x } := by
  have key : ∀ (l : List ReadyEntry) (t : State), (∃ x, (x = (s.ctx i).state ∨ x = .delivering) ∧
      t.ctx i = { s.ctx i with state := x }) → ∃ x, (x = (s.ctx i).state ∨ x = .delivering) ∧
      (t.each l fun e t => t.considerEntry e).ctx i = { s.ctx i with state := x } := by
    intro l t h
    refine each_holds (P := fun t => ∃ x, (x = (s.ctx i).state ∨ x = .delivering) ∧
      t.ctx i = { s.ctx i with state := x }) _ (fun e t ⟨x, hx, ht⟩ => ?_) l h
    unfold State.considerEntry
    split
    · next p _ =>
      have hs : (t.assign e p).ctx i = if slotOf e.slice = i then { t.ctx i with state := .delivering } else t.ctx i := by
        unfold State.assign State.takeSlice State.takeBuffer State.setHold
        dsimp only
        split <;>
        · simp only [State.setEngine_ctx, State.setCache_ctx, State.setCtx_ctx, State.setReady_ctx]
          split
          · next e' => rw [e']
          · rfl
      rw [hs]
      split
      · exact ⟨.delivering, .inr rfl, by rw [ht]⟩
      · exact ⟨x, hx, ht⟩
    · exact ⟨x, hx, ht⟩
  exact key s.ready s ⟨_, .inl rfl, rfl⟩

/-- With no ACTIVE port no port is chosen for an entry (R95). -/
theorem bestPort_none {s : State} (h : ∀ p, (s.port p).state ≠ .active) (e : ReadyEntry) : s.bestPort e = none := by
  unfold State.bestPort
  rw [List.find?_eq_none]
  intro p _
  unfold State.eligible
  simp [h p]

/-- With no ACTIVE port a walk assigns nothing (R95). -/
theorem walk_inactive {s : State} (h : ∀ p, (s.port p).state ≠ .active) : s.walk = s :=
  State.each_id _ _ _ fun e _ => by unfold State.considerEntry; rw [bestPort_none h e]

/-! ## Closure (R21) -/

/-- What a closure makes of the state (R21). -/
theorem closeContext_spec (s : State) (i : SlotId) (reason : ClosureReason) :
    ClosedAs s (s.closeContext i reason) i reason := by
  unfold State.closeContext State.enterReady
  dsimp only
  have keeps : ∀ {α : Type} (g : State → α), (∀ s n page, g (State.freePage s n page) = g s) →
      (∀ s x, g (State.setPool s x) = g s) → (∀ s r x, g (State.setRx s r x) = g s) →
      g ((s.each allReceivers fun r u => u.abandonFor i r).each allReceivers fun r u => u.clearCurrent (s.ctx i).slice r) =
        g s := by
    intro α g hf hl hr
    rw [each_keeps g _ _ fun r u => ?_, each_keeps g _ _ fun r u => abandonFor_keeps g hf hl hr u i r]
    unfold State.clearCurrent State.setCurrent
    split
    · exact hr _ _ _
    · rfl
  have hfree : ∀ {α : Type} (g : State → α), (∀ s p x, g (State.setSent s p x) = g s) →
      (∀ s p x, g (State.setPort s p x) = g s) → (∀ s x, g (State.setIncidents s x) = g s) →
      (∀ s x, g (State.setPressure s x) = g s) → (∀ s x, g (State.setPool s x) = g s) →
      (∀ s r, g (State.clearNoPages s r) = g s) → ∀ s n page, g (State.freePage s n page) = g s :=
    fun g a b c d e f s n page => freePage_keeps g a b c d e f s n page
  have kc := keeps State.contexts (hfree _ (fun _ _ _ => rfl) (fun _ _ _ => rfl) (fun _ _ => rfl) (fun _ _ => rfl)
    (fun _ _ => rfl) (fun _ _ => rfl)) (fun _ _ => rfl) (fun _ _ _ => rfl)
  have kt := keeps State.counter (hfree _ (fun _ _ _ => rfl) (fun _ _ _ => rfl) (fun _ _ => rfl) (fun _ _ => rfl)
    (fun _ _ => rfl) (fun _ _ => rfl)) (fun _ _ => rfl) (fun _ _ _ => rfl)
  have kf := keeps State.frontier (hfree _ (fun _ _ _ => rfl) (fun _ _ _ => rfl) (fun _ _ => rfl) (fun _ _ => rfl)
    (fun _ _ => rfl) (fun _ _ => rfl)) (fun _ _ => rfl) (fun _ _ _ => rfl)
  have ki := keeps State.items (hfree _ (fun _ _ _ => rfl) (fun _ _ _ => rfl) (fun _ _ => rfl) (fun _ _ => rfl)
    (fun _ _ => rfl) (fun _ _ => rfl)) (fun _ _ => rfl) (fun _ _ _ => rfl)
  have ky := keeps State.ready (hfree _ (fun _ _ _ => rfl) (fun _ _ _ => rfl) (fun _ _ => rfl) (fun _ _ => rfl)
    (fun _ _ => rfl) (fun _ _ => rfl)) (fun _ _ => rfl) (fun _ _ _ => rfl)
  have kp := fun k => keeps (fun t => (t.port k).state) (fun s n page => freePage_portState s n page k)
    (fun _ _ => rfl) (fun _ _ _ => rfl)
  have krec : ∀ r, ∀ y, ((((s.each allReceivers fun r u => u.abandonFor i r).each allReceivers
      fun r u => u.clearCurrent (s.ctx i).slice r)).rx r).record = some y → y.slot ≠ i := by
    intro r
    refine each_holds (P := fun t => ∀ y, (t.rx r).record = some y → y.slot ≠ i) _ (fun x t ht y hy => ?_) _ ?_
    · refine ht y ?_
      rw [← hy]
      unfold State.clearCurrent State.setCurrent
      split
      · rw [State.setRx_rx]; split <;> simp_all
      · rfl
    · refine each_establishes (P := fun r t => ∀ y, (t.rx r).record = some y → y.slot ≠ i) (fun r u => u.abandonFor i r)
        (fun x y t ht z hz => ?_) (fun x t => (abandonFor_rx t i x x).2.1 rfl) allReceivers s r (by simp [allReceivers])
      rcases (abandonFor_rx t i y x).1 with h | h
      · exact ht z (h ▸ hz)
      · rw [h] at hz; cases hz
  have kcur : ∀ r, ((((s.each allReceivers fun r u => u.abandonFor i r).each allReceivers
      fun r u => u.clearCurrent (s.ctx i).slice r)).rx r).current ≠ some (s.ctx i).slice := by
    intro r
    refine each_establishes (P := fun r t => (t.rx r).current ≠ some (s.ctx i).slice)
      (fun r u => u.clearCurrent (s.ctx i).slice r) (fun x y t ht => ?_) (fun x t => ?_) allReceivers _ r (by simp [allReceivers])
    · unfold State.clearCurrent State.setCurrent
      split
      · rw [State.setRx_rx]; split
        · simp
        · exact ht
      · exact ht
    · unfold State.clearCurrent State.setCurrent
      split
      · simp
      · assumption
  generalize State.each _ _ (State.each _ _ s) = t at *
  have hrx : ∀ (u : State) (r : ReceiverId), u.walk.rx r = u.rx r := fun u r =>
    walk_keeps (fun u => u.rx r) (fun _ _ => rfl) (fun _ _ _ => rfl) (fun _ _ _ => rfl) (fun _ _ => rfl) u
  have hctx : t.ctx i = s.ctx i := by unfold State.ctx; rw [kc]
  refine ⟨⟨_, rfl, ?_⟩, fun r => ?_, fun ha => ?_⟩
  · obtain ⟨x, hx, hw⟩ := walk_ctx ((t.setCtx i ((t.ctx i).closed reason t.counter)).setReady
      (insertEntry t.frontier (t.newEntry (s.ctx i).slice) t.ready)) i
    refine ⟨x, ?_, ?_⟩
    · simpa [Context.closed] using hx
    · refine Eq.trans hw ?_
      rw [State.setReady_ctx, State.setCtx_ctx_self, hctx, kt]
      rfl
  · rw [hrx]
    exact ⟨krec r, kcur r⟩
  · have hw := walk_inactive (s := (t.setCtx i ((t.ctx i).closed reason t.counter)).setReady
      (insertEntry t.frontier (t.newEntry (s.ctx i).slice) t.ready)) (fun p => by
        show (t.port p).state ≠ .active
        rw [kp p]; exact ha p)
    refine ⟨?_, ?_⟩
    · refine (congrArg (fun u => (State.ctx u i).state) hw).trans ?_
      simp [Context.closed]
    · refine (congrArg State.ready hw).trans ?_
      show insertEntry t.frontier (t.newEntry _) t.ready = _
      rw [kf, ky]
      unfold State.newEntry State.dispatchWait
      rw [kt, ki]
      congr 1

end Sys2Proof.Machine
end

