-- ==== Sys2Proof/Laws/Bursts.lean ====
section
/-! SUPPORT. What writing words into a page does (R65), the grants that move one burst (R64, R66),
and the grants that a refused request passes on (R19, R64, R67). -/

namespace Sys2Proof.Machine

/-! ## Words into a page -/

/-- Words written one after another stand in order and are sound; every other byte and every other condition is as before,
and nothing else of the pool changes (R65, R72). -/
theorem PagePool.writeWords_spec : ∀ (xs : List Word) (a : Nat) (pool v : PagePool), Memory.wf pool.store = true →
    Cells.wf WordCondition.sound pool.conditions = true → v = PagePool.writeWords a xs pool →
    v = { pool with store := v.store, conditions := v.conditions } ∧
    (∀ k w, xs[k]? = some w → Memory.readWord v.store (a + k) = w ∧ v.conditionOf (a + k) = .sound) ∧
    (∀ b, (b < 8 * a ∨ 8 * (a + xs.length) ≤ b) → Memory.read v.store b = Memory.read pool.store b) ∧
    (∀ b, (b < a ∨ a + xs.length ≤ b) → Memory.readWord v.store b = Memory.readWord pool.store b) ∧
    ∀ b, (b < a ∨ a + xs.length ≤ b) → v.conditionOf b = pool.conditionOf b
  | [], a, pool, v, _, _, hv => by
    subst hv
    exact ⟨rfl, fun k w h => by simp at h, fun _ _ => rfl, fun _ _ => rfl, fun _ _ => rfl⟩
  | x :: xs, a, pool, v, hs, hc, hv => by
    obtain ⟨h1, h2, h3, h4, h5⟩ := PagePool.writeWords_spec xs (a + 1) (pool.writeWord a x) v
      (Memory.wf_writeWord _ _ _ hs) (Cells.wf_put _ _ _ hc) hv
    refine ⟨h1, fun k w hk => ?_, fun b hb => ?_, fun b hb => ?_, fun b hb => ?_⟩
    · cases k with
      | zero =>
        simp only [List.getElem?_cons_zero, Option.some.injEq] at hk
        subst hk
        rw [Nat.add_zero, h4 a (by omega), h5 a (by omega)]
        exact ⟨Memory.readWord_writeWord_self _ _ _ hs, Cells.get_put_self _ _ hc⟩
      | succ k =>
        rw [show a + (k + 1) = a + 1 + k by omega]
        exact h2 k w (by simpa using hk)
    · rw [List.length_cons] at hb
      rw [h3 b (by omega)]
      exact Memory.read_writeBytes_ne a x 8 _ (by intro k hk; omega)
    · rw [List.length_cons] at hb
      rw [h4 b (by omega)]
      exact Memory.readWord_writeWord_ne _ _ (by omega)
    · rw [List.length_cons] at hb
      rw [h5 b (by omega)]
      exact Cells.get_put_ne _ _ (by omega)

/-! ## Grants that move a burst -/

/-- A grant whose write page has room moves one burst (R64, R65). -/
theorem grantPort_moves {s : State} {r : ReceiverId} {x : ProvisionalRecord} (fuel : Nat) (hn : s.nextGrant = some r)
    (hx : (s.rx r).record = some x) (hp : x.needsPage = false) :
    s.grantPort (fuel + 1) = (s.setLastServed r).burst r x := by
  have e : ((s.setLastServed r).rx r).record = some x := hx
  unfold State.grantPort
  rw [hn]
  dsimp only
  unfold State.serve
  dsimp only
  rw [e]
  dsimp only
  rw [hp]
  rfl

/-- A grant that needs a page, below the page limit and with a page free, takes the head of the free list and moves one burst
into it (R64, R66). -/
theorem grantPort_extends {s : State} {r : ReceiverId} {x : ProvisionalRecord} {page : Nat} {free : List Nat} (fuel : Nat)
    (hn : s.nextGrant = some r) (hx : (s.rx r).record = some x) (hp : x.needsPage = true) (hl : s.atLimit x = false)
    (hf : s.pool.free = page :: free) (u : State)
    (hu : u = (((s.setLastServed r).setPool (s.pool.taken page free)).evaluate)) :
    s.grantPort (fuel + 1) =
      ((u.setPool (u.pool.linkBehind x page)).setRecord r (x.withPage page)).burst r (x.withPage page) := by
  have e : ((s.setLastServed r).rx r).record = some x := hx
  have el : (s.setLastServed r).atLimit x = false := hl
  have ef : (s.setLastServed r).pool.free = page :: free := hf
  unfold State.grantPort
  rw [hn]
  dsimp only
  unfold State.serve
  dsimp only
  rw [e]
  dsimp only
  rw [hp, el]
  unfold State.extendRecord State.allocatePage
  rw [ef, hu]
  rfl

/-- A burst moves words of the head segment into the write page; the verdict follows if it was waiting for the last of them
(R65, R47). -/
theorem burst_eq {s : State} {r : ReceiverId} {g : BufferedSegment} {rest : List BufferedSegment} (x : ProvisionalRecord)
    (hb : (s.rx r).buffer = g :: rest) (moved : List Word) (hm : moved = g.payload.take (64 - x.writeFill)) :
    s.burst r x =
      ((s.setPool (s.pool.writeWords (64 * x.writePage + x.writeFill) moved)).setRx r
        { s.rx r with
          buffer := { g with payload := g.payload.drop moved.length } :: rest
          record := some
            { x with
              writeFill := x.writeFill + moved.length
              written := x.written + moved.length } }).settleVerdict r := by
  have hh : (s.rx r).head = some g := by unfold Receiver.head; rw [hb]; rfl
  unfold State.burst
  rw [hh, hm]
  dsimp only
  congr 1
  unfold State.setRecord
  rw [State.setRx_setRx, State.setRx_rx_self]
  congr 1
  have e : ((s.setPool (s.pool.writeWords (wordAddress x.writePage x.writeFill)
      (g.payload.take (Config.pageWords - x.writeFill)))).rx r) = s.rx r := rfl
  rw [e]
  unfold Receiver.setHead
  rw [hb]
  rfl

/-! ## Grants that a refusal passes on -/

/-- The receivers that have a provisional record. -/
def State.recorded (s : State) : Finset ReceiverId := Finset.univ.filter fun r => (s.rx r).record.isSome = true

/-- The receivers that want the port (R64). -/
def State.wanting (s : State) : Finset ReceiverId := Finset.univ.filter fun r => (s.rx r).wantsPort = true

/-- A bound on the grants that can still be refused. -/
def State.refusalsLeft (s : State) : Nat :=
  s.wanting.card + s.recorded.card * (s.recorded.card - 1) / 2

/-- A receiver wants the port only with a record (R64). -/
theorem wanting_recorded (s : State) : s.wanting ⊆ s.recorded := fun r h => by
  simp only [State.wanting, State.recorded, Receiver.wantsPort, Finset.mem_filter, Finset.mem_univ, true_and,
    Bool.and_eq_true] at h ⊢
  exact h.1.1

/-- The receiver granted the port wants it (R64). -/
theorem nextGrant_wants {s : State} {r : ReceiverId} (h : s.nextGrant = some r) : (s.rx r).wantsPort = true :=
  List.find?_some (p := fun r => (s.rx r).wantsPort) h

/-- A closure check makes no record (R21). -/
theorem closureCheck_record (s : State) (i : SlotId) (k : ReceiverId) :
    ((s.closureCheck i).rx k).record = (s.rx k).record ∨ ((s.closureCheck i).rx k).record = none := by
  unfold State.closureCheck
  split
  · unfold State.closeContext State.enterReady
    dsimp only
    have hw : ∀ u : State, u.walk.rx k = u.rx k := fun u =>
      walk_keeps (fun u => u.rx k) (fun _ _ => rfl) (fun _ _ _ => rfl) (fun _ _ _ => rfl) (fun _ _ => rfl) u
    rw [hw, State.setReady_rx, State.setCtx_rx]
    refine each_holds (P := fun t => (t.rx k).record = (s.rx k).record ∨ (t.rx k).record = none) _ (fun r t ht => ?_) _
      (each_holds (P := fun t => (t.rx k).record = (s.rx k).record ∨ (t.rx k).record = none) _ (fun r t ht => ?_) _
        (.inl rfl))
    · have : ((t.clearCurrent (s.ctx i).slice r).rx k).record = (t.rx k).record := by
        unfold State.clearCurrent State.setCurrent
        split
        · rw [State.setRx_rx]; split
          · next e => subst e; rfl
          · rfl
        · rfl
      rw [this]; exact ht
    · rcases (abandonFor_rx t i r k).1 with h | h
      · rw [h]; exact ht
      · exact .inr h
  · exact .inl rfl

/-- A cut at the page limit removes the record it is asked for, and makes none (R19). -/
theorem cutAtLimit_record (s : State) (r k : ReceiverId) (x : ProvisionalRecord) :
    ((s.cutAtLimit r x).rx k).record = none ∨ k ≠ r ∧ ((s.cutAtLimit r x).rx k).record = (s.rx k).record := by
  unfold State.cutAtLimit
  dsimp only
  rcases closureCheck_record (((((s.setChain x.slot x.source { (s.ctx x.slot).chain x.source with state := .cut }).rollback
    r).setCurrent r (some x.slice)).setRx r ((((s.setChain x.slot x.source
      { (s.ctx x.slot).chain x.source with state := .cut }).rollback r).setCurrent r
        (some x.slice)).rx r |>.discardRemainder true))) x.slot k with h | h
  · obtain ⟨h1, _⟩ := rollback_rx (s.setChain x.slot x.source { (s.ctx x.slot).chain x.source with state := .cut }) r k
    rw [h, State.setRx_rx]
    by_cases e : r = k
    · subst e
      rw [if_pos rfl]
      left
      rw [(Receiver.discardRemainder_keeps _ true).1]
      unfold State.setCurrent
      rw [State.setRx_rx_self]
      rw [if_pos rfl] at h1
      exact h1
    · rw [if_neg e]
      right
      refine ⟨Ne.symm e, ?_⟩
      unfold State.setCurrent
      rw [State.setRx_rx, if_neg e, h1, if_neg (Ne.symm e)]
      rfl
  · exact .inl h

/-- Without receiver `r`'s record, and no record made, fewer grants can be refused. -/
theorem unrecorded_fewer {s t : State} {r : ReceiverId} (hw : (s.rx r).wantsPort = true)
    (h : ∀ k, (t.rx k).record = none ∨ k ≠ r ∧ (t.rx k).record = (s.rx k).record) :
    t.refusalsLeft < s.refusalsLeft := by
  have hws : r ∈ s.wanting := by unfold State.wanting; simpa using hw
  have hrs : r ∈ s.recorded := wanting_recorded s hws
  have hsub : t.recorded ⊆ s.recorded.erase r := by
    intro k hk
    have hk' : (t.rx k).record.isSome = true := by simpa [State.recorded] using hk
    rcases h k with h | ⟨hne, h⟩
    · rw [h] at hk'; cases hk'
    · rw [h] at hk'
      simp only [Finset.mem_erase, ne_eq, State.recorded, Finset.mem_filter, Finset.mem_univ, true_and]
      exact ⟨hne, hk'⟩
  have hc := Finset.card_le_card hsub
  rw [Finset.card_erase_of_mem hrs] at hc
  have hwt := Finset.card_le_card (wanting_recorded t)
  have hs1 : 1 ≤ s.wanting.card := Finset.card_pos.2 ⟨r, hws⟩
  have hr1 : 1 ≤ s.recorded.card := Finset.card_pos.2 ⟨r, hrs⟩
  unfold State.refusalsLeft
  generalize t.recorded.card = b at *
  generalize s.recorded.card = a at *
  obtain ⟨c, rfl⟩ : ∃ c, a = c + 1 := ⟨a - 1, by omega⟩
  have hb : b ≤ c := by omega
  have h1 : b * (b - 1) / 2 + b ≤ (c + 1) * c / 2 := by
    have : b * (b - 1) / 2 + b = (b * (b - 1) + b * 2) / 2 := by omega
    rw [this]
    apply Nat.div_le_div_right
    have : b * (b - 1) + b * 2 ≤ (b + 1) * b := by
      cases b with
      | zero => simp
      | succ b => simp only [Nat.add_sub_cancel]; nlinarith
    exact this.trans (Nat.mul_le_mul (by omega) hb)
  rw [Nat.add_sub_cancel]
  omega

/-- With receiver `r` held for want of a page, fewer grants can be refused. -/
theorem held_fewer {s t : State} {r : ReceiverId} (hw : (s.rx r).wantsPort = true)
    (h : ∀ k, t.rx k = if r = k then { s.rx r with noPages := true } else s.rx k) :
    t.refusalsLeft < s.refusalsLeft := by
  have hws : r ∈ s.wanting := by unfold State.wanting; simpa using hw
  have e1 : t.recorded = s.recorded := by
    unfold State.recorded
    refine Finset.filter_congr fun k _ => ?_
    rw [h]
    split
    · next e => subst e; rfl
    · rfl
  have e2 : t.wanting ⊆ s.wanting.erase r := by
    intro k hk
    simp only [State.wanting, Finset.mem_filter, Finset.mem_univ, true_and, h] at hk
    simp only [Finset.mem_erase, ne_eq, State.wanting, Finset.mem_filter, Finset.mem_univ, true_and]
    split at hk
    · unfold Receiver.wantsPort at hk; simp at hk
    · next e => exact ⟨fun h => e h.symm, hk⟩
  have hc := Finset.card_le_card e2
  rw [Finset.card_erase_of_mem hws] at hc
  have hs1 : 1 ≤ s.wanting.card := Finset.card_pos.2 ⟨r, hws⟩
  unfold State.refusalsLeft
  rw [e1]
  omega

/-- Each refused grant leaves fewer refusals to come. -/
theorem refused_fewer {s t : State} {r : ReceiverId} (hn : s.nextGrant = some r) (h : s.serve r = .refused t) :
    t.refusalsLeft < s.refusalsLeft := by
  have hw := nextGrant_wants hn
  unfold State.serve at h
  dsimp only at h
  split at h
  · next e =>
    have e' : (s.rx r).record = none := e
    unfold Receiver.wantsPort at hw
    rw [e'] at hw
    cases hw
  · next x e =>
    split at h
    · split at h
      · cases h
        exact unrecorded_fewer hw fun k => cutAtLimit_record (s.setLastServed r) r k x
      · split at h
        · cases h
          exact held_fewer hw fun k => by rw [State.setRx_rx]; rfl
        · cases h
    · cases h

/-- At most 300 grants can be refused. -/
theorem refusalsLeft_le (s : State) : s.refusalsLeft ≤ 300 := by
  unfold State.refusalsLeft
  have h1 := Finset.card_le_univ s.wanting
  have h2 := Finset.card_le_univ s.recorded
  rw [Fintype.card_fin] at h1 h2
  have h3 : s.recorded.card * (s.recorded.card - 1) ≤ 24 * 23 := Nat.mul_le_mul h2 (by omega)
  omega

/-- More grants than can still be refused change nothing. -/
theorem grantPort_enough : ∀ (n m : Nat) (s : State), s.refusalsLeft < n → s.refusalsLeft < m →
    s.grantPort n = s.grantPort m
  | 0, _, _, h, _ => absurd h (Nat.not_lt_zero _)
  | _ + 1, 0, _, _, h => absurd h (Nat.not_lt_zero _)
  | n + 1, m + 1, s, hn, hm => by
    unfold State.grantPort
    cases e : s.nextGrant with
    | none => rfl
    | some r =>
      dsimp only
      cases e' : s.serve r with
      | moved t => rfl
      | refused t =>
        have := refused_fewer e e'
        exact grantPort_enough n m t (by omega) (by omega)

/-- A refused request passes the grant on (R64). -/
theorem grantPort_passes {s t : State} {r : ReceiverId} (hn : s.nextGrant = some r) (h : s.serve r = .refused t) :
    s.grantPort maxGrants = t.grantPort maxGrants := by
  have e : s.grantPort maxGrants = t.grantPort 599 := by
    show s.grantPort (599 + 1) = _
    rw [State.grantPort, hn]
    dsimp only
    rw [h]
  rw [e]
  have := refusalsLeft_le t
  exact grantPort_enough _ _ t (by omega) (by unfold maxGrants; omega)

/-- A grant that needs a page at the page limit cuts the chain, and the grant passes on (R19, R64). -/
theorem grantPort_cuts {s : State} {r : ReceiverId} {x : ProvisionalRecord} (hn : s.nextGrant = some r)
    (hx : (s.rx r).record = some x) (hp : x.needsPage = true) (hl : s.atLimit x = true) :
    s.grantPort maxGrants = ((s.setLastServed r).cutAtLimit r x).grantPort maxGrants := by
  refine grantPort_passes hn ?_
  have e : ((s.setLastServed r).rx r).record = some x := hx
  have el : (s.setLastServed r).atLimit x = true := hl
  unfold State.serve
  dsimp only
  rw [e]
  dsimp only
  rw [if_pos hp, if_pos el]

/-- A grant that needs a page, below the page limit and with no page free, holds the receiver, and the grant passes on
(R64, R67). -/
theorem grantPort_starves {s : State} {r : ReceiverId} {x : ProvisionalRecord} (hn : s.nextGrant = some r)
    (hx : (s.rx r).record = some x) (hp : x.needsPage = true) (hl : s.atLimit x = false) (hf : s.pool.free = []) :
    s.grantPort maxGrants =
      ((s.setLastServed r).setRx r { s.rx r with noPages := true }).grantPort maxGrants := by
  refine grantPort_passes hn ?_
  have e : ((s.setLastServed r).rx r).record = some x := hx
  have el : (s.setLastServed r).atLimit x = false := hl
  have ef : (s.setLastServed r).pool.free = [] := hf
  unfold State.serve State.extendRecord State.allocatePage
  dsimp only
  rw [e, ef]
  dsimp only
  rw [if_pos hp, el, if_neg Bool.false_ne_true, ← e]
  rfl

end Sys2Proof.Machine
end

