-- ==== Sys2Proof/Laws/CacheWork.lean ====
section
/-! SUPPORT. What one grant, one eviction and the cache's whole own work do (R135–R137, R144, R145). -/

namespace Sys2Proof.Machine

/-! ## Grants (R135–R137) -/

/-- When a port wants a fetch (R135). -/
theorem State.wantsFetch_iff (s : State) (p : PortId) : s.wantsFetch p = true ↔
    (((s.port p).state = .active ∨ (s.port p).state = .draining ∧ (s.engine p).assigned ≠ none) ∧
      s.cache.outstanding p = none ∧ ahead ((s.ring p).announced - (s.ring p).fetched) = true) ∧
      s.openSlot p ≠ none := by
  unfold State.wantsFetch State.mayFetch State.announcedAhead
  cases (s.port p).state <;> cases s.openSlot p <;> cases (s.engine p).assigned <;> simp

/-- A port that is passed over (R137). -/
theorem State.considerFetch_passes {s : State} {p : PortId} {g : RingParameters} (hg : (s.ring p).parameters = some g)
    (h : s.wantsFetch p = false ∨ s.fetchSize p g.k = 0) : s.considerFetch p = s := by
  unfold State.considerFetch
  rw [hg]
  cases s.openSlot p with
  | none => rfl
  | some t => rcases h with h | h <;> simp [h]

/-- A port that is granted a slot issues its READ (R136). -/
theorem State.considerFetch_issues {s : State} {p : PortId} {g : RingParameters} {t : Fin 4}
    (hg : (s.ring p).parameters = some g) (hw : s.wantsFetch p = true) (ht : s.openSlot p = some t)
    (hn : 1 ≤ s.fetchSize p g.k) : s.considerFetch p = s.issueFetch p t (s.fetchSize p g.k) g := by
  unfold State.considerFetch
  rw [ht, hg]
  simp [hw, hn]

/-! ## Evictions (R144, R145) -/

/-- When the test for an eviction for port `p` holds, but for a victim (R144). -/
theorem State.starves_iff (s : State) (p : PortId) : s.starves p = true ↔
    (s.engine p).state = .waitBuffer ∧ s.cache.cachedCount p = 0 ∧ s.cache.reservedCount p = 0 ∧
      s.cache.holds[p] = none ∧ ahead ((s.ring p).announced - (s.ring p).fetched) = true ∧
      s.cache.sharedRoom p = 0 := by
  unfold State.starves State.announcedAhead
  simp [and_assoc]

/-- The choice between candidates in ascending port number, from one already chosen: one at least as rich as every other,
and the first of those equally rich (R144). -/
theorem Cache.foldl_richer (c : Cache) : ∀ (l : List PortId) (b : PortId), (∀ v ∈ l, b < v) → l.Pairwise (· < ·) →
    ∃ v, l.foldl c.richer (some b) = some v ∧ (v = b ∨ v ∈ l) ∧
      ∀ w, w = b ∨ w ∈ l → c.cachedCount w < c.cachedCount v ∨ c.cachedCount w = c.cachedCount v ∧ v ≤ w := by
  intro l
  induction l with
  | nil => intro b _ _; exact ⟨b, rfl, .inl rfl, fun w hw => by simp at hw; subst hw; exact .inr ⟨rfl, Nat.le_refl _⟩⟩
  | cons a l ih =>
    intro b hb hl
    rw [List.foldl_cons]
    have hba := hb a (by simp)
    have hal : ∀ v ∈ l, a < v := (List.pairwise_cons.mp hl).1
    unfold Cache.richer
    dsimp only
    by_cases h : c.cachedCount b < c.cachedCount a
    · rw [if_pos h]
      obtain ⟨v, e, hv, hw⟩ := ih a hal (List.pairwise_cons.mp hl).2
      refine ⟨v, e, by rcases hv with hv | hv <;> simp [hv], fun w hw' => ?_⟩
      rcases hw' with rfl | hw'
      · rcases hw a (.inl rfl) with k | k <;> exact .inl (by omega)
      · exact hw w (by simpa using hw')
    · rw [if_neg h]
      obtain ⟨v, e, hv, hw⟩ := ih b (fun v hv => hb v (by simp [hv])) (List.pairwise_cons.mp hl).2
      refine ⟨v, e, by rcases hv with hv | hv <;> simp [hv], fun w hw' => ?_⟩
      rcases hw' with rfl | hw'
      · exact hw w (.inl rfl)
      · rcases List.mem_cons.mp hw' with rfl | hw'
        · rcases hw b (.inl rfl) with k | k
          · exact .inl (by omega)
          · rcases Nat.lt_or_ge (c.cachedCount w) (c.cachedCount v) with m | m
            · exact .inl m
            · exact .inr ⟨by omega, Fin.le_trans k.2 (Fin.le_of_lt hba)⟩
        · exact hw w (.inr hw')

/-- The victim is the richest of the ports that may lose entries, the lowest-numbered of those equally rich; there is none
where no port may lose entries (R144). -/
theorem Cache.victim_iff (c : Cache) (p : PortId) :
    (c.victim p = none ↔ ∀ v, c.mayLose p v = false) ∧
    ∀ v, c.victim p = some v ↔ c.mayLose p v = true ∧ ∀ w, c.mayLose p w = true →
      c.cachedCount w < c.cachedCount v ∨ c.cachedCount w = c.cachedCount v ∧ v ≤ w := by
  have hm : ∀ v, v ∈ allPorts.filter (c.mayLose p) ↔ c.mayLose p v = true := fun v => by simp [allPorts]
  have hs : (allPorts.filter (c.mayLose p)).Pairwise (· < ·) := List.Pairwise.filter _ (by decide)
  unfold Cache.victim
  generalize allPorts.filter (c.mayLose p) = l at hm hs
  cases l with
  | nil =>
    have h : ∀ v, c.mayLose p v = false := fun v => by simpa using not_congr (hm v)
    exact ⟨by simp [h], fun v => by simp [h]⟩
  | cons a l =>
    obtain ⟨v, e, hv, hw⟩ := c.foldl_richer l a (List.pairwise_cons.mp hs).1 (List.pairwise_cons.mp hs).2
    rw [List.foldl_cons, show c.richer none a = some a from rfl, e]
    have hvm := (hm v).mp (by simpa using hv)
    refine ⟨by simpa using ⟨v, hvm⟩, fun u => ⟨fun h => ?_, fun h => ?_⟩⟩
    · cases h
      exact ⟨hvm, fun w h => hw w (by simpa using (hm w).mpr h)⟩
    · obtain ⟨hu, hall⟩ := h
      have h1 := hall v hvm
      have h2 := hw u (by simpa using (hm u).mpr hu)
      congr 1
      rcases h1 with h1 | h1 <;> rcases h2 with h2 | h2
      · omega
      · omega
      · omega
      · exact Fin.le_antisymm h2.2 h1.2

/-! ## The whole work (log 19) -/

/-- With no grant and no eviction to make, the cache changes nothing. -/
theorem State.settleCache_id {s : State} (h : ∀ p, s.considerFetch p = s ∧ s.evictFor p = s) : s.settleCache = s := by
  have each : ∀ (l : List PortId) (f : PortId → State → State), (∀ p, f p s = s) → s.each l f = s := by
    intro l f hf
    induction l with
    | nil => rfl
    | cons a l ih => show (f a s).each l f = s; rw [hf a]; exact ih
  have h1 : s.grantFetches = s := each _ _ fun p => (h p).1
  have h2 : s.cachePass = s := by
    unfold State.cachePass
    rw [h1]
    exact each _ _ fun p => (h p).2
  unfold State.settleCache
  rw [h2, h2, h2, h2, h1]

end Sys2Proof.Machine
end

