-- ==== Sys2Proof/Laws/Framing.lean ====
section
/-! SUPPORT. What a framing verdict does to a receiver in UP, by the fate of the segment it ends (R42, R45). -/

namespace Sys2Proof.Machine

/-- The FRAMING incident of a receiver whose link state stays. -/
theorem withFraming_setRx (s : State) (r : ReceiverId) (x : Receiver) (cause : Nat) (h : Option SegmentHeader)
    (hl : x.link = (s.rx r).link) : (s.setRx r x).withFraming r cause h = (s.withFraming r cause h).setRx r x := by
  have : (s.setRx r x).inService r = s.inService r := by
    unfold State.inService; simp [hl]
  unfold State.withFraming
  rw [this]
  split
  · split <;> exact post_setRx _ _ _ _ _ _ _
  · rfl

/-- Posting it leaves every receiver as it is. -/
theorem withFraming_rx (s : State) (r k : ReceiverId) (cause : Nat) (h : Option SegmentHeader) :
    (s.withFraming r cause h).rx k = s.rx k := by
  unfold State.withFraming; split
  · split <;> simp
  · rfl

/-- What the framer posts is the FRAMING incident of its cause. -/
theorem postFraming_eq (s : State) (r : ReceiverId) (cause : FramingCause) (h : Option SegmentHeader) :
    s.postFraming r cause h = s.withFraming r cause.code h := by
  unfold State.postFraming State.withFraming framingDetail
  split
  · cases h <;> simp
  · rfl

/-- A framing verdict on the framer left at `after`. -/
theorem framingVerdict_eq (s : State) (r : ReceiverId) (o : OpenSegment) (cause : FramingCause) (after : Framer) :
    ((o.fate = .watched ∨ o.fate = .passedOver ∨ o.fate = .misrouted) →
      (s.setFramer r after).framingVerdict r o cause = s.setRx r { s.rx r with framer := after }) ∧
    (o.fate = .pending → (s.setFramer r after).framingVerdict r o cause =
      (s.setRx r { s.rx r with framer := after }).withFraming r cause.code none) ∧
    (o.fate = .discarded → (s.setFramer r after).framingVerdict r o cause =
      (s.setRx r { s.rx r with framer := after }).withFraming r cause.code o.header) ∧
    ∀ g, o.fate = .stored → (s.rx r).newest = some g → (∀ f, (s.rx r).head = some f → f.place = .waiting ∨ f.payload ≠ []) →
      (s.setFramer r after).framingVerdict r o cause = (s.setRx r
        { (s.rx r).setNewest { g with verdict := some .framing } with framer := after }).withFraming r cause.code
          o.header := by
  refine ⟨?_, ?_, ?_, ?_⟩
  · rintro (h | h | h) <;> simp [State.framingVerdict, h, State.setFramer]
  · intro h; simp [State.framingVerdict, h, State.setFramer, postFraming_eq]
  · intro h; simp [State.framingVerdict, h, State.setFramer, postFraming_eq]
  · intro g h hn hw
    unfold State.framingVerdict State.setFramer State.holdVerdict
    rw [h]
    dsimp only
    rw [postFraming_eq, withFraming_rx, State.setRx_rx_self]
    have : ({ s.rx r with framer := after } : Receiver).newest = some g := hn
    rw [this]
    dsimp only
    rw [State.settleVerdict_waiting]
    · rw [withFraming_setRx _ _ _ _ _ (by rfl), withFraming_setRx _ _ _ _ _ (by rfl), State.setRx_setRx]
      rfl
    · rw [State.setRx_rx_self]
      exact Receiver.head_setNewest _ g _ hn rfl rfl hw

/-- A command whose effect is a framing verdict ends the segment with a framing error. -/
theorem framingEnds_of {c : Instr} {s : State} {r : ReceiverId} {cause : FramingCause} {after : Framer}
    (h : ∀ o, (s.rx r).framer = .segment o →
      exec c s = .next ((s.setFramer r after).framingVerdict r o cause).settleCache) :
    FramingEnds c s r cause.code after := by
  intro o u ho eu
  obtain ⟨a, b, d, e⟩ := framingVerdict_eq s r o cause after
  rw [h o ho]
  subst eu
  exact ⟨fun x => by rw [a x], fun x => by rw [b x], fun x => by rw [d x], fun g x y z => by rw [e g x y z]⟩

/-- A framing verdict on an accepted segment whose words are all written is delivered at once (R47). -/
theorem framingVerdict_delivers {s : State} {r : ReceiverId} {o : OpenSegment} {g : BufferedSegment} (cause : FramingCause)
    (after : Framer) (h : o.fate = .stored) (hn : (s.rx r).newest = some g) :
    (s.setFramer r after).framingVerdict r o cause = ((s.setRx r
      { (s.rx r).setNewest { g with verdict := some .framing } with framer := after }).withFraming r cause.code
        o.header).settleVerdict r := by
  unfold State.framingVerdict State.setFramer State.holdVerdict
  rw [h]
  dsimp only
  rw [postFraming_eq, withFraming_rx, State.setRx_rx_self]
  have : ({ s.rx r with framer := after } : Receiver).newest = some g := hn
  rw [this]
  dsimp only
  rw [withFraming_setRx _ _ _ _ _ (by rfl), withFraming_setRx _ _ _ _ _ (by rfl), State.setRx_setRx]
  rfl

/-- A command whose effect is a framing verdict delivers the verdict of a segment whose words are all written. -/
theorem framingDelivers_of {c : Instr} {s : State} {r : ReceiverId} {cause : FramingCause} {after : Framer}
    (h : ∀ o, (s.rx r).framer = .segment o →
      exec c s = .next ((s.setFramer r after).framingVerdict r o cause).settleCache) :
    FramingDelivers c s r cause.code after := by
  intro o g ho hs hn _ _ _
  rw [h o ho, framingVerdict_delivers cause after hs hn]

end Sys2Proof.Machine
end

