-- ==== Sys2Proof/Laws/LinkLoss.lean ====
section
/-! SUPPORT. What a link-loss notice makes of the state (R25, R38). -/

namespace Sys2Proof.Machine

/-- Members of a vector replaced one after another, each once. -/
theorem foldl_set {α : Type} {n : Nat} (f : α → α) (l : List (Fin n)) (hl : l.Nodup) (x : Vector α n) :
    l.foldl (fun v i => v.set i (f v[i])) x = Vector.ofFn fun i => if i ∈ l then f x[i] else x[i] := by
  induction l generalizing x with
  | nil => ext i hi; simp
  | cons a l ih =>
    rw [List.foldl_cons, ih (List.nodup_cons.1 hl).2]
    ext i hi
    rw [Vector.getElem_ofFn, Vector.getElem_ofFn]
    by_cases e : (⟨i, hi⟩ : Fin n) = a
    · subst e
      have := (List.nodup_cons.1 hl).1
      simp [this]
    · have e' : a.val ≠ i := fun h => e (Fin.ext h.symm)
      simp [e, e']

/-- A loop that replaces contexts changes nothing else. -/
theorem each_contexts (f : Context → Context) (l : List SlotId) (d : State) :
    (d.each l fun i u => u.setCtx i (f (u.ctx i))) =
      { d with contexts := l.foldl (fun (v : Vector Context 64) (i : SlotId) => v.set i (f v[i])) d.contexts } := by
  induction l generalizing d with
  | nil => rfl
  | cons a l ih =>
    show State.each l _ (d.setCtx a (f (d.ctx a))) = _
    rw [ih]
    rfl

/-- A loop that replaces each context of a list, each once. -/
theorem each_setCtx (f : Context → Context) (l : List SlotId) (hl : l.Nodup) (d : State) :
    (d.each l fun i u => u.setCtx i (f (u.ctx i))) =
      { d with contexts := Vector.ofFn fun i => if i ∈ l then f (d.ctx i) else d.ctx i } := by
  rw [each_contexts, foldl_set f l hl]
  rfl

/-- The slot of a slice number past another. -/
theorem slotOf_val (f : Slice) (k : Nat) : (slotOf (f + BitVec.ofNat 32 k)).val = (f.toNat + k) % 64 := by
  unfold slotOf
  simp [BitVec.toNat_add]

/-- In slice order from the frontier no slot comes twice (R2). -/
theorem slots_nodup (s : State) : s.slotsInOrder.Nodup := by
  unfold State.slotsInOrder
  refine List.Nodup.map_on ?_ List.nodup_range
  intro a ha b hb h
  have := congrArg Fin.val h
  rw [slotOf_val, slotOf_val] at this
  simp at ha hb
  omega

/-- In slice order from the frontier every slot comes (R2). -/
theorem slots_mem (s : State) (i : SlotId) : i ∈ s.slotsInOrder := by
  unfold State.slotsInOrder
  rw [List.mem_map]
  refine ⟨(i.val + 64 - s.frontier.toNat % 64) % 64, by simp; omega, ?_⟩
  apply Fin.ext
  rw [slotOf_val]
  have := i.isLt
  omega

/-- What a link-loss notice makes of the state (R25). -/
theorem linkLoss_notice (s : State) (r : ReceiverId) (q : SourceId) : LinkLossNotice r q s (s.linkLoss r q) := by
  have kc : (s.rollback r).contexts = s.contexts :=
    rollback_keeps State.contexts (fun s n page => freePage_keeps State.contexts (fun _ _ _ => rfl) (fun _ _ _ => rfl)
      (fun _ _ => rfl) (fun _ _ => rfl) (fun _ _ => rfl) (fun _ _ => rfl) s n page) (fun _ _ => rfl) (fun _ _ _ => rfl) s r
  have kf : (s.rollback r).frontier = s.frontier :=
    rollback_keeps State.frontier (fun s n page => freePage_keeps State.frontier (fun _ _ _ => rfl) (fun _ _ _ => rfl)
      (fun _ _ => rfl) (fun _ _ => rfl) (fun _ _ => rfl) (fun _ _ => rfl) s n page) (fun _ _ => rfl) (fun _ _ _ => rfl) s r
  unfold LinkLossNotice
  obtain ⟨d, hd⟩ : ∃ d, d = (s.rollback r).setCurrent r none := ⟨_, rfl⟩
  refine ⟨fun i => s.losesSource q i, d, _, fun i => ?_, hd, rfl, ?_⟩
  · unfold State.losesSource; simp
  unfold State.linkLoss
  dsimp only
  have hdc : ∀ i, d.ctx i = s.ctx i := fun i => by
    rw [hd]; unfold State.setCurrent; rw [State.setRx_ctx]; unfold State.ctx; rw [kc]
  have hdf : d.slotsInOrder = s.slotsInOrder := by
    unfold State.slotsInOrder; rw [hd]; unfold State.setCurrent; rw [State.setRx_frontier, kf]
  have hl : ∀ i, d.losesSource q i = s.losesSource q i := fun i => by unfold State.losesSource; rw [hdc]
  have hm : ∀ i, d.lossMatters q i = s.lossMatters q i := fun i => by unfold State.lossMatters; rw [hdc]
  rw [← hd]
  rw [each_setCtx (fun c => c.dropSource q) _ ((slots_nodup d).filter _)]
  have hfun : (d.losesSource q) = (s.losesSource q) := funext hl
  have hfun2 : (d.lossMatters q) = (s.lossMatters q) := funext hm
  rw [hfun, hfun2, hdf]
  have hctx : (Vector.ofFn fun i =>
      if i ∈ List.filter (s.losesSource q) s.slotsInOrder then (d.ctx i).dropSource q else d.ctx i) =
    Vector.ofFn fun i =>
        if s.losesSource q i = true then
          { (s.ctx i).setChain q { (s.ctx i).chain q with
              state := if ((s.ctx i).chain q).state = .receiving then .partial_ else .none } with
            expected := (s.ctx i).expected &&& ~~~(1#24 <<< q.val)
            dropped := if member (s.ctx i).expected q = true then (s.ctx i).dropped ||| 1#24 <<< q.val
              else (s.ctx i).dropped }
        else s.ctx i := by
    congr 1
    funext i
    rw [hdc]
    simp only [List.mem_filter, slots_mem, true_and]
    split
    · next h =>
      have hb : ((s.ctx i).chain q).broken = { (s.ctx i).chain q with
              state := if ((s.ctx i).chain q).state = .receiving then .partial_ else .none } := by
        unfold Chain.broken
        unfold State.losesSource at h
        cases hc : (s.ctx i).chain q with
        | mk st a b c e =>
          rw [hc] at h
          cases st <;> simp [ChainState.final] at h ⊢
      unfold Context.dropSource
      rw [hb]
      dsimp only
      split
      · rfl
      · next hmem =>
        have : (s.ctx i).expected &&& ~~~(1#24 <<< q.val) = (s.ctx i).expected := by
          unfold member at hmem
          refine BitVec.eq_of_getLsbD_eq fun j hj => ?_
          rw [BitVec.getLsbD_and, BitVec.getLsbD_not, BitVec.getLsbD_shiftLeft, BitVec.getLsbD_one]
          by_cases e : j = q.val
          · subst e
            rw [Bool.eq_false_iff.2 hmem]; rfl
          · by_cases h : j < q.val
            · simp [h, hj]
            · have h' : ¬ (j - q.val = 0) := by omega
              simp [h, hj, h']
        rw [this]
        rfl
    · rfl
  rw [hctx]
  unfold State.each
  rw [List.foldl_filter, List.foldl_filter]
  have hf : (fun (w : State) (i : SlotId) => if s.losesSource q i = true then
        if s.lossMatters q i = true then w.closureCheck i else w else w) =
      fun w i => if s.losesSource q i = true ∧ (member (s.ctx i).expected q = true ∨
        ((s.ctx i).chain q).state = .receiving) then w.closureCheck i else w := by
    funext w i
    have hm : s.lossMatters q i = true ↔
        member (s.ctx i).expected q = true ∨ ((s.ctx i).chain q).state = .receiving := by
      unfold State.lossMatters; simp
    by_cases h1 : s.losesSource q i = true
    · by_cases h2 : s.lossMatters q i = true
      · rw [if_pos h1, if_pos h2, if_pos ⟨h1, hm.1 h2⟩]
      · rw [if_pos h1, if_neg h2, if_neg fun h => h2 (hm.2 h.2)]
    · rw [if_neg h1, if_neg fun h => h1 h.1]
  rw [← hf]
  rfl

/-- What becomes of the slice table and the link when a receiver leaves UP, but for the incident (R38). -/
theorem leaveUp_drops (s : State) (r : ReceiverId) (why : UpLoss) :
    ∃ v, SourceDropsOut r (s.setRx r ((s.rx r).barredWith why.reason (s.timerFor s.barTime))) v ∧
      s.leaveUp r why = v.postUpLoss r why := by
  unfold State.leaveUp
  dsimp only
  split
  · next q hq => exact ⟨_, ⟨fun h => absurd (hq.symm.trans h) (by simp), fun k hk => by
      rw [hq] at hk; cases hk; exact linkLoss_notice _ r q⟩, rfl⟩
  · next hq => exact ⟨_, ⟨fun _ => rfl, fun k hk => by rw [hq] at hk; cases hk⟩, rfl⟩

end Sys2Proof.Machine
end

