-- ==== Sys2Proof/Laws/Messages.lean ====
section
/-! SUPPORT. What the words of a builder message are read as (R154, R196), and the fields of a word the part sends
(R192). -/

namespace Sys2Proof.Machine

/-- A field of a word is its run of bits (R192). -/
theorem ofNat_bits (w : Word) (lsb n : Nat) : BitVec.ofNat n (bits w lsb n) = w.extractLsb' lsb n := by
  apply BitVec.eq_of_toNat_eq
  simp [bits, BitVec.extractLsb']

/-- The number a field holds. -/
theorem bits_eq_toNat (w : Word) (lsb n : Nat) : bits w lsb n = (w.extractLsb' lsb n).toNat := by
  rw [← ofNat_bits, BitVec.toNat_ofNat, Nat.mod_eq_of_lt]
  exact Nat.mod_lt _ (by positivity)

/-- The tag of a READ-DATA is bits 16 to 23 of its word 0. -/
theorem messageTag_eq (w0 : Word) : messageTag w0 = w0.extractLsb' 16 8 := ofNat_bits w0 16 8

/-- The lengths of a message without further words. -/
theorem noFurtherWord_isNone (c : Instr) (l : List Word) : (noFurtherWord c l).isNone = decide (l.length ≠ 0) := by
  cases l <;> simp [noFurtherWord]

/-- The lengths of a message with one further word. -/
theorem oneFurtherWord_isNone (f : Word → Instr) (l : List Word) :
    (oneFurtherWord f l).isNone = decide (l.length ≠ 1) := by
  match l with
  | [] => rfl
  | [_] => rfl
  | _ :: _ :: l => simp [oneFurtherWord]

/-- The lengths of a message with two further words. -/
theorem twoFurtherWords_isNone (f : Word → Word → Instr) (l : List Word) :
    (twoFurtherWords f l).isNone = decide (l.length ≠ 2) := by
  match l with
  | [] => rfl
  | [_] => rfl
  | [_, _] => rfl
  | _ :: _ :: _ :: l => simp [twoFurtherWords]

/-- Whether a message is malformed does not depend on the port. -/
theorem messageCommand_isNone (p : PortId) (message : List Word) : (messageCommand p message).isNone = malformed message := by
  cases message with
  | nil => rfl
  | cons w0 rest =>
    unfold malformed messageCommand
    dsimp only
    split <;> first
      | rfl
      | simp only [noFurtherWord_isNone, oneFurtherWord_isNone, twoFurtherWords_isNone]

/-- A message is not malformed by its type code and its length just in these cases (R154, R196). -/
theorem malformed_eq_false (w0 : Word) (data : List Word) : malformed (w0 :: data) = false ↔
    data.length = 0 ∧ (bits w0 0 8 = 0x02 ∨ bits w0 0 8 = 0x11 ∨ bits w0 0 8 = 0x18) ∨
      data.length = 1 ∧ (bits w0 0 8 = 0x03 ∨ bits w0 0 8 = 0x10 ∨ bits w0 0 8 = 0x13 ∨ bits w0 0 8 = 0x21) ∨
      data.length = 2 ∧ (bits w0 0 8 = 0x01 ∨ bits w0 0 8 = 0x12) ∨ bits w0 0 8 = 0x20 := by
  unfold malformed messageCommand
  dsimp only
  generalize bits w0 0 8 = k
  split <;> simp only [noFurtherWord_isNone, oneFurtherWord_isNone, twoFurtherWords_isNone, Option.isNone_some,
    Option.isNone_none, decide_eq_false_iff_not] <;> simp_all

/-! ## The words the part sends -/

/-- The bits of a field (R192). -/
theorem fieldAt_getLsbD (lsb v i : Nat) (hi : i < 64) :
    (fieldAt lsb v).getLsbD i = (decide (lsb ≤ i) && v.testBit (i - lsb)) := by
  unfold fieldAt
  rw [BitVec.getLsbD_shiftLeft, BitVec.getLsbD_ofNat]
  rcases Nat.lt_or_ge i lsb with h | h
  · simp [h]
  · have e : i - lsb < 64 := by omega
    simp [h, hi, e, Nat.not_lt.2 h]

/-- A number that fits its field has no bit past it. -/
theorem testBit_past {v n k : Nat} (h : v < 2 ^ n) (hk : n ≤ k) : v.testBit k = false :=
  Nat.testBit_lt_two_pow (lt_of_lt_of_le h (Nat.pow_le_pow_right (by decide) hk))

/-- A word made of ascending fields, each of a number that fits, is laid out in them (R192). -/
theorem Laid.of_fields : ∀ (l : List (Nat × Nat × Nat)), l.Pairwise (fun a b => a.1 + a.2.1 ≤ b.1) →
    (∀ f ∈ l, f.2.2 < 2 ^ f.2.1 ∧ f.1 + f.2.1 ≤ 64) →
    Laid (l.foldr (fun f w => fieldAt f.1 f.2.2 ||| w) 0) l
  | [], _, _ => ⟨fun f h => (List.not_mem_nil h).elim, fun i _ => by simp⟩
  | f :: l, ho, hf => by
    obtain ⟨h1, h2⟩ := Laid.of_fields l (List.Pairwise.of_cons ho) fun g hg => hf g (List.mem_cons_of_mem f hg)
    obtain ⟨hv, hw⟩ := hf f List.mem_cons_self
    have ha := (List.pairwise_cons.1 ho).1
    rw [List.foldr_cons]
    generalize l.foldr (fun f w => fieldAt f.1 f.2.2 ||| w) 0 = w at *
    refine ⟨fun g hg => ?_, fun i hi => ?_⟩
    · rcases List.mem_cons.1 hg with e | hg
      · subst e
        have : (fieldAt g.1 g.2.2 ||| w).extractLsb' g.1 g.2.1 = BitVec.ofNat g.2.1 g.2.2 := by
          refine BitVec.eq_of_getLsbD_eq fun i hi => ?_
          rw [BitVec.getLsbD_extractLsb', BitVec.getLsbD_or, fieldAt_getLsbD _ _ _ (by omega), BitVec.getLsbD_ofNat,
            h2 (g.1 + i) fun k hk => .inl (by have := ha k hk; omega)]
          simp [hi]
        rw [this, BitVec.toNat_ofNat, Nat.mod_eq_of_lt hv]
      · rw [← h1 g hg]
        congr 1
        refine BitVec.eq_of_getLsbD_eq fun i hi => ?_
        have hb := (hf g (List.mem_cons_of_mem f hg)).2
        have ho := ha g hg
        rw [BitVec.getLsbD_extractLsb', BitVec.getLsbD_extractLsb', BitVec.getLsbD_or, fieldAt_getLsbD _ _ _ (by omega),
          testBit_past hv (by omega)]
        simp
    · rcases Nat.lt_or_ge i 64 with hi' | hi'
      · rw [BitVec.getLsbD_or, h2 i fun g hg => hi g (List.mem_cons_of_mem f hg), fieldAt_getLsbD _ _ _ hi']
        rcases hi f List.mem_cons_self with h | h
        · simp [Nat.not_le.2 h]
        · simp [testBit_past hv (show f.2.1 ≤ i - f.1 by omega)]
      · exact BitVec.getLsbD_of_ge _ _ hi'

/-- A one-bit field holds 0 or 1 (R192). -/
theorem flagAt_eq (lsb : Nat) (b : Bool) : flagAt lsb b = fieldAt lsb b.toNat := by
  cases b
  · simp [flagAt, fieldAt]
  · rfl

end Sys2Proof.Machine
end

