-- ==== Sys2Proof/Laws/Opening.lean ====
section
/-! SUPPORT. What opening slices does (R7, R8, R29): one slice, several, and toward a number. -/

namespace Sys2Proof.Machine

/-- With a source to expect, a context of no data is not closed by its check (R20). -/
theorem closureCheck_unfilled {s : State} {i : SlotId} (hc : (s.ctx i).chains = Vector.replicate 24 Chain.none)
    (he : (s.ctx i).expected ≠ 0) : s.closureCheck i = s := by
  unfold State.closureCheck
  rw [if_neg]
  rintro ⟨-, hf⟩
  apply he
  unfold Context.allFinal at hf
  rw [List.all_eq_true] at hf
  apply BitVec.eq_of_getLsbD_eq
  intro q hq
  have := hf ⟨q, hq⟩ (List.mem_finRange _)
  unfold Context.chain at this
  rw [hc] at this
  simpa [member, Chain.none, ChainState.final] using this

/-- With a source to expect, opening the next slice opens it and closes nothing (R7, R4, R20). -/
theorem openNext_expecting {s : State} (he : s.expectedNow ≠ 0) :
    s.openNext = (s.setCtx (slotOf (s.newestOpened + 1)) (s.openedContext (s.newestOpened + 1))).setNewestOpened
      (s.newestOpened + 1) := by
  unfold State.openNext
  dsimp only
  rw [closureCheck_unfilled]
  · simp [State.openedContext, Context.unopened]
  · simp [State.openedContext]; exact he

/-- Within the window, a slot's distance from the frontier's slot is its slice's distance from the frontier (R3). -/
theorem slotOf_add (f : Slice) (j : Nat) (hj : j < 64) (i : SlotId) :
    i = slotOf (f + BitVec.ofNat 32 j) ↔ (i - slotOf f).val = j := by
  unfold slotOf
  rw [Fin.ext_iff]
  simp only [BitVec.toNat_add, BitVec.toNat_ofNat, Fin.sub_def]
  have := i.isLt
  omega

/-- The state once the slices `a` to `b − 1` after the frontier are opened, with a source to expect (R7, R4). -/
def State.openedTo (s : State) (a b : Nat) : State :=
  { s with
    newestOpened := s.frontier + BitVec.ofNat 32 b - 1
    contexts := Vector.ofFn fun i : SlotId =>
      if a ≤ (i - slotOf s.frontier).val ∧ (i - slotOf s.frontier).val < b then
        s.openedContext (s.frontier + BitVec.ofNat 32 (i - slotOf s.frontier).val)
      else s.ctx i }

/-- With a source to expect, slices opened one after the other are all OPEN (R7). -/
theorem openNext_each {s : State} (he : s.expectedNow ≠ 0) (a : Nat) (ha : a = s.openCount) : ∀ j, a + j ≤ 64 →
    (List.range j).foldl (fun t _ => t.openNext) s = s.openedTo a (a + j) := by
  have hn : s.newestOpened = s.frontier + BitVec.ofNat 32 a - 1 := by
    have : BitVec.ofNat 32 a = s.newestOpened - s.frontier + 1 := by
      rw [ha]; unfold State.openCount; rw [BitVec.ofNat_toNat, BitVec.setWidth_eq]
    rw [this]; bv_omega
  intro j
  induction j with
  | zero =>
    intro _
    have hc : (Vector.ofFn fun i : SlotId =>
        if a ≤ (i - slotOf s.frontier).val ∧ (i - slotOf s.frontier).val < a then
          s.openedContext (s.frontier + BitVec.ofNat 32 (i - slotOf s.frontier).val) else s.ctx i) = s.contexts := by
      apply Vector.ext
      intro i hi
      rw [Vector.getElem_ofFn, if_neg (by omega)]
      rfl
    rw [Nat.add_zero]
    unfold State.openedTo
    rw [hc, ← hn]
    rfl
  | succ j ih =>
    intro hj
    rw [List.range_succ, List.foldl_append, ih (by omega), List.foldl_cons, List.foldl_nil]
    have he' : (s.openedTo a (a + j)).expectedNow = s.expectedNow := rfl
    rw [openNext_expecting (by rw [he']; exact he)]
    have hnew : (s.openedTo a (a + j)).newestOpened + 1 = s.frontier + BitVec.ofNat 32 (a + j) := by
      show s.frontier + BitVec.ofNat 32 (a + j) - 1 + 1 = _
      bv_omega
    rw [hnew]
    have hoc : (s.openedTo a (a + j)).openedContext (s.frontier + BitVec.ofNat 32 (a + j)) =
        s.openedContext (s.frontier + BitVec.ofNat 32 (a + j)) := rfl
    rw [hoc]
    have h1 : s.frontier + BitVec.ofNat 32 (a + j) = s.frontier + BitVec.ofNat 32 (a + (j + 1)) - 1 := by
      have : BitVec.ofNat 32 (a + (j + 1)) = BitVec.ofNat 32 (a + j) + 1 := by
        rw [← Nat.add_assoc, BitVec.ofNat_add]; rfl
      rw [this]
      generalize BitVec.ofNat 32 (a + j) = y
      rw [← BitVec.add_assoc, BitVec.add_sub_cancel]
    suffices hv : (s.openedTo a (a + j)).contexts.set (slotOf (s.frontier + BitVec.ofNat 32 (a + j)))
        (s.openedContext (s.frontier + BitVec.ofNat 32 (a + j))) = (s.openedTo a (a + (j + 1))).contexts by
      unfold State.setNewestOpened State.setCtx
      rw [hv, h1]
      unfold State.openedTo
      dsimp only
    · unfold State.openedTo
      dsimp only
      apply Vector.ext
      intro i hi
      rw [Vector.getElem_set, Vector.getElem_ofFn, Vector.getElem_ofFn]
      have hs := slotOf_add s.frontier (a + j) (by omega) ⟨i, hi⟩
      by_cases e : (⟨i, hi⟩ - slotOf s.frontier : SlotId).val = a + j
      · rw [if_pos (by rw [← hs.mpr e]), if_pos (by omega), e]
      · rw [if_neg (fun h => e (hs.mp (Fin.ext h.symm)))]
        by_cases h2 : a ≤ (⟨i, hi⟩ - slotOf s.frontier : SlotId).val ∧
            (⟨i, hi⟩ - slotOf s.frontier : SlotId).val < a + j
        · rw [if_pos h2, if_pos (by omega)]
        · rw [if_neg h2, if_neg (by omega)]

/-- Slices are opened through an in-window number, or through the frontier plus 63 for an early one, and none for a late one
or outside RUNNING (R8, R29). -/
theorem openToward_cases (s : State) (n : Slice) :
    (s.run ≠ .running ∨ 2 ^ 31 ≤ distance s.frontier n → s.openToward n = s) ∧
    (s.run = .running → distance s.frontier n < 2 ^ 31 →
      s.openToward n =
        (List.range (min (distance s.frontier n) 63 + 1 - s.openCount)).foldl (fun t _ => t.openNext) s) := by
  refine ⟨fun h => ?_, fun hr hd => ?_⟩
  · unfold State.openToward
    rcases h with h | h
    · rw [if_neg h]
    · split
      · have : s.classify n = .late := by
          unfold State.classify; dsimp only; rw [if_neg (by omega), if_neg (by omega)]
        rw [this]
      · rfl
  · unfold State.openToward
    rw [if_pos hr]
    by_cases h : distance s.frontier n < 64
    · have : s.classify n = .inWindow := by
        unfold State.classify; dsimp only; rw [if_pos h]
      rw [this, Nat.min_eq_left (by omega)]
      rfl
    · have : s.classify n = .early := by
        unfold State.classify; dsimp only; rw [if_neg h, if_pos hd]
      rw [this, Nat.min_eq_right (by omega)]
      have hd : distance s.frontier (s.frontier + 63) = 63 := by
        unfold distance
        have : s.frontier + 63 - s.frontier = 63 := by bv_omega
        rw [this]; rfl
      show s.openThrough (s.frontier + 63) = _
      unfold State.openThrough
      rw [hd]
      rfl

end Sys2Proof.Machine
end

