-- ==== Sys2Proof/WellFormed.lean ====
section
/-! DEFINITION. Which terms of Instr stand for a command of the table: the conditions on the operands that the types do
not already carry. -/

namespace Sys2Proof

open Sys2Proof.Machine

/-- A damage list names places in strictly rising order, from `lo` on. -/
def risingFrom : Nat → List (Nat × WordCondition) → Bool
  | _, [] => true
  | lo, (k, _) :: rest => lo ≤ k && risingFrom (k + 1) rest

/-- A damage list of a WRITE: rising places among its at most 32 words, and damage at each (R72, R113). -/
def damageWf (found : List (Nat × WordCondition)) : Bool :=
  risingFrom 0 found && found.all fun f => f.1 < 32 && f.2 != .sound

/-- An item that has a commit row of its own. A commit of RUN with a value that is no command is an ITEM_COMMIT, so RUN is
not among them (R172). -/
def hasOwnRow : ItemName → Bool
  | .slot | .linkmap _ | .pressure | .steer _ | .dispatch | .cache | .outputs => true
  | .run | .assembly | .linktime | .portcfg _ | .linkstat _ | .portstat _ | .store | .retired _ | .slicestat _ => false

/-- An ITEM_COMMIT names no item that has a commit row of its own. -/
def commitWf (item : Option ItemName) : Bool :=
  match item with
  | some n => !hasOwnRow n
  | none => true

/-- The well-formed commands. -/
def Instr.wf (i : Instr) : Bool :=
  match i with
  | .write _ found => damageWf found
  | .malformedMessage _ message => malformed message
  | .itemCommit _ table number => commitWf (ItemName.ofCodes table number)
  | _ => true

end Sys2Proof
end

