-- ==== Sys2Proof/Laws/PerInstr.lean ====
section
/-! SUPPORT. The per-command family WellFormed: what the well-formedness check of each row says, in words of its own. -/

namespace Sys2Proof.Laws

open Sys2Proof.Machine

/-- The condition on a row's operands that Instr.wf decides. -/
def WellFormed.Condition : Instr → Prop
  | .write _ found => found.Pairwise (fun f g => f.1 < g.1) ∧ ∀ f ∈ found, f.1 < 32 ∧ f.2 ≠ .sound
  | .malformedMessage _ message => malformed message = true
  | .itemCommit _ table number => ∀ n, ItemName.ofCodes table number = some n → hasOwnRow n = false
  | _ => True

/-- A row is well formed just when its operands meet their condition. -/
def WellFormed.Statement (i : Instr) : Prop := i.wf = true ↔ WellFormed.Condition i

theorem risingFrom_iff (lo : Nat) (found : List (Nat × WordCondition)) :
    risingFrom lo found = true ↔ (∀ f ∈ found, lo ≤ f.1) ∧ found.Pairwise (fun f g => f.1 < g.1) := by
  induction found generalizing lo with
  | nil => simp [risingFrom]
  | cons a l ih =>
    obtain ⟨k, c⟩ := a
    simp only [risingFrom, Bool.and_eq_true, decide_eq_true_eq, ih, List.mem_cons, forall_eq_or_imp, List.pairwise_cons]
    constructor
    · rintro ⟨h, h1, h2⟩
      exact ⟨⟨h, fun f hf => by have := h1 f hf; omega⟩, fun f hf => by have := h1 f hf; omega, h2⟩
    · rintro ⟨⟨h, _⟩, h1, h2⟩
      exact ⟨h, fun f hf => h1 f hf, h2⟩

theorem damageWf_iff (found : List (Nat × WordCondition)) : damageWf found = true ↔
    found.Pairwise (fun f g => f.1 < g.1) ∧ ∀ f ∈ found, f.1 < 32 ∧ f.2 ≠ .sound := by
  simp [damageWf, risingFrom_iff]

theorem commitWf_iff (item : Option ItemName) : commitWf item = true ↔ ∀ n, item = some n → hasOwnRow n = false := by
  cases item <;> simp [commitWf]

theorem WellFormed.deviceReset : WellFormed.Statement .deviceReset := ⟨fun _ => trivial, fun _ => rfl⟩
theorem WellFormed.signalPresent (r : ReceiverId) : WellFormed.Statement (.signalPresent r) :=
  ⟨fun _ => trivial, fun _ => rfl⟩
theorem WellFormed.signalAbsent (r : ReceiverId) : WellFormed.Statement (.signalAbsent r) :=
  ⟨fun _ => trivial, fun _ => rfl⟩
theorem WellFormed.alignmentFound (r : ReceiverId) : WellFormed.Statement (.alignmentFound r) :=
  ⟨fun _ => trivial, fun _ => rfl⟩
theorem WellFormed.alignmentLost (r : ReceiverId) : WellFormed.Statement (.alignmentLost r) :=
  ⟨fun _ => trivial, fun _ => rfl⟩
theorem WellFormed.startSymbol (r : ReceiverId) : WellFormed.Statement (.startSymbol r) :=
  ⟨fun _ => trivial, fun _ => rfl⟩
theorem WellFormed.dataWord (r : ReceiverId) (w : Word) : WellFormed.Statement (.dataWord r w) :=
  ⟨fun _ => trivial, fun _ => rfl⟩
theorem WellFormed.brokenWord (r : ReceiverId) : WellFormed.Statement (.brokenWord r) :=
  ⟨fun _ => trivial, fun _ => rfl⟩
theorem WellFormed.idle (r : ReceiverId) : WellFormed.Statement (.idle r) := ⟨fun _ => trivial, fun _ => rfl⟩
theorem WellFormed.endSymbol (r : ReceiverId) : WellFormed.Statement (.endSymbol r) :=
  ⟨fun _ => trivial, fun _ => rfl⟩
theorem WellFormed.probationExpiry (r : ReceiverId) : WellFormed.Statement (.probationExpiry r) :=
  ⟨fun _ => trivial, fun _ => rfl⟩
theorem WellFormed.barExpiry (r : ReceiverId) : WellFormed.Statement (.barExpiry r) :=
  ⟨fun _ => trivial, fun _ => rfl⟩
theorem WellFormed.sliceStart (n : Slice) : WellFormed.Statement (.sliceStart n) := ⟨fun _ => trivial, fun _ => rfl⟩
theorem WellFormed.placement (r : ReceiverId) : WellFormed.Statement (.placement r) :=
  ⟨fun _ => trivial, fun _ => rfl⟩
theorem WellFormed.storeBurst : WellFormed.Statement .storeBurst := ⟨fun _ => trivial, fun _ => rfl⟩
theorem WellFormed.slotAdvance : WellFormed.Statement .slotAdvance := ⟨fun _ => trivial, fun _ => rfl⟩
theorem WellFormed.deadlineExpiry : WellFormed.Statement .deadlineExpiry := ⟨fun _ => trivial, fun _ => rfl⟩
theorem WellFormed.dispatchWaitElapse : WellFormed.Statement .dispatchWaitElapse := ⟨fun _ => trivial, fun _ => rfl⟩
theorem WellFormed.quietPeriodEnd (p : PortId) : WellFormed.Statement (.quietPeriodEnd p) :=
  ⟨fun _ => trivial, fun _ => rfl⟩
theorem WellFormed.write (p : PortId) (found : List (Nat × WordCondition)) : WellFormed.Statement (.write p found) :=
  damageWf_iff found
theorem WellFormed.portLinkUp (p : PortId) : WellFormed.Statement (.portLinkUp p) := ⟨fun _ => trivial, fun _ => rfl⟩
theorem WellFormed.portLinkDown (p : PortId) : WellFormed.Statement (.portLinkDown p) :=
  ⟨fun _ => trivial, fun _ => rfl⟩
theorem WellFormed.attach (p : PortId) (descriptorBase : Address) (k : BitVec 5) (completionBase : Address) (m : BitVec 5) :
    WellFormed.Statement (.attach p descriptorBase k completionBase m) :=
  ⟨fun _ => trivial, fun _ => rfl⟩
theorem WellFormed.detach (p : PortId) : WellFormed.Statement (.detach p) := ⟨fun _ => trivial, fun _ => rfl⟩
theorem WellFormed.announce (p : PortId) (producer consumed : Count) :
    WellFormed.Statement (.announce p producer consumed) :=
  ⟨fun _ => trivial, fun _ => rfl⟩
theorem WellFormed.readData (p : PortId) (tag : BitVec 8) (data : List Word) :
    WellFormed.Statement (.readData p tag data) :=
  ⟨fun _ => trivial, fun _ => rfl⟩
theorem WellFormed.readDataError (p : PortId) (tag : BitVec 8) (status : Word) :
    WellFormed.Statement (.readDataError p tag status) :=
  ⟨fun _ => trivial, fun _ => rfl⟩
theorem WellFormed.malformedMessage (p : PortId) (message : List Word) :
    WellFormed.Statement (.malformedMessage p message) :=
  Iff.rfl
theorem WellFormed.itemRead (p : PortId) (table number : BitVec 8) :
    WellFormed.Statement (.itemRead p table number) :=
  ⟨fun _ => trivial, fun _ => rfl⟩
theorem WellFormed.itemReadNext (p : PortId) : WellFormed.Statement (.itemReadNext p) :=
  ⟨fun _ => trivial, fun _ => rfl⟩
theorem WellFormed.itemStage (p : PortId) (index : BitVec 8) (value : Word) :
    WellFormed.Statement (.itemStage p index value) :=
  ⟨fun _ => trivial, fun _ => rfl⟩
theorem WellFormed.itemCommit (p : PortId) (table number : BitVec 8) :
    WellFormed.Statement (.itemCommit p table number) :=
  commitWf_iff _
theorem WellFormed.start (p : PortId) : WellFormed.Statement (.start p) := ⟨fun _ => trivial, fun _ => rfl⟩
theorem WellFormed.stop (p : PortId) : WellFormed.Statement (.stop p) := ⟨fun _ => trivial, fun _ => rfl⟩
theorem WellFormed.flush (p : PortId) : WellFormed.Statement (.flush p) := ⟨fun _ => trivial, fun _ => rfl⟩
theorem WellFormed.pressureCommit (p : PortId) : WellFormed.Statement (.pressureCommit p) :=
  ⟨fun _ => trivial, fun _ => rfl⟩
theorem WellFormed.steerCommit (p : PortId) (i : SlotId) : WellFormed.Statement (.steerCommit p i) :=
  ⟨fun _ => trivial, fun _ => rfl⟩
theorem WellFormed.dispatchCommit (p : PortId) : WellFormed.Statement (.dispatchCommit p) :=
  ⟨fun _ => trivial, fun _ => rfl⟩
theorem WellFormed.cacheCommit (p : PortId) : WellFormed.Statement (.cacheCommit p) :=
  ⟨fun _ => trivial, fun _ => rfl⟩
theorem WellFormed.linkmapCommit (p : PortId) (r : ReceiverId) : WellFormed.Statement (.linkmapCommit p r) :=
  ⟨fun _ => trivial, fun _ => rfl⟩
theorem WellFormed.slotCommit (p : PortId) : WellFormed.Statement (.slotCommit p) := ⟨fun _ => trivial, fun _ => rfl⟩
theorem WellFormed.outputsCommit (p : PortId) : WellFormed.Statement (.outputsCommit p) :=
  ⟨fun _ => trivial, fun _ => rfl⟩
theorem WellFormed.incidentTake (p : PortId) : WellFormed.Statement (.incidentTake p) :=
  ⟨fun _ => trivial, fun _ => rfl⟩

end Sys2Proof.Laws
end

