-- ==== Sys2Proof/Laws/Reading.lean ====
section
/-! SUPPORT. What an engine reads of the store with the damage it finds (R72, R73, R111), and one WRITE. -/

namespace Sys2Proof.Machine

/-! ## Where a word stands -/

/-- A word stands where the links and the chains of its slot say. -/
theorem State.locate_congr {s t : State} {i : SlotId} (hl : t.pool.links = s.pool.links)
    (hc : (t.ctx i).chains = (s.ctx i).chains) (j : Nat) : t.locate i j = s.locate i j := by
  have hn : ∀ n page, t.pool.nthPage n page = s.pool.nthPage n page := by
    intro n
    induction n with
    | zero => intro page; rfl
    | succ n ih =>
      intro page
      show t.pool.nthPage n (t.pool.linkOf page) = s.pool.nthPage n (s.pool.linkOf page)
      unfold PagePool.linkOf
      rw [hl]
      exact ih _
  unfold State.locate
  rw [hc]
  generalize (s.ctx i).chains.toList = l
  induction l generalizing j with
  | nil => rfl
  | cons c rest ih =>
    unfold PagePool.locate
    rw [ih, hn]

/-! ## Reading with the damage found -/

/-- The check changes neither the words, their conditions and the links, nor the chains of the slot. -/
theorem checked_frame (s : State) (p : PortId) (i : SlotId) (j page : Nat) (c : WordCondition) :
    (s.checked p i j page c).pool.store = s.pool.store ∧
      (s.checked p i j page c).pool.conditions = s.pool.conditions ∧
      (s.checked p i j page c).pool.links = s.pool.links ∧
      ((s.checked p i j page c).ctx i).chains = (s.ctx i).chains := by
  unfold State.checked
  split
  · exact ⟨rfl, rfl, rfl, rfl⟩
  · exact ⟨rfl, rfl, rfl, rfl⟩
  · refine ⟨?_, ?_, ?_, ?_⟩
    · rw [State.setCtx_pool, post_pool]; rfl
    · rw [State.setCtx_pool, post_pool]; rfl
    · rw [State.setCtx_pool, post_pool]; rfl
    · rw [State.setCtx_ctx_self, post_ctx]; rfl

/-- Words are read in order, each by its condition, and the check of each follows (R72, R73, R111). -/
theorem readWords_eq (d : State) (p : PortId) (i : SlotId) (first count : Nat) :
    d.readWords p i first count =
      ((List.range' first count).map (fun j =>
          givenWord (d.pool.conditionOf (d.wordPlace i j)) (Memory.readWord d.pool.store (d.wordPlace i j))),
        (List.range' first count).foldl (fun u j =>
          u.checked p i j (d.locate i j).1 (d.pool.conditionOf (d.wordPlace i j))) d) := by
  have key : ∀ (l : List Nat) (acc : List Word) (u : State), u.pool.store = d.pool.store →
      u.pool.conditions = d.pool.conditions → u.pool.links = d.pool.links → (u.ctx i).chains = (d.ctx i).chains →
      l.foldl (State.readWord p i) (acc, u) =
        (acc ++ l.map (fun j =>
            givenWord (d.pool.conditionOf (d.wordPlace i j)) (Memory.readWord d.pool.store (d.wordPlace i j))),
          l.foldl (fun u j => u.checked p i j (d.locate i j).1 (d.pool.conditionOf (d.wordPlace i j))) u) := by
    intro l
    induction l with
    | nil => intro acc u _ _ _ _; simp
    | cons j l ih =>
      intro acc u h1 h2 h3 h4
      have hp : u.locate i j = d.locate i j := State.locate_congr h3 h4 j
      have e : State.readWord p i (acc, u) j =
          (acc ++ [givenWord (d.pool.conditionOf (d.wordPlace i j)) (Memory.readWord d.pool.store (d.wordPlace i j))],
            u.checked p i j (d.locate i j).1 (d.pool.conditionOf (d.wordPlace i j))) := by
        unfold State.readWord State.wordPlace PagePool.conditionOf
        rw [hp, h1, h2]
      obtain ⟨k1, k2, k3, k4⟩ :=
        checked_frame u p i j (d.locate i j).1 (d.pool.conditionOf (d.wordPlace i j))
      rw [List.foldl_cons, e, ih _ _ (k1.trans h1) (k2.trans h2) (k3.trans h3) (k4.trans h4)]
      simp
  unfold State.readWords
  rw [key _ _ _ rfl rfl rfl rfl]
  simp

/-- Damage falls on conditions alone. -/
theorem damageFound_frame (s : State) (i : SlotId) (first count : Nat) (f : Nat × WordCondition) :
    (s.damageFound i first count f).pool.store = s.pool.store ∧
      (s.damageFound i first count f).pool.links = s.pool.links ∧
      (s.damageFound i first count f).contexts = s.contexts := by
  unfold State.damageFound
  split <;> exact ⟨rfl, rfl, rfl⟩

/-- What a WRITE reads is what WordsRead says (R72, R73, R111). -/
theorem wordsRead_iff (s t : State) (p : PortId) (i : SlotId) (first count : Nat) (found : List (Nat × WordCondition))
    (words : List Word) :
    WordsRead s p i first count found words t ↔
      (s.each found fun f u => u.damageFound i first count f).readWords p i first count = (words, t) := by
  have key : ∀ (l : List (Nat × WordCondition)) (u : State), u.pool.links = s.pool.links →
      u.pool.store = s.pool.store → u.contexts = s.contexts →
      l.foldl (fun u f =>
        if f.1 < count then u.setPool (u.pool.damage (s.wordPlace i (first + f.1)) f.2) else u) u =
        u.each l (fun f u => u.damageFound i first count f) ∧
      (u.each l fun f u => u.damageFound i first count f).pool.links = s.pool.links ∧
      (u.each l fun f u => u.damageFound i first count f).pool.store = s.pool.store ∧
      (u.each l fun f u => u.damageFound i first count f).contexts = s.contexts := by
    intro l
    induction l with
    | nil => intro u h1 h2 h3; exact ⟨rfl, h1, h2, h3⟩
    | cons f l ih =>
      intro u h1 h2 h3
      obtain ⟨k1, k2, k3⟩ := damageFound_frame u i first count f
      have e : (if f.1 < count then u.setPool (u.pool.damage (s.wordPlace i (first + f.1)) f.2) else u) =
          u.damageFound i first count f := by
        unfold State.damageFound State.wordPlace
        rw [State.locate_congr h1 (by unfold State.ctx; rw [h3])]
      rw [List.foldl_cons, e]
      exact ih _ (k2.trans h1) (k1.trans h2) (k3.trans h3)
  obtain ⟨e, h1, h2, h3⟩ := key found s rfl rfl rfl
  have hl : ∀ j, (s.each found fun f u => u.damageFound i first count f).locate i j = s.locate i j :=
    State.locate_congr h1 (by unfold State.ctx; rw [h3])
  have hw : ∀ j, (s.each found fun f u => u.damageFound i first count f).wordPlace i j = s.wordPlace i j := fun j => by
    unfold State.wordPlace; rw [hl]
  rw [readWords_eq, Prod.mk.injEq]
  simp only [hl, hw, h2]
  unfold WordsRead
  rw [e]
  constructor
  · rintro ⟨d, rfl, rfl, rfl⟩; exact ⟨rfl, rfl⟩
  · rintro ⟨rfl, rfl⟩; exact ⟨_, rfl, rfl, rfl⟩

/-- Reading leaves alone what neither the store, nor a context, nor an incident has a part in. -/
theorem WordsRead.keeps {α : Type} (g : State → α) (hp : ∀ u x, g (State.setPool u x) = g u)
    (hc : ∀ u i x, g (State.setCtx u i x) = g u) (hi : ∀ u k c n d, g (State.post u k c n d) = g u) {s t : State}
    {p : PortId} {i : SlotId} {first count : Nat} {found : List (Nat × WordCondition)} {words : List Word}
    (h : WordsRead s p i first count found words t) : g t = g s := by
  obtain ⟨d, rfl, -, rfl⟩ := h
  refine (each_keeps g _ (fun j u => u.checked p i j _ _) (fun j u => ?_) _).trans
    (each_keeps g found (fun f u =>
      if f.1 < count then u.setPool (u.pool.damage (s.wordPlace i (first + f.1)) f.2) else u) (fun f u => ?_) s)
  · unfold State.checked
    split
    · rfl
    · exact hp _ _
    · exact ((hc _ _ _).trans (hi _ _ _ _ _)).trans (hp _ _)
  · split
    · exact hp _ _
    · rfl

/-- Reading leaves the engines alone. -/
theorem WordsRead.engines {s t : State} {p : PortId} {i : SlotId} {first count : Nat}
    {found : List (Nat × WordCondition)} {words : List Word} (h : WordsRead s p i first count found words t) :
    t.engines = s.engines := h.keeps State.engines (fun _ _ => rfl) (fun _ _ _ => rfl) post_engines

/-- Reading leaves the cache alone. -/
theorem WordsRead.cache {s t : State} {p : PortId} {i : SlotId} {first count : Nat} {found : List (Nat × WordCondition)}
    {words : List Word} (h : WordsRead s p i first count found words t) : t.cache = s.cache :=
  h.keeps State.cache (fun _ _ => rfl) (fun _ _ _ => rfl) post_cache

/-- A WRITE sends the words it reads behind its header words, moves the engine on, and looks at the image, the buffer and
the ring limit (R111, R113). -/
theorem issueWrite_eq {s t : State} {p : PortId} {i : SlotId} {b : CacheEntry} {g : RingParameters}
    {found : List (Nat × WordCondition)} {words : List Word} {k first count : Nat}
    (hk : (s.engine p).writeLength b = k) (hd : (s.engine p).dataSpan k = (first, count))
    (h : WordsRead s p i first count found words t) :
    s.issueWrite p i b g found = ((t.send p (writeMessage ((s.engine p).writeAddress b)
      ((s.engine p).headerWords k ++ words))).setEngine p ((s.engine p).wrote k)).afterWrite p b g := by
  unfold State.issueWrite
  dsimp only
  rw [hk, hd]
  dsimp only
  rw [(wordsRead_iff ..).mp h]
  have e : ∀ m, (t.send p m).engine p = s.engine p := fun m => by unfold State.engine; rw [← h.engines]; rfl
  dsimp only
  rw [e]

end Sys2Proof.Machine
end

