-- ==== Sys2Proof/Laws/Returns.lean ====
section
/-! SUPPORT. What the descriptors of a return leave in the cache (R139 to R141). -/

namespace Sys2Proof.Machine

/-- Only as many descriptors as the READ still holds reservations for are looked at (R140). -/
theorem Cache.receive_take (p : PortId) (k : Nat) (producer : Count) :
    ∀ (held : Nat) (n : Count) (l : List Descriptor) (c : Cache),
      Cache.receive p k producer held n l c =
        Cache.receive p k producer (l.take held).length n (l.take held) c
  | 0, _, _, _ => by simp [Cache.receive]
  | _ + 1, _, [], _ => by simp [Cache.receive]
  | held + 1, n, d :: rest, c => by
    simp only [List.take_succ_cons, List.length_cons, Cache.receive, Cache.receive_take p k producer held _ rest]

/-- The cache once the sound valid descriptors of counts from `n` on are CACHED for port `p` (R139). -/
def Cache.keepAll (c : Cache) (p : PortId) (n : Count) (valid : List Descriptor) : Cache :=
  { c with
    entries := c.entries ++ valid.mapIdx fun j d =>
      { port := p, count := n + BitVec.ofNat 32 j, address := d.address, length := 512 * d.units, state := .cached }
    rings := if valid = [] then c.rings
      else c.rings.set p { c.rings[p] with fetched := n + BitVec.ofNat 32 valid.length } }

/-- Keeping one descriptor and then others is keeping them all. -/
theorem Cache.keepAll_cons (c : Cache) (p : PortId) (n : Count) (d : Descriptor) (l : List Descriptor) :
    c.keepAll p n (d :: l) = (c.keep p n d).keepAll p (n + 1) l := by
  have e : ∀ j, n + 1 + BitVec.ofNat 32 j = n + BitVec.ofNat 32 (j + 1) := fun j => by
    rw [BitVec.ofNat_add, BitVec.add_assoc, BitVec.add_comm 1]; rfl
  unfold Cache.keepAll Cache.keep
  congr 1
  · simp only [List.mapIdx_cons, List.append_assoc, List.singleton_append, e]
    simp
  · by_cases h : l = []
    · subst h; simp
    · have e' := e l.length
      simp [h]
      rw [← e']; rfl

/-- The valid and sound descriptors at the front of a return are kept, and the rest is looked at after them (R139). -/
theorem Cache.receive_valid (p : PortId) (k : Nat) (producer : Count) :
    ∀ (valid rest : List Descriptor) (n : Count) (c : Cache),
    (∀ j d, valid[j]? = some d → d.cycle = expectedCycle k (n + BitVec.ofNat 32 j) ∧ d.sound = true) →
    Cache.receive p k producer (valid ++ rest).length n (valid ++ rest) c =
      Cache.receive p k producer rest.length (n + BitVec.ofNat 32 valid.length) rest (c.keepAll p n valid)
  | [], rest, n, c, _ => by simp [Cache.keepAll]
  | d :: l, rest, n, c, h => by
    have e : ∀ j, n + 1 + BitVec.ofNat 32 j = n + BitVec.ofNat 32 (j + 1) := fun j => by
      rw [BitVec.ofNat_add, BitVec.add_assoc, BitVec.add_comm 1]; rfl
    have h0 := h 0 d rfl
    simp only [BitVec.add_zero] at h0
    have ih := Cache.receive_valid p k producer l rest (n + 1) (c.keep p n d)
      fun j x hj => by rw [e]; exact h (j + 1) x (by simpa using hj)
    simp only [List.cons_append, List.length_cons, Cache.receive, h0.1, h0.2, if_true]
    rw [ih, e, ← Cache.keepAll_cons]

/-- What a return leaves, by the first descriptor that is not both valid and sound (R139 to R141). -/
theorem Cache.receive_spec {p : PortId} {k : Nat} {producer n : Count} {held : Nat} {l valid rest : List Descriptor}
    (c : Cache) (hl : l.take held = valid ++ rest)
    (h : ∀ j d, valid[j]? = some d → d.cycle = expectedCycle k (n + BitVec.ofNat 32 j) ∧ d.sound = true) :
    (rest = [] → Cache.receive p k producer held n l c = (c.keepAll p n valid, false)) ∧
    ∀ d more, rest = d :: more →
      (d.cycle = expectedCycle k (n + BitVec.ofNat 32 valid.length) → d.sound = false →
        Cache.receive p k producer held n l c = (c.keepAll p n valid, true)) ∧
      (d.cycle ≠ expectedCycle k (n + BitVec.ofNat 32 valid.length) →
        Cache.receive p k producer held n l c =
          (c.keepAll p n valid, ahead (producer - (n + BitVec.ofNat 32 valid.length)))) := by
  rw [Cache.receive_take, hl, Cache.receive_valid p k producer valid rest n c h]
  refine ⟨?_, ?_⟩
  · rintro rfl; rfl
  · rintro d more rfl
    refine ⟨fun h1 h2 => ?_, fun h1 => ?_⟩ <;> simp [Cache.receive, *]

end Sys2Proof.Machine
end

