-- ==== Sys2Proof/Laws/Teardown.lean ====
section
/-! SUPPORT. What a teardown leaves in the cache (R146, R147), what the cache's own work leaves of the abandoned
tags, and the delivery that a lost or faulted port gives back (R101, R121). -/

namespace Sys2Proof.Machine

/-- An outstanding READ stands in its fetch slot. -/
theorem Cache.outstanding_slot {c : Cache} {p : PortId} {y : Fin 4} (h : c.outstanding p = some y) :
    ∃ f, c.slots[y] = some f ∧ f.port = p := by
  have h1 := List.find?_some h
  unfold Cache.slotOf at h1
  cases hs : c.slots[y] with
  | none => simp [hs] at h1
  | some f => exact ⟨f, rfl, by simpa [hs] using h1⟩

/-- The tag joins, and no other tag changes. -/
theorem Cache.abandon_tag (c : Cache) (p : PortId) (t y : Fin 4) :
    (c.abandon p t).abandonedTag p y = true ↔ c.abandonedTag p y = true ∨ t = y := by
  unfold Cache.abandon Cache.abandonedTag
  simp only [Fin.getElem_fin, Vector.getElem_set_self]
  rw [BitVec.getLsbD_or, Bool.or_eq_true]
  refine or_congr Iff.rfl ?_
  revert t y
  decide

/-- A teardown other than a link loss abandons the tag of the READ outstanding (R146, R147). -/
theorem Cache.teardown_tagJoins (c : Cache) (p : PortId) : TagJoins p (c.outstanding p) c (c.teardown p false) := by
  intro y
  unfold Cache.teardown
  cases h : c.outstanding p with
  | none => simp [Cache.clearPort, Cache.abandonedTag]
  | some t =>
    have e := Cache.abandon_tag (c.freeSlot t) p t y
    simpa [Cache.clearPort, Cache.abandonedTag, Cache.freeSlot] using e

/-- A teardown empties the port's fetch slot, entries, ring record and eviction hold (R146). -/
theorem Cache.teardown_clears (c : Cache) (p : PortId) (linkLoss : Bool) :
    (∀ e ∈ (c.teardown p linkLoss).entries, e.port ≠ p) ∧ (c.teardown p linkLoss).rings[p] = Ring.torn ∧
      (c.teardown p linkLoss).holds[p] = none ∧
      ∀ y, c.outstanding p = some y → (c.teardown p linkLoss).slots[y] = none := by
  unfold Cache.teardown
  cases h : c.outstanding p with
  | none => simp [Cache.clearPort]
  | some t => cases linkLoss <;> simp [Cache.clearPort, Cache.freeSlot, Cache.abandon]

/-- A grant changes no abandoned tag. -/
theorem considerFetch_abandoned (s : State) (p : PortId) :
    (s.considerFetch p).cache.abandoned = s.cache.abandoned := by
  unfold State.considerFetch
  split
  · dsimp only
    split <;> rfl
  · rfl

/-- An eviction changes no abandoned tag. -/
theorem evictFor_abandoned (s : State) (p : PortId) : (s.evictFor p).cache.abandoned = s.cache.abandoned := by
  unfold State.evictFor
  split
  · split <;> rfl
  · rfl

/-- The cache's own work changes no abandoned tag (log 19). -/
@[simp] theorem settleCache_abandoned (s : State) : s.settleCache.cache.abandoned = s.cache.abandoned := by
  have g (t : State) : t.grantFetches.cache.abandoned = t.cache.abandoned := by
    unfold State.grantFetches
    exact each_keeps (fun u => u.cache.abandoned) _ _ (fun p u => considerFetch_abandoned u p) t
  have c (t : State) : t.cachePass.cache.abandoned = t.cache.abandoned := by
    unfold State.cachePass
    rw [each_keeps (fun u => u.cache.abandoned) _ _ fun p u => evictFor_abandoned u p]
    exact g t
  unfold State.settleCache
  rw [g, c, c, c, c]

/-! ## The delivery of a lost or faulted port -/

/-- What a walk leaves of a delivery that has gone back to the dispatcher (R101). -/
theorem DeliveryReturns.walk {p : PortId} {s t : State} (h : DeliveryReturns p s t)
    (hp : (∀ v, v ≠ p → (s.port v).state ≠ .active) → ∀ v, (t.port v).state ≠ .active) :
    DeliveryReturns p s t.walk := by
  intro i n ha hk hi
  obtain ⟨h1, h2, h3⟩ := h i n ha hk hi
  obtain ⟨x, hx, hw⟩ := walk_ctx t i
  refine ⟨by rw [hw]; exact h1, ?_, fun hv => ?_⟩
  · rw [hw]
    rcases hx with hx | hx
    · rw [hx]; exact h2
    · exact .inr hx
  · rw [walk_inactive (hp hv)]
    exact h3 hv

/-- What keeps the contexts and the ready list keeps a delivery that has gone back to the dispatcher. -/
theorem DeliveryReturns.congr {p : PortId} {s t u : State} (h : DeliveryReturns p s t) (hc : u.contexts = t.contexts)
    (hr : u.ready = t.ready) : DeliveryReturns p s u := by
  intro i n ha hk hi
  have e : u.ctx i = t.ctx i := by unfold State.ctx; rw [hc]
  rw [e, hr]
  exact h i n ha hk hi

/-- A port that is taken down to a state other than ACTIVE gives back the delivery it held (R101, R121). -/
theorem takeDown_returns (s : State) (p : PortId) (x : Port) (linkLoss : Bool) (hx : x.state ≠ .active) :
    DeliveryReturns p s (s.takeDown p x linkLoss) ∧
      ((∀ v, v ≠ p → (s.port v).state ≠ .active) → (s.engine p).kind = .delivered →
        ∀ v, ((s.takeDown p x linkLoss).port v).state ≠ .active) := by
  obtain ⟨y, hy⟩ : ∃ y, y = (s.idleEngine p).setPort p x := ⟨_, rfl⟩
  have hyc : ∀ i, y.ctx i = s.ctx i := fun i => by rw [hy]; rfl
  have hyp : (∀ v, v ≠ p → (s.port v).state ≠ .active) → ∀ v, (y.port v).state ≠ .active := by
    intro hv v
    rw [hy, State.setPort_port]
    split
    · exact hx
    · next e => exact hv v (Ne.symm e)
  have ht : s.takeDown p x linkLoss =
      (y.releaseSlice (s.engine p)).setCache ((y.releaseSlice (s.engine p)).cache.teardown p linkLoss) := by
    rw [hy]; rfl
  rw [ht]
  constructor
  · refine DeliveryReturns.congr (t := y.releaseSlice (s.engine p)) ?_ rfl rfl
    intro i n ha hk hi
    have e : y.releaseSlice (s.engine p) = ((y.setCtx i { s.ctx i with
        state := .ready, flags := { (s.ctx i).flags with redirected := true } }).setReady (insertEntry s.frontier
          { slice := n, since := s.counter, elapsed := decide (s.dispatchWait = 0) } s.ready)).walk := by
      unfold State.releaseSlice State.returnSlice State.enterReady State.newEntry
      rw [ha]
      dsimp only
      rw [hk]
      dsimp only
      rw [hyc, hy]
      rfl
    rw [e]
    refine (DeliveryReturns.walk (p := p) (s := s) ?_ ?_) i n ha hk hi
    swap
    · exact fun hv v => hyp hv v
    intro j m ha' hk' hj
    rw [ha] at ha'
    cases ha'
    rw [State.setReady_ctx, State.setCtx_ctx_self]
    exact ⟨rfl, .inl rfl, fun _ => ⟨rfl, rfl⟩⟩
  · intro hv hk v
    show ((y.releaseSlice (s.engine p)).port v).state ≠ .active
    have hports : (y.releaseSlice (s.engine p)).ports = y.ports := by
      unfold State.releaseSlice
      split
      · rfl
      · rw [hk]
        exact walk_keeps (fun t => t.ports) (fun _ _ => rfl) (fun _ _ _ => rfl) (fun _ _ _ => rfl) (fun _ _ => rfl) _
    unfold State.port
    rw [hports]
    exact hyp hv v

/-- The walk that may follow a teardown. -/
theorem DeliveryReturns.walkIf {p : PortId} {s t : State} (b : Bool) (h : DeliveryReturns p s t)
    (hp : (s.engine p).kind = .delivered → (∀ v, v ≠ p → (s.port v).state ≠ .active) → ∀ v, (t.port v).state ≠ .active) :
    DeliveryReturns p s (t.walkIf b) := by
  unfold State.walkIf
  split
  · intro i n ha hk hi
    exact DeliveryReturns.walk h (hp hk) i n ha hk hi
  · exact h

/-- A fault gives back the delivery the port held (R101, R121, R159). -/
theorem fault_returns (s : State) (p : PortId) (cause : FaultCause) (ha : (s.port p).state.attached = true) :
    DeliveryReturns p s (s.fault p cause) := by
  unfold State.fault
  dsimp only
  rw [if_pos ha]
  obtain ⟨h1, h2⟩ := takeDown_returns s p ((s.port p).faultedBy cause) false (by simp [Port.faultedBy])
  refine DeliveryReturns.walkIf _ (h1.congr (post_contexts _ _ _ _ _) ?_) fun hk hv v => ?_
  · exact post_keeps State.ready (fun _ _ _ => rfl) (fun _ _ _ => rfl) (fun _ _ => rfl) _ _ _ _ _
  · unfold State.postPortFault
    rw [post_portState]
    exact h2 hv hk v

/-- A link loss gives back the delivery the port held (R101, R121, R161). -/
theorem loseLink_returns (s : State) (p : PortId) (ha : (s.port p).state.attached = true) :
    DeliveryReturns p s (s.loseLink p) := by
  unfold State.loseLink
  dsimp only
  rw [if_pos ha]
  obtain ⟨h1, h2⟩ := takeDown_returns s p (s.port p).lost true (by simp [Port.lost])
  refine DeliveryReturns.walkIf _ (h1.congr (post_contexts _ _ _ _ _) ?_) fun hk hv v => ?_
  · exact post_keeps State.ready (fun _ _ _ => rfl) (fun _ _ _ => rfl) (fun _ _ => rfl) _ _ _ _ _
  · unfold State.postPortFault
    rw [post_portState]
    exact h2 hv hk v

end Sys2Proof.Machine
end

