-- ==== Sys2Proof/Laws/Verdicts.lean ====
section
/-! SUPPORT. What the delivery of a verdict leaves of the receivers (R16 to R18, R47), and a payload word lost to a full
buffer (R48). -/

namespace Sys2Proof.Machine

variable {α : Type} (g : Receiver → α)

/-- A reading of a receiver that its buffer, its record, its current fragment and its wait for a page have no part in. -/
def Receiver.Apart (g : Receiver → α) : Prop :=
  ∀ (x : Receiver) (b : List BufferedSegment) (y : Option ProvisionalRecord) (c : Option Slice) (n : Bool),
    g { x with buffer := b, record := y, current := c, noPages := n } = g x

variable {g}

/-- Discarding the remainder of a segment leaves such a reading as it is. -/
theorem Receiver.Apart.remainder (h : Receiver.Apart g) (x : Receiver) (b : Bool) : g (x.discardRemainder b) = g x := by
  unfold Receiver.discardRemainder Receiver.settleRemainder Receiver.verdictUnrecorded Receiver.setHead Receiver.popHead
  repeat' split
  all_goals first | rfl | exact h x _ _ _ _

/-- An update of a receiver that leaves such a reading as it is. -/
theorem State.setRx_apart (_ : Receiver.Apart g) (s : State) (r k : ReceiverId) (x : Receiver) (hx : g x = g (s.rx r)) :
    g ((s.setRx r x).rx k) = g (s.rx k) := by
  rw [State.setRx_rx]
  split
  · next e => subst e; exact hx
  · rfl

/-- Freeing pages leaves such a reading as it is. -/
theorem freePages_apart (h : Receiver.Apart g) (s : State) (n : Slice) (l : List Nat) (k : ReceiverId) :
    g ((s.freePages n l).rx k) = g (s.rx k) :=
  freePages_keeps (fun t => g (t.rx k)) (fun _ _ _ => rfl) (fun _ _ _ => rfl) (fun _ _ => rfl) (fun _ _ => rfl)
    (fun _ _ => rfl) (fun t r => State.setRx_apart h t r k _ (h (t.rx r) _ _ _ _)) s n l

/-- A rollback leaves such a reading as it is. -/
theorem rollback_apart (h : Receiver.Apart g) (s : State) (r k : ReceiverId) : g ((s.rollback r).rx k) = g (s.rx k) := by
  unfold State.rollback
  split
  · rfl
  · next x _ =>
    refine (State.setRx_apart h _ r k _ (h _ _ _ _ _)).trans ((freePages_apart h _ _ _ k).trans ?_)
    unfold State.unlink; split <;> rfl

/-- A walk leaves every receiver as it is. -/
theorem walk_rx (s : State) (k : ReceiverId) : s.walk.rx k = s.rx k :=
  walk_keeps (fun t => t.rx k) (fun _ _ => rfl) (fun _ _ _ => rfl) (fun _ _ _ => rfl) (fun _ _ => rfl) s

/-- A closure check leaves such a reading as it is. -/
theorem closureCheck_apart (h : Receiver.Apart g) (s : State) (i : SlotId) (k : ReceiverId) :
    g ((s.closureCheck i).rx k) = g (s.rx k) := by
  have ha : ∀ (t : State) (r : ReceiverId), g ((t.abandonFor i r).rx k) = g (t.rx k) := by
    intro t r
    unfold State.abandonFor State.abandonRecord
    dsimp only
    repeat' split
    all_goals first | rfl | exact (State.setRx_apart h _ r k _ (h.remainder _ _)).trans (rollback_apart h t r k)
  have hc : ∀ (t : State) (n : Slice) (r : ReceiverId), g ((t.clearCurrent n r).rx k) = g (t.rx k) := by
    intro t n r
    unfold State.clearCurrent
    split
    · exact State.setRx_apart h t r k _ (h (t.rx r) _ _ _ _)
    · rfl
  unfold State.closureCheck
  split
  · unfold State.closeContext State.enterReady
    dsimp only
    rw [walk_rx, State.setReady_rx, State.setCtx_rx, each_keeps (fun t => g (t.rx k)) _ _ (fun r t => hc t _ r),
      each_keeps (fun t => g (t.rx k)) _ _ (fun r t => ha t r)]
  · rfl

/-- The delivery of a verdict leaves such a reading as it is: the link, the framer, the timer and the error times. -/
theorem settleVerdict_apart (h : Receiver.Apart g) (s : State) (r k : ReceiverId) :
    g ((s.settleVerdict r).rx k) = g (s.rx k) := by
  have hp : g ((s.setRx r (s.rx r).popHead).rx k) = g (s.rx k) := State.setRx_apart h s r k _ (h (s.rx r) _ _ _ _)
  have hc : ∀ (t : State) (x : ProvisionalRecord) (d : SegmentHeader), g ((t.commitRecord r x d).rx k) = g (t.rx k) := by
    intro t x d
    unfold State.commitRecord
    dsimp only
    split
    · rw [closureCheck_apart h, State.setRx_apart h _ _ _ _ (h _ _ _ _ _), State.setCtx_rx]
    · rw [State.setRx_apart h _ _ _ _ (h _ _ _ _ _), State.setCtx_rx]
  have hr : ∀ (t : State) (x : ProvisionalRecord) (v : Verdict), g ((t.rejectRecord r x v).rx k) = g (t.rx k) := by
    intro t x v
    have hn : g (((t.rollback r).setCurrent r none).rx k) = g (t.rx k) := by
      unfold State.setCurrent
      rw [State.setRx_apart h _ _ _ _ (h _ _ _ _ _), rollback_apart h]
    have hb : ∀ (u : State) (i : SlotId) (q : SourceId), g ((u.breakChain i q).rx k) = g (u.rx k) := by
      intro u i q
      unfold State.breakChain State.setChain
      split
      · rw [closureCheck_apart h, State.setCtx_rx]
      · rfl
    unfold State.rejectRecord
    dsimp only
    rw [hb]
    split
    · unfold State.markCrcSeen; rw [State.setCtx_rx]; exact hn
    · exact hn
  unfold State.settleVerdict State.deliver
  dsimp only
  split
  · rfl
  split
  · rfl
  split
  swap
  · rfl
  split
  · rw [State.setRx_apart h]
    · exact hp
    · unfold Receiver.verdictUnrecorded; split <;> first | rfl | exact h _ _ _ _ _
  · split
    · rw [hc]; exact hp
    · rw [hr]; exact hp

/-- An overrun of a segment whose verdict is not delivered at once (R48). -/
theorem overrun_eq {s u : State} {r : ReceiverId} {g : BufferedSegment} {h : SegmentHeader}
    (hn : (s.rx r).newest = some g) (hw : ∀ f, (s.rx r).head = some f → f.place = .waiting ∨ f.payload ≠ [])
    (hu : u = s.setRx r { (s.rx r).setNewest { g with verdict := some .framing } with framer := .dropping }) :
    s.overrun r h = if s.inService r = true then u.post .rxOverrun (.link r) (some h.slice) 0 else u := by
  subst hu
  have i1 : (s.setFramer r .dropping).inService r = s.inService r := by
    unfold State.inService State.setFramer; simp
  have hnn : ({ s.rx r with framer := .dropping } : Receiver).newest = some g := hn
  unfold State.overrun State.postOverrun
  rw [i1]
  split
  · unfold State.holdVerdict State.setFramer Option.map
    rw [post_rx, State.setRx_rx_self, hnn]
    dsimp only
    rw [State.settleVerdict_waiting, post_setRx, post_setRx, State.setRx_setRx]
    · rfl
    · rw [State.setRx_rx_self]; exact Receiver.head_setNewest _ g _ hn rfl rfl hw
  · unfold State.holdVerdict State.setFramer
    rw [State.setRx_rx_self, hnn]
    dsimp only
    rw [State.settleVerdict_waiting, State.setRx_setRx]
    · rfl
    · rw [State.setRx_rx_self]; exact Receiver.head_setNewest _ g _ hn rfl rfl hw

end Sys2Proof.Machine
end

