-- ==== Sys2Proof/Tests/Slice0.lean ====
section
/-! SUPPORT. Tests: terms that Instr.wf refuses, single steps on small states, and for each obligation a concrete state and
operands that meet its hypotheses, clause by clause. -/

namespace Sys2Proof.Tests

-- One test after another: a thread for each at once would need more memory than the tests do.
set_option Elab.async false

open Sys2Proof.Machine

/-! ## Well-formedness -/

theorem test_wf_write : (Instr.write 0 [(0, .singleBit), (31, .uncorrectable 7)]).wf = true := by decide
theorem test_wf_write_order : (Instr.write 0 [(3, .singleBit), (1, .singleBit)]).wf = false := by decide
theorem test_wf_write_place : (Instr.write 0 [(32, .singleBit)]).wf = false := by decide
theorem test_wf_write_sound : (Instr.write 0 [(0, .sound)]).wf = false := by decide
theorem test_wf_malformed : (Instr.malformedMessage 0 [0x12, 0]).wf = true := by decide
theorem test_wf_malformed_good : (Instr.malformedMessage 0 [0x02]).wf = false := by decide
theorem test_wf_commit : (Instr.itemCommit 0 2 0).wf = true := by decide
theorem test_wf_commit_own_row : (Instr.itemCommit 0 1 0).wf = false := by decide
theorem test_no_row_gives_bits : decodeTableWord 64 0 = none ∧ State.reset.withFetchWord 64 0 = State.reset := ⟨rfl, rfl⟩

/-! ## Small states -/

/-- A receiver in UP. -/
def up : Receiver := { Receiver.reset with link := .up, signal := true }
/-- The reset state with receiver 0 replaced. -/
def withRx (x : Receiver) : State := State.reset.setRx 0 x
/-- A header of slice 0, source 0. -/
def header (kind : SegmentKind) (length : Nat) : SegmentHeader :=
  { slice := 0, source := 0, kind, empty := false, truncated := false, length }
/-- An open segment whose CRC is right. -/
def opened (fate : Fate) (received : Nat) (h : Option SegmentHeader) : OpenSegment :=
  { fate, received, header0 := 0, header := h, crc := 0, crcWord := 0xFFFFFFFF }
/-- An open segment whose CRC is wrong. -/
def spoiled (fate : Fate) (received : Nat) (h : Option SegmentHeader) : OpenSegment :=
  { opened fate received h with crcWord := 0 }
/-- A segment in the elastic buffer. -/
def held (place : Place) (h : SegmentHeader) (payload : List Word) : BufferedSegment :=
  { header := h, place, payload, verdict := none }
/-- An OPEN context of slice 0 that expects source 0. -/
def openContext : Context := { Context.unopened with state := .opened, expected := 1, deadline := 3 }
/-- The reset state in RUNNING. -/
def running : State := State.reset.setRun .running
/-- A record of receiver 0 for slice 0. -/
def record (writePage writeFill : Nat) : ProvisionalRecord :=
  { slot := 0, slice := 0, source := 0, kind := .middle, length := 8, tailBefore := 0, fillBefore := 0, writePage, writeFill,
    firstPage := 0, pages := 0, written := 0 }
/-- The reset state with one page allocated and two free. -/
def onePage : State := State.reset.setPool { PagePool.reset with free := [7, 8], occupancy := 1 }
/-- Ring parameters. -/
def rings : RingParameters := { descriptorBase := 0, k := 4, completionBase := 0x10000, m := 4 }
/-- The reset state with port 0 in a given state. -/
def withPort (x : PortState) : State := State.reset.setPort 0 { Port.reset with state := x }
/-- Port 0 ACTIVE with its rings. -/
def attached : State := (withPort .active).setRing 0 rings.record
/-- An engine on its second buffer's worth of an image of 384 bytes. -/
def busy : Engine :=
  { state := .moving, assigned := some (0, 0), header := List.replicate 32 0, imageLength := 1024, readPosition := 256,
    bufferFill := 256, firstBuffer := some 0, buffers := 1, cut := false, kind := .delivered }
/-- Port 0 ACTIVE with its engine busy in a buffer of 1024 bytes. -/
def writing (e : Engine) : State :=
  (attached.setCache { attached.cache with
    entries := [{ port := 0, count := 0, address := 0x2000, length := 1024, state := .assigned }] }).setEngine 0 e
/-- Port 0 ACTIVE with a READ of one descriptor in slot 0. -/
def reading : State :=
  attached.setCache { attached.cache with
    slots := #v[some { port := 0, first := 0, n := 1, reserved := 1, producer := 1 }, none, none, none] }
/-- Port 0 with a reservation and a staged word 0. -/
def staging (n : ItemName) (w : Word) : State :=
  State.reset.setPort 0 { Port.reset with
    state := .detached, reservation := some (n, 0), staging := (Vector.replicate 8 none).set 0 (some w) }
/-- An incident. -/
def incident : Incident := { kind := .timing, source := .none, slice := none, detail := 0, stamp := 0, overflow := false }

/-! ## Single steps -/

theorem test_link_rises :
    exec (.signalPresent 3) State.reset = .next (State.reset.setRx 3 { Receiver.reset with link := .aligning, signal := true }) :=
  rfl
theorem test_slice_opens :
    (match exec (.sliceStart 0) ((withRx up).setRun .running) with
      | .next t => (t.newestOpened, (t.ctx 0).state, (t.ctx 0).expected, (t.ctx 0).deadline)
      | _ => (9, .retired, 0, 0)) = (0, .opened, 1, 400) := by decide +kernel
theorem test_empty_slice_closes :
    (match exec (.sliceStart 0) running with
      | .next t => ((t.ctx 0).state, t.ready.map ReadyEntry.slice)
      | _ => (.retired, [])) = (.ready, [0]) := by decide +kernel
theorem test_item_read_replies :
    (match exec (.itemRead 0 7 0) (withPort .detached) with
      | .next t => (t.sent[0], (t.port 0).reservation)
      | _ => ([], none)) = ([[0x0000000700010086, 50, 0, 0, 0, 0, 0, 0, 0]], some (.dispatch, 0)) := by decide +kernel
theorem test_announce_fetches :
    (match exec (.announce 0 4 0) attached with
      | .next t => (t.sent[0], t.cache.reservedCount 0)
      | _ => ([], 0)) = ([[0x0000004000000081, 0]], 4) := by decide +kernel
theorem test_pressure_climbs :
    (State.reset.setPool { PagePool.reset with occupancy := 14336 }).evaluate.pressure.level = 2 := by decide +kernel

/-! ## The hypotheses of the obligations are met -/

theorem test_hyp_StepTakesTheFrontCommand :
    (State.reset.setPending [.idle 0]).pending = .idle 0 :: [] ∧ State.reset.pending = [] := ⟨rfl, rfl⟩
theorem test_hyp_LineEventsMoveALinkBelowUp : (State.reset.rx 0).link ≠ .up := by decide
theorem test_hyp_frees_quietly : State.reset.FreesQuietly ∧ State.reset.risen = none := ⟨⟨nofun, by decide⟩, by decide⟩
theorem test_hyp_LossInUpBarsTheLink :
    let s := (withRx up).setCtx 0 openContext
    let unmapped := s.setItems { s.items with linkmap := s.items.linkmap.set 0 (Item.ofValues [255, 1, 0, 1]) }
    ((s.rx 0).link = .up ∧ s.mapping 0 = some 0 ∧ (s.ctx 0).state = .opened ∧ ((s.ctx 0).chain 0).state.final = false ∧
      member (s.ctx 0).expected 0 = true ∧ s.lostMask 0 = false) ∧
    unmapped.mapping 0 = none ∧ unmapped.lostMask 0 = true := by decide
theorem test_link_loss_in_a_fragment :
    (match exec (.signalAbsent 0) (((withRx { up with record := some (record 0 0), current := some 0 }).setCtx 0
        (openContext.setChainState 0 .receiving)).setRun .running) with
      | .next t => (((t.rx 0).record.isSome, (t.rx 0).current), ((t.ctx 0).chain 0).state, (t.ctx 0).dropped,
          (t.ctx 0).state, t.incidents.map Incident.detail)
      | _ => ((true, none), .none, 9, .retired, [])) = ((false, none), .partial_, 1, .ready, [1]) := by decide +kernel
theorem test_hyp_LinkTimersRunOut :
    let s := withRx { Receiver.reset with link := .probation, timer := some 0 }
    let t := withRx { Receiver.reset with link := .barred, timer := some 0 }
    let u := withRx { Receiver.reset with link := .barred, timer := some 1 }
    ((s.rx 0).link = .probation ∧ (s.rx 0).timer = some 0 ∧ ahead (0 - s.counter) = false) ∧
    ((t.rx 0).link = .barred ∧ (t.rx 0).link ≠ .probation ∧ (t.rx 0).timer = some 0 ∧ ahead (0 - t.counter) = false) ∧
    ((s.rx 0).link ≠ .barred) ∧ ((u.rx 0).timer = some 1 ∧ ahead (1 - u.counter) = true) ∧
    (State.reset.rx 0).timer = none := by decide
theorem test_hyp_StartOpensASegmentAndIdleDoesNothing :
    let s := withRx up
    let t := withRx { up with link := .probation, framer := .segment (opened .watched 0 none) }
    let o := opened .passedOver 3 (some (header .first 0))
    let u := withRx { up with framer := .segment o }
    ((s.rx 0).link = .up ∧ (s.rx 0).framer = .idle ∧ (OpenSegment.fresh .pending).received = 0 ∧
      (OpenSegment.fresh .pending).crc = 0xFFFFFFFF ∧ (OpenSegment.fresh .pending).header = none) ∧
    ((t.rx 0).link = .probation ∧ (t.rx 0).framer = .segment (opened .watched 0 none)) ∧
    ((u.rx 0).link = .up ∧ (u.rx 0).framer = .segment o ∧ o.header = some (header .first 0) ∧
      o.received = 3 + (header .first 0).length ∧ 2 ≠ 3 + (header .first 0).length) ∧
    (State.reset.rx 0).link = .down := by decide
theorem test_hyp_FramingEnds (fate : Fate) :
    let g := held .waiting (header .first 2) []
    let o := opened fate 2 (some (header .first 2))
    let s := withRx { up with framer := .segment o, buffer := [g] }
    (s.rx 0).framer = .segment o ∧ o.fate = fate ∧ (s.rx 0).newest = some g ∧ (s.rx 0).head = some g ∧
      g.place = .waiting := ⟨rfl, rfl, rfl, rfl, rfl⟩
theorem test_hyp_FramingDelivers :
    let g := held .accepted (header .first 2) []
    let o := opened .stored 4 (some (header .first 2))
    let s := withRx { up with framer := .segment o, buffer := [g] }
    (s.rx 0).link = .up ∧ (s.rx 0).framer = .segment o ∧ o.fate = .stored ∧ (s.rx 0).newest = some g ∧
      (s.rx 0).head = some g ∧ g.place ≠ .waiting ∧ g.payload = [] ∧
      (3 = 3 ∧ ∀ h, o.header = some h → o.received ≠ 3 + h.length) := by
  refine ⟨rfl, rfl, rfl, rfl, rfl, by decide, rfl, rfl, ?_⟩
  intro h e
  cases e
  decide
theorem test_framing_delivers_at_once :
    (match exec (.brokenWord 0) (((withRx { up with
        framer := .segment (opened .stored 4 (some (header .first 2))), buffer := [held .accepted (header .first 2) []]
        record := some (record 5 2) }).setCtx 0 (openContext.setChainState 0 .receiving)).setRun .running) with
      | .next t => ((t.rx 0).framer, (t.rx 0).buffer, (t.rx 0).record, ((t.ctx 0).chain 0).state,
          t.incidents.map Incident.detail)
      | _ => (.idle, [], none, .none, [])) = (.dropping, [], none, .partial_, [0x300]) := by decide +kernel
theorem test_hyp_HeaderWordsDecideAdmission :
    let s := withRx { up with framer := .segment (opened .pending 1 none) }
    let unmapped := s.setItems { s.items with linkmap := s.items.linkmap.set 0 (Item.ofValues [255, 1, 0, 0]) }
    ((s.rx 0).link = .up ∧ (s.rx 0).framer = .segment (opened .pending 1 none)) ∧
    1024 < (parseHeader 0 1025).length ∧
    ((parseHeader 0x0000100000000000 0).empty = true ∧ (parseHeader 0x0000100000000000 0).kind ≠ .only) ∧
    ((parseHeader 0 1024).length ≤ 1024 ∧ (parseHeader 0 1024).empty = false) ∧
    unmapped.mapping 0 = none ∧ s.mapping 0 = some 0 ∧ s.enrolled 0 = true ∧
    (parseHeader 0x0000000100000000 0).source.toNat ≠ (0 : SourceId).val ∧
    (parseHeader 0 0).source.toNat = (0 : SourceId).val ∧ (s.rx 0).held ≤ 2046 := by decide
theorem test_hyp_words_before_the_header :
    let first := opened .watched 0 none
    let second := opened .watched 1 none
    let t := withRx { up with link := .probation, framer := .segment second }
    let u := withRx { up with framer := .segment second }
    (((withRx { up with framer := .segment first }).rx 0).link = .up ∧ first.header = none ∧ first.received = 0) ∧
    ((t.rx 0).link = .probation ∧ (t.rx 0).framer = .segment second ∧ second.received = 1 ∧ second.header = none) ∧
    ((u.rx 0).link = .up ∧ second.fate = .watched) ∧
    (((withRx up).rx 0).framer = .idle ∧ ((withRx { up with link := .probation }).rx 0).framer = .idle) ∧
    (((withRx { up with framer := .stray }).rx 0).framer = .stray ∧ (State.reset.rx 0).link = .down) := by decide
theorem test_hyp_header_word_0 :
    (∃ l s, s = withRx { up with framer := .segment (opened .pending 0 none), buffer := [held .accepted (header .first 0)
        l] } ∧ (s.rx 0).link = .up ∧ (s.rx 0).held = 2048 ∧ s.enrolled 0 = true ∧ s.mapping 0 = some 0) ∧
    ((0 : Word).extractLsb' 32 5).toNat = (0 : SourceId).val ∧ (0 : Word).getLsbD 44 = false ∧
    (0x0000130000000000 : Word).getLsbD 44 = true ∧ (0x0000130000000000 : Word).extractLsb' 40 2 = 3 ∧
    ((0x0000000100000000 : Word).extractLsb' 32 5).toNat ≠ (0 : SourceId).val := by
  obtain ⟨l, hl⟩ : ∃ l : List Word, l.length = 2048 := ⟨List.replicate 2048 0, List.length_replicate⟩
  refine ⟨⟨l, _, rfl, rfl, ?_, rfl, rfl⟩, by decide⟩
  simp [withRx, held, Receiver.held, BufferedSegment.held, hl]
theorem test_header_word_0_is_lost :
    let s := withRx { up with framer := .segment (opened .pending 0 none) }
    ((s.loseHeader 0 none).rx 0).framer = .dropping ∧
      (s.loseHeader 0 none).incidents.map (fun x => (x.kind.code, x.slice, x.detail)) = [(7, none, 0)] ∧
      s.mayAdmit 0 0 = true ∧ s.mayAdmit 0 0x0000000100000000 = false := by decide +kernel
theorem test_stray_word :
    (match exec (.dataWord 0 5) (withRx up) with
      | .next t => ((t.rx 0).framer, t.incidents.map fun x => (x.slice, x.detail))
      | _ => (.idle, [])) = (.stray, [(none, 0x400)]) := by decide +kernel
theorem test_hyp_buffer_bounds (n : Nat) (x : Word) :
    ((withRx { up with buffer := [held .accepted (header .first 0) (List.replicate n x)] }).rx 0).held = n := by
  simp [withRx, held, Receiver.held, BufferedSegment.held]
theorem test_hyp_PayloadWordsEnterTheBuffer :
    let g := held .waiting (header .first 2) []
    let o := opened .stored 2 (some (header .first 2))
    let s := withRx { up with framer := .segment o, buffer := [g] }
    ((s.rx 0).link = .up ∧ (s.rx 0).framer = .segment o ∧ o.fate = .stored ∧ o.received < 2 + (header .first 2).length ∧
      (s.rx 0).newest = some g ∧ g.place = .waiting ∧ (s.rx 0).held < 2048) ∧
    ∃ f t, t = withRx { up with framer := .segment o, buffer := [f, g] } ∧ (t.rx 0).held = 2048 ∧
      (t.rx 0).newest = some g ∧ (t.rx 0).head = some f ∧ f.place = .waiting := by
  refine ⟨by decide, ?_⟩
  obtain ⟨l, hl⟩ : ∃ l : List Word, l.length = 2044 := ⟨List.replicate 2044 0, List.length_replicate⟩
  refine ⟨held .waiting (header .first 2) l, _, rfl, ?_, rfl, rfl, rfl⟩
  simp [withRx, held, Receiver.held, BufferedSegment.held, hl]
theorem test_hyp_word_past_the_length :
    let o := opened .stored 5 (some (header .first 2))
    let s := withRx { up with framer := .segment o, buffer := [held .waiting (header .first 2) [1, 2]] }
    (s.rx 0).framer = .segment o ∧ o.header = some (header .first 2) ∧ 3 + (header .first 2).length ≤ o.received := by
  decide
theorem test_hyp_words_not_stored :
    let o := opened .watched 4 (some (header .first 2))
    let d := opened .stored 3 (some (header .first 2))
    let s := withRx { up with link := .probation, framer := .segment o }
    let t := withRx { up with framer := .segment d, buffer := [held (.remainder true) (header .first 2) []] }
    ((s.rx 0).link = .probation ∧ o.received = 2 + (header .first 2).length ∧ o.fate ≠ .stored) ∧
    ((t.rx 0).link = .up ∧ d.received < 2 + (header .first 2).length ∧
      (t.rx 0).newest = some (held (.remainder true) (header .first 2) [])) ∧
    3 + (header .first 2).length ≤ (opened .watched 5 (some (header .first 2))).received := by decide
theorem test_hyp_BrokenWordEndsTheSegment :
    let o := opened .stored 2 (some (header .first 2))
    let t := withRx { up with link := .probation, framer := .segment o }
    (t.rx 0).link = .probation ∧ (t.rx 0).framer = .segment o ∧ ((withRx up).rx 0).link = .up ∧
      ((withRx up).rx 0).framer = .idle ∧ (State.reset.rx 0).link = .down := by decide
theorem test_hyp_EndSymbolTakesTheVerdict :
    let g := held .waiting (header .first 0) []
    let o := opened .stored 3 (some (header .first 0))
    let b := spoiled .stored 3 (some (header .first 0))
    let s := withRx { up with framer := .segment o, buffer := [g] }
    let t := withRx { up with framer := .segment b, buffer := [g] }
    let u := (withRx { up with framer := .segment b, buffer := [g], errors := [9, 0, 0, 0] }).setTime 64 2
    ((s.rx 0).framer = .segment o ∧ o.received = 3 + (header .first 0).length ∧ ~~~o.crc = o.crcWord ∧
      (s.rx 0).newest = some g ∧ (s.rx 0).head = some g ∧ g.place = .waiting) ∧
    (((withRx { up with link := .probation, framer := .segment o }).rx 0).link = .probation ∧ ~~~b.crc ≠ b.crcWord) ∧
    ((t.rx 0).link = .up ∧ (t.rx 0).framer = .segment b ∧ (t.rx 0).newest = some g ∧ t.inService 0 = true ∧
      ((t.rx 0).errors.drop ((t.rx 0).errors.length - 3) ++ [t.counter]).length < 4) ∧
    ((u.rx 0).errors.length ≤ 4 ∧ (u.rx 0).errors.drop ((u.rx 0).errors.length - 3) ++ [u.counter] = [0, 0, 0, 64] ∧
      64 ≤ (u.counter - ([0, 0, 0, 64] : List Stamp).headD 0).toNat) ∧
    (opened .stored 2 (some (header .first 0))).received ≠ 3 + (header .first 0).length ∧
    ((withRx { up with framer := .dropping }).rx 0).framer = .dropping := by decide
theorem test_hyp_END_out_of_place :
    let w := spoiled .watched 3 (some (header .first 0))
    let early := opened .watched 1 none
    let s := withRx { up with framer := .segment w }
    let t := withRx { up with link := .probation, framer := .segment early }
    ((s.rx 0).link = .up ∧ w.fate = .watched ∧ w.received = 3 + (header .first 0).length) ∧
    ((t.rx 0).link = .probation ∧ (t.rx 0).framer = .segment early ∧ early.header = none) ∧
    ((withRx up).rx 0).framer = .idle ∧ ((withRx { up with framer := .stray }).rx 0).framer = .stray := by decide
theorem test_hyp_ErrorBurstBarsTheLink :
    let b := spoiled .stored 3 (some (header .first 0))
    let v := (withRx { up with framer := .segment b, errors := [0, 0, 0] }).setTime 63 2
    (v.rx 0).link = .up ∧ b.received = 3 + (header .first 0).length ∧ ~~~b.crc ≠ b.crcWord ∧
      v.mapping 0 = some 0 ∧ (v.rx 0).errors.drop ((v.rx 0).errors.length - 3) ++ [v.counter] = [0, 0, 0, 63] ∧
      (v.counter - ([0, 0, 0, 63] : List Stamp).headD 0).toNat < 64 := by decide
theorem test_hyp_BackChannelFollowsTheHoldReasons :
    (State.reset.rx 0).link = .down ∧ ((withRx { up with link := .probation }).rx 0).link = .probation ∧
      ((withRx up).rx 0).link = .up := by decide
theorem test_hyp_SliceStartOpensTheWindow :
    let s := (withRx up).setRun .running
    let t := s.setNewestOpened 3
    (s.run = .running ∧ ahead (0 - s.newestStrobe) = true ∧ distance s.frontier 0 < 2 ^ 31 ∧ s.openCount ≤ 0 ∧
      s.expectedNow ≠ 0) ∧
    (min (distance s.frontier 64) 63 = 63 ∧ distance s.frontier 0x7FFFFFFF < 2 ^ 31 ∧
      2 ^ 31 ≤ distance s.frontier 0x80000000) ∧
    (t.openCount = 4 ∧ min (distance t.frontier 3) 63 < t.openCount) ∧ running.expectedNow = 0 ∧
    ahead (s.newestStrobe - s.newestStrobe) = false ∧ State.reset.run ≠ .running := by decide
theorem test_early_number_opens_the_window :
    (match exec (.sliceStart 64) ((withRx up).setRun .running) with
      | .next t => (t.newestOpened, t.newestStrobe, (t.ctx 63).slice, (t.ctx 63).state, (t.ctx 0).state)
      | _ => (9, 9, 9, .retired, .retired)) = (63, 64, 63, .opened, .opened) := by decide +kernel
theorem test_hyp_SegmentsAreDiscardedOutsideARun :
    let g := held .waiting (header .first 2) []
    let s := withRx { up with buffer := [g] }
    let u := s.setItems { s.items with linkmap := s.items.linkmap.set 0 (Item.ofValues [255, 0, 0, 0]) }
    let d := s.setRun .draining
    ((s.rx 0).link = .up ∧ (s.rx 0).early = false ∧ (s.rx 0).current = none ∧ (s.rx 0).buffer = g :: [] ∧
      g.place = .waiting ∧ s.run = .stopped) ∧ u.mapping 0 = none ∧ u.enrolled 0 = false ∧
    (d.run = .draining ∧ (d.ctx (slotOf 0)).state = .unopened ∧ 64 ≤ distance d.frontier 64) := by decide
theorem test_hyp_EarlySegmentStalls :
    let g := held .waiting { header .first 2 with slice := 64 } []
    let f := held .waiting { header .first 2 with slice := 0x7FFFFFFF } []
    let s := (withRx { up with buffer := [g] }).setRun .running
    ((s.rx 0).head = some g ∧ s.mapping 0 = some 0 ∧ s.enrolled 0 = true ∧ 64 ≤ distance s.frontier g.header.slice ∧
      distance s.frontier f.header.slice < 2 ^ 31) ∧ ((withRx { up with early := true }).rx 0).early = true := by decide
theorem test_hyp_SegmentsAreAccepted (kind : SegmentKind) :
    let g := held .waiting (header kind 2) []
    let fresh := (withRx { up with buffer := [g] }).setRun .running
    let s := fresh.setCtx 0 openContext
    let t := ((withRx { up with buffer := [g], current := some 0 }).setRun .draining).setCtx 0
      (openContext.setChainState 0 .receiving)
    ((fresh.rx 0).buffer = g :: [] ∧ (fresh.rx 0).current = none ∧ g.header.kind = kind ∧ fresh.run = .running ∧
      distance fresh.frontier g.header.slice < 64 ∧ slotOf g.header.slice = 0 ∧ (fresh.ctx 0).state = .unopened ∧
      fresh.mapping 0 = some 0 ∧ fresh.enrolled 0 = true) ∧
    ((s.ctx 0).state = .opened ∧ ((s.ctx 0).chain 0).state = .none) ∧
    ((t.rx 0).current = some g.header.slice ∧ t.run = .draining ∧ ((t.ctx (slotOf 0)).chain 0).state = .receiving ∧
      (t.ctx (slotOf 0)).state = .opened ∧ (t.ctx (slotOf 0)).slice = 0) ∧
    ((s.ctx (slotOf 0)).chain 0).state ≠ .receiving := by
  cases kind <;> decide
theorem test_ONLY_opens_its_slice :
    (match exec (.placement 0) ((withRx { up with buffer := [held .waiting { header .only 1 with slice := 2 } [7]] }).setRun
        .running) with
      | .next t => (t.newestOpened, (t.ctx 2).state, ((t.ctx 2).chain 0).state, (t.rx 0).record.map fun x =>
          (x.slice, x.length), (t.rx 0).buffer.map BufferedSegment.place)
      | _ => (9, .retired, .cut, none, [])) = (2, .opened, .none, some (2, 1), [.accepted]) := by decide +kernel
theorem test_hyp_MisplacedSegmentsAreDiscarded :
    let slot (x : SlotState) : State := running.setCtx 0 { openContext with state := x }
    let chain (x : ChainState) : State := running.setCtx 0 (openContext.setChainState 0 x)
    (2 ^ 31 ≤ distance running.frontier 0x80000000 ∧ distance running.frontier 63 < 64 ∧ running.mapping 0 = some 0 ∧
      running.enrolled 0 = true ∧ running.run = .running) ∧
    (((slot .ready).ctx 0).state = .ready ∧ ((slot .retired).ctx 0).state = .retired ∧
      (running.ctx 0).state = .unopened) ∧
    ((((chain .whole).ctx 0).chain 0).state.final = true ∧ (((chain .receiving).ctx 0).chain 0).state = .receiving ∧
      (((chain .cut).ctx 0).chain 0).state = .cut ∧ ((chain .cut).ctx 0).state = .opened) ∧
    (((withRx { up with current := some 0 }).rx 0).current = some 0 ∧ (State.reset.rx 0).current ≠ some 0) ∧
    ((slot .opened).setRun .draining).run = .draining := by decide
theorem test_misplaced_MIDDLE_breaks_the_chain :
    (match exec (.placement 0) (((withRx { up with buffer := [held .waiting (header .middle 2) []] }).setRun .running).setCtx
        0 { openContext.setChainState 0 .receiving with expected := 3 }) with
      | .next t => (((t.ctx 0).chain 0).state, (t.ctx 0).state, (t.rx 0).buffer, t.incidents.map Incident.detail)
      | _ => (.none, .retired, [], [])) = (.partial_, .opened, [], [0x701]) := by decide +kernel
theorem test_LAST_of_a_cut_fragment :
    (match exec (.placement 0) (((withRx { up with
        current := some 0, buffer := [held .waiting (header .last 2) []] }).setRun .running).setCtx 0
          (openContext.setChainState 0 .cut)) with
      | .next t => ((t.rx 0).current, (t.rx 0).buffer, t.incidents)
      | _ => (some 9, [], [])) = (none, [], []) := by decide +kernel
theorem test_hyp_VerdictsCommitOrRollBackTheRecord (kind : SegmentKind) :
    let g := held .accepted (header kind 8) []
    let o := opened .stored 11 (some (header kind 8))
    let s := withRx { up with framer := .segment o, buffer := [g], record := some (record 5 8) }
    ((s.rx 0).framer = .segment o ∧ o.received = 3 + (header kind 8).length ∧ ~~~o.crc = o.crcWord ∧
      (s.rx 0).buffer = [g] ∧ g.payload = [] ∧ g.header.kind = kind ∧ (s.rx 0).record = some (record 5 8)) ∧
    ~~~(spoiled .stored 11 (some (header kind 8))).crc ≠ (spoiled .stored 11 (some (header kind 8))).crcWord ∧
    (opened .stored 10 (some (header kind 8))).received ≠ 3 + (header kind 8).length := by
  refine ⟨⟨rfl, rfl, by show ~~~(0 : BitVec 32) = 0xFFFFFFFF; decide, rfl, rfl, rfl, rfl⟩,
    by show ~~~(0 : BitVec 32) ≠ 0; decide, by show 10 ≠ 11; decide⟩
theorem test_hyp_rollback :
    let pool := { PagePool.reset with free := [8], occupancy := 3, links := [(3, 5), (5, 6)] }
    let x := { record 6 8 with firstPage := 5, pages := 2, tailBefore := 3 }
    (State.reset.setPool pool).FreesQuietly ∧ pool.Canonical ∧ x.Holds pool [5, 6] ∧ x.tailBefore ∉ [5, 6] ∧
      (record 3 8).Holds pool [] := by
  refine ⟨⟨nofun, by decide⟩, ⟨rfl, rfl, rfl, rfl⟩, ⟨⟨by decide, by decide, ?_⟩, rfl, rfl, fun _ => rfl⟩, by decide,
    ⟨⟨by decide, by decide, by simp⟩, rfl, rfl, by simp⟩⟩
  intro j a b ha hb
  match j with
  | 0 => simp at ha hb; subst ha hb; rfl
  | 1 => simp at hb
  | _ + 2 => simp at hb
theorem test_hyp_verdict_without_record (kind : SegmentKind) :
    let g := { held (.remainder true) (header kind 8) [] with verdict := some .crcBad }
    let s := withRx { up with buffer := [g], current := some 0 }
    (s.rx 0).buffer = g :: [] ∧ g.verdict = some .crcBad ∧ g.place ≠ .waiting ∧ g.payload = [] ∧
      (s.rx 0).record = none ∧ (s.settleVerdict 0).incidents = [] ∧
      ((s.settleVerdict 0).rx 0).current = if kind = .last ∨ kind = .only then none else some 0 := by
  cases kind <;> decide +kernel
theorem test_hyp_ClosureChecksAndTheDirectory :
    let whole := openContext.setChainState 0 .whole
    let cut := { openContext.setChainState 0 .cut with dropped := 2 }
    (whole.state = .opened ∧ ∀ q, member whole.expected q = true → (whole.chain q).state = .whole) ∧ whole.dropped = 0 ∧
    (∀ q, member cut.expected q = true → (cut.chain q).state ≠ .none ∧ (cut.chain q).state ≠ .receiving) ∧
    cut.dropped ≠ 0 ∧ (member openContext.expected 0 = true ∧ (openContext.chain 0).state = .none) ∧
    Context.unopened.state ≠ .opened := by decide
theorem test_hyp_DeadlineExpiryClosesTheSlice :
    let s := State.reset.setCtx 63 { openContext with deadline := 0 }
    ((63 : SlotId) = slotOf (s.frontier + BitVec.ofNat 32 63) ∧ (s.ctx 63).state = .opened ∧ (s.ctx 63).deadline = 0 ∧
      ∀ e : Fin 63, (s.ctx (slotOf (s.frontier + BitVec.ofNat 32 e.val))).state ≠ .opened) ∧
    ∀ j, (State.reset.ctx j).state ≠ .opened := by decide
theorem test_hyp_SlotAdvanceCounts :
    let s := withRx { up with link := .barred, timer := some 1 }
    let t := (s.setReady [{ slice := 0, since := 0, elapsed := true }]).setPort 0
      { attached.port 0 with quietUntil := some 1 }
    ((∀ i, (t.ctx i).state ≠ .opened) ∧ (t.rx 0).timer = some 1 ∧ ahead (1 - t.counter) = true ∧
      (t.port 0).state = .active ∧ (t.port 0).quietUntil = some 1) ∧
    ((0 + 1 : Stamp).toNat % 16 < 8 ∧ ¬(15 + 1 : Stamp).toNat % 16 < 0) := by decide
theorem test_advance_takes_what_fell_due :
    (match exec .slotAdvance ((((withRx { up with link := .barred, timer := some 0 }).setCtx 0
        { openContext with deadline := 0 }).setCtx 1 { openContext with deadline := 3 }).setPort 0
        { attached.port 0 with quietUntil := some 0 }) with
      | .next t => (t.counter, (t.ctx 0).closure.map Closure.reason, (t.ctx 1).deadline, (t.rx 0).link,
          (t.port 0).quietUntil)
      | _ => (9, none, 9, .up, some 9)) = (1, some .expired, 2, .aligning, none) := by decide +kernel
theorem test_hyp_BurstWritesThePage :
    let g := held .accepted (header .middle 8) [1, 2]
    let s := withRx { up with buffer := [g], record := some (record 5 63) }
    (s.nextGrant = some 0 ∧ (s.rx 0).record = some (record 5 63) ∧ (record 5 63).writePage ≠ 0 ∧
      (record 5 63).writeFill < 64 ∧ (s.rx 0).buffer = g :: [] ∧ g.verdict = none ∧
      g.payload.take (64 - (record 5 63).writeFill) = [1] ∧ Memory.wf s.pool.store = true ∧
      Cells.wf WordCondition.sound s.pool.conditions = true ∧ Cells.wf 0 s.pool.links = true ∧
      Cells.wf PageAttribute.clear s.pool.attributes = true) ∧
    ∀ k, (State.reset.rx k).wantsPort = false := by decide
theorem test_burst_of_the_last_word_delivers :
    (match exec .storeBurst ((withRx { up with
        buffer := [{ held .accepted (header .middle 1) [5] with verdict := some .good }]
        record := some (record 5 8), current := some 0 }).setCtx 0 (openContext.setChainState 0 .receiving)) with
      | .next t => ((t.rx 0).buffer, (t.rx 0).record, (t.rx 0).current, (t.ctx 0).totalWords,
          Memory.readWord t.pool.store 328)
      | _ => ([], none, none, 0, 0)) = ([], none, some 0, 1, 5) := by decide +kernel
theorem test_hyp_BurstTakesAFreePage :
    let g := held .accepted (header .middle 8) [1, 2]
    let s := onePage.setRx 0 { up with buffer := [g], record := some (record 5 64) }
    let t := s.setPool { s.pool with free := [] }
    (s.nextGrant = some 0 ∧ (record 5 64).writeFill = 64 ∧
      (((s.ctx 0).chain 0).words + 63) / 64 + (record 5 64).pages < s.pageLimit ∧ s.pool.free = 7 :: [8]) ∧
    (t.nextGrant = some 0 ∧ t.pool.free = [] ∧ ∀ k : ReceiverId, k ≠ 0 → (t.rx k).wantsPort = false) := by decide
theorem test_burst_links_the_page :
    (match exec .storeBurst (onePage.setRx 0 { up with
        buffer := [held .accepted (header .middle 2) [3, 4]], record := some { record 0 0 with tailBefore := 5 } }) with
      | .next t => (t.pool.links, t.pool.free, t.pool.occupancy, (t.rx 0).record.map fun x => (x.firstPage, x.writePage),
          Memory.readWord t.pool.store (64 * 7 + 1))
      | _ => ([], [], 0, none, 0)) = ([(5, 7)], [8], 2, some (7, 7), 4) := by decide +kernel
theorem test_hyp_FreedPageGoesByItsAttribute :
    let s := onePage.setPool (onePage.pool.setAttribute 3 .retireOnFree)
    (1 ≤ s.pool.occupancy ∧ s.pool.attributeOf 2 ≠ .retireOnFree ∧ s.pool.attributeOf 3 = .retireOnFree ∧
      s.risen = none) ∧
    ({ s.pool with retired := List.replicate 31 1 } : PagePool).retired.length < 32 ∧
    32 ≤ ({ s.pool with retired := List.replicate 32 1 } : PagePool).retired.length := by decide
theorem test_hyp_PageLimitCutsTheChain :
    let g := held .accepted (header .middle 8) [1]
    let s := ((withRx { up with buffer := [g], record := some (record 0 0) }).setRx 1
      { up with buffer := [g], record := some (record 5 2) }).setCtx 0
      (openContext.setChain 0 { state := .receiving, head := 1, tail := 1, words := 64 * 256, fill := 64 })
    (s.nextGrant = some 0 ∧ (record 0 0).writePage = 0 ∧ (record 0 64).writeFill = 64 ∧
      s.pageLimit ≤ (((s.ctx 0).chain 0).words + 63) / 64 + (record 0 0).pages ∧ (s.rx 0).buffer = g :: [] ∧
      g.verdict = none) ∧
    (s.rx 1).wantsPort = true ∧ ∀ k : ReceiverId, k ≠ 0 → ((s.setRx 1 Receiver.reset).rx k).wantsPort = false := by decide
theorem test_cut_passes_the_grant :
    (match exec .storeBurst (((withRx { up with
        buffer := [held .accepted (header .middle 2) [9]], record := some (record 0 0) }).setRx 1
        { up with buffer := [held .accepted (header .middle 2) [7]], record := some { record 5 2 with source := 1 } }).setCtx 0
        ({ openContext with expected := 3 }.setChain 0
          { state := .receiving, head := 1, tail := 1, words := 64 * 256, fill := 64 })) with
      | .next t => (((t.ctx 0).chain 0).state, (t.rx 0).buffer.map BufferedSegment.place, (t.rx 0).record, (t.rx 0).current,
          t.lastServed, Memory.readWord t.pool.store 322)
      | _ => (.none, [], none, none, 9, 0)) = (.cut, [.remainder true], none, some 0, 1, 7) := by decide +kernel
theorem test_hyp_pressure :
    let s := State.reset.setPool { PagePool.reset with free := [], occupancy := 15360 }
    let t := State.reset.setPool { PagePool.reset with free := [], occupancy := 12287 }
    (s.pressure.level ≠ 3 ∧ s.evaluated = 3 ∧ s.risen = some 3) ∧ (t.risen = none ∧ t.evaluated ≠ 3) ∧
      s.items = Items.reset := by decide
theorem test_hyp_StatusLinesShowTheirConditions :
    (6 : Fin 8).val = 2 * (3 : Fin 4).val ∧ (7 : Fin 8).val = 2 * (3 : Fin 4).val + 1 := by
  decide
theorem test_hyp_ReadyListStaysOrdered :
    let l : List ReadyEntry := [{ slice := 0, since := 0, elapsed := false }, { slice := 2, since := 0, elapsed := false }]
    l.Pairwise (fun a b => distance 0 a.slice < distance 0 b.slice) ∧ ∀ x ∈ l, x.slice ≠ 1 := by decide
/-- A CLOSED slice 0, COMPLETE, whose directory is computed. -/
def closed : Context :=
  { (openContext.setChainState 0 .whole).withDirectory with
    state := .ready, closure := some { reason := .complete, closedAt := 0 } }
theorem test_hyp_WalkAssignsToTheHighestRankedPort :
    let e : ReadyEntry := { slice := 0, since := 0, elapsed := false }
    let s := (withPort .active).setCtx 0 closed
    let t := s.setCache { s.cache with entries := [{ port := 0, count := 0, address := 0, length := 512, state := .cached }] }
    State.reset.items.ItemValid (.steer 63) ∧
    (s.eligible e 0 = true ∧ s.bestPort e = some 0 ∧ State.reset.bestPort e = none) ∧
    ((s.ctx 0).closure = some { reason := .complete, closedAt := 0 } ∧ (s.ctx 0).directory.isSome = true) ∧
    (s.cache.entries = [] ∧ ∃ b ∈ t.cache.entries, b.port = 0 ∧ b.state = .cached ∧ b.count = (t.ring 0).consumed) := by
  refine ⟨by unfold Items.ItemValid; decide, by decide, ⟨rfl, rfl⟩, rfl, _, List.mem_singleton.mpr rfl, rfl, rfl, rfl⟩
theorem test_hyp_DispatchWaitElapses :
    let e : ReadyEntry := { slice := 0, since := 0, elapsed := false }
    let s := (State.reset.setReady [e]).setTime 50 2
    let t := (State.reset.setReady [e]).setTime 49 2
    let f := fun s : State => s.ready.map fun e => { e with
      elapsed := e.elapsed || decide (s.dispatchWait ≤ (s.counter - e.since).toNat) }
    f s ≠ s.ready ∧ f t = t.ready ∧ ∀ p, (s.port p).state ≠ .active := by decide
theorem test_hyp_WriteIssuesOneMessage :
    let s := writing busy
    let full := { busy with bufferFill := 768 }
    ((s.engine 0).state = .moving ∧ (s.engine 0).assigned = some (0, 0) ∧ (s.cache.currentBuffer 0).isSome = true ∧
      (s.ring 0).parameters = some rings ∧ busy.readPosition + 256 ≠ busy.imageLength ∧ busy.bufferFill + 256 ≠ 1024 ∧
      ∀ j ∈ List.range' 0 32, s.pool.conditionOf (wordAddress (s.locate 0 j).1 (s.locate 0 j).2) = .sound) ∧
    (full.bufferFill + 256 = 1024 ∧ full.buffers ≠ 2 ^ rings.k) ∧
    (0xFFFFFFFFFFFF : Address).toNat + 0 < 2 ^ 48 ∧ (State.reset.engine 0).state ≠ .moving := by decide
theorem test_hyp_message_words :
    (List.replicate 32 (0 : Word)).length ≤ 32 ∧ (31 : Nat) < 32 ∧ (255 : Nat) < 256 ∧ (4095 : Nat) < 4096 ∧
    closed.closure = some { reason := .complete, closedAt := 0 } ∧ closed.directory.isSome = true ∧
    (65536 : Nat) ≤ 65536 ∧ closed.firstUncorrectable.getD 0 < 2 ^ 32 ∧ (7 : Nat) < 2 ^ 3 ∧ 61 + 3 ≤ 64 := by decide
theorem test_write_reads_damaged_words :
    (match exec (.write 0 [(0, .singleBit), (1, .uncorrectable 7)]) ((writing busy).setCtx 0
        { closed.setChain 0 { state := .whole, head := 5, tail := 5, words := 64, fill := 64 } with
          state := .delivering }) with
      | .next t => (t.sent[0].map (·.take 5), t.pool.attributeOf 5, t.pool.conditionOf 321, (t.ctx 0).firstUncorrectable,
          t.incidents.map Incident.detail)
      | _ => ([], .clear, .sound, none, [])) =
      ([[0x82, 0x100000000], [0x01000080, 0x2100, 0, 7, 0]], .retireOnFree, .uncorrectable 7, some 264, [5]) := by
  decide +kernel
theorem test_write_fills_the_buffer :
    (match exec (.write 0 []) (writing { busy with bufferFill := 768 }) with
      | .next t => ((t.engine 0).state, (t.engine 0).readPosition, (t.engine 0).bufferFill, t.cache.entries.length,
          t.sent[0].map (·.take 2))
      | _ => (.idle, 0, 0, 9, [])) = (.waitBuffer, 512, 0, 0, [[0x01000080, 0x2300]]) := by decide +kernel
theorem test_hyp_LastWriteCompletesTheDelivery :
    let e := { busy with imageLength := 264 }
    let full := { busy with bufferFill := 768, buffers := 16 }
    let s := writing e
    (min 256 (min (1024 - e.bufferFill) (e.imageLength - e.readPosition)) = 8 ∧ e.readPosition + 8 = e.imageLength ∧
      s.pool.conditionOf (wordAddress (s.locate 0 0).1 (s.locate 0 0).2) = .sound) ∧
    (full.readPosition + 256 ≠ full.imageLength ∧ full.bufferFill + 256 = 1024 ∧ full.buffers = 2 ^ rings.k) ∧
    ((15 : Count) - 0).toNat < 2 ^ rings.m ∧ 2 ^ rings.m ≤ ((16 : Count) - 0).toNat := by decide
theorem test_hyp_freed_slice :
    ∀ q, (((State.reset.setCtx 0 closed).ctx 0).chain q).Holds State.reset.pool [] ∧
      ((List.finRange 24).flatMap fun _ : SourceId => ([] : List Nat)).Nodup := by
  intro q
  have h : ∀ q, (closed.chain q).head = 0 ∧ (closed.chain q).tail = 0 := by decide
  exact ⟨⟨⟨List.nodup_nil, by simp, by simp⟩, Nat.zero_le _, (h q).1.symm, (h q).2.symm⟩, by decide⟩
theorem test_hyp_frontier :
    let s := State.reset.setCtx 0 { Context.unopened with state := .retired }
    ((s.ctx (slotOf (s.frontier + BitVec.ofNat 32 0))).state = .retired ∧
      (s.ctx (slotOf (s.frontier + BitVec.ofNat 32 0))).slice = s.frontier + BitVec.ofNat 32 0) ∧
    (s.ctx (slotOf (s.frontier + BitVec.ofNat 32 1))).state ≠ .retired ∧
    (s.run ≠ .draining ∧ (s.setRun .draining).newestOpened + 1 = (s.setRun .draining).frontier) := by decide
theorem test_hyp_endOfDelivery :
    let s := (writing busy).setRun .flushing
    s.ready = [] ∧ (∀ r, (s.rx r).early = false) ∧ (s.port 0).state ≠ .draining ∧
      ((withPort .draining).port 0).state = .draining ∧ (∀ v, v ≠ 0 → (s.engine v).state = .idle) := by decide
theorem test_ring_limit_cuts :
    (match exec (.write 0 []) ((writing { busy with bufferFill := 768, buffers := 16 }).setCtx 0
        { closed with state := .delivering }) with
      | .next t => ((t.engine 0).state, (t.ring 0).produced, (t.ctx 0).state, t.frontier, t.sent[0].map (·.take 6))
      | _ => (.moving, 0, .opened, 0, [])) =
      (.idle, 1, .unopened, 1, [[0x01000080, 0x2300, 0, 0, 0, 0],
        [0x00400080, 0x10000, 0x0000001100000000, 0x0000001000000000, 512, 0x0000002000000000],
        [0x82, 1]]) := by decide +kernel
theorem test_hyp_LinkOfAnUnattachedPort :
    (State.reset.port 0).state = .linkDown ∧ ((withPort .detached).port 0).state = .detached ∧
      ((withPort .faulted).port 0).state = .faulted := by decide
theorem test_hyp_LinkLossTakesThePortDown :
    let s := writing busy
    (s.port 0).state = .active ∧ (s.engine 0).assigned = some (0, 0) ∧ (s.engine 0).kind = .delivered ∧
      (0 : SlotId) = slotOf 0 ∧ s.cache.outstanding 0 = none ∧ reading.cache.outstanding 0 = some 0 ∧
      ∀ v : PortId, v ≠ 0 → (s.port v).state ≠ .active := by decide
theorem test_delivery_returns :
    (match exec (.portLinkDown 0) (((writing busy).setCtx 0 { closed with state := .delivering }).setTime 7 2) with
      | .next t => (t.ready, (t.ctx 0).state, (t.ctx 0).flags.redirected)
      | _ => ([], .retired, false)) = ([{ slice := 0, since := 7, elapsed := false }], .ready, true) := by decide +kernel
theorem test_hyp_FlushedWaitEnds :
    let s := (writing { busy with state := .waitCredit, kind := .flushed }).setRun .flushing
    (s.port 0).state = .active ∧ (s.engine 0).assigned = some (0, 0) ∧ (s.engine 0).kind = .flushed ∧
      s.run = .flushing ∧ s.ready = [] ∧ (∀ r, (s.rx r).early = false) := by decide
theorem test_hyp_AttachIsRefusedInOrder :
    ((withPort .draining).port 0).state = .draining ∧ ¬((1 : Address).toNat % 64 = 0) ∧ ¬(4 ≤ (3 : BitVec 5).toNat) ∧
      ¬((17 : BitVec 5).toNat ≤ 16) ∧ (0xFFFFFFFFFF00 : Address).toNat + 16 * 2 ^ (4 : BitVec 5).toNat = 2 ^ 48 ∧
      ((0 : Address).toNat < (0xC0 : Address).toNat + 64 * 2 ^ (4 : BitVec 5).toNat ∧
        (0xC0 : Address).toNat < (0 : Address).toNat + 16 * 2 ^ (4 : BitVec 5).toNat) := by decide
theorem test_hyp_AttachMakesThePortActive :
    ((withPort .faulted).port 0).state = .faulted ∧ (0 : Address).toNat + 16 * 2 ^ (4 : BitVec 5).toNat = (0x100 : Address).toNat ∧
      (0x100 : Address).toNat % 64 = 0 ∧ (0x100 : Address).toNat + 64 * 2 ^ (16 : BitVec 5).toNat ≤ 2 ^ 48 ∧
      (withPort .faulted).ready = [] := by decide
theorem test_hyp_DetachDrainsThePort :
    ((attached.port 0).state = .active ∧ (attached.engine 0).state = .idle) ∧ ((writing busy).engine 0).state ≠ .idle ∧
      ((withPort .detached).port 0).state = .detached ∧ ((withPort .draining).port 0).state = .draining := by decide
theorem test_detach_abandons_the_tag :
    (match exec (.detach 0) reading with
      | .next t => (t.cache.outstanding 0, t.cache.abandoned[0], t.cache.slots[0], (t.port 0).state)
      | _ => (none, 0, none, .active)) = (none, 1, none, .detached) := by decide +kernel
theorem test_hyp_AnnounceInstallsTheCounts :
    let s := writing { busy with state := .waitCredit }
    ((s.ring 0).parameters = some rings ∧ ((16 : Count) - (s.ring 0).announced).toNat < 2 ^ 31 ∧
      ((16 : Count) - (s.ring 0).consumed).toNat ≤ 2 ^ rings.k ∧
      ((0 : Count) - (s.ring 0).announcedConsumed).toNat ≤ ((s.ring 0).produced - (s.ring 0).announcedConsumed).toNat) ∧
    (attached.engine 0).state ≠ .waitCredit ∧ (s.engine 0).state = .waitCredit ∧
      ((s.ring 0).produced - 0).toNat < 2 ^ rings.m := by decide
theorem test_hyp_settled_read :
    (∀ v, (attached.engine v).state ≠ .waitBuffer) ∧
    (∀ v, v ≠ 0 → ahead ((attached.ring v).announced - (attached.ring v).fetched) = false) ∧
    ahead (4 - (attached.ring 0).fetched) = true ∧ attached.cache.outstanding 0 = none ∧
    attached.openSlot 0 = some 0 ∧ attached.cache.sharedRoom 0 = 64 := by decide
/-- Ports 0 and 1 ACTIVE, the 64 entries with port 1, port 0's engine without a buffer. -/
def starved : State :=
  let s := (((attached.setPort 1 { Port.reset with state := .active }).setRing 1 rings.record).setEngine 0
    { busy with state := .waitBuffer }).setRing 0 { rings.record with announced := 4 }
  s.setCache { s.cache with
    entries := (List.range 64).map fun n =>
      { port := 1, count := BitVec.ofNat 32 n, address := 0, length := 512, state := .cached }
    rings := s.cache.rings.set 1 { rings.record with announced := 64, fetched := 64 } }
theorem test_hyp_eviction :
    (starved.starves 0 = true ∧ starved.cache.victim 0 = some 1 ∧ starved.cache.cachedCount 1 = 64) ∧
      (starved.evictFor 0).cache.cachedCount 1 = 60 ∧ (starved.evictFor 0).cache.holds[0] = some 4 ∧
      ((starved.evictFor 0).ring 1).fetched = 60 := by decide +kernel
theorem test_hyp_PortFaultsTakeThePortDown :
    ((attached.port 0).state = .active ∧ (attached.ring 0).parameters = some rings) ∧
    2 ^ 31 ≤ ((0x80000000 : Count) - (attached.ring 0).announced).toNat ∧
    (2 ^ rings.k < ((17 : Count) - (attached.ring 0).consumed).toNat ∧
      ((17 : Count) - (attached.ring 0).consumed).toNat < 2 ^ 31) ∧
    ((attached.ring 0).produced - (attached.ring 0).announcedConsumed).toNat <
      ((1 : Count) - (attached.ring 0).announcedConsumed).toNat ∧
    reading.cache.slots[0] = some { port := 0, first := 0, n := 1, reserved := 1, producer := 1 } ∧
    ((parseDescriptor 0 0x8000000000000000).cycle = expectedCycle rings.k 0 ∧
      (parseDescriptor 0 0x8000000000000000).sound = false) ∧
    ((parseDescriptor 0 1).cycle ≠ expectedCycle rings.k 0 ∧ ahead ((1 : Count) - 0) = true) ∧
    (∀ i : Fin 4, attached.cache.abandonedTag 0 i = false ∧ attached.cache.slots[i] = none) ∧
    malformed [0xFF] = true ∧ attached.cache.answersAbandoned 0 [0xFF] = none := by decide
/-- Port 0 ACTIVE with a READ of two descriptors in slot 3, both announced. -/
def readingTwo : State :=
  attached.setCache { attached.cache with
    slots := #v[none, none, none, some { port := 0, first := 0, n := 2, reserved := 2, producer := 2 }] }
theorem test_fault_abandons_the_tag :
    (match exec (.readData 0 3 [0]) readingTwo with
      | .next t => (t.cache.abandoned[0], (t.port 0).state, (t.port 0).cause)
      | _ => (0, .active, none)) = (8, .faulted, some .malformed) := by decide +kernel
theorem test_invalid_descriptor_after_a_valid_one :
    (match exec (.readData 0 3 [0, 0x8000000000000800, 1, 0]) readingTwo with
      | .next t => (t.cache.abandoned[0], (t.port 0).state, (t.port 0).cause, t.cache.entries, t.ring 0)
      | _ => (9, .active, none, [], Ring.torn)) = (0, .faulted, some .ringInvalid, [], Ring.torn) := by decide +kernel
theorem test_hyp_invalid_descriptor_after_a_valid_one :
    let d := parseDescriptor 0 0x8000000000000800
    let bad := parseDescriptor 1 0
    parseDescriptors [0, 0x8000000000000800, 1, 0] = [d] ++ bad :: [] ∧ d.cycle = expectedCycle rings.k 0 ∧
      bad.cycle ≠ expectedCycle rings.k 1 ∧ ahead ((2 : Count) - 1) = true ∧
      readingTwo.cache.outstanding 0 = some 3 ∧ readingTwo.cache.slots[0] = none := by decide
theorem test_hyp_MessagesAreJudgedByTypeLengthAndTag :
    let s := (withPort .detached).setCache { Cache.reset with abandoned := Cache.reset.abandoned.set 0 1 }
    malformed [] = true ∧ (s.port 0).state = .detached ∧ s.cache.abandonedTag 0 0 = true ∧ s.cache.slots[0] = none ∧
      s.cache.abandonedTag 0 1 = false ∧ ((withPort .faulted).port 0).state = .faulted ∧
      (malformed [0x21] = true ∧ s.cache.answersAbandoned 0 [0x21] = some 0) ∧
      s.cache.answersAbandoned 0 [0x010021] = none ∧ s.cache.answersAbandoned 0 [0xFF] = none := by decide
theorem test_message_attach :
    messageCommand 2 [0xAB01, 0x0400123456789AC0, 0x1F00000000001000] =
      some (.attach 2 0x123456789AC0 4 0x1000 31) := by decide +kernel
theorem test_message_announce :
    messageCommand 0 [0x03, 0x0000000700000009] = some (.announce 0 9 7) := by decide +kernel
theorem test_message_item_commit : messageCommand 0 [0x13, 0x3F06] = some (.itemCommit 0 6 63) := by decide +kernel
theorem test_message_read_data : messageCommand 1 [0x030020, 5, 6] = some (.readData 1 3 [5, 6]) := by decide +kernel
theorem test_message_read_data_error : messageCommand 1 [0x030021, 5] = some (.readDataError 1 3 5) := by decide +kernel
theorem test_hyp_ReadDataCachesTheDescriptors :
    let d := parseDescriptor 0 0x8000000000000800
    (parseDescriptors [0, 0x8000000000000800] = [d] ∧ d.cycle = expectedCycle rings.k 0 ∧ 1 ≤ d.units ∧ d.units ≤ 2048 ∧
      d.address.toNat % 64 = 0) ∧
    ((reading.ring 0).parameters = some rings ∧ (reading.engine 0).state ≠ .waitBuffer) ∧
    ((parseDescriptor 0 1).cycle ≠ expectedCycle rings.k 0 ∧ ahead ((0 : Count) - 0) = false) := by decide
theorem test_read_data_wakes_the_engine :
    (match exec (.readData 0 0 [0, 0x8000000000000800]) (reading.setEngine 0
        { busy with state := .waitBuffer, bufferFill := 0 }) with
      | .next t => ((t.engine 0).state, (t.engine 0).buffers, (t.ring 0).consumed, (t.ring 0).fetched,
          t.cache.entries.map CacheEntry.state)
      | _ => (.idle, 0, 0, 0, [])) = (.moving, 2, 1, 1, [.assigned]) := by decide +kernel
theorem test_hyp_ItemRequestsReserveAndStage :
    let s := staging .dispatch 5
    let t := s.setPort 0 { s.port 0 with cursor := some (.slicestat 63) }
    (State.reset.port 0).state = .linkDown ∧ (s.port 0).state ≠ .linkDown ∧ ItemName.ofCodes 15 63 = some (.slicestat 63) ∧
      ItemName.ofCodes 15 64 = none ∧ (s.port 0).cursor = none ∧
      ((t.port 0).state ≠ .linkDown ∧ (t.port 0).cursor = some (.slicestat 63) ∧
        ItemName.next (.slicestat 63) = .slicestat 0) ∧
      (7 : BitVec 8).toNat = (7 : Fin 8).val ∧ 8 ≤ (8 : BitVec 8).toNat := by decide
theorem test_status_items_show_their_values :
    ((withRx { up with current := some 5, noPages := true }).contents (.linkstat 0)).toList =
      [3, 0, 8, 0x100000005, 0, 0, 0, 0] ∧
    (reading.contents (.portstat 0)).toList = [2, 0, 0, 0, 0xFF000100, 0, 0, 0] ∧
    (onePage.contents .store).toList = [2, 1, 0, 0, 0, 0, 0, 0] ∧
    ((State.reset.setPool { PagePool.reset with retired := List.range' 1 32 }).contents (.retired 3)).toList =
      [25, 26, 27, 28, 29, 30, 31, 32] ∧
    ((State.reset.setCtx 63 { openContext.setChainState 2 .cut with slice := 63 }).contents (.slicestat 63)).toList =
      [0x10000003F, 1, 0, 4, 3, 0, 0, 0] := by decide +kernel
theorem test_hyp_CommitsAreRefusedInOrder :
    let s := staging .slot 5
    commitTarget (.itemCommit 0 13 0) = some (0, .store) ∧ ItemName.store.kind = .readOnly ∧
    (commitTarget (.dispatchCommit 0) = some (0, .dispatch) ∧ ItemName.dispatch.kind ≠ .readOnly ∧
      (s.port 0).reservation ≠ some (.dispatch, s.generation .dispatch)) ∧
    (commitTarget (.slotCommit 0) = some (0, .slot) ∧ (s.port 0).reservation = some (.slot, s.generation .slot) ∧
      (s.setRun .running).run ≠ .stopped ∧ ItemName.slot.kind = .runLocked) ∧
    (s.run = .stopped ∧ (s.items.checks .slot (s.judged 0 .slot))[0]? = some false) ∧
    ItemName.ofCodes 16 0 = none := by decide
theorem test_checks_at_their_bounds :
    Items.reset.checks .pressure (pack [1, 2, 16383, 1, 0, 0, 14, 3]) =
      [true, true, true, false, true, true, true, true] ∧
    Items.reset.checks .pressure (pack [0, 0, 16384, 0, 15, 14, 13, 4]) =
      [false, false, false, false, false, false, false, false] ∧
    Items.reset.checks .pressure (pack [2, 3, 4, 1, 14, 14, 14, 1]) = List.replicate 8 true ∧
    Items.reset.checks (.linkmap 0) (pack [255, 2, 1, 0]) = [true, false, true, true] ∧
    Items.reset.checks (.linkmap 0) (pack [23, 1, 1, 1]) = [false, true, true, true] ∧
    Items.reset.checks (.linkmap 0) (pack [24, 1, 2, 2]) = [false, true, false, false] ∧
    Items.reset.checks (.steer 0) (pack [5, 3, 4, 3, 0]) = [false, true, false, false, true] ∧
    Items.reset.checks (.steer 0) (pack [1, 4, 4]) = [true, false] ∧
    Items.reset.checks .cache (pack [4, 32, 16, 15]) = [true, true, true, false] ∧
    Items.reset.checks .cache (pack [5, 33, 17, 16]) = [false, false, false, false] ∧
    Items.reset.checks .outputs (pack [6, 1, 7, 2, 0, 0, 6, 1]) = [true, true, false, false, true, true, true, true] := by
  decide
theorem test_hyp_CommitsInstallTheWords :
    let s := staging .slot 4
    let t := staging (.steer 9) 1
    ((s.port 0).reservation = some (.slot, s.generation .slot) ∧
      ∀ b ∈ s.items.checks .slot (s.judged 0 .slot), b = true) ∧
    (commitTarget (.steerCommit 0 9) = some (0, .steer 9) ∧ (ItemName.steer 9).kind = .live ∧
      (t.port 0).reservation = some (.steer 9, t.generation (.steer 9)) ∧
      ∀ b ∈ t.items.checks (.steer 9) (t.judged 0 (.steer 9)), b = true) ∧
    ((∀ b ∈ (staging .pressure 1000).items.checks .pressure ((staging .pressure 1000).judged 0 .pressure), b = true) ∧
      (∀ b ∈ (staging .dispatch 0).items.checks .dispatch ((staging .dispatch 0).judged 0 .dispatch), b = true) ∧
      ∀ b ∈ (staging .cache 1).items.checks .cache ((staging .cache 1).judged 0 .cache), b = true) := by decide
theorem test_cache_commit_trims :
    (match exec (.cacheCommit 0) ((starved.setPort 0 { starved.port 0 with
        reservation := some (.cache, 0), staging := (Vector.replicate 8 none).set 1 (some 1) })) with
      | .next t => (t.cache.cachedCount 1, (t.ring 1).fetched, t.cache.reservedCount 0)
      | _ => (0, 0, 0)) = (1, 1, 1) := by decide +kernel
theorem test_hyp_RunCommandsStartAndStop :
    let s := staging .run 5
    let t := (staging .run 6).setRun .running
    let u := (staging .run 7).setRun .flushing
    ((s.port 0).reservation = some (.run, s.items.runGeneration) ∧ (∀ r, (s.rx r).early = false) ∧
      (s.port 0).staging[0] = some 5 ∧ s.run = .stopped) ∧
    ((t.port 0).staging[0] = some 6 ∧ t.run = .running) ∧ ((u.port 0).staging[0] = some 7 ∧ u.run = .flushing) ∧
    (t.newestOpened - t.frontier + 1 = 0 ∧ (t.setNewestOpened 0).newestOpened - t.frontier + 1 ≠ 0) ∧
    ((staging .slot 5).port 0).reservation ≠ some (.run, s.items.runGeneration) ∧
    (((staging .run 4).port 0).staging[0] = some 4 ∧ State.reset.run = .stopped) := by decide
theorem test_hyp_stop_with_a_stalled_segment :
    let g := held .waiting { header .first 2 with slice := 64 } [1, 2]
    let s := ((staging .run 6).setRun .running).setRx 0 { up with early := true, buffer := [g] }
    (∀ r : ReceiverId, (s.rx r).early = true → r = 0) ∧ (s.rx 0).link = .up ∧ (s.rx 0).buffer = [g] ∧
      g.place = .waiting ∧ 64 ≤ distance s.frontier g.header.slice ∧ (s.rx 0).current = none := by decide
theorem test_hyp_FlushClosesOutTheRun :
    let s := staging .run 7
    let t := ((writing busy).setCtx 0 { closed with state := .delivering }).setRun .running
    (s.port 0).state ≠ .linkDown ∧ (s.port 0).reservation = some (.run, s.items.runGeneration) ∧
      (s.port 0).staging[0] = some 7 ∧ s.run = .stopped ∧ (s.setRun .draining).run = .draining ∧
      (∀ v, (s.engine v).state = .idle) ∧
      ((t.engine 0).state ≠ .idle ∧ (t.engine 0).assigned = some (0, 0) ∧ (t.ring 0).parameters = some rings ∧
        (t.ctx 0).state = .delivering ∧ (∀ w, w ≠ 0 → (t.engine w).assigned = none) ∧
        ((t.ring 0).produced - (t.ring 0).announcedConsumed).toNat < 2 ^ rings.m) := by decide
theorem test_flush_writes_a_flushed_record :
    (match exec (.flush 1) ((((writing busy).setCtx 0 { closed with state := .delivering }).setRun .running).setPort 1
        ((staging .run 7).port 0)) with
      | .next t => (t.run, (t.engine 0).state, (t.ctx 0).state, t.sent[0].map (·.take 5))
      | _ => (.running, .moving, .opened, [])) =
      (.stopped, .idle, .unopened,
        [[0x00400080, 0x10000, 0x0000001200000000, 0x0000000100000000, 256], [0x82, 1]]) := by decide +kernel
theorem test_hyp_incidents :
    let s := State.reset.setIncidents (List.replicate 15 incident)
    let t := State.reset.setIncidents (List.replicate 16 incident)
    s.incidents.length < 16 ∧ 16 ≤ t.incidents.length ∧ t.incidents = List.replicate 15 incident ++ [incident] ∧
      State.reset.incidents = [] ∧ ((withPort .faulted).port 0).state ≠ .linkDown := by decide
theorem test_first_incident_notifies :
    let s := (attached.setPort 1 { attached.port 0 with quietUntil := some 3 }).setPort 2 { attached.port 0 with
      state := .detached }
    let t := s.post .timing .none none 0
    (s.incidents = [] ∧ s.inQuietPeriod 0 = false ∧ s.inQuietPeriod 1 = true ∧ (s.port 1).state = .active ∧
      (s.port 2).state ≠ .active ∧ (s.port 2).state ≠ .draining) ∧
    t.sent = #v[[[0x82, 0x0000000100000000]], [], [], []] ∧ (t.port 1).notifyPending = true ∧ t.port 2 = s.port 2 ∧
      (t.post .timing .none none 0).sent = t.sent := by decide +kernel
theorem test_hyp_NotifyFollowsTheQuietPeriod :
    let s := attached.setPort 0 { attached.port 0 with quietUntil := some 1, notifyPending := true }
    let t := attached.setPort 0 { attached.port 0 with quietUntil := some 0 }
    ((s.port 0).state = .active ∧ s.inQuietPeriod 0 = true ∧ ahead (1 - s.counter) = true ∧
      (s.port 0).notifyPending = true) ∧
    (t.inQuietPeriod 0 = false ∧ ahead (0 - t.counter) = false ∧ (t.port 0).notifyPending = false) ∧
    (State.reset.port 0).quietUntil = none := by decide
theorem test_trigger_at_the_end_of_a_quiet_period :
    let s := attached.setPort 0 { attached.port 0 with quietUntil := some 0, notifyPending := true }
    (((s.trigger 0).endQuietPeriod 0).sent[0].length, ((s.trigger 0).port 0).notifyPending,
      ((s.trigger 0).port 0).quietUntil) = (1, false, some 20) := by decide +kernel
theorem test_hyp_CommandsLeaveTheRest : exec (.idle 0) State.reset = .next State.reset ∧ Instr.idle 0 ≠ .deviceReset :=
  ⟨rfl, by decide⟩
theorem test_hyp_StepKeeps : step State.reset = .next State.reset := rfl
theorem test_hyp_canonical : State.reset.pool.Canonical := ⟨rfl, rfl, rfl, rfl⟩

end Sys2Proof.Tests
end

section
/-! PROOF. Where a freed page goes (R61): the state each row of the table leaves, its pool, and that a free posts
nothing but RETIRE_FULL. -/

namespace Sys2Proof.Machine

/-! ## The page tables -/

/-- A page's link entry reads as it was last set (R58). -/
theorem PagePool.setLink_linkOf {pool : PagePool} (h : pool.Canonical) (page next : Nat) :
    (pool.setLink page next).linkOf page = next :=
  have ⟨_, _, hlinks, _⟩ := h
  Cells.get_put_self (lo := 0) page next hlinks

/-- A page's attribute reads as it was last set (R60). -/
theorem PagePool.setAttribute_attributeOf {pool : PagePool} (h : pool.Canonical) (page : Nat) (x : PageAttribute) :
    (pool.setAttribute page x).attributeOf page = x :=
  have ⟨_, _, _, hattributes⟩ := h
  Cells.get_put_self (lo := 0) page x hattributes

/-! ## The rows of R61's table -/

section
variable (s : State) (n : Slice) (page : Nat)

/-- A page not marked RETIRE_ON_FREE goes to the free list; then the level is evaluated and NO_PAGES ends (R67, R76). -/
theorem freePage_unmarked (h : s.pool.attributeOf page ≠ .retireOnFree) :
    s.freePage n page = (s.setPool (s.pool.freed page)).evaluate.endNoPages := by
  unfold State.freePage
  rw [if_neg h]

/-- A page marked RETIRE_ON_FREE goes to the retired page table while it has room; the free list does not grow, so
NO_PAGES stays. -/
theorem freePage_retired (h : s.pool.attributeOf page = .retireOnFree)
    (room : s.pool.retired.length < Config.retiredEntries) :
    s.freePage n page = (s.setPool (s.pool.withdrawn page)).evaluate := by
  unfold State.freePage
  rw [if_pos h, if_pos room]

/-- A page marked RETIRE_ON_FREE goes to the free list as SUSPECT when the retired page table is full, and RETIRE_FULL
is posted last. -/
theorem freePage_full (h : s.pool.attributeOf page = .retireOnFree)
    (full : Config.retiredEntries ≤ s.pool.retired.length) : s.freePage n page =
      ((s.setPool ((s.pool.freed page).setAttribute page .suspect)).evaluate.endNoPages).post .retireFull .none
        (some n) (BitVec.ofNat 64 page) := by
  unfold State.freePage
  rw [if_pos h, if_neg (Nat.not_lt.mpr full)]

/-- The pool after a page went to the retired page table. -/
theorem freePage_pool_retired (h : s.pool.attributeOf page = .retireOnFree)
    (room : s.pool.retired.length < Config.retiredEntries) : (s.freePage n page).pool = s.pool.withdrawn page := by
  rw [freePage_retired s n page h room, evaluate_pool, State.setPool_pool]

/-- The pool after the retired page table had no room. -/
theorem freePage_pool_full (h : s.pool.attributeOf page = .retireOnFree)
    (full : Config.retiredEntries ≤ s.pool.retired.length) :
    (s.freePage n page).pool = (s.pool.freed page).setAttribute page .suspect := by
  rw [freePage_full s n page h full, post_keeps State.pool (fun _ _ _ => rfl) (fun _ _ _ => rfl) (fun _ _ => rfl),
    State.endNoPages_keeps State.pool (fun _ _ _ => rfl), evaluate_pool, State.setPool_pool]

/-- Whatever its attribute, a freed page has no link and is no longer counted. -/
theorem freePage_link_occupancy (h : s.pool.Canonical) :
    (s.freePage n page).pool.linkOf page = 0 ∧ (s.freePage n page).pool.occupancy = s.pool.occupancy - 1 := by
  have hlink := PagePool.setLink_linkOf h page 0
  by_cases ha : s.pool.attributeOf page = .retireOnFree
  · rcases Nat.lt_or_ge s.pool.retired.length Config.retiredEntries with room | full
    · rw [freePage_pool_retired s n page ha room]
      exact ⟨hlink, rfl⟩
    · rw [freePage_pool_full s n page ha full]
      exact ⟨hlink, rfl⟩
  · rw [freePage_pool s n page ha]
    exact ⟨hlink, rfl⟩

end

/-! ## What a free posts -/

/-- With nothing to rise to, an evaluation posts nothing where occupancy has not grown (R77, R78). -/
theorem setPool_evaluate_incidents {s : State} (hr : s.risen = none) {pool : PagePool}
    (ho : pool.occupancy ≤ s.pool.occupancy) : (s.setPool pool).evaluate.incidents = s.incidents := by
  have hr' : (s.setPool pool).risen = none := by
    rw [State.risen_none_iff] at hr ⊢
    exact fun m hm => lt_of_le_of_lt ho (hr m hm)
  rw [State.evaluate_falls _ hr']
  rfl

section
variable {s : State} (n : Slice) (page : Nat) (hr : s.risen = none)
include hr

/-- A page not marked RETIRE_ON_FREE posts nothing. -/
theorem freePage_unmarked_incidents (h : s.pool.attributeOf page ≠ .retireOnFree) :
    (s.freePage n page).incidents = s.incidents := by
  rw [freePage_unmarked s n page h, State.endNoPages_keeps State.incidents (fun _ _ _ => rfl)]
  exact setPool_evaluate_incidents hr (Nat.sub_le _ 1)

/-- A page that finds room in the retired page table posts nothing. -/
theorem freePage_retired_incidents (h : s.pool.attributeOf page = .retireOnFree)
    (room : s.pool.retired.length < Config.retiredEntries) : (s.freePage n page).incidents = s.incidents := by
  rw [freePage_retired s n page h room]
  exact setPool_evaluate_incidents hr (Nat.sub_le _ 1)

/-- A page that finds the retired page table full posts RETIRE_FULL alone. -/
theorem freePage_full_incidents (h : s.pool.attributeOf page = .retireOnFree)
    (full : Config.retiredEntries ≤ s.pool.retired.length) : (s.freePage n page).incidents =
      (s.post .retireFull .none (some n) (BitVec.ofNat 64 page)).incidents := by
  rw [freePage_full s n page h full]
  refine post_incidents_congr _ _ _ _ ?queue ?counter
  case queue =>
    rw [State.endNoPages_keeps State.incidents (fun _ _ _ => rfl)]
    exact setPool_evaluate_incidents hr (Nat.sub_le _ 1)
  case counter =>
    rw [State.endNoPages_keeps State.counter (fun _ _ _ => rfl), evaluate_counter, State.setPool_counter]

end

/-! ## The statement -/

/-- Settles O27: what holds of every free, then one clause per row of R61's table, each read off the pool of its row. -/
theorem freedPageGoesByItsAttribute : Obligations.FreedPageGoesByItsAttribute := by
  intro s n page _ hc
  obtain ⟨hlink, hoccupancy⟩ := freePage_link_occupancy s n page hc
  refine ⟨hlink, hoccupancy, fun ha => ?unmarked, fun ha room => ?retired, fun ha full => ?full⟩
  case unmarked =>
    rw [freePage_pool s n page ha]
    exact ⟨rfl, rfl, rfl, fun hr => freePage_unmarked_incidents n page hr ha⟩
  case retired =>
    rw [freePage_pool_retired s n page ha room]
    exact ⟨rfl, rfl, ha, fun hr => freePage_retired_incidents n page hr ha room⟩
  case full =>
    rw [freePage_pool_full s n page ha full]
    exact ⟨rfl, rfl, PagePool.setAttribute_attributeOf hc page .suspect, ⟨_, freePage_full s n page ha full⟩,
      fun hr => freePage_full_incidents n page hr ha full⟩

end Sys2Proof.Machine
end

section
/-! PROOF. The evaluation of the pressure level: what the rising rule (R77) and the falling rule (R78) leave it at, and
the incident on entry into P3 (R79). -/

namespace Sys2Proof.Machine

variable {s : State}

/-! ## The rising rule -/

/-- A level risen to lies above the current one, and is the highest whose threshold occupancy has reached (R77). The three
branches are the tests of P3, P2 and P1 in this order; a level above the answer is one whose test failed before it. -/
theorem State.risen_some {k : Fin 4} (h : s.risen = some k) :
    s.pressure.level < k ∧ s.threshold k ≤ s.pool.occupancy ∧
      ∀ m : Fin 4, k < m → s.pool.occupancy < s.threshold m := by
  unfold State.risen at h
  dsimp only at h
  split at h
  case isTrue h3 =>
    obtain rfl : 3 = k := by simpa using h
    exact ⟨h3.1, h3.2, fun m hm => absurd hm (Fin.le_last m).not_gt⟩
  case isFalse n3 =>
    split at h
    case isTrue h2 =>
      obtain rfl : 2 = k := by simpa using h
      refine ⟨h2.1, h2.2, fun m hm => ?_⟩
      obtain rfl : m = 3 := by omega
      exact not_le.mp fun reached => n3 ⟨h2.1.trans hm, reached⟩
    case isFalse n2 =>
      split at h
      case isTrue h1 =>
        obtain rfl : 1 = k := by simpa using h
        refine ⟨h1.1, h1.2, fun m hm => ?_⟩
        obtain rfl | rfl : m = 2 ∨ m = 3 := by omega
        · exact not_le.mp fun reached => n2 ⟨h1.1.trans hm, reached⟩
        · exact not_le.mp fun reached => n3 ⟨h1.1.trans hm, reached⟩
      case isFalse => cases h

/-- Where there is a level to rise to, the evaluation takes it (R76). -/
theorem State.evaluated_risen {k : Fin 4} (h : s.risen = some k) : s.evaluated = k := by
  unfold State.evaluated
  rw [h]

/-- Where there is none, the falling rule decides (R76). -/
theorem State.evaluated_falls (h : s.risen = none) : s.evaluated = s.fallenFrom s.pressure.level := by
  unfold State.evaluated
  rw [h]

/-- The default thresholds (R80). -/
theorem State.threshold_default (h : s.items = Items.reset) :
    s.threshold 1 = 12288 ∧ s.threshold 2 = 14336 ∧ s.threshold 3 = 15360 := by
  unfold State.threshold
  rw [h]
  decide

/-! ## The falling rule -/

/-- One step of the falling rule: the level drops by one and the test repeats, or it stops (R78). -/
theorem State.fallenFrom_succ (s : State) (j : Fin 3) :
    s.fallenFrom j.succ = if s.below j.succ then s.fallenFrom j.castSucc else j.succ := by
  fin_cases j <;> rfl

/-- The falling rule stops at P0, or at a level whose threshold less the margin occupancy has reached (R78). -/
theorem State.fallenFrom_stops (s : State) (j : Fin 4) :
    s.fallenFrom j = 0 ∨ s.threshold (s.fallenFrom j) - s.margin ≤ s.pool.occupancy := by
  induction j using Fin.induction with
  | zero => exact .inl rfl
  | succ j ih =>
    rw [s.fallenFrom_succ j]
    split
    case isTrue => exact ih
    case isFalse stays => exact .inr (by simpa [State.below] using stays)

/-! ## Entry into P3 -/

/-- An evaluation that takes the level to P3 from below posts PRESSURE_HIGH with the occupancy (R79). -/
theorem State.evaluate_enters (below : s.pressure.level ≠ 3) (top : s.evaluated = 3) :
    s.evaluate = (s.setPressure { s.pressure with level := 3 }).post .pressureHigh .none none
      (BitVec.ofNat 64 s.pool.occupancy) := by
  unfold State.evaluate
  rw [if_pos ⟨below, top⟩, top]

/-- An evaluation that starts in P3 or ends below it replaces the level and posts nothing (R79). -/
theorem State.evaluate_noEntry (h : s.pressure.level = 3 ∨ s.evaluated ≠ 3) :
    s.evaluate = s.setPressure { s.pressure with level := s.evaluated } := by
  unfold State.evaluate
  exact if_neg fun ⟨below, top⟩ => h.elim below fun notTop => notTop top

/-! ## The statements -/

/-- Settles O29: with a level to rise to by what the rule answers, without one by what its failed tests say. -/
theorem risingRuleTakesTheHighestThreshold : Obligations.RisingRuleTakesTheHighestThreshold := by
  refine ⟨fun s => ?reached, fun s => ?level, fun s => State.threshold_default⟩
  case reached =>
    cases h : s.risen with
    | some k => exact State.risen_some h
    | none => exact s.risen_none_iff.mp h
  case level =>
    cases h : s.risen with
    | some k => exact State.evaluated_risen h
    | none => exact State.evaluated_falls h

/-- Settles O30: the levels passed (`fallenFrom_le`), where the fall stops, and that it posts nothing. -/
theorem fallingRuleStepsDown : Obligations.FallingRuleStepsDown := by
  refine ⟨fun s j => ?fall, State.evaluate_falls⟩
  obtain ⟨down, passed⟩ := s.fallenFrom_le j
  exact ⟨down, passed, s.fallenFrom_stops j⟩

/-- Settles O31: an entry into P3, and every other evaluation. -/
theorem entryIntoTheTopLevelPosts : Obligations.EntryIntoTheTopLevelPosts :=
  fun _ => ⟨State.evaluate_enters, State.evaluate_noEntry⟩

end Sys2Proof.Machine
end

section
/-! PROOF. The status lines: which words of OUTPUTS set them (R197), the conditions they show (R84, R190) and their
polarity (R191). -/

namespace Sys2Proof.Machine

variable (s : State)

/-! ## The words of OUTPUTS -/

/-- The contents of OUTPUTS are the words of its installed record (R167). -/
@[simp] theorem State.contents_outputs : s.contents .outputs = s.items.outputs.words := rfl

/-- Line `i` takes its source from word 2i of OUTPUTS (R197). -/
theorem State.lineSource_eq (i : Fin 4) {j : Fin 8} (h : j.val = 2 * i.val) :
    s.lineSource i = s.items.outputs.value j := by
  have inRange : 2 * i.val < 8 := by omega
  obtain rfl : j = ⟨2 * i.val, inRange⟩ := Fin.ext h
  fin_cases i <;> rfl

/-- Line `i` takes its polarity from word 2i + 1 of OUTPUTS (R191, R197). -/
theorem State.lineActiveLow_eq (i : Fin 4) {k : Fin 8} (h : k.val = 2 * i.val + 1) :
    s.lineActiveLow i = (s.items.outputs.value k == 1) := by
  have inRange : 2 * i.val + 1 < 8 := by omega
  obtain rfl : k = ⟨2 * i.val + 1, inRange⟩ := Fin.ext h
  fin_cases i <;> rfl

/-- An item's word reads as 1 just when it is the word 1. -/
theorem Item.value_eq_one_iff (item : Item) (k : Fin 8) : item.value k = 1 ↔ item.words[k] = 1 :=
  BitVec.toNat_inj (y := 1)

/-- Line `i` is active-low just when word 2i + 1 of OUTPUTS is 1 (R191, R197). -/
theorem State.lineActiveLow_iff (i : Fin 4) {k : Fin 8} (h : k.val = 2 * i.val + 1) :
    s.lineActiveLow i = true ↔ (s.contents .outputs)[k] = 1 := by
  rw [s.lineActiveLow_eq i h, beq_iff_eq, Item.value_eq_one_iff, s.contents_outputs]

/-! ## The source conditions -/

/-- BUSY: the pressure level has reached the busy level, word 7 of PRESSURE (R84). -/
theorem State.busy_iff : s.busy = true ↔ ((s.contents .pressure)[7]).toNat ≤ s.pressure.level.val :=
  decide_eq_true_iff

/-- PRESSURE_ANY: the pressure level is above P0 (R84). -/
theorem State.pressureAny_iff : s.pressureAny = true ↔ s.pressure.level ≠ 0 :=
  bne_iff_ne

/-- LINK_ALARM: some mapped, enrolled receiver is not UP (R190). -/
theorem State.linkAlarm_iff : s.linkAlarm = true ↔
    ∃ r, (∃ q, s.mapping r = some q) ∧ s.enrolled r = true ∧ (s.rx r).link ≠ .up := by
  simp [State.linkAlarm, allReceivers, Option.isSome_iff_exists, and_assoc]

/-- INCIDENT_PENDING: the incident queue is not empty (R190). -/
theorem State.incidentPending_iff : s.incidentPending = true ↔ s.incidents ≠ [] := by
  simp [State.incidentPending]

/-- RUN_ACTIVE: the run state is RUNNING or DRAINING (R190). -/
theorem RunState.active_iff (run : RunState) : run.active = true ↔ run = .running ∨ run = .draining := by
  cases run <;> simp [RunState.active]

/-- NO_BUILDER: no port is ACTIVE (R190). -/
theorem State.noBuilder_iff : s.noBuilder = true ↔ ∀ p, (s.port p).state ≠ .active := by
  simp [State.noBuilder, allPorts]

/-! ## The lines -/

/-- A line is high when its condition holds and the line is active-high, or neither (R191). -/
theorem State.lineHigh_iff (i : Fin 4) :
    s.lineHigh i = true ↔ (s.condition (s.lineSource i) = true ↔ s.lineActiveLow i = false) := by
  unfold State.lineHigh
  cases s.condition (s.lineSource i) <;> cases s.lineActiveLow i <;> decide

/-- Settles O32: the polarity, the words of OUTPUTS, and each source code by the lemma of the condition it selects. -/
theorem statusLinesShowTheirConditions : Obligations.StatusLinesShowTheirConditions := fun s i =>
  ⟨s.lineHigh_iff i,
    fun _ _ source polarity => ⟨s.lineSource_eq i source, s.lineActiveLow_iff i polarity⟩,
    rfl, s.busy_iff, s.pressureAny_iff, s.linkAlarm_iff, s.incidentPending_iff, s.run.active_iff, s.noBuilder_iff⟩

end Sys2Proof.Machine
end

section
/-! PROOF. What every step keeps: the bounds, the engines attached, the items and the pressure relation. Each is kept by
every update a command is made of (`Prim`), and so by every step. -/

namespace Sys2Proof.Machine

/-- A property that every update keeps, and that does not read the queue, is kept by every step. -/
theorem step_keeps {P : State → Prop} (hprim : ∀ k b s t, Prim k b s t → P s → P t)
    (hqueue : ∀ s q, P s → P (s.setPending q)) {s t : State} (hs : P s) (h : step s = .next t) : P t := by
  unfold step at h
  split at h
  case h_1 =>
    obtain rfl : s = t := by simpa using h
    exact hs
  case h_2 c rest _ =>
    exact (exec_leads h).keeps (fun k b s t p _ _ => hprim k b s t p) (hqueue s rest hs)

/-- Settles O58. -/
theorem stepKeepsTheBounds : Obligations.StepKeepsTheBounds := fun _ _ =>
  step_keeps (fun _ _ s t p => prim_bounded s t p) fun _ _ => bounded_congr rfl rfl rfl

/-- Settles O59. -/
theorem stepKeepsTheEnginesAttached : Obligations.StepKeepsTheEnginesAttached := fun _ _ =>
  step_keeps (fun _ _ s t p => prim_engines s t p) fun _ _ h k => engines_congr rfl rfl (h k)

/-- Settles O60. -/
theorem stepKeepsItemsAndPressureTrue : Obligations.StepKeepsItemsAndPressureTrue := fun _ _ =>
  step_keeps (fun _ _ s t p => prim_pressure s t p) fun _ _ ⟨valid, relation⟩ =>
    ⟨valid, pressure_congr rfl rfl rfl rfl relation⟩

/-! ## The reset state -/

/-- A receiver after device reset (R56). -/
@[simp] theorem State.reset_rx (r : ReceiverId) : State.reset.rx r = Receiver.reset := by
  simp [State.rx, State.reset]

/-- A context slot after device reset (R33). -/
@[simp] theorem State.reset_ctx (i : SlotId) : State.reset.ctx i = Context.unopened := by
  simp [State.ctx, State.reset]

/-- An engine after device reset (R106). -/
@[simp] theorem State.reset_engine (p : PortId) : State.reset.engine p = Engine.idle := by
  simp [State.engine, State.reset]

/-- A port record after device reset (R150). -/
@[simp] theorem State.reset_port (p : PortId) : State.reset.port p = Port.reset := by
  simp [State.port, State.reset]

/-- A ring record after device reset (R130). -/
@[simp] theorem State.reset_ring (p : PortId) : State.reset.ring p = Ring.torn := by
  simp [State.ring, State.reset, Cache.reset]

/-- The reset state meets the bounds (R40, R46, R62, R185). -/
theorem reset_bounded : State.reset.Bounded :=
  ⟨fun r => by rw [State.reset_rx]; exact ⟨Nat.zero_le 4, Nat.zero_le 2048⟩, PagePool.sound_reset, Nat.zero_le 16⟩

/-- Every engine is IDLE after device reset (R106). -/
theorem reset_enginesAttached : State.reset.EnginesAttached := fun p => .inl (by rw [State.reset_engine]; rfl)

/-- The default items are valid, occupancy 0 lies below T1, and slot 0 is not held (R75, R81, R166). -/
theorem reset_pressureTrue : State.reset.PressureTrue := by
  refine ⟨items_reset_valid, ?level, rfl, fun held => Bool.noConfusion held⟩
  show 0 < State.reset.threshold 1
  decide

/-- Settles O57. -/
theorem resetKeepsTheInvariants : Obligations.ResetKeepsTheInvariants :=
  ⟨reset_bounded, reset_enginesAttached, reset_pressureTrue⟩

/-- Settles O1. -/
theorem resetHoldsTheSliceTableValues : Obligations.ResetHoldsTheSliceTableValues := by
  refine ⟨rfl, rfl, rfl, rfl, fun r => ?receiver, fun i => ?slot⟩
  case receiver =>
    rw [State.reset_rx]
    exact ⟨rfl, rfl⟩
  case slot =>
    rw [State.reset_ctx]
    refine ⟨rfl, rfl, rfl, rfl, fun q => ?_, rfl, rfl, rfl, rfl, rfl, rfl, rfl, rfl, rfl, rfl, rfl⟩
    simp [Context.chain, Context.unopened, Chain.none]

/-! ### The cache and the items after device reset -/

/-- The cache of the reset state holds nothing for a port (R148). -/
theorem reset_cache_empty (p : PortId) :
    State.reset.cache.outstanding p = none ∧ State.reset.cache.cachedCount p = 0 ∧
      State.reset.cache.reservedCount p = 0 ∧ State.reset.cache.currentBuffer p = none ∧
      State.reset.cache.holds[p] = none ∧ State.reset.cache.abandoned[p] = 0 ∧ State.reset.sent[p] = [] := by
  revert p
  decide

/-- Every generation is 0 after device reset (R166). -/
theorem reset_generation (n : ItemName) : State.reset.generation n = 0 := by
  cases n
  case linkmap r => simp [State.generation, Items.get, State.reset, Items.reset, Item.ofValues]
  case steer i => simp [State.generation, Items.get, State.reset, Items.reset, Item.ofValues]
  case portcfg p => simp [State.generation, Items.get, State.reset, Items.reset, Item.ofValues]
  all_goals rfl

/-- The default words of LINKMAP: each receiver is mapped to the source of its number and enrolled (R166). -/
theorem reset_linkmap (r : ReceiverId) :
    (State.reset.contents (.linkmap r)).toList = [BitVec.ofNat 64 r.val, 1, 0, 0, 0, 0, 0, 0] := by
  have installed : State.reset.contents (.linkmap r) = pack [r.val, 1, 0, 0] := by
    simp [State.contents, Items.get, State.reset, Items.reset, Item.ofValues, wordsOf]
  rw [installed]
  rfl

/-- The default words of STEER: all four ports, from the slot's number modulo 4 on (R166). -/
theorem reset_steer (i : SlotId) : (State.reset.contents (.steer i)).toList =
    [4, BitVec.ofNat 64 (i.val % 4), BitVec.ofNat 64 ((i.val + 1) % 4), BitVec.ofNat 64 ((i.val + 2) % 4),
      BitVec.ofNat 64 ((i.val + 3) % 4), 0, 0, 0] := by
  have installed : State.reset.contents (.steer i) = pack (defaultSteer i) := by
    simp [State.contents, Items.get, State.reset, Items.reset, Item.ofValues, wordsOf]
  rw [installed]
  rfl

/-- The default words of PORTCFG (R166). -/
theorem reset_portcfg (p : PortId) :
    (State.reset.contents (.portcfg p)).toList = [20, 0, 0, 0, 0, 0, 0, 0] := by
  have installed : State.reset.contents (.portcfg p) = pack [20] := by
    simp [State.contents, Items.get, State.reset, Items.reset, Item.ofValues, wordsOf]
  rw [installed]
  rfl

/-- After device reset no link is UP and no port ACTIVE: LINK_ALARM and NO_BUILDER hold, and no other condition (R190). -/
theorem reset_condition (c : Nat) : State.reset.condition c = true ↔ c = 3 ∨ c = 6 := by
  match c with
  | 0 | 1 | 2 | 3 | 4 | 5 | 6 => decide
  | c + 7 =>
    refine iff_of_false ?_ (by omega)
    exact Bool.noConfusion

/-- Settles O2. -/
theorem resetHoldsTheBlockValues : Obligations.ResetHoldsTheBlockValues := by
  refine ⟨fun r => ?receiver, rfl, rfl, rfl, rfl, fun _ => ⟨rfl, rfl⟩, rfl, rfl, rfl, rfl, fun p => ?port, rfl, ?slots, rfl,
    reset_generation, rfl, rfl, rfl, rfl, reset_linkmap, rfl, reset_steer, rfl, rfl, reset_portcfg, rfl, rfl, rfl, rfl,
    reset_condition, by decide⟩
  case receiver =>
    have hrx := State.reset_rx r
    refine ⟨hrx, ?_, ?_, ?_⟩
    · unfold State.holdPressure; rw [hrx]; rfl
    · rw [hrx]; rfl
    · unfold State.backChannel; rw [hrx]; rfl
  case port => exact ⟨State.reset_engine p, State.reset_port p, State.reset_ring p, reset_cache_empty p⟩
  case slots => decide

/-- Settles O3: the arm of DEVICE_RESET. -/
theorem deviceResetGivesTheResetState : Obligations.DeviceResetGivesTheResetState := fun _ => rfl

/-- Settles O4: by the two cases of the queue. -/
theorem stepTakesTheFrontCommand : Obligations.StepTakesTheFrontCommand := by
  refine ⟨fun c rest s h => ?_, fun s h => ?_⟩ <;> (unfold step; rw [h])

end Sys2Proof.Machine
end

section
/-! PROOF. The link states of a receiver below UP (R35), their timers (R37, R39), and the back channel (R49). -/

namespace Sys2Proof.Machine

variable (r : ReceiverId) (s : State)

/-! ## Line events below UP -/

/-- SIGNAL_PRESENT moves a DOWN link to ALIGNING and is recorded in every state (R34, R35). -/
theorem exec_signalPresent : exec (.signalPresent r) s = .next (s.setRx r
    (if (s.rx r).link = .down then { s.rx r with signal := true, link := .aligning, timer := none }
      else { s.rx r with signal := true })) := by
  show execSignalPresent r s = _
  unfold execSignalPresent
  cases h : (s.rx r).link <;> simp [h, State.setSignal, State.setLink]

/-- SIGNAL_ABSENT moves ALIGNING and PROBATION to DOWN, and is recorded (R34, R35). -/
theorem exec_signalAbsent (notUp : (s.rx r).link ≠ .up) : exec (.signalAbsent r) s = .next (s.setRx r
    (match (s.rx r).link with
      | .aligning => { s.rx r with signal := false, link := .down, timer := none }
      | .probation => { s.rx r with signal := false, link := .down, timer := none, framer := .idle }
      | _ => { s.rx r with signal := false })) := by
  show execSignalAbsent r s = _
  unfold execSignalAbsent
  cases h : (s.rx r).link
  case up => exact absurd h notUp
  all_goals simp [h, State.setSignal, State.setLink, State.leaveProbation]

/-- ALIGNMENT_FOUND starts probation in ALIGNING and has no effect elsewhere (R35). -/
theorem exec_alignmentFound : exec (.alignmentFound r) s = .next
    (if (s.rx r).link = .aligning then
      s.setRx r { s.rx r with
        link := .probation, timer := some (s.counter + BitVec.ofNat 32 s.probationTime), framer := .idle }
    else s) := by
  show execAlignmentFound r s = _
  unfold execAlignmentFound
  cases h : (s.rx r).link <;> simp [State.enterProbation, State.timerFor]

/-- ALIGNMENT_LOST ends probation, and below UP has no other effect (R35). -/
theorem exec_alignmentLost (notUp : (s.rx r).link ≠ .up) : exec (.alignmentLost r) s = .next
    (if (s.rx r).link = .probation then s.setRx r { s.rx r with link := .aligning, timer := none, framer := .idle }
    else s) := by
  show execAlignmentLost r s = _
  unfold execAlignmentLost
  cases h : (s.rx r).link
  case up => exact absurd h notUp
  all_goals simp [State.leaveProbation]

/-- Settles O5. -/
theorem lineEventsMoveALinkBelowUp : Obligations.LineEventsMoveALinkBelowUp := fun r s =>
  ⟨exec_signalPresent r s, exec_signalAbsent r s, exec_alignmentFound r s, exec_alignmentLost r s⟩

/-! ## Timers -/

/-- A timer that runs has run out just when its slot is not ahead of the counter (R35). -/
theorem State.timerDue_iff (t : Option Stamp) :
    s.timerDue t = true ↔ ∃ e, t = some e ∧ ahead (e - s.counter) = false := by
  cases t <;> simp [State.timerDue]

/-- At the end of probation a receiver enters UP and posts LINK_UP unless its up-mask is set (R35, R37, R41). -/
theorem exec_probationExpiry_due (link : (s.rx r).link = .probation) (due : s.timerDue (s.rx r).timer = true) :
    exec (.probationExpiry r) s = .next
      (if s.upMask r = true then s.setRx r { s.rx r with link := .up, timer := none, errors := [] }
      else (s.setRx r { s.rx r with link := .up, timer := none, errors := [] }).post .linkUp (.link r) none 0) := by
  show Host.Outcome.next (s.expireProbation r) = _
  unfold State.expireProbation
  rw [if_pos ⟨link, due⟩]
  rfl

/-- At the end of its bar a receiver goes to ALIGNING with its signal present, else to DOWN (R39). -/
theorem exec_barExpiry_due (link : (s.rx r).link = .barred) (due : s.timerDue (s.rx r).timer = true) :
    exec (.barExpiry r) s = .next (s.setRx r
      { s.rx r with link := if (s.rx r).signal = true then .aligning else .down, timer := none }) := by
  show Host.Outcome.next (s.expireBar r) = _
  unfold State.expireBar
  rw [if_pos ⟨link, due⟩]
  rfl

/-- Without a probation timer that has run out nothing happens (log 2). -/
theorem exec_probationExpiry_early (h : ¬((s.rx r).link = .probation ∧ s.timerDue (s.rx r).timer = true)) :
    exec (.probationExpiry r) s = .next s := by
  show Host.Outcome.next (s.expireProbation r) = _
  unfold State.expireProbation
  rw [if_neg h]

/-- Without a bar timer that has run out nothing happens (log 2). -/
theorem exec_barExpiry_early (h : ¬((s.rx r).link = .barred ∧ s.timerDue (s.rx r).timer = true)) :
    exec (.barExpiry r) s = .next s := by
  show Host.Outcome.next (s.expireBar r) = _
  unfold State.expireBar
  rw [if_neg h]

/-- Settles O7. -/
theorem linkTimersRunOut : Obligations.LinkTimersRunOut := by
  intro r s
  refine ⟨fun e timer reached => ?due, fun h => exec_probationExpiry_early r s fun k => h k.1,
    fun h => exec_barExpiry_early r s fun k => h k.1, fun running => ?early⟩
  case due =>
    have due : s.timerDue (s.rx r).timer = true := (s.timerDue_iff _).mpr ⟨e, timer, reached⟩
    exact ⟨fun link => exec_probationExpiry_due r s link due, fun link => exec_barExpiry_due r s link due⟩
  case early =>
    have notDue : s.timerDue (s.rx r).timer ≠ true := by
      rw [Ne, s.timerDue_iff]
      rintro ⟨e, timer, reached⟩
      rcases running with stopped | ⟨e', timer', runs⟩
      · rw [stopped] at timer; cases timer
      · obtain rfl : e' = e := by rw [timer'] at timer; simpa using timer
        rw [reached] at runs; cases runs
    exact ⟨exec_probationExpiry_early r s fun k => notDue k.2, exec_barExpiry_early r s fun k => notDue k.2⟩

/-! ## The back channel -/

/-- LOW is active while fewer than 256 words are free (R51). -/
theorem Receiver.holdLow_iff (x : Receiver) : x.holdLow = true ↔ 2048 - x.held < 256 := decide_eq_true_iff

/-- Some hold reason of a receiver in UP is active: PRESSURE, EARLY, LOW or NO_PAGES (R50 to R52). -/
theorem State.holds_iff (up : (s.rx r).link = .up) : s.holds r = true ↔
    (s.pressure.held = true ∧ (s.run = .running ∨ s.run = .draining)) ∨ (s.rx r).early = true ∨
      2048 - (s.rx r).held < 256 ∨ (s.rx r).noPages = true := by
  simp [State.holds, State.holdPressure, Receiver.holdLow_iff, up, RunState.active_iff, or_assoc]

/-- Settles O14: by the link state, and in UP by the hold reasons. -/
theorem backChannelFollowsTheHoldReasons : Obligations.BackChannelFollowsTheHoldReasons := by
  intro r s
  refine ⟨fun h => ?_, fun h => ?_, fun h => ?_⟩
  · unfold State.backChannel
    rcases h with h | h | h <;> rw [h]
  · unfold State.backChannel
    rw [h]
  · rw [← s.holds_iff r h]
    unfold State.backChannel
    rw [h]
    cases s.holds r <;> simp

end Sys2Proof.Machine
end

section
/-! PROOF. The incident queue (R185), the ports its first record notifies (R188, R189), INCIDENT_TAKE (R186) and the
words of NOTIFY and INCIDENT-REPLY (R196). -/

namespace Sys2Proof.Machine

/-! ## Words -/

/-- A word that is the union of the fields of a list, which follow one another and fit, is laid out in them (R192). -/
theorem Laid.of_union {w : Word} (l : List (Nat × Nat × Nat)) (hw : w = l.foldr (fun f w => fieldAt f.1 f.2.2 ||| w) 0)
    (ho : l.Pairwise fun a b => a.1 + a.2.1 ≤ b.1) (hf : ∀ f ∈ l, f.2.2 < 2 ^ f.2.1 ∧ f.1 + f.2.1 ≤ 64) : Laid w l :=
  hw ▸ Laid.of_fields l ho hf

/-- A field that holds 0 has no bit set. -/
@[simp] theorem fieldAt_zero (lsb : Nat) : fieldAt lsb 0 = 0 := by simp [fieldAt]

/-- The two words of a NOTIFY (R196). -/
theorem notifyMessage_laid (produced : Count) (queued : Nat) (h : queued < 32) :
    ∃ w0 w1, notifyMessage produced queued = [w0, w1] ∧ Laid w0 [(0, 8, 0x82)] ∧
      Laid w1 [(0, 32, produced.toNat), (32, 5, queued)] := by
  refine ⟨_, _, rfl, Laid.of_union _ (by simp) (by simp) (by simp), Laid.of_union _ (by simp) (by simp) ?_⟩
  have := produced.isLt
  simp
  omega

/-! ## Triggers and NOTIFY -/

section
variable (s : State) (p : PortId)

/-- The quiet period runs while its end is ahead of the counter (R188). -/
theorem State.inQuietPeriod_iff :
    s.inQuietPeriod p = true ↔ ∃ e, (s.port p).quietUntil = some e ∧ ahead (e - s.counter) = true := by
  unfold State.inQuietPeriod
  cases (s.port p).quietUntil <;> simp

/-- A trigger that meets the quiet period is left pending (R188). -/
theorem trigger_inside (ha : (s.port p).state.attached = true) (h : s.inQuietPeriod p = true) :
    s.trigger p = s.setPort p { s.port p with notifyPending := true } := by
  unfold State.trigger
  rw [if_pos ha, if_pos h]

/-- A trigger outside the quiet period sends the NOTIFY at once (R188). -/
theorem trigger_outside (ha : (s.port p).state.attached = true) (h : s.inQuietPeriod p = false) :
    s.trigger p = s.sendNotify p := by
  unfold State.trigger
  rw [if_pos ha, if_neg (by simp [h])]

/-- A trigger does not reach a port that is not attached (R188). -/
theorem trigger_unattached (ha : (s.port p).state.attached = false) : s.trigger p = s := by
  unfold State.trigger
  rw [if_neg (by simp [ha])]

/-- A port is not attached just when it is neither ACTIVE nor DRAINING. -/
theorem PortState.attached_eq_false {x : PortState} (active : x ≠ .active) (draining : x ≠ .draining) :
    x.attached = false := by
  cases x <;> simp_all [PortState.attached]

/-- The end of a quiet period is due on an attached port whose period has an end that is not ahead (R189). -/
theorem State.quietDue_iff : s.quietDue p = true ↔
    (s.port p).state.attached = true ∧ ∃ e, (s.port p).quietUntil = some e ∧ ahead (e - s.counter) = false := by
  unfold State.quietDue State.inQuietPeriod
  cases (s.port p).quietUntil <;> simp

/-- Before the end of a quiet period nothing happens (log 2). -/
theorem exec_quietPeriodEnd_early (h : ¬s.quietDue p = true) : exec (.quietPeriodEnd p) s = .next s := by
  show Host.Outcome.next (s.endQuietPeriod p) = _
  unfold State.endQuietPeriod
  rw [if_neg h]

/-- At the end of a quiet period a pending NOTIFY is sent and a new period begins; with none pending the port is outside
one (R189). -/
theorem exec_quietPeriodEnd_due (h : s.quietDue p = true) : exec (.quietPeriodEnd p) s = .next
    (if (s.port p).notifyPending = true then s.sendNotify p else s.setPort p { s.port p with quietUntil := none }) := by
  show Host.Outcome.next (s.endQuietPeriod p) = _
  unfold State.endQuietPeriod
  rw [if_pos h]

end

/-- Settles O55. -/
theorem notifyFollowsTheQuietPeriod : Obligations.NotifyFollowsTheQuietPeriod := by
  refine ⟨notifyMessage_laid, ?_⟩
  rintro p s v message rfl rfl
  refine ⟨fun hs => ?attached, fun active draining => ?unattached, fun noPeriod => ?outside⟩
  case attached =>
    have ha : (s.port p).state.attached = true := (PortState.attached_iff _).mpr hs
    refine ⟨s.inQuietPeriod_iff p, trigger_inside s p ha, trigger_outside s p ha, fun e he => ⟨fun before => ?_,
      fun reached pending => ?_, fun reached idle => ?_⟩⟩
    · refine exec_quietPeriodEnd_early s p fun due => ?_
      obtain ⟨-, e', he', reached⟩ := (s.quietDue_iff p).mp due
      simp_all
    · rw [exec_quietPeriodEnd_due s p ((s.quietDue_iff p).mpr ⟨ha, e, he, reached⟩), if_pos pending]
      rfl
    · rw [exec_quietPeriodEnd_due s p ((s.quietDue_iff p).mpr ⟨ha, e, he, reached⟩), if_neg (by simp [idle])]
  case unattached =>
    have ha := PortState.attached_eq_false active draining
    refine ⟨trigger_unattached s p ha, exec_quietPeriodEnd_early s p fun due => ?_⟩
    simp_all [State.quietDue]
  case outside =>
    refine exec_quietPeriodEnd_early s p fun due => ?_
    simp_all [State.quietDue]

/-! ## The ports that the first record notifies -/

/-- A trigger on port `p` reads its own record, its own messages, and the fields no trigger changes. -/
theorem trigger_own_congr {s t : State} {p : PortId} (port : t.port p = s.port p) (sent : t.sent[p] = s.sent[p])
    (cache : t.cache = s.cache) (incidents : t.incidents = s.incidents) (counter : t.counter = s.counter)
    (items : t.items = s.items) :
    (t.trigger p).port p = (s.trigger p).port p ∧ (t.trigger p).sent[p] = (s.trigger p).sent[p] := by
  have quiet : t.inQuietPeriod p = s.inQuietPeriod p := by unfold State.inQuietPeriod; rw [port, counter]
  have notify : (t.sendNotify p).port p = (s.sendNotify p).port p ∧ (t.sendNotify p).sent[p] = (s.sendNotify p).sent[p] := by
    have quietEnd : t.quietEnd p = s.quietEnd p := by
      unfold State.quietEnd State.moderation
      rw [counter, items]
    simp only [Fin.getElem_fin] at sent
    simp [State.sendNotify, State.send, State.ring, port, sent, cache, incidents, quietEnd]
  unfold State.trigger
  rw [port, quiet]
  split
  · split
    · simpa using sent
    · exact notify
  · exact ⟨port, sent⟩

/-- A trigger on another port leaves port `p` and its messages. -/
theorem trigger_other (s : State) {p q : PortId} (h : q ≠ p) :
    (s.trigger q).port p = s.port p ∧ (s.trigger q).sent[p] = s.sent[p] := by
  have hv : q.val ≠ p.val := fun e => h (Fin.ext e)
  have sent : ∀ m, (s.send q m).sent[p] = s.sent[p] := fun m => by
    simp [State.send, State.setSent, Vector.getElem_set_ne _ _ hv]
  unfold State.trigger State.sendNotify
  split
  · split
    · exact ⟨State.setPort_port_ne _ _ _ _ h, rfl⟩
    · exact ⟨State.setPort_port_ne _ _ _ _ h, sent _⟩
  · exact ⟨rfl, rfl⟩

/-- Triggers on other ports leave port `p` and its messages. -/
theorem each_trigger_others (p : PortId) : ∀ (l : List PortId) (s : State), p ∉ l →
    (s.each l fun q t => t.trigger q).port p = s.port p ∧ (s.each l fun q t => t.trigger q).sent[p] = s.sent[p]
  | [], _, _ => ⟨rfl, rfl⟩
  | q :: l, s, h => by
    obtain ⟨first, rest⟩ := not_or.mp (List.mem_cons.not.mp h)
    have here := trigger_other s (Ne.symm first)
    have there := each_trigger_others p l (s.trigger q) rest
    exact ⟨there.1.trans here.1, there.2.trans here.2⟩

/-- Of the triggers of several ports in turn, only a port's own changes it. -/
theorem each_trigger_port (p : PortId) : ∀ (l : List PortId) (s : State), l.Nodup → p ∈ l →
    (s.each l fun q t => t.trigger q).port p = (s.trigger p).port p ∧
      (s.each l fun q t => t.trigger q).sent[p] = (s.trigger p).sent[p]
  | [], _, _, h => absurd h List.not_mem_nil
  | q :: l, s, nodup, h => by
    obtain ⟨notIn, nodup⟩ := List.nodup_cons.mp nodup
    by_cases e : q = p
    · subst e
      exact each_trigger_others q l (s.trigger q) notIn
    · have rest := each_trigger_port p l (s.trigger q) nodup ((List.mem_cons.mp h).resolve_left (Ne.symm e))
      have own := trigger_own_congr (trigger_other s e).1 (trigger_other s e).2
        (trigger_keeps State.cache (fun _ _ _ => rfl) (fun _ _ _ => rfl) s q)
        (trigger_keeps State.incidents (fun _ _ _ => rfl) (fun _ _ _ => rfl) s q)
        (trigger_keeps State.counter (fun _ _ _ => rfl) (fun _ _ _ => rfl) s q)
        (trigger_keeps State.items (fun _ _ _ => rfl) (fun _ _ _ => rfl) s q)
      exact ⟨rest.1.trans own.1, rest.2.trans own.2⟩

/-! ## The queue -/

/-- The newest record of a queue is its last (R185). -/
theorem markNewest_append (newest : Incident) : ∀ old : List Incident,
    markNewest (old ++ [newest]) = old ++ [{ newest with overflow := true }]
  | [] => rfl
  | [_] => rfl
  | _ :: i :: rest => congrArg (_ :: ·) (markNewest_append newest (i :: rest))

section
variable (s : State) (kind : IncidentKind) (source : IncidentSource) (slice : Option Slice) (detail : Word)

/-- The record a post makes (R184). -/
def State.recordOf : Incident := { kind, source, slice, detail, stamp := s.counter, overflow := false }

/-- A post into a queue that holds a record, and room, appends and triggers nothing (R185, R188). -/
theorem post_later (room : s.incidents.length < 16) (some : 1 ≤ s.incidents.length) :
    s.post kind source slice detail = s.setIncidents (s.incidents ++ [s.recordOf kind source slice detail]) := by
  have nonempty : s.incidents.isEmpty = false := by
    rw [← Bool.not_eq_true, List.isEmpty_iff_length_eq_zero]
    omega
  unfold State.post
  rw [if_pos (show _ < Config.incidentRecords from room)]
  simp [nonempty, State.recordOf]

/-- A post into an empty queue triggers the four ports (R188). -/
theorem post_first (empty : s.incidents = []) : s.post kind source slice detail =
    (s.setIncidents [s.recordOf kind source slice detail]).each allPorts fun p t => t.trigger p := by
  unfold State.post
  rw [empty]
  rfl

/-- A post into a full queue is lost and marks the newest record (R185). -/
theorem post_full (full : 16 ≤ s.incidents.length) :
    s.post kind source slice detail = s.setIncidents (markNewest s.incidents) := by
  unfold State.post
  rw [if_neg (show ¬_ < Config.incidentRecords from Nat.not_lt.mpr full)]

/-- The queue after a post that finds room (R185). -/
theorem post_incidents_room (room : s.incidents.length < 16) :
    (s.post kind source slice detail).incidents = s.incidents ++ [s.recordOf kind source slice detail] := by
  rcases Nat.eq_zero_or_pos s.incidents.length with none | some
  · have empty := List.length_eq_zero_iff.mp none
    rw [post_first s kind source slice detail empty, empty,
      each_keeps State.incidents _ _ fun p t => trigger_keeps State.incidents (fun _ _ _ => rfl) (fun _ _ _ => rfl) t p]
    rfl
  · rw [post_later s kind source slice detail room some]
    rfl

/-- A post into a queue that holds a record changes the queue alone (R185, R188). -/
theorem post_only_incidents (some : 1 ≤ s.incidents.length) :
    s.post kind source slice detail = s.setIncidents (s.post kind source slice detail).incidents := by
  rcases Nat.lt_or_ge s.incidents.length 16 with room | full
  · rw [post_later s kind source slice detail room some]
    rfl
  · rw [post_full s kind source slice detail full]
    rfl

/-- What the first record does to a port: a NOTIFY of one record outside the quiet period, one pending inside, and nothing
where the port is not attached (R188). -/
theorem post_first_port (p : PortId) (empty : s.incidents = []) :
    ((s.port p).state = .active ∨ (s.port p).state = .draining →
      (s.inQuietPeriod p = true → (s.post kind source slice detail).port p = { s.port p with notifyPending := true } ∧
        (s.post kind source slice detail).sent[p] = s.sent[p]) ∧
      (s.inQuietPeriod p = false →
        (s.post kind source slice detail).sent[p] = s.sent[p] ++ [notifyMessage (s.ring p).produced 1] ∧
        ((s.post kind source slice detail).port p).notifyPending = false)) ∧
    ((s.port p).state ≠ .active → (s.port p).state ≠ .draining →
      (s.post kind source slice detail).port p = s.port p ∧ (s.post kind source slice detail).sent[p] = s.sent[p]) := by
  rw [post_first s kind source slice detail empty]
  let t := s.setIncidents [s.recordOf kind source slice detail]
  obtain ⟨hport, hsent⟩ := each_trigger_port p allPorts t (List.nodup_finRange 4) (List.mem_finRange p)
  rw [hport, hsent]
  refine ⟨fun h => ⟨fun inside => ?_, fun outside => ?_⟩, fun active draining => ?_⟩
  · rw [trigger_inside t p ((PortState.attached_iff _).mpr h) inside]
    simp [t]
  · rw [trigger_outside t p ((PortState.attached_iff _).mpr h) outside]
    simp [t, State.sendNotify, State.send, State.setSent, State.ring]
  · rw [trigger_unattached t p (PortState.attached_eq_false active draining)]
    exact ⟨rfl, rfl⟩

end

/-- Settles O53. -/
theorem incidentQueueKeepsSixteen : Obligations.IncidentQueueKeepsSixteen := by
  rintro s kind source slice detail t rfl
  have keeps {α : Type} (g : State → α) (sent : ∀ s p x, g (s.setSent p x) = g s) (port : ∀ s p x, g (s.setPort p x) = g s)
      (queue : ∀ s x, g (s.setIncidents x) = g s) : g (s.post kind source slice detail) = g s :=
    post_keeps g sent port queue s kind source slice detail
  refine ⟨post_incidents_room s kind source slice detail, fun old newest last full => ?full,
    post_only_incidents s kind source slice detail, fun u empty hu => ⟨?triggers, fun p => post_first_port _ _ _ _ _ p empty⟩,
    ?_, ?_, ?_, ?_, ?_, ?_, ?_, ?_, ?_, ?_, ?_, ?_, ?_, ?_, ?_, ?_⟩
  case full => rw [post_full s kind source slice detail full, last, markNewest_append]
  case triggers =>
    rw [post_first s kind source slice detail empty, hu]
    rfl
  all_goals exact keeps _ (fun _ _ _ => rfl) (fun _ _ _ => rfl) fun _ _ => rfl

/-! ## INCIDENT_TAKE -/

/-- The fields of the source of a record: its kind and its number, and 0 for both without one (R196; log 37). -/
def IncidentSource.codes : IncidentSource → Nat × Nat
  | .none => (0, 0)
  | .link r => (1, r.val)
  | .port p => (2, p.val)

theorem IncidentSource.fields_eq (x : IncidentSource) : x.fields = fieldAt 8 x.codes.1 ||| fieldAt 16 x.codes.2 := by
  cases x <;> simp [IncidentSource.fields, IncidentSource.codes]

theorem IncidentSource.codes_lt (x : IncidentSource) : x.codes.1 < 4 ∧ x.codes.2 < 32 := by
  cases x
  case none => exact ⟨by decide, by decide⟩
  case link r => exact ⟨(by decide : 1 < 4), r.isLt.trans (by decide)⟩
  case port p => exact ⟨(by decide : 2 < 4), p.isLt.trans (by decide)⟩

theorem IncidentKind.code_lt (x : IncidentKind) : x.code < 256 := by cases x <;> decide

/-- The words of an INCIDENT-REPLY with a record (R196). -/
theorem incidentReply_laid (i : Incident) (left : Nat) (h : left < 32) :
    ∃ w0 w1 w2 w4, incidentReply i left = [w0, w1, w2, i.detail, w4] ∧
      Laid w0 [(0, 8, 0x87), (16, 8, 1), (24, 5, left)] ∧
      Laid w1 [(0, 8, i.kind.code), (8, 2, i.source.codes.1), (16, 5, i.source.codes.2),
        (24, 1, i.slice.isSome.toNat), (25, 1, i.overflow.toNat)] ∧
      Laid w2 [(0, 32, (i.slice.getD 0).toNat)] ∧ Laid w4 [(0, 32, i.stamp.toNat)] := by
  have hkind := i.kind.code_lt
  obtain ⟨hsource, hnumber⟩ := i.source.codes_lt
  have hslice := (i.slice.getD 0).isLt
  have hstamp := i.stamp.isLt
  refine ⟨_, _, _, _, rfl, Laid.of_union _ ?_ (by simp) ?_, Laid.of_union _ ?_ (by simp) ?_,
    Laid.of_union _ (by simp) (by simp) ?_, Laid.of_union _ (by simp) (by simp) ?_⟩
  · simp [BitVec.or_assoc]
  · simp; omega
  · simp [BitVec.or_assoc, IncidentSource.fields_eq, flagAt_eq]
  · have one (b : Bool) : b.toNat < 2 := b.toNat_lt
    simp [hkind, hsource, hnumber, one]
  · simp; omega
  · simp; omega

/-- INCIDENT_TAKE is taken on a port with a link (R163). -/
theorem exec_incidentTake (p : PortId) (s : State) : exec (.incidentTake p) s =
    if (s.port p).state.linked then
      match s.incidents with
      | [] => .next (s.send p emptyReply)
      | i :: rest => .next ((s.setIncidents rest).send p (incidentReply i rest.length))
    else .next s := rfl

/-- Settles O54. -/
theorem incidentTakeRemovesTheOldest : Obligations.IncidentTakeRemovesTheOldest := by
  refine ⟨⟨_, rfl, Laid.of_union _ (by simp) (by simp) (by simp)⟩, fun i left source h hs => ?words, rfl,
    fun p s => ⟨fun link => ?taken, fun down => ?down⟩⟩
  case words =>
    obtain rfl : source = i.source.codes := hs
    exact incidentReply_laid i left h
  case taken =>
    rw [exec_incidentTake, if_pos (PortState.linked_of_ne link)]
    refine ⟨fun empty => ?_, fun i rest queue => ?_⟩
    · rw [empty]
    · rw [queue]
  case down =>
    rw [exec_incidentTake, down]
    rfl

end Sys2Proof.Machine
end

section
/-! PROOF. What each group of commands leaves alone: read off the command's reach (`exec_unreached`), but for the two
commands whose reach is wider than what they change, SLICE_START and SLOT_ADVANCE, and for the store's words at a WRITE. -/

namespace Sys2Proof.Machine

variable {s t : State}

/-- SLICE_START leaves the items and the run state: past the newest strobe it reaches as far as opening slices (R29). -/
theorem exec_sliceStart_items {n : Slice} (h : exec (.sliceStart n) s = .next t) : t.items = s.items ∧ t.run = s.run := by
  change execSliceStart n s = .next t at h
  unfold execSliceStart at h
  split at h
  case h_1 =>
    split at h
    case isTrue =>
      obtain rfl : _ = t := by simpa using h
      have opening : Leads 2 false (s.setNewestStrobe n) ((s.setNewestStrobe n).openToward n).settleCache :=
        (leads_openToward _ n).trans (leads_settleCache _)
      exact ⟨(opening.unreached.items (by decide)).1, (opening.unreached.run (by decide)).1⟩
    case isFalse =>
      obtain rfl : _ = t := by simpa using h
      exact ⟨post_items s _ _ _ _, post_run s _ _ _ _⟩
  all_goals
    obtain rfl : s = t := by simpa using h
    exact ⟨rfl, rfl⟩

/-- The tick of the slot timer leaves the items (R182). -/
theorem tick_items (s : State) : s.tick.items = s.items := by
  unfold State.tick
  dsimp only
  split
  · rfl
  · rw [State.countDeadlines_items]; rfl

/-- SLOT_ADVANCE leaves the items: what is due reaches as far as assembly and delivery (log 3). -/
theorem exec_slotAdvance_items (h : exec .slotAdvance s = .next t) : t.items = s.items := by
  obtain rfl : s.takeDue.settleCache.tick = t := by
    change Host.Outcome.next _ = Host.Outcome.next t at h
    simpa using h
  have due : Leads 1 false s s.takeDue.settleCache := (leads_takeDue s).trans (leads_settleCache _)
  rw [tick_items, (due.unreached.items (by decide)).1]

/-- Only a device reset and a slot advance reach further than the items. -/
theorem reach_le {c : Instr} (reset : c ≠ .deviceReset) : reach c ≤ 5 ∧ (c ≠ .slotAdvance → reach c ≤ 4) := by
  cases c <;> simp_all [reach]

/-- No command but STORE_BURST changes the words of the store or the receiver last served. -/
theorem exec_store {c : Instr} (h : exec c s = .next t) (reset : c ≠ .deviceReset) (burst : c ≠ .storeBurst) :
    t.pool.store = s.pool.store ∧ t.lastServed = s.lastServed := by
  cases hw : writesStore c with
  | false =>
    obtain ⟨store, -, served⟩ := (exec_unreached h).store hw (reach_le reset).1
    exact ⟨store, served⟩
  | true =>
    cases c <;> simp [writesStore] at hw
    case storeBurst => exact absurd rfl burst
    case write p found => exact exec_write_store h

/-- Only WRITE and STORE_BURST change the condition of a stored word. -/
theorem exec_conditions {c : Instr} (h : exec c s = .next t) (reset : c ≠ .deviceReset)
    (write : ∀ p found, c ≠ .write p found) (burst : c ≠ .storeBurst) : t.pool.conditions = s.pool.conditions := by
  have hw : writesStore c = false := by
    cases c
    case storeBurst => exact absurd rfl burst
    case write p found => exact absurd rfl (write p found)
    all_goals rfl
  exact ((exec_unreached h).store hw (reach_le reset).1).2.1

/-- Settles O56. -/
theorem commandsLeaveTheRest : Obligations.CommandsLeaveTheRest := by
  intro c s t h reset
  have left := exec_unreached h
  refine ⟨left.pending, fun burst => ?store, fun write burst => exec_conditions h reset write burst,
    fun advance => left.time ((reach_le reset).2 advance), ?group⟩
  case store =>
    obtain ⟨store, served⟩ := exec_store h reset burst
    exact ⟨served, fun a => by rw [store]⟩
  case group =>
    cases c
    case idle | portLinkUp | itemRead | itemReadNext | itemStage | incidentTake | quietPeriodEnd =>
      obtain ⟨receivers, pool, contexts, pressure, ready, engines, cache⟩ := left.assembly rfl
      obtain ⟨run, frontier⟩ := left.run (Nat.zero_le 2)
      obtain ⟨items, strobe⟩ := left.items (Nat.zero_le 3)
      exact ⟨receivers, pool, contexts, pressure, ready, engines, cache, left.opened (Nat.zero_le 1), frontier, run, items,
        strobe⟩
    case signalPresent | signalAbsent | alignmentFound | alignmentLost | startSymbol | dataWord | brokenWord | endSymbol
        | probationExpiry | barExpiry | storeBurst | deadlineExpiry | dispatchWaitElapse | attach | detach =>
      obtain ⟨run, frontier⟩ := left.run (by simp [reach])
      obtain ⟨items, strobe⟩ := left.items (by simp [reach])
      exact ⟨left.opened (by simp [reach]), frontier, run, items, strobe⟩
    case placement =>
      obtain ⟨run, frontier⟩ := left.run (by simp [reach])
      obtain ⟨items, strobe⟩ := left.items (by simp [reach])
      exact ⟨frontier, run, items, strobe⟩
    case write | portLinkDown | announce | readData | readDataError | malformedMessage => exact left.items (by simp [reach])
    case sliceStart => exact exec_sliceStart_items h
    case slotAdvance => exact exec_slotAdvance_items h
    all_goals trivial

end Sys2Proof.Machine
end

section
/-! PROOF. The expected set (R7) and SLICE_START: the notice, the slices it opens, and the closure check of each (R29). -/

namespace Sys2Proof.Machine

/-! ## The expected set -/

/-- Adding a source to a set adds that source alone (R192). -/
theorem member_or_single (m : SourceSet) (v q : SourceId) : member (m ||| single v) q = true ↔ member m q = true ∨ v = q := by
  have hbit : (single v).getLsbD q.val = decide (v = q) := by
    unfold single
    rw [BitVec.getLsbD_shiftLeft]
    have hv := v.isLt
    have hq := q.isLt
    rcases Nat.lt_trichotomy q.val v.val with h | h | h
    · simp [h, Fin.ext_iff]; omega
    · have e : v = q := Fin.ext h.symm
      subst e
      simp
    · have pos : q.val - v.val ≠ 0 := by omega
      simp [Fin.ext_iff, pos]
      omega
  unfold member
  rw [BitVec.getLsbD_or, hbit, Bool.or_eq_true, decide_eq_true_iff]

/-- One receiver's part in the expected set: the source it is mapped to, if it is enrolled and UP (R7). -/
theorem expected_step (s : State) (m : SourceSet) (r : ReceiverId) (q : SourceId) :
    member (match s.mapping r with
      | some v => if s.enrolled r && (s.rx r).link == .up then m ||| single v else m
      | none => m) q = true ↔
    member m q = true ∨ s.mapping r = some q ∧ s.enrolled r = true ∧ (s.rx r).link = .up := by
  cases hm : s.mapping r with
  | none => simp
  | some v =>
    by_cases hu : s.enrolled r = true ∧ (s.rx r).link = .up
    · simp [hu, member_or_single]
    · have off : ¬(s.enrolled r && (s.rx r).link == .up) = true := by simpa using hu
      simp only [if_neg off, hu, and_false, or_false]

/-- Settles O15: by induction over the receivers folded into the set. -/
theorem expectedSetIsTheSourcesUp : Obligations.ExpectedSetIsTheSourcesUp := by
  intro s q
  have fold : ∀ (l : List ReceiverId) (m : SourceSet),
      member (l.foldl (fun m r => match s.mapping r with
        | some v => if s.enrolled r && (s.rx r).link == .up then m ||| single v else m
        | none => m) m) q = true ↔
      member m q = true ∨ ∃ r ∈ l, s.mapping r = some q ∧ s.enrolled r = true ∧ (s.rx r).link = .up := by
    intro l
    induction l with
    | nil => simp
    | cons r l ih =>
      intro m
      rw [List.foldl_cons, ih, expected_step, List.exists_mem_cons_iff, or_assoc]
  refine (fold allReceivers 0).trans ?_
  simp [member, allReceivers]

/-! ## SLICE_START -/

/-- A notice ahead of the newest strobe, one not ahead of it, and one outside RUNNING (R29). -/
theorem exec_sliceStart (s : State) (n : Slice) :
    (s.run = .running → ahead (n - s.newestStrobe) = true →
      exec (.sliceStart n) s = .next ((s.setNewestStrobe n).openToward n).settleCache) ∧
    (s.run = .running → ahead (n - s.newestStrobe) = false →
      exec (.sliceStart n) s = .next (s.post .timing .none (some n) (BitVec.ofNat 64 s.newestStrobe.toNat))) ∧
    (s.run ≠ .running → exec (.sliceStart n) s = .next s) := by
  have field : fieldAt 0 s.newestStrobe.toNat = BitVec.ofNat 64 s.newestStrobe.toNat := by simp [fieldAt]
  refine ⟨fun run h => ?_, fun run h => ?_, fun run => ?_⟩ <;> show execSliceStart n s = _ <;> unfold execSliceStart
  · rw [run]
    exact if_pos h
  · rw [run, ← field]
    exact if_neg (by simp [h])
  · cases e : s.run <;> simp_all

/-- With a source to expect, the slices opened toward a number are OPEN with the values of R4 (R7, R8). -/
theorem openedTo_eq (s : State) {last : Nat} (h : s.openCount ≤ last) :
    s.openedTo s.openCount (s.openCount + (last + 1 - s.openCount)) = { s with
      newestOpened := s.frontier + BitVec.ofNat 32 last
      contexts := Vector.ofFn fun i : SlotId =>
        if s.openCount ≤ (i - slotOf s.frontier).val ∧ (i - slotOf s.frontier).val ≤ last then
          s.openedContext (s.frontier + BitVec.ofNat 32 (i - slotOf s.frontier).val)
        else s.ctx i } := by
  have newest : s.frontier + BitVec.ofNat 32 (last + 1) - 1 = s.frontier + BitVec.ofNat 32 last := by
    rw [BitVec.ofNat_add, ← BitVec.add_assoc]
    exact BitVec.add_sub_cancel _ _
  rw [show s.openCount + (last + 1 - s.openCount) = last + 1 by omega]
  unfold State.openedTo
  simp only [newest, Nat.lt_succ_iff]

/-- The context of a slice that opens with no source to expect: every source has status NOT_EXPECTED, and its closure
check answers COMPLETE (R6, R20). -/
theorem openedContext_empty {s : State} (n : Slice) (h : s.expectedNow = 0) :
    (s.openedContext n).allFinal = true ∧ (s.openedContext n).checkReason = .complete ∧
      ∀ q, (s.openedContext n).status q = .notExpected := by
  have expected : ∀ q, member (s.openedContext n).expected q = false := fun q => by
    simp [State.openedContext, h, member]
  refine ⟨?_, ?_, fun q => ?_⟩
  · simp [Context.allFinal, expected]
  · have dropped : (s.openedContext n).dropped = 0 := rfl
    simp [Context.checkReason, expected, dropped]
  · have chain : ((s.openedContext n).chain q).state = .none := by
      simp [State.openedContext, Context.unopened, Context.chain, Chain.none]
    unfold Context.status
    rw [chain, expected]
    simp [State.openedContext, Context.unopened, member]

/-- The state in which the check of the next slice runs: its context OPEN, and it the newest opened (R7). -/
def State.opening (s : State) : State :=
  (s.setCtx (slotOf (s.newestOpened + 1)) (s.openedContext (s.newestOpened + 1))).setNewestOpened (s.newestOpened + 1)

theorem State.opening_ctx (s : State) :
    s.opening.ctx (slotOf (s.newestOpened + 1)) = s.openedContext (s.newestOpened + 1) := by
  unfold State.opening
  rw [State.setNewestOpened_ctx, State.setCtx_ctx_self]

/-- With no source to expect, the check of the next slice closes it COMPLETE at once (R20). -/
theorem openNext_empty {s : State} (h : s.expectedNow = 0) :
    s.openNext = s.opening.closeContext (slotOf (s.newestOpened + 1)) .complete := by
  obtain ⟨final, reason, -⟩ := openedContext_empty (s.newestOpened + 1) h
  show s.opening.closureCheck (slotOf (s.newestOpened + 1)) = _
  unfold State.closureCheck
  rw [s.opening_ctx, if_pos ⟨rfl, final⟩, reason]

/-- Settles O16. -/
theorem sliceStartOpensTheWindow : Obligations.SliceStartOpensTheWindow := by
  refine ⟨exec_sliceStart, fun s n last => ⟨(openToward_cases s n).1, ?toward⟩, ?next⟩
  case toward =>
    rintro run inReach rfl
    have opens := (openToward_cases s n).2 run inReach
    refine ⟨opens, fun past => ?_, fun upTo expects => ?_⟩
    · rw [opens, Nat.sub_eq_zero_of_le past]
      rfl
    · rw [opens, openNext_each expects s.openCount rfl _ (by omega), openedTo_eq s upTo]
      rfl
  case next =>
    rintro s u n i rfl rfl hu
    obtain rfl : u = s.opening := hu
    refine ⟨rfl, fun expects => openNext_expecting expects, fun empty => ⟨?_, fun q => ?_⟩⟩
    · rw [openNext_empty empty]
      exact closeContext_spec _ _ _
    · rw [s.opening_ctx]
      exact (openedContext_empty _ empty).2.2 q

end Sys2Proof.Machine
end

section
/-! PROOF. The symbols of the line: what the framer makes of a START, a data word and a broken word (R42 to R46, R48). -/

namespace Sys2Proof.Machine

/-! ## Which link states see the symbols -/

/-- The framer sees the line in UP and PROBATION (R34, R36). -/
theorem LinkState.framing_of {x : LinkState} (h : x = .up ∨ x = .probation) : x.framing = true := by
  rcases h with rfl | rfl <;> rfl

/-- In the other link states it sees nothing (R34, R36). -/
theorem LinkState.not_framing_of {x : LinkState} (h : x = .down ∨ x = .aligning ∨ x = .barred) : x.framing = false := by
  rcases h with rfl | rfl | rfl <;> rfl

section
variable (r : ReceiverId) (s : State) (w : Word)

theorem exec_startSymbol (h : (s.rx r).link = .up ∨ (s.rx r).link = .probation) :
    exec (.startSymbol r) s = .next (s.start r).settleCache := if_pos (LinkState.framing_of h)

theorem exec_startSymbol_unseen (h : (s.rx r).link = .down ∨ (s.rx r).link = .aligning ∨ (s.rx r).link = .barred) :
    exec (.startSymbol r) s = .next s := if_neg (Bool.not_eq_true _ ▸ LinkState.not_framing_of h)

theorem exec_dataWord (h : (s.rx r).link = .up ∨ (s.rx r).link = .probation) :
    exec (.dataWord r w) s = .next (s.word r w).settleCache := if_pos (LinkState.framing_of h)

theorem exec_dataWord_unseen (h : (s.rx r).link = .down ∨ (s.rx r).link = .aligning ∨ (s.rx r).link = .barred) :
    exec (.dataWord r w) s = .next s := if_neg (Bool.not_eq_true _ ▸ LinkState.not_framing_of h)

theorem exec_brokenWord (h : (s.rx r).link = .up ∨ (s.rx r).link = .probation) :
    exec (.brokenWord r) s = .next (s.brokenWord r).settleCache := if_pos (LinkState.framing_of h)

theorem exec_brokenWord_unseen (h : (s.rx r).link = .down ∨ (s.rx r).link = .aligning ∨ (s.rx r).link = .barred) :
    exec (.brokenWord r) s = .next s := if_neg (Bool.not_eq_true _ ▸ LinkState.not_framing_of h)

theorem exec_endSymbol (h : (s.rx r).link = .up ∨ (s.rx r).link = .probation) :
    exec (.endSymbol r) s = .next (s.ending r).settleCache := if_pos (LinkState.framing_of h)

theorem exec_endSymbol_unseen (h : (s.rx r).link = .down ∨ (s.rx r).link = .aligning ∨ (s.rx r).link = .barred) :
    exec (.endSymbol r) s = .next s := if_neg (Bool.not_eq_true _ ▸ LinkState.not_framing_of h)

end

/-! ## Framing errors and stray runs -/

section
variable (s : State) (r : ReceiverId)

/-- The end of probation by the line: ALIGNING, the timer stopped, the framer empty (R36; log 13). -/
theorem leaveProbation_aligning : s.leaveProbation r .aligning =
    s.setRx r { s.rx r with link := .aligning, timer := none, framer := .idle } := rfl

/-- A framing error in UP takes the FRAMING verdict (R42). -/
theorem framingError_up (link : (s.rx r).link = .up) (o : OpenSegment) (cause : FramingCause) (after : Framer) :
    s.framingError r o cause after = (s.setFramer r after).framingVerdict r o cause := by
  unfold State.framingError
  rw [link]

/-- A framing error in PROBATION ends it (R36). -/
theorem framingError_probation (link : (s.rx r).link = .probation) (o : OpenSegment) (cause : FramingCause)
    (after : Framer) : s.framingError r o cause after =
      s.setRx r { s.rx r with link := .aligning, timer := none, framer := .idle } := by
  unfold State.framingError
  rw [link, leaveProbation_aligning]

/-- A word or an END with no segment open begins a stray run in UP and posts FRAMING with cause STRAY, 4 (R42, R196). -/
theorem strayRun_up (link : (s.rx r).link = .up) :
    s.strayRun r = (s.setRx r { s.rx r with framer := .stray }).withFraming r 4 none := by
  unfold State.strayRun
  rw [link]
  exact postFraming_eq _ r .stray none

/-- It ends probation (R36). -/
theorem strayRun_probation (link : (s.rx r).link = .probation) :
    s.strayRun r = s.setRx r { s.rx r with link := .aligning, timer := none, framer := .idle } := by
  unfold State.strayRun
  rw [link, leaveProbation_aligning]

/-- Replacing what is not the link state leaves the receiver in or out of service (R42). -/
theorem inService_setRx (x : Receiver) (link : x.link = (s.rx r).link) : (s.setRx r x).inService r = s.inService r := by
  unfold State.inService
  rw [State.setRx_rx_self, link, State.setRx_mapping, State.setRx_enrolled]

/-- A receiver in UP, mapped and enrolled, is in service (R42). -/
theorem inService_of {q : SourceId} (link : (s.rx r).link = .up) (mapped : s.mapping r = some q)
    (enrolled : s.enrolled r = true) : s.inService r = true := by
  unfold State.inService
  rw [link, mapped, enrolled]
  rfl

end

/-! ## START -/

section
variable (s : State) (r : ReceiverId)

/-- A new segment is watched in PROBATION and still to be judged in UP (R36, R42). -/
theorem openSegment_eq {n : OpenSegment}
    (fate : (s.rx r).link = .probation ∧ n.fate = .watched ∨ (s.rx r).link = .up ∧ n.fate = .pending)
    (fresh : n = OpenSegment.fresh n.fate) : s.openSegment r = s.setRx r { s.rx r with framer := .segment n } := by
  unfold State.openSegment
  rcases fate with ⟨link, f⟩ | ⟨link, f⟩ <;> rw [link, fresh, f] <;> rfl

/-- A FRAMING verdict leaves the link state. -/
theorem framingVerdict_link (o : OpenSegment) (cause : FramingCause) (k : ReceiverId) :
    ((s.framingVerdict r o cause).rx k).link = (s.rx k).link := by
  have posted (header : Option SegmentHeader) : (s.postFraming r cause header).rx k = s.rx k := by
    rw [postFraming_eq, withFraming_rx]
  have held (t : State) : ((t.holdVerdict r .framing).rx k).link = (t.rx k).link := by
    unfold State.holdVerdict
    split
    · rfl
    · rw [State.setRx_rx]
      split
      case isTrue e => subst e; rfl
      case isFalse => rfl
  unfold State.framingVerdict
  split
  case h_2 => rw [settleVerdict_apart (g := Receiver.link) (fun _ _ _ _ _ => rfl), held, posted]
  case h_1 | h_3 => rw [posted]
  all_goals rfl

/-- A START that meets an open segment is a framing error of it, and then opens the new one (R42). -/
theorem start_segment {o : OpenSegment} (framer : (s.rx r).framer = .segment o) : s.start r =
    (s.framingError r o (if o.endDue then .lateEnd else .broken) .idle).openSegment r := by
  unfold State.start
  rw [framer]

/-- A START that meets an open segment in UP ends it with a FRAMING verdict, and opens the new one (R42). -/
theorem start_up {o n : OpenSegment} {cause : FramingCause} (link : (s.rx r).link = .up)
    (framer : (s.rx r).framer = .segment o) (hcause : (if o.endDue then FramingCause.lateEnd else .broken) = cause)
    (fate : n.fate = .pending) (fresh : n = OpenSegment.fresh n.fate) {t : State}
    (ht : t = (s.setFramer r .idle).framingVerdict r o cause) :
    s.start r = t.setRx r { t.rx r with framer := .segment n } := by
  have link' : (t.rx r).link = .up := by
    rw [ht, framingVerdict_link, State.setFramer, State.setRx_rx_self, link]
  rw [start_segment s r framer, framingError_up s r link, hcause, ← ht, openSegment_eq t r (.inr ⟨link', fate⟩) fresh]

/-- Setting the framer after the FRAMING incident is setting it before. -/
theorem withFraming_framer (x : Receiver) (cause : Nat) (header : Option SegmentHeader) (framer : Framer)
    {t : State} (ht : t = (s.setRx r x).withFraming r cause header) (link : x.link = (s.rx r).link) :
    t.setRx r { t.rx r with framer := framer } = (s.setRx r { x with framer := framer }).withFraming r cause header := by
  have hrx : t.rx r = x := by rw [ht, withFraming_rx, State.setRx_rx_self]
  rw [hrx, ht, withFraming_setRx s r x cause header link, State.setRx_setRx,
    withFraming_setRx s r { x with framer := framer } cause header link]

/-- A START in UP ends the open segment as FramingEnds has it, and leaves the new one open (R42). -/
theorem start_framingEnds {o n : OpenSegment} {cause : FramingCause} (link : (s.rx r).link = .up)
    (framer : (s.rx r).framer = .segment o) (hcause : (if o.endDue then FramingCause.lateEnd else .broken) = cause)
    (fate : n.fate = .pending) (fresh : n = OpenSegment.fresh n.fate) :
    FramingEnds (.startSymbol r) s r cause.code (.segment n) := by
  intro o' u framer' hu
  obtain rfl : o = o' := by rw [framer] at framer'; simpa using framer'
  subst hu
  rw [exec_startSymbol r s (.inl link), start_up s r link framer hcause fate fresh rfl]
  obtain ⟨gone, pending, discarded, stored⟩ := framingVerdict_eq s r o cause .idle
  refine ⟨fun h => ?_, fun h => ?_, fun h => ?_, fun g h newest waits => ?_⟩
  · rw [gone h, State.setRx_rx_self, State.setRx_setRx]
  · rw [withFraming_framer s r _ _ _ _ (pending h) rfl]
  · rw [withFraming_framer s r _ _ _ _ (discarded h) rfl]
  · rw [withFraming_framer s r _ _ _ _ (stored g h newest waits) rfl]

/-- The cause of a START on an open segment: LATE_END, 2, where its END is due, and BROKEN, 3, elsewhere (R42, R196). -/
theorem start_cause {o : OpenSegment} {cause : Nat}
    (h : cause = 2 ∧ (∃ h, o.header = some h ∧ o.received = 3 + h.length) ∨
      cause = 3 ∧ ∀ h, o.header = some h → o.received ≠ 3 + h.length) :
    (if o.endDue then FramingCause.lateEnd else .broken).code = cause := by
  unfold OpenSegment.endDue
  rcases h with ⟨rfl, h, header, due⟩ | ⟨rfl, early⟩
  · simp [header, due, FramingCause.code]
  · cases header : o.header with
    | none => rfl
    | some h => simp [early h header, FramingCause.code]

end

/-- Settles O8. -/
theorem startOpensASegmentAndIdleDoesNothing : Obligations.StartOpensASegmentAndIdleDoesNothing := by
  intro r s
  refine ⟨fun n fate received header0 header crc crcWord => ?opens, fun o link framer => ?probation,
    exec_startSymbol_unseen r s, rfl⟩
  case opens =>
    have fresh : n = OpenSegment.fresh n.fate := by cases n; simp_all [OpenSegment.fresh, crcStart]
    refine ⟨fun closed => ?_, fun o cause link framer hcause => ?_⟩
    · have seen : (s.rx r).link = .up ∨ (s.rx r).link = .probation := fate.symm.imp And.left And.left
      rw [exec_startSymbol r s seen, ← openSegment_eq s r fate fresh]
      unfold State.start
      rcases closed with h | h | h <;> rw [h]
    · have pending : n.fate = .pending := by
        rcases fate with ⟨other, -⟩ | ⟨-, h⟩
        · rw [link] at other; cases other
        · exact h
      refine ⟨start_cause hcause ▸ start_framingEnds s r link framer rfl pending fresh,
        fun g t stored newest head accepted written ht => ?_⟩
      rw [exec_startSymbol r s (.inl link), start_up s r link framer rfl pending fresh
        (ht.trans (start_cause hcause ▸ (framingVerdict_delivers _ _ stored newest).symm))]
  case probation =>
    rw [exec_startSymbol r s (.inr link), start_segment s r framer, framingError_probation s r link]
    unfold State.openSegment
    rw [State.setRx_rx_self]

/-! ## Broken words -/

/-- A broken word ends the open segment (R42; log 33). -/
theorem brokenWord_segment (s : State) (r : ReceiverId) {o : OpenSegment} (framer : (s.rx r).framer = .segment o) :
    s.brokenWord r = s.framingError r o .broken .dropping := by
  unfold State.brokenWord
  rw [framer]

/-- With no segment open it has no effect (log 12). -/
theorem brokenWord_none (s : State) (r : ReceiverId)
    (closed : (s.rx r).framer = .idle ∨ (s.rx r).framer = .stray ∨ (s.rx r).framer = .dropping) : s.brokenWord r = s := by
  unfold State.brokenWord
  rcases closed with h | h | h <;> rw [h]

/-- Settles O11. -/
theorem brokenWordEndsTheSegment : Obligations.BrokenWordEndsTheSegment := by
  intro r s
  refine ⟨fun link => ?up, fun o link framer => ?probation, fun seen closed => ?none, exec_brokenWord_unseen r s⟩
  case up =>
    have ends : ∀ o, (s.rx r).framer = .segment o → exec (.brokenWord r) s =
        .next ((s.setFramer r .dropping).framingVerdict r o .broken).settleCache := by
      intro o framer
      rw [exec_brokenWord r s (.inl link), brokenWord_segment s r framer, framingError_up s r link]
    exact ⟨framingEnds_of (cause := .broken) ends, framingDelivers_of (cause := .broken) ends⟩
  case probation =>
    rw [exec_brokenWord r s (.inr link), brokenWord_segment s r framer, framingError_probation s r link]
  case none =>
    rw [exec_brokenWord r s seen, brokenWord_none s r closed]

end Sys2Proof.Machine
end

section
/-! PROOF. The header words of a segment (R43, R44, R193) and the words past them (R42, R46, R48). -/

namespace Sys2Proof.Machine

/-! ## The fields of a header -/

/-- The code of the kind that a two-bit field spells is that field (R193). -/
theorem segmentKind_code {code : Nat} (h : code < 4) : (segmentKind code).code = code := by
  obtain rfl | rfl | rfl | rfl : code = 0 ∨ code = 1 ∨ code = 2 ∨ code = 3 := by omega
  all_goals rfl

/-- Each field of a header is read from the bits R193 gives it. -/
theorem parseHeader_fields (w0 w1 : Word) :
    (parseHeader w0 w1).slice = w0.extractLsb' 0 32 ∧ (parseHeader w0 w1).source = w0.extractLsb' 32 5 ∧
    (parseHeader w0 w1).kind.code = (w0.extractLsb' 40 2).toNat ∧ (parseHeader w0 w1).empty = w0.getLsbD 44 ∧
    (parseHeader w0 w1).truncated = w0.getLsbD 45 ∧ (parseHeader w0 w1).length = (w1.extractLsb' 0 11).toNat := by
  refine ⟨ofNat_bits w0 0 32, ofNat_bits w0 32 5, ?_, rfl, rfl, bits_eq_toNat w1 0 11⟩
  rw [← bits_eq_toNat]
  exact segmentKind_code (Nat.mod_lt _ (by decide))

/-- A segment kind is its code. -/
theorem SegmentKind.code_inj {a b : SegmentKind} (h : a.code = b.code) : a = b := by
  cases a <;> cases b <;> simp_all [SegmentKind.code]

/-- The kind of a header is ONLY just when its two bits are 3 (R193). -/
theorem parseHeader_only (w0 w1 : Word) : (parseHeader w0 w1).kind = .only ↔ w0.extractLsb' 40 2 = 3 := by
  obtain ⟨-, -, code, -⟩ := parseHeader_fields w0 w1
  rw [← BitVec.toNat_inj, ← code]
  exact ⟨fun h => by rw [h]; rfl, fun h => SegmentKind.code_inj h⟩

/-- A header fails by its length, or by an EMPTY flag that its kind or its length does not go with (R43). -/
theorem SegmentHeader.failure_eq (h : SegmentHeader) : h.failure =
    if 1024 < h.length ∨ h.empty = true ∧ (h.kind ≠ .only ∨ h.length ≠ 0) then
      some (if 1024 < h.length then .length else .emptyMisuse)
    else none := by
  unfold SegmentHeader.failure Config.maxPayload
  by_cases long : 1024 < h.length
  · simp [long]
  · simp [long]

/-- A first header word by itself fails only by an EMPTY flag on a segment that is not an ONLY (R43). -/
theorem parseHeader_failure_isNone (w : Word) :
    (parseHeader w 0).failure.isNone = true ↔ (w.getLsbD 44 = true → w.extractLsb' 40 2 = 3) := by
  have length : (parseHeader w 0).length = 0 := by
    obtain ⟨-, -, -, -, -, h⟩ := parseHeader_fields w 0
    rw [h]
    rfl
  have empty : (parseHeader w 0).empty = w.getLsbD 44 := rfl
  rw [SegmentHeader.failure_eq, length, empty, ← parseHeader_only w 0]
  simp

/-! ## The first header word -/

section
variable (s : State) (r : ReceiverId) (w : Word)

/-- A word of the open segment (R42). -/
theorem word_segment {o : OpenSegment} (framer : (s.rx r).framer = .segment o) : s.word r w = s.takeWord r o w := by
  unfold State.word
  rw [framer]

/-- A word with no segment open begins a stray run (R42). -/
theorem word_idle (framer : (s.rx r).framer = .idle) : s.word r w = s.strayRun r := by
  unfold State.word
  rw [framer]

/-- In a stray run, and where words are dropped, a word has no effect (R42). -/
theorem word_passed (framer : (s.rx r).framer = .stray ∨ (s.rx r).framer = .dropping) : s.word r w = s := by
  unfold State.word
  rcases framer with h | h <;> rw [h]

/-- A first header word leaves it open that the segment is admitted: the receiver in UP, enrolled and mapped to the source
it names, and its EMPTY flag on an ONLY alone (R43, R44; log 39). -/
theorem State.mayAdmit_iff : s.mayAdmit r w = true ↔ (s.rx r).link = .up ∧ s.enrolled r = true ∧
    (∃ q, s.mapping r = some q ∧ (w.extractLsb' 32 5).toNat = q.val) ∧
    (w.getLsbD 44 = true → w.extractLsb' 40 2 = 3) := by
  rw [← parseHeader_failure_isNone]
  have source : (parseHeader w 0).source = w.extractLsb' 32 5 := (parseHeader_fields w 0).2.1
  unfold State.mayAdmit
  cases s.mapping r with
  | none => simp
  | some q =>
    simp only [Bool.and_eq_true, beq_iff_eq, source, Option.some.injEq, exists_eq_left', and_assoc]

/-- No word is free in an elastic buffer just when it holds 2048 (R46). -/
theorem Receiver.room_eq_zero (x : Receiver) : x.room = 0 ↔ 2048 ≤ x.held := Nat.sub_eq_zero_iff_le

/-- A first header word that a full buffer loses: words are dropped and RX_OVERRUN carries no slice number (log 39). -/
theorem beginHeader_lost {o : OpenSegment} (pending : o.fate = .pending) (full : 2048 ≤ (s.rx r).held)
    (admits : s.mayAdmit r w = true) : s.beginHeader r o w =
      (s.setRx r { s.rx r with framer := .dropping }).post .rxOverrun (.link r) none 0 := by
  obtain ⟨link, enrolled, ⟨q, mapped, -⟩, -⟩ := (s.mayAdmit_iff r w).mp admits
  have service : (s.setFramer r .dropping).inService r = true := by
    rw [State.setFramer, inService_setRx s r { s.rx r with framer := .dropping } rfl,
      inService_of s r link mapped enrolled]
  unfold State.beginHeader
  rw [if_pos ⟨pending, (Receiver.room_eq_zero _).mpr full, admits⟩]
  unfold State.loseHeader State.postOverrun
  rw [if_pos service]
  rfl

/-- Any other first header word is kept (R42). -/
theorem beginHeader_kept {o : OpenSegment}
    (h : ¬(o.fate = .pending ∧ 2048 ≤ (s.rx r).held ∧ s.mayAdmit r w = true)) : s.beginHeader r o w =
      s.setRx r { s.rx r with
        framer := .segment { o with received := 1, header0 := w, crc := crcWord o.crc w } } := by
  unfold State.beginHeader
  rw [if_neg fun ⟨pending, full, admits⟩ => h ⟨pending, (Receiver.room_eq_zero _).mp full, admits⟩]
  rfl

end

/-- A first header word is lost where the buffer is full and its segment may be admitted, and kept elsewhere (R42, R48;
log 39). -/
theorem exec_firstHeaderWord (r : ReceiverId) (s : State) (w : Word) (o : OpenSegment) (lost : Prop)
    (seen : (s.rx r).link = .up ∨ (s.rx r).link = .probation) (framer : (s.rx r).framer = .segment o)
    (header : o.header = none) (received : o.received = 0)
    (hlost : lost ↔ (s.rx r).link = .up ∧ o.fate = .pending ∧ 2048 ≤ (s.rx r).held ∧ s.enrolled r = true ∧
      (∃ q, s.mapping r = some q ∧ (w.extractLsb' 32 5).toNat = q.val) ∧
      (w.getLsbD 44 = true → w.extractLsb' 40 2 = 3)) :
    (lost → exec (.dataWord r w) s = .next
      ((s.setRx r { s.rx r with framer := .dropping }).post .rxOverrun (.link r) none 0).settleCache) ∧
    (¬lost → exec (.dataWord r w) s = .next (s.setRx r { s.rx r with
      framer := .segment { o with received := 1, header0 := w, crc := crcWord o.crc w } }).settleCache) := by
  have begins : s.word r w = s.beginHeader r o w := by
    rw [word_segment s r w framer]
    unfold State.takeWord
    rw [header]
    exact if_pos received
  have lost_iff : lost ↔ o.fate = .pending ∧ 2048 ≤ (s.rx r).held ∧ s.mayAdmit r w = true := by
    rw [hlost, State.mayAdmit_iff]
    exact ⟨fun ⟨link, pending, full, rest⟩ => ⟨pending, full, link, rest⟩,
      fun ⟨pending, full, link, rest⟩ => ⟨link, pending, full, rest⟩⟩
  rw [exec_dataWord r s w seen, begins, lost_iff]
  exact ⟨fun ⟨pending, full, admits⟩ => by rw [beginHeader_lost s r w pending full admits],
    fun h => by rw [beginHeader_kept s r w h]⟩

/-! ## The second header word -/

section
variable (s : State) (r : ReceiverId) {o p : OpenSegment} (w : Word) {h : SegmentHeader}

/-- The second header word is refused, disposed of, or counted, by its failure and by the fate of its segment (R43). -/
theorem word_secondHeader (framer : (s.rx r).framer = .segment o) (received : o.received = 1) (header : o.header = none)
    (hh : h = parseHeader o.header0 w) (hp : p = { o with received := 2, header := some h, crc := crcWord o.crc w }) :
    s.word r w = match h.failure with
      | some cause => s.refuseHeader r p h cause
      | none => if p.fate = .pending then s.dispose r p h else s.setFramer r (.segment p) := by
  subst hh hp
  rw [word_segment s r w framer]
  unfold State.takeWord
  rw [header, if_neg (by omega)]
  rfl

/-- A refused header ends probation (R36). -/
theorem refuseHeader_probation (link : (s.rx r).link = .probation) (cause : FramingCause) : s.refuseHeader r p h cause =
    s.setRx r { s.rx r with link := .aligning, timer := none, framer := .idle } := by
  unfold State.refuseHeader
  rw [link, leaveProbation_aligning]

/-- A refused header in UP drops words; it posts FRAMING unless the segment is watched since PROBATION (R43; log 13). -/
theorem refuseHeader_up (link : (s.rx r).link = .up) (cause : FramingCause) : s.refuseHeader r p h cause =
    if p.fate = .watched then s.setRx r { s.rx r with framer := .dropping }
    else (s.setRx r { s.rx r with framer := .dropping }).withFraming r cause.code (some h) := by
  unfold State.refuseHeader
  rw [link]
  dsimp only
  rw [postFraming_eq]
  rfl

/-- Without a mapping, or not enrolled, the receiver passes the segment over (R44). -/
theorem dispose_passedOver (h' : s.mapping r = none ∨ s.enrolled r = false) :
    s.dispose r p h = s.setRx r { s.rx r with framer := .segment { p with fate := .passedOver } } := by
  unfold State.dispose
  cases mapped : s.mapping r with
  | none => rfl
  | some q =>
    have off : s.enrolled r = false := h'.resolve_left (by rw [mapped]; exact Option.some_ne_none q)
    simp [off, State.setFramer]

variable {q : SourceId} (link : (s.rx r).link = .up) (mapped : s.mapping r = some q) (enrolled : s.enrolled r = true)
include mapped enrolled

/-- A segment of another source is misrouted (R44). -/
theorem dispose_misrouted (source : h.source.toNat ≠ q.val) : s.dispose r p h =
    (s.setRx r { s.rx r with framer := .segment { p with fate := .misrouted } }).post .misrouted (.link r) (some h.slice)
      (BitVec.ofNat 64 h.source.toNat) := by
  unfold State.dispose
  rw [mapped]
  dsimp only
  rw [if_pos enrolled, if_neg source]
  rfl

/-- A segment of the mapped source is taken in (R44). -/
theorem dispose_takeIn (source : h.source.toNat = q.val) : s.dispose r p h = s.takeIn r p h := by
  unfold State.dispose
  rw [mapped]
  dsimp only
  rw [if_pos enrolled, if_pos source]

omit mapped enrolled in
/-- Its two header words enter the buffer together while two words are free (R46; log 10). -/
theorem takeIn_admits (room : (s.rx r).held ≤ 2046) : s.takeIn r p h = s.setRx r
    { s.rx r with
      buffer := (s.rx r).buffer ++ [{ header := h, place := .waiting, payload := [], verdict := none }]
      framer := .segment { p with fate := .stored } } := by
  have free : 2 ≤ (s.rx r).room := by
    unfold Receiver.room Config.bufferWords
    omega
  unfold State.takeIn
  rw [if_pos free]
  rfl

include link in
/-- With fewer free the segment is lost with RX_OVERRUN and its slice number (R48; log 10). -/
theorem takeIn_overruns (full : 2046 < (s.rx r).held) : s.takeIn r p h =
    (s.setRx r { s.rx r with framer := .dropping }).post .rxOverrun (.link r) (some h.slice) 0 := by
  have none : ¬2 ≤ (s.rx r).room := by
    unfold Receiver.room Config.bufferWords
    omega
  have service : (s.setFramer r .dropping).inService r = true := by
    rw [State.setFramer, inService_setRx s r { s.rx r with framer := .dropping } rfl,
      inService_of s r link mapped enrolled]
  unfold State.takeIn
  rw [if_neg none]
  unfold State.loseHeader State.postOverrun
  rw [if_pos service]
  rfl

end

/-- Settles O9. -/
theorem headerWordsDecideAdmission : Obligations.HeaderWordsDecideAdmission := by
  refine ⟨fun w0 w1 h hh => hh ▸ parseHeader_fields w0 w1, rfl, fun r s w => ⟨exec_firstHeaderWord r s w,
    fun framer => ⟨fun link => ?strayUp, fun link => ?strayProbation⟩, fun seen framer => ?passed,
    exec_dataWord_unseen r s w⟩, ?second⟩
  case strayUp => rw [exec_dataWord r s w (.inl link), word_idle s r w framer, strayRun_up s r link]
  case strayProbation => rw [exec_dataWord r s w (.inr link), word_idle s r w framer, strayRun_probation s r link]
  case passed => rw [exec_dataWord r s w seen, word_passed s r w framer]
  case second =>
    intro r s o p w h fails framer received header hh hp hfails
    have word := word_secondHeader s r w framer received header hh hp
    have fate : p.fate = o.fate := by rw [hp]
    rw [SegmentHeader.failure_eq] at word
    have refused (f : fails) : s.word r w = s.refuseHeader r p h (if 1024 < h.length then .length else .emptyMisuse) := by
      rw [word, if_pos (hfails.mp f)]
    have passes (f : ¬fails) : s.word r w = if p.fate = .pending then s.dispose r p h else s.setFramer r (.segment p) := by
      rw [word, if_neg fun k => f (hfails.mpr k)]
    refine ⟨fun link f => ?probation, fun watched => ⟨fun link f => ?watchedRefused, fun seen f => ?watchedPasses⟩,
      fun link pending => ⟨fun f => ?refusedUp, fun f => ?disposed⟩⟩
    case probation => rw [exec_dataWord r s w (.inr link), refused f, refuseHeader_probation s r link]
    case watchedRefused =>
      rw [exec_dataWord r s w (.inl link), refused f, refuseHeader_up s r link, if_pos (fate.trans watched)]
    case watchedPasses =>
      rw [exec_dataWord r s w seen, passes f, if_neg (by rw [fate, watched]; decide)]
      rfl
    case refusedUp =>
      rw [exec_dataWord r s w (.inl link), refused f, refuseHeader_up s r link, if_neg (by rw [fate, pending]; decide),
        apply_ite FramingCause.code]
      unfold State.withFraming
      rw [inService_setRx s r { s.rx r with framer := .dropping } rfl]
      rfl
    case disposed =>
      rw [exec_dataWord r s w (.inl link), passes f, if_pos (fate.trans pending)]
      refine ⟨fun off => ?_, fun q mapped enrolled => ⟨fun other => ?_, fun own room => ?_, fun own full => ?_⟩⟩
      · rw [dispose_passedOver s r off]
      · rw [dispose_misrouted s r mapped enrolled other]
      · rw [dispose_takeIn s r mapped enrolled own, takeIn_admits s r room]
      · rw [dispose_takeIn s r mapped enrolled own, takeIn_overruns s r link mapped enrolled full]

end Sys2Proof.Machine
end

section
/-! PROOF. The words of a segment past its header (R42, R46, R48), and the END that takes its verdict (R40, R42, R45). -/

namespace Sys2Proof.Machine

/-! ## Payload, the CRC word and LATE_END -/

section
variable (s : State) (r : ReceiverId) (w : Word) {o : OpenSegment} {h : SegmentHeader}
variable (framer : (s.rx r).framer = .segment o) (header : o.header = some h)
include framer header

/-- A word past the header goes by its place: payload, the CRC word, or a word where the END is due (R42). -/
theorem word_body : s.word r w = s.takeBody r o h w := by
  rw [word_segment s r w framer]
  unfold State.takeWord
  rw [header]

/-- A payload word of a segment in the buffer is stored. -/
theorem word_stored (before : o.received < 2 + h.length) (stored : o.fate = .stored) : s.word r w =
    s.storePayload r { o with received := o.received + 1, crc := crcWord o.crc w } h w := by
  rw [word_body s r w framer header]
  unfold State.takeBody
  rw [if_pos before]
  exact if_pos stored

/-- A payload word of another segment is only counted and checked (R46). -/
theorem word_counted (before : o.received < 2 + h.length) (notStored : o.fate ≠ .stored) : s.word r w =
    s.setRx r { s.rx r with framer := .segment { o with received := o.received + 1, crc := crcWord o.crc w } } := by
  rw [word_body s r w framer header]
  unfold State.takeBody
  rw [if_pos before]
  exact if_neg notStored

/-- The CRC word is kept (R42). -/
theorem word_crc (due : o.received = 2 + h.length) : s.word r w = s.setRx r { s.rx r with
    framer := .segment { o with received := 3 + h.length, crcWord := w.extractLsb' 0 32 } } := by
  have low : w.setWidth 32 = w.extractLsb' 0 32 := BitVec.setWidth_eq_extractLsb' (by decide)
  have count : o.received + 1 = 3 + h.length := by omega
  rw [word_body s r w framer header]
  unfold State.takeBody
  rw [if_neg (by omega), if_pos due, low, count]
  rfl

/-- A word where the END is due is the framing error LATE_END (R42). -/
theorem word_late (late : 3 + h.length ≤ o.received) : s.word r w = s.framingError r o .lateEnd .dropping := by
  rw [word_body s r w framer header]
  unfold State.takeBody
  rw [if_neg (by omega), if_neg (by omega)]

end

section
variable (s : State) (r : ReceiverId) (w : Word) (o : OpenSegment) (h : SegmentHeader) {g : BufferedSegment}
variable (newest : (s.rx r).newest = some g)
include newest

/-- A payload word enters the buffer while a word is free there (R46). -/
theorem storePayload_room (place : g.place = .waiting ∨ g.place = .accepted) (room : (s.rx r).held < 2048) :
    s.storePayload r o h w = s.setRx r
      { (s.rx r).setNewest { g with payload := g.payload ++ [w] } with framer := .segment o } := by
  have free : ¬(s.rx r).room = 0 := fun full => absurd ((Receiver.room_eq_zero _).mp full) (Nat.not_le.mpr room)
  unfold State.storePayload
  rw [newest]
  dsimp only
  rcases place with p | p <;> rw [p] <;> exact if_neg free

/-- With none free it is lost (R48). -/
theorem storePayload_full (place : g.place = .waiting ∨ g.place = .accepted) (full : (s.rx r).held = 2048) :
    s.storePayload r o h w = s.overrun r h := by
  have none : (s.rx r).room = 0 := (Receiver.room_eq_zero _).mpr full.ge
  unfold State.storePayload
  rw [newest]
  dsimp only
  rcases place with p | p <;> rw [p] <;> exact if_pos none

/-- A payload word of a segment whose remainder was discarded is only counted (R46). -/
theorem storePayload_remainder {limit : Bool} (place : g.place = .remainder limit) :
    s.storePayload r o h w = s.setRx r { s.rx r with framer := .segment o } := by
  unfold State.storePayload
  rw [newest]
  dsimp only
  rw [place]
  rfl

end

/-- Settles O10. -/
theorem payloadWordsEnterTheBuffer : Obligations.PayloadWordsEnterTheBuffer := by
  intro r s o h w framer header
  refine ⟨fun g link stored before newest place => ⟨fun room => ?room, fun u full waits hu => ?full⟩,
    fun seen => ⟨fun before passed => ?counted, fun due => ?crc⟩, fun late => ⟨fun link => ?lateUp, fun link => ?lateProbation⟩⟩
  case room =>
    rw [exec_dataWord r s w (.inl link), word_stored s r w framer header before stored,
      storePayload_room s r w _ h newest place room]
  case full =>
    rw [exec_dataWord r s w (.inl link), word_stored s r w framer header before stored,
      storePayload_full s r w _ h newest place full, overrun_eq newest waits hu]
  case counted =>
    rw [exec_dataWord r s w seen]
    by_cases stored : o.fate = .stored
    · obtain ⟨g, limit, newest, place⟩ := passed.resolve_left (not_not_intro stored)
      rw [word_stored s r w framer header before stored, storePayload_remainder s r w _ h newest place]
    · rw [word_counted s r w framer header before stored]
  case crc => rw [exec_dataWord r s w seen, word_crc s r w framer header due]
  case lateUp =>
    have ends : ∀ o', (s.rx r).framer = .segment o' → exec (.dataWord r w) s =
        .next ((s.setFramer r .dropping).framingVerdict r o' .lateEnd).settleCache := by
      intro o' framer'
      obtain rfl : o = o' := by rw [framer] at framer'; simpa using framer'
      rw [exec_dataWord r s w (.inl link), word_late s r w framer header late, framingError_up s r link]
    exact ⟨framingEnds_of (cause := .lateEnd) ends, framingDelivers_of (cause := .lateEnd) ends⟩
  case lateProbation =>
    rw [exec_dataWord r s w (.inr link), word_late s r w framer header late, framingError_probation s r link]

/-! ## The CRC -/

/-- The division takes the low bits of a word from bit 0 up (R193). -/
theorem crcBits_eq (n : Nat) : ∀ (c : BitVec 32) (w : Word), crcBits c w n =
    (List.range n).foldl (fun (x : BitVec 32) (k : Nat) =>
      if x.getLsbD 0 = w.getLsbD k then x >>> 1 else (x >>> 1) ^^^ 0xEDB88320) c := by
  induction n with
  | zero => intro c w; rfl
  | succ n ih =>
    intro c w
    have bit : crcBit c (w.getLsbD 0) =
        if c.getLsbD 0 = w.getLsbD 0 then c >>> 1 else (c >>> 1) ^^^ 0xEDB88320 := by
      unfold crcBit
      by_cases e : c.getLsbD 0 = w.getLsbD 0
      · rw [if_pos e, e, bne_self_eq_false, if_neg Bool.false_ne_true]
      · rw [if_neg e, if_pos (bne_iff_ne.mpr e)]
    show crcBits (crcBit c (w.getLsbD 0)) (w >>> 1) n = _
    rw [ih, List.range_succ_eq_map, List.foldl_cons, List.foldl_map, bit]
    simp only [BitVec.getLsbD_ushiftRight, Nat.succ_eq_add_one, Nat.add_comm]

/-! ## The end of a segment -/

/-- The error-time list keeps its four newest stamps (R40). -/
theorem appendStamp_eq {errors : List Stamp} (t : Stamp) (h : errors.length ≤ 4) :
    appendStamp errors t = errors.drop (errors.length - 3) ++ [t] := by
  unfold appendStamp Config.errorStamps
  by_cases full : 4 ≤ errors.length
  · rw [if_pos full, show errors.length - 3 = 1 by omega, List.drop_one]
  · rw [if_neg full, show errors.length - 3 = 0 by omega, List.drop_zero]

/-- The span of a list that ends with a stamp (R38, R40). -/
theorem span_append (l : List Stamp) (t : Stamp) : span (l ++ [t]) = (t - (l ++ [t]).headD 0).toNat := by
  have oldest : (l ++ [t]).head? = some ((l ++ [t]).headD 0) := by cases l <;> rfl
  unfold span
  rw [oldest, List.getLast?_concat]

/-- A list that ends with a stamp shows a burst just when it holds four within 64 slots (R40). -/
theorem burstIn_append (l : List Stamp) (t : Stamp) :
    burstIn (l ++ [t]) = true ↔ (l ++ [t]).length = 4 ∧ (t - (l ++ [t]).headD 0).toNat < 64 := by
  unfold burstIn
  rw [span_append]
  simp [Config.errorStamps, Config.burstSlots]

section
variable (s : State) (r : ReceiverId) {o : OpenSegment} {h : SegmentHeader}

/-- An END where it is due finishes the segment; one before its place is the framing error EARLY_END (R42). -/
theorem ending_segment (framer : (s.rx r).framer = .segment o) :
    s.ending r = if o.endDue then s.finishSegment r o else s.framingError r o .earlyEnd .idle := by
  unfold State.ending
  rw [framer]

/-- With no segment open an END begins a stray run (R42). -/
theorem ending_idle (framer : (s.rx r).framer = .idle) : s.ending r = s.strayRun r := by
  unfold State.ending
  rw [framer]

/-- In a stray run it has no effect (R42). -/
theorem ending_stray (framer : (s.rx r).framer = .stray) : s.ending r = s := by
  unfold State.ending
  rw [framer]

/-- It ends the dropping of words (R42; log 14). -/
theorem ending_dropping (framer : (s.rx r).framer = .dropping) :
    s.ending r = s.setRx r { s.rx r with framer := .idle } := by
  unfold State.ending
  rw [framer]
  rfl

/-- The END is due once the CRC word has arrived (R42). -/
theorem OpenSegment.endDue_iff (o : OpenSegment) : o.endDue = true ↔ ∃ h, o.header = some h ∧ o.received = 3 + h.length := by
  unfold OpenSegment.endDue
  cases o.header <;> simp

/-- An END where it is due finishes the segment (R42). -/
theorem ending_due (framer : (s.rx r).framer = .segment o) (header : o.header = some h)
    (due : o.received = 3 + h.length) : s.ending r = s.finishSegment r o := by
  rw [ending_segment s r framer, if_pos (o.endDue_iff.mpr ⟨h, header, due⟩)]

/-- The verdict is GOOD just when the CRC agrees (R42). -/
theorem OpenSegment.verdict_good (agrees : ~~~o.crc = o.crcWord) : o.verdict = .good := if_pos agrees

/-- It is CRC_BAD where it does not (R42). -/
theorem OpenSegment.verdict_crcBad (differs : ~~~o.crc ≠ o.crcWord) : o.verdict = .crcBad := if_neg differs

/-- A GOOD verdict in PROBATION, and of a segment that is not in the buffer, has no effect but on the framer (R36, R45). -/
theorem finishSegment_good (link : (s.rx r).link = .probation ∨ (s.rx r).link = .up ∧ o.fate ≠ .stored)
    (agrees : ~~~o.crc = o.crcWord) : s.finishSegment r o = s.setRx r { s.rx r with framer := .idle } := by
  unfold State.finishSegment
  rw [OpenSegment.verdict_good agrees]
  rcases link with link | ⟨link, notStored⟩
  · rw [link]
    rfl
  · rw [link]
    dsimp only
    unfold State.keepVerdict
    rw [if_pos rfl, if_neg notStored]
    split <;> rfl

/-- A CRC_BAD verdict ends probation (R36). -/
theorem finishSegment_probation (link : (s.rx r).link = .probation) (differs : ~~~o.crc ≠ o.crcWord) :
    s.finishSegment r o = s.setRx r { s.rx r with link := .aligning, timer := none, framer := .idle } := by
  unfold State.finishSegment
  rw [OpenSegment.verdict_crcBad differs, link, ← leaveProbation_aligning]

/-- The verdict of a segment watched since PROBATION has no effect in UP (log 13). -/
theorem finishSegment_watched (link : (s.rx r).link = .up) (watched : o.fate = .watched) :
    s.finishSegment r o = s.setRx r { s.rx r with framer := .idle } := by
  unfold State.finishSegment
  rw [link]
  dsimp only
  rw [if_pos watched]
  rfl

/-- The GOOD verdict of a segment in the buffer is held there, and delivered once it can be (R45, R47). -/
theorem finishSegment_stored {g : BufferedSegment} (link : (s.rx r).link = .up) (stored : o.fate = .stored)
    (newest : (s.rx r).newest = some g) (agrees : ~~~o.crc = o.crcWord) : s.finishSegment r o =
      (s.setRx r { (s.rx r).setNewest { g with verdict := some .good } with framer := .idle }).settleVerdict r := by
  have newest' : ((s.setFramer r .idle).rx r).newest = some g := by
    rw [State.setFramer, State.setRx_rx_self]
    exact newest
  unfold State.finishSegment
  rw [OpenSegment.verdict_good agrees, link]
  dsimp only
  rw [if_neg (by rw [stored]; decide), if_pos rfl]
  unfold State.keepVerdict State.holdVerdict
  rw [if_pos stored, newest']
  dsimp only
  rw [State.setFramer, State.setRx_rx_self, State.setRx_setRx]
  rfl

/-- In UP a CRC_BAD verdict of a segment not watched is counted (R40, R45). -/
theorem finishSegment_crcBad (link : (s.rx r).link = .up) (seen : o.fate ≠ .watched) (differs : ~~~o.crc ≠ o.crcWord) :
    s.finishSegment r o = (s.setFramer r .idle).crcVerdict r o := by
  unfold State.finishSegment
  rw [OpenSegment.verdict_crcBad differs, link]
  dsimp only
  rw [if_neg seen, if_neg (by decide)]

/-- CRC_BAD is posted for an admitted segment of a receiver in service, and for no other (R45). -/
theorem postCrcBad_eq (header : o.header = some h) : s.postCrcBad r o =
    if (o.fate = .stored ∨ o.fate = .discarded) ∧ s.inService r = true then
      s.post .crcBad (.link r) (some h.slice) (fieldAt 0 h.kind.code) else s := by
  unfold State.postCrcBad
  rw [header]
  cases o.fate <;> simp

/-- The state after the CRC_BAD incident, if there is one, with the receiver replaced: the incident leaves the receivers, so
the replacement may come first (R45). -/
theorem postCrcBad_setRx (x y : Receiver) (link : x.link = (s.rx r).link) (link' : y.link = (s.rx r).link) :
    ((s.setRx r x).postCrcBad r o).setRx r y = (s.setRx r y).postCrcBad r o := by
  unfold State.postCrcBad
  split
  case h_3 => exact State.setRx_setRx _ _ _ _
  all_goals
    rw [inService_setRx s r x link, inService_setRx s r y link']
    split
    · rw [post_setRx, post_setRx, State.setRx_setRx]
    · exact State.setRx_setRx _ _ _ _

/-- Posting CRC_BAD leaves every receiver. -/
theorem postCrcBad_rx (k : ReceiverId) : (s.postCrcBad r o).rx k = s.rx k := by
  unfold State.postCrcBad
  split
  case h_3 => rfl
  all_goals
    split
    · exact post_rx _ _ _ _ _ _
    · rfl

/-- Posting CRC_BAD leaves the slot counter. -/
theorem postCrcBad_counter : (s.postCrcBad r o).counter = s.counter := by
  unfold State.postCrcBad
  split
  case h_3 => rfl
  all_goals
    split
    · exact post_keeps State.counter (fun _ _ _ => rfl) (fun _ _ _ => rfl) (fun _ _ => rfl) _ _ _ _ _
    · rfl

/-- The error-time list once a CRC_BAD verdict has joined it (R40). -/
theorem countError_quiet {l : List Stamp} (hl : appendStamp (s.rx r).errors s.counter = l) (quiet : burstIn l = false) :
    s.countError r = s.setRx r { s.rx r with errors := l } := by
  unfold State.countError
  dsimp only
  rw [hl, State.setRx_rx_self, if_neg (by simp [quiet])]

/-- A CRC_BAD verdict that shows no burst: the incident, the error-time list, and the verdict held with a segment in the
buffer and delivered once it can be (R40, R45). -/
theorem crcVerdict_quiet {l : List Stamp} (link : (s.rx r).link = .up)
    (hl : appendStamp (s.rx r).errors s.counter = l) (quiet : burstIn l = false) :
    (s.setFramer r .idle).crcVerdict r o =
      ((s.setRx r { s.rx r with framer := .idle, errors := l }).postCrcBad r o).keepVerdict r o .crcBad := by
  have hrx : ((s.setFramer r .idle).postCrcBad r o).rx r = { s.rx r with framer := .idle } := by
    rw [postCrcBad_rx, State.setFramer, State.setRx_rx_self]
  have counted : ((s.setFramer r .idle).postCrcBad r o).countError r =
      (s.setRx r { s.rx r with framer := .idle, errors := l }).postCrcBad r o := by
    rw [countError_quiet (l := l) _ r (by rw [hrx, postCrcBad_counter]; exact hl) quiet, hrx]
    exact postCrcBad_setRx s r _ _ rfl rfl
  unfold State.crcVerdict
  dsimp only
  rw [counted, if_pos]
  rw [postCrcBad_rx, State.setRx_rx_self]
  exact link

/-- A segment that is not in the buffer keeps no verdict (R45). -/
theorem keepVerdict_other {v : Verdict} (notStored : o.fate ≠ .stored) : s.keepVerdict r o v = s := if_neg notStored

/-- The CRC_BAD verdict of a segment in the buffer is held there, and delivered once it can be (R45, R47). -/
theorem keepVerdict_crcBad {g : BufferedSegment} {l : List Stamp} (stored : o.fate = .stored)
    (newest : (s.rx r).newest = some g) :
    ((s.setRx r { s.rx r with framer := .idle, errors := l }).postCrcBad r o).keepVerdict r o .crcBad =
      ((s.setRx r { (s.rx r).setNewest { g with verdict := some .crcBad } with framer := .idle, errors := l }).postCrcBad
        r o).settleVerdict r := by
  have newest' : (((s.setRx r { s.rx r with framer := .idle, errors := l }).postCrcBad r o).rx r).newest = some g := by
    rw [postCrcBad_rx, State.setRx_rx_self]
    exact newest
  unfold State.keepVerdict State.holdVerdict
  rw [if_pos stored, newest']
  dsimp only
  rw [postCrcBad_rx, State.setRx_rx_self]
  rw [postCrcBad_setRx]
  all_goals rfl

end

section
variable (s : State) (r : ReceiverId) {o : OpenSegment} {h : SegmentHeader}
variable (link : (s.rx r).link = .up) (framer : (s.rx r).framer = .segment o) (header : o.header = some h)
variable (due : o.received = 3 + h.length)
include link framer header due

/-- The END of a stored segment with a good CRC (R45, R47). -/
theorem exec_endSymbol_good {g : BufferedSegment} (stored : o.fate = .stored) (newest : (s.rx r).newest = some g)
    (agrees : ~~~o.crc = o.crcWord) : exec (.endSymbol r) s = .next ((s.setRx r
      { (s.rx r).setNewest { g with verdict := some .good } with framer := .idle }).settleVerdict r).settleCache := by
  rw [exec_endSymbol r s (.inl link), ending_due s r framer header due, finishSegment_stored s r link stored newest agrees]

variable {l : List Stamp} (differs : ~~~o.crc ≠ o.crcWord) (few : (s.rx r).errors.length ≤ 4)
variable (hl : l = (s.rx r).errors.drop ((s.rx r).errors.length - 3) ++ [s.counter])
variable (quiet : l.length < 4 ∨ 64 ≤ (s.counter - l.headD 0).toNat)
include differs few hl quiet

/-- The END of a segment with a bad CRC while the error-time list shows no burst (R40, R45). -/
theorem exec_endSymbol_crcBad (seen : o.fate ≠ .watched) : exec (.endSymbol r) s = .next
    (((s.setRx r { s.rx r with framer := .idle, errors := l }).postCrcBad r o).keepVerdict r o .crcBad).settleCache := by
  have noBurst : burstIn l = false := by
    rw [Bool.eq_false_iff, Ne, hl, burstIn_append, ← hl]
    omega
  rw [exec_endSymbol r s (.inl link), ending_due s r framer header due, finishSegment_crcBad s r link seen differs,
    crcVerdict_quiet s r link ((appendStamp_eq s.counter few).trans hl.symm) noBurst]

/-- The END of a stored segment with a bad CRC: its verdict is held, and delivered once it can be (R45, R47). -/
theorem exec_endSymbol_stored {g : BufferedSegment} {u : State} (stored : o.fate = .stored)
    (newest : (s.rx r).newest = some g)
    (hu : u = s.setRx r { (s.rx r).setNewest { g with verdict := some .crcBad } with framer := .idle, errors := l }) :
    exec (.endSymbol r) s = .next ((if s.inService r = true then
      u.post .crcBad (.link r) (some h.slice) (fieldAt 0 h.kind.code) else u).settleVerdict r).settleCache := by
  have service : u.inService r = s.inService r := by
    rw [hu]
    exact inService_setRx s r _ rfl
  rw [exec_endSymbol_crcBad s r link framer header due differs few hl quiet (by rw [stored]; decide),
    keepVerdict_crcBad s r stored newest, ← hu, postCrcBad_eq u r header, service]
  simp only [stored, true_or, true_and]

end

/-- Settles O12. -/
theorem endSymbolTakesTheVerdict : Obligations.EndSymbolTakesTheVerdict := by
  refine ⟨fun c w => crcBits_eq 64 c w, fun r s => ⟨fun o h framer header due => ⟨fun g link stored agrees newest waits => ?good,
    fun link agrees => ?goodElsewhere, fun link differs => ?badInProbation, fun link watched => ?watched,
    fun l link differs few hl quiet => ⟨fun passed => ?badPassed, fun discarded u hu => ?badDiscarded,
      fun g stored newest waits u hu => ?badStored⟩⟩, fun o framer early => ⟨fun link => ?earlyUp, fun link => ?earlyProbation⟩,
    fun framer => ⟨fun link => ?strayUp, fun link => ?strayProbation⟩, fun seen => ⟨fun framer => ?stray, fun framer => ?dropping⟩,
    exec_endSymbol_unseen r s⟩⟩
  case good =>
    rw [exec_endSymbol_good s r link framer header due stored newest agrees, State.settleVerdict_waiting]
    rw [State.setRx_rx_self]
    exact Receiver.head_setNewest _ g _ newest rfl rfl waits
  case goodElsewhere =>
    have seen : (s.rx r).link = .up ∨ (s.rx r).link = .probation := link.symm.imp_left And.left
    rw [exec_endSymbol r s seen, ending_due s r framer header due, finishSegment_good s r link agrees]
  case badInProbation =>
    rw [exec_endSymbol r s (.inr link), ending_due s r framer header due, finishSegment_probation s r link differs]
  case watched =>
    rw [exec_endSymbol r s (.inl link), ending_due s r framer header due, finishSegment_watched s r link watched]
  case badPassed =>
    have notStored : o.fate ≠ .stored := by rcases passed with p | p <;> rw [p] <;> decide
    have notDiscarded : o.fate ≠ .discarded := by rcases passed with p | p <;> rw [p] <;> decide
    have notWatched : o.fate ≠ .watched := by rcases passed with p | p <;> rw [p] <;> decide
    rw [exec_endSymbol_crcBad s r link framer header due differs few hl quiet notWatched, keepVerdict_other _ r notStored,
      postCrcBad_eq _ r header, if_neg fun k => k.1.elim notStored notDiscarded]
  case badDiscarded =>
    rw [exec_endSymbol_crcBad s r link framer header due differs few hl quiet (by rw [discarded]; decide),
      keepVerdict_other _ r (by rw [discarded]; decide), ← hu, postCrcBad_eq u r header]
    have service : u.inService r = s.inService r := by rw [hu]; exact inService_setRx s r _ rfl
    simp only [discarded, or_true, true_and, service]
  case badStored =>
    rw [exec_endSymbol_stored s r link framer header due differs few hl quiet stored newest hu,
      State.settleVerdict_waiting]
    have posted : (if s.inService r = true then u.post .crcBad (.link r) (some h.slice) (fieldAt 0 h.kind.code)
        else u).rx r = u.rx r := by
      split
      · exact post_rx _ _ _ _ _ _
      · rfl
    rw [posted, hu, State.setRx_rx_self]
    exact Receiver.head_setNewest _ g _ newest rfl rfl waits
  case earlyUp =>
    have ends : ∀ o', (s.rx r).framer = .segment o' → exec (.endSymbol r) s =
        .next ((s.setFramer r .idle).framingVerdict r o' .earlyEnd).settleCache := by
      intro o' framer'
      obtain rfl : o = o' := by rw [framer] at framer'; simpa using framer'
      have notDue : ¬o.endDue = true := fun k => by
        obtain ⟨h, header, due⟩ := o.endDue_iff.mp k
        exact early h header due
      rw [exec_endSymbol r s (.inl link), ending_segment s r framer, if_neg notDue, framingError_up s r link]
    exact ⟨framingEnds_of (cause := .earlyEnd) ends, framingDelivers_of (cause := .earlyEnd) ends⟩
  case earlyProbation =>
    have notDue : ¬o.endDue = true := fun k => by
      obtain ⟨h, header, due⟩ := o.endDue_iff.mp k
      exact early h header due
    rw [exec_endSymbol r s (.inr link), ending_segment s r framer, if_neg notDue, framingError_probation s r link]
  case strayUp => rw [exec_endSymbol r s (.inl link), ending_idle s r framer, strayRun_up s r link]
  case strayProbation => rw [exec_endSymbol r s (.inr link), ending_idle s r framer, strayRun_probation s r link]
  case stray => rw [exec_endSymbol r s seen, ending_stray s r framer]
  case dropping => rw [exec_endSymbol r s seen, ending_dropping s r framer]

end Sys2Proof.Machine
end

section
/-! PROOF. A link that leaves UP (R38): by the loss of its signal or its alignment, or by a burst of errors (R40). The
receiver stays as it is barred, and the slices that drop its source stay without it, through everything that the notice
causes (R25). -/

namespace Sys2Proof.Machine

/-! ## Properties that closures leave alone -/

/-- A property of a receiver that the end of a wait for a page, the end of a record, the end of the current fragment and the
discard of a remainder keep: all that a rollback and a closure do to a receiver (R21, R69). -/
def Receiver.Stable (P : Receiver → Prop) : Prop :=
  ∀ x, P x → P { x with noPages := false } ∧ P { x with record := none, noPages := false } ∧ P { x with current := none } ∧
    ∀ b, P (x.discardRemainder b)

/-- A property of a context that its closure and a change of its slot state keep: all that a closure and the walk after it do
to a context (R21, R98). -/
def Context.Stable (Q : Context → Prop) : Prop :=
  ∀ c, Q c → (∀ x, Q { c with state := x }) ∧ ∀ reason now, Q (c.closed reason now)

/-- A property that every step of a fold keeps is kept by the fold. -/
theorem foldl_holds {α : Type} {P : State → Prop} {f : State → α → State} (hk : ∀ t x, P t → P (f t x)) :
    ∀ (l : List α) {s : State}, P s → P (l.foldl f s)
  | [], _, h => h
  | x :: l, s, h => foldl_holds hk l (hk s x h)

/-- A property of a receiver is kept by the update of another, and by an update of its own that keeps it. -/
theorem setRx_holds {P : Receiver → Prop} {s : State} {r k : ReceiverId} {x : Receiver} (own : P (s.rx r) → P x) (h : P (s.rx k)) :
    P ((s.setRx r x).rx k) := by
  rw [State.setRx_rx]
  split
  case isTrue e => subst e; exact own h
  case isFalse => exact h

section
variable {P : Receiver → Prop} (stable : Receiver.Stable P)
include stable

theorem freePage_stable {s : State} {k : ReceiverId} (n : Slice) (page : Nat) (h : P (s.rx k)) :
    P ((s.freePage n page).rx k) := by
  have evaluated (pool : PagePool) : (s.setPool pool).evaluate.rx k = s.rx k :=
    evaluate_keeps (fun t => t.rx k) (fun _ _ _ => rfl) (fun _ _ _ => rfl) (fun _ _ => rfl) (fun _ _ => rfl) _
  have ended (pool : PagePool) : P ((s.setPool pool).evaluate.endNoPages.rx k) := by
    rw [endNoPages_rx, evaluated]
    exact (stable _ h).1
  unfold State.freePage
  split
  · split
    · rw [evaluated]; exact h
    · rw [post_rx]; exact ended _
  · exact ended _

theorem rollback_stable {s : State} {k : ReceiverId} (r : ReceiverId) (h : P (s.rx k)) : P ((s.rollback r).rx k) := by
  unfold State.rollback
  split
  case h_1 => exact h
  case h_2 record _ =>
    refine setRx_holds (fun h => (stable _ h).2.1) ?_
    refine foldl_holds (P := fun t => P (t.rx k)) (fun _ page => freePage_stable stable _ page) _ ?_
    unfold State.unlink
    split <;> exact h

theorem abandonFor_stable {s : State} {k : ReceiverId} (i : SlotId) (r : ReceiverId) (h : P (s.rx k)) :
    P ((s.abandonFor i r).rx k) := by
  unfold State.abandonFor State.abandonRecord
  split
  · split
    · split
      · exact h
      · exact setRx_holds (fun h => (stable _ h).2.2.2 _) (rollback_stable stable r h)
    · exact h
  · exact h

theorem clearCurrent_stable {s : State} {k : ReceiverId} (n : Slice) (r : ReceiverId) (h : P (s.rx k)) :
    P ((s.clearCurrent n r).rx k) := by
  unfold State.clearCurrent
  split
  · exact setRx_holds (fun h => (stable _ h).2.2.1) h
  · exact h

/-- A closure check keeps a stable property of every receiver (R20, R21). -/
theorem closureCheck_stable {s : State} {k : ReceiverId} (i : SlotId) (h : P (s.rx k)) : P ((s.closureCheck i).rx k) := by
  unfold State.closureCheck
  split
  case isFalse => exact h
  case isTrue =>
    unfold State.closeContext State.enterReady
    dsimp only
    rw [walk_rx, State.setReady_rx, State.setCtx_rx]
    exact foldl_holds (P := fun t => P (t.rx k)) (fun _ r => clearCurrent_stable stable _ r) _
      (foldl_holds (P := fun t => P (t.rx k)) (fun _ r => abandonFor_stable stable i r) _ h)

end

theorem clearCurrent_ctx (s : State) (n : Slice) (r : ReceiverId) : (s.clearCurrent n r).ctx = s.ctx := by
  unfold State.clearCurrent
  split <;> rfl

theorem abandonFor_ctx (s : State) (i : SlotId) (r : ReceiverId) : (s.abandonFor i r).ctx = s.ctx :=
  abandonFor_keeps State.ctx (fun t n page => freePage_keeps State.ctx (fun _ _ _ => rfl) (fun _ _ _ => rfl) (fun _ _ => rfl)
    (fun _ _ => rfl) (fun _ _ => rfl) (fun _ _ => rfl) t n page) (fun _ _ => rfl) (fun _ _ _ => rfl) s i r

/-- The walk keeps a stable property of every context (R98). -/
theorem walk_ctx_stable {Q : Context → Prop} (stable : Context.Stable Q) {s : State} {k : SlotId} (h : Q (s.ctx k)) :
    Q (s.walk.ctx k) := by
  obtain ⟨x, -, walked⟩ := walk_ctx s k
  rw [walked]
  exact (stable _ h).1 x

/-- A closure keeps a stable property of every context (R21). -/
theorem closeContext_ctx_stable {Q : Context → Prop} (stable : Context.Stable Q) {s : State} {k : SlotId} (i : SlotId)
    (reason : ClosureReason) (h : Q (s.ctx k)) : Q ((s.closeContext i reason).ctx k) := by
  unfold State.closeContext State.enterReady
  dsimp only
  refine walk_ctx_stable stable ?_
  have cleared : Q (((s.each allReceivers fun r u => u.abandonFor i r).each allReceivers
      fun r u => u.clearCurrent (s.ctx i).slice r).ctx k) := by
    refine foldl_holds (P := fun t => Q (t.ctx k)) (fun t r ht => ?_) _
      (foldl_holds (P := fun t => Q (t.ctx k)) (fun t r ht => ?_) _ h)
    · show Q ((t.clearCurrent _ r).ctx k)
      rw [clearCurrent_ctx]
      exact ht
    · show Q ((t.abandonFor i r).ctx k)
      rw [abandonFor_ctx]
      exact ht
  generalize ((s.each allReceivers fun r u => u.abandonFor i r).each allReceivers
      fun r u => u.clearCurrent (s.ctx i).slice r) = u at cleared ⊢
  rw [State.setReady_ctx, State.setCtx_ctx]
  split
  case isTrue e => subst e; exact (stable _ cleared).2 _ _
  case isFalse => exact cleared

/-- A closure check keeps a stable property of every context (R20, R21). -/
theorem closureCheck_ctx_stable {Q : Context → Prop} (stable : Context.Stable Q) {s : State} {k : SlotId} (i : SlotId)
    (h : Q (s.ctx k)) : Q ((s.closureCheck i).ctx k) := by
  unfold State.closureCheck
  split
  case isTrue => exact closeContext_ctx_stable stable i _ h
  case isFalse => exact h

/-! ## The barred receiver -/

/-- A receiver that is barred with a reason until a slot, and holds nothing (R38). -/
structure Receiver.BarredFor (reason : BarredReason) (timer : Option Stamp) (errors : List Stamp) (x : Receiver) :
    Prop where
  link : x.link = .barred
  barred : x.barred = reason
  timer : x.timer = timer
  buffer : x.buffer = []
  framer : x.framer = .idle
  early : x.early = false
  noPages : x.noPages = false
  errors : x.errors = errors

/-- With an empty buffer there is no remainder to discard (R46). -/
theorem Receiver.discardRemainder_empty {x : Receiver} (b : Bool) (h : x.buffer = []) : x.discardRemainder b = x := by
  unfold Receiver.discardRemainder Receiver.head
  rw [h]
  rfl

theorem Receiver.barredFor_stable (reason : BarredReason) (timer : Option Stamp) (errors : List Stamp) :
    Receiver.Stable (Receiver.BarredFor reason timer errors) := by
  rintro x ⟨link, barred, timer, buffer, framer, early, noPages, errors⟩
  refine ⟨⟨link, barred, timer, buffer, framer, early, rfl, errors⟩,
    ⟨link, barred, timer, buffer, framer, early, rfl, errors⟩,
    ⟨link, barred, timer, buffer, framer, early, noPages, errors⟩, fun b => ?_⟩
  rw [Receiver.discardRemainder_empty b buffer]
  exact ⟨link, barred, timer, buffer, framer, early, noPages, errors⟩

/-- Without a record and without a current fragment a receiver stays so. -/
theorem Receiver.unassigned_stable : Receiver.Stable fun x => x.record = none ∧ x.current = none := by
  rintro x ⟨record, current⟩
  refine ⟨⟨record, current⟩, ⟨rfl, current⟩, ⟨record, rfl⟩, fun b => ?_⟩
  obtain ⟨same, kept | gone⟩ := x.discardRemainder_keeps b
  · exact ⟨same.trans record, kept.trans current⟩
  · exact ⟨same.trans record, gone⟩

/-! ## The dropped source -/

/-- What a slice that drops a source keeps of it: it expects it no more, has it dropped if it expected it, and its chain is
PARTIAL if it was RECEIVING (R25). -/
def Context.Dropped (c : Context) (q : SourceId) (x : Context) : Prop :=
  member x.expected q = false ∧ (member c.expected q = true → member x.dropped q = true) ∧
    ((c.chain q).state = .receiving → (x.chain q).state = .partial_)

/-- A chain that is not RECEIVING stays as it is when its context closes (R21). -/
theorem Context.closed_chain {c : Context} {q : SourceId} {x : ChainState} (reason : ClosureReason) (now : Stamp)
    (hx : x ≠ .receiving) (h : (c.chain q).state = x) : ((c.closed reason now).chain q).state = x := by
  have closed : (c.closed reason now).chain q = (c.chain q).broken := by
    simp [Context.closed, Context.withDirectory, Context.chain]
  rw [closed]
  unfold Chain.broken
  rw [if_neg (by rw [h]; exact hx), h]

theorem Context.closed_sets (c : Context) (reason : ClosureReason) (now : Stamp) :
    (c.closed reason now).expected = c.expected ∧ (c.closed reason now).dropped = c.dropped := by
  unfold Context.closed Context.withDirectory
  exact ⟨rfl, rfl⟩

theorem Context.dropped_stable (c : Context) (q : SourceId) : Context.Stable (c.Dropped q) := by
  rintro x ⟨gone, dropped, ended⟩
  refine ⟨fun _ => ⟨gone, dropped, ended⟩, fun reason now => ?_⟩
  obtain ⟨expectedSame, droppedSame⟩ := x.closed_sets reason now
  unfold Context.Dropped
  rw [expectedSame, droppedSame]
  exact ⟨gone, dropped, fun receiving => Context.closed_chain reason now (by decide) (ended receiving)⟩

/-- A set without a source. -/
theorem member_and_not (m : SourceSet) (q : SourceId) : member (m &&& ~~~(1#24 <<< q.val)) q = false := by
  have hq := q.isLt
  simp [member, hq]

/-- What the notice makes of an OPEN context whose chain is not final drops the source (R25). -/
theorem Context.dropped_of_notice (c : Context) (q : SourceId) : c.Dropped q
    { c.setChain q { c.chain q with state := if (c.chain q).state = .receiving then .partial_ else .none } with
      expected := c.expected &&& ~~~(1#24 <<< q.val)
      dropped := if member c.expected q = true then c.dropped ||| 1#24 <<< q.val else c.dropped } := by
  refine ⟨member_and_not c.expected q, fun expected => ?_, fun receiving => ?_⟩
  · show member (if member c.expected q = true then c.dropped ||| single q else c.dropped) q = true
    rw [if_pos expected, member_or_single]
    exact .inr rfl
  · show ((c.setChain q _).chain q).state = .partial_
    rw [Context.setChain_chain, if_pos rfl, if_pos receiving]

/-! ## The notice -/

section
variable {r : ReceiverId} {q : SourceId} {s v : State} (notice : LinkLossNotice r q s v)
include notice

/-- The notice leaves its receiver without a record and a current fragment (R25). -/
theorem LinkLossNotice.unassigned : (v.rx r).record = none ∧ (v.rx r).current = none := by
  obtain ⟨loses, d, e, -, hd, he, hv⟩ := notice
  have rx : e.rx r = d.rx r := by unfold State.rx; rw [he]
  rw [hv]
  refine foldl_holds (P := fun t => (t.rx r).record = none ∧ (t.rx r).current = none) (fun w i h => ?_) _ ?_
  · split
    · exact closureCheck_stable Receiver.unassigned_stable i h
    · exact h
  · rw [rx, hd, State.setRx_rx_self]
    have record := (rollback_rx s r r).1
    rw [if_pos rfl] at record
    exact ⟨record, rfl⟩

/-- The notice keeps what is stable of its receiver (R25). -/
theorem LinkLossNotice.keeps {P : Receiver → Prop} (stable : Receiver.Stable P) (h : P (s.rx r)) : P (v.rx r) := by
  obtain ⟨loses, d, e, -, hd, he, hv⟩ := notice
  have rx : e.rx r = d.rx r := by unfold State.rx; rw [he]
  rw [hv]
  refine foldl_holds (P := fun t => P (t.rx r)) (fun w i h => ?_) _ ?_
  · split
    · exact closureCheck_stable stable i h
    · exact h
  · rw [rx, hd, State.setRx_rx_self]
    exact (stable _ (rollback_stable stable r h)).2.2.1

/-- Every OPEN slice whose chain of the source is not final drops the source (R25). -/
theorem LinkLossNotice.drops {i : SlotId} (opened : (s.ctx i).state = .opened)
    (waits : ((s.ctx i).chain q).state.final = false) : (s.ctx i).Dropped q (v.ctx i) := by
  obtain ⟨loses, d, e, hloses, -, he, hv⟩ := notice
  rw [hv]
  refine foldl_holds (P := fun t => (s.ctx i).Dropped q (t.ctx i)) (fun w k h => ?_) _ ?_
  · split
    · exact closureCheck_ctx_stable ((s.ctx i).dropped_stable q) k h
    · exact h
  · have lost := (hloses i).mpr ⟨opened, waits⟩
    have dropped := (s.ctx i).dropped_of_notice q
    have contexts := congrArg State.contexts he
    dsimp only at contexts
    show (s.ctx i).Dropped q e.contexts[i]
    rw [contexts, Fin.getElem_fin, Vector.getElem_ofFn, if_pos lost]
    exact dropped

end

/-! ## Leaving UP -/

/-- What becomes of the slice table when receiver `r` leaves UP (R38 step 3). -/
def State.dropOut (s : State) (r : ReceiverId) : State :=
  match s.mapping r with
  | some q => s.linkLoss r q
  | none => s

/-- The receiver as it leaves UP, and the slice table once it has (R38 steps 1 to 3). -/
theorem leaveUp_eq (s : State) (r : ReceiverId) (why : UpLoss) : s.leaveUp r why =
    ((s.setRx r ((s.rx r).barredWith why.reason (s.timerFor s.barTime))).dropOut r).postUpLoss r why := rfl

section
variable (s : State) (r : ReceiverId)

theorem dropOut_sourceDropsOut : SourceDropsOut r s (s.dropOut r) := by
  unfold State.dropOut
  refine ⟨fun unmapped => ?_, fun q mapped => ?_⟩
  · rw [unmapped]
  · rw [mapped]
    exact linkLoss_notice s r q

theorem dropOut_leads : Leads 1 false s (s.dropOut r) := by
  unfold State.dropOut
  split
  · exact leads_linkLoss s r _
  · exact .refl s

theorem dropOut_counter : (s.dropOut r).counter = s.counter := ((dropOut_leads s r).unreached.time (by decide)).1

theorem dropOut_lostMask : (s.dropOut r).lostMask r = s.lostMask r := by
  unfold State.lostMask State.linkmap
  rw [((dropOut_leads s r).unreached.items (by decide)).1]

/-- Without a mapping, or where frees post nothing, it posts nothing. -/
theorem dropOut_incidents (h : s.mapping r = none ∨ s.FreesQuietly) : (s.dropOut r).incidents = s.incidents := by
  unfold State.dropOut
  split
  case h_1 q mapped =>
    have quiet := h.resolve_left (by rw [mapped]; exact Option.some_ne_none q)
    exact (linkLoss_quiet quiet r q).2
  case h_2 => rfl

/-- It keeps what is stable of the receiver. -/
theorem dropOut_stable {P : Receiver → Prop} (stable : Receiver.Stable P) (h : P (s.rx r)) : P ((s.dropOut r).rx r) := by
  obtain ⟨alone, noticed⟩ := dropOut_sourceDropsOut s r
  cases mapped : s.mapping r with
  | none => rw [alone mapped]; exact h
  | some q => exact (noticed q mapped).keeps stable h

end

section
variable {s t u : State} {r : ReceiverId}

/-- Replacing a receiver has no part in whether frees post. -/
theorem FreesQuietly.setRx (h : s.FreesQuietly) (x : Receiver) : (s.setRx r x).FreesQuietly :=
  FreesQuietly_congr rfl rfl rfl rfl h

/-- What is left of a mapped receiver that has left UP, and of the slices that waited for its source (R25). -/
theorem dropOut_drops {q : SourceId} (mapped : s.mapping r = some q) (rx : t.rx r = (s.dropOut r).rx r)
    (ctx : ∀ i, t.ctx i = (s.dropOut r).ctx i) : (t.rx r).record = none ∧ (t.rx r).current = none ∧
      ∀ i, (s.ctx i).state = .opened → ((s.ctx i).chain q).state.final = false →
        member (t.ctx i).expected q = false ∧ (member (s.ctx i).expected q = true → member (t.ctx i).dropped q = true) ∧
        (((s.ctx i).chain q).state = .receiving → ((t.ctx i).chain q).state = .partial_) := by
  have notice := (dropOut_sourceDropsOut s r).2 q mapped
  obtain ⟨record, current⟩ := notice.unassigned
  rw [rx]
  exact ⟨record, current, fun i opened waits => by rw [ctx]; exact notice.drops opened waits⟩

end

/-! ## The loss of the signal or the alignment -/

theorem postUpLoss_signal (s : State) (r : ReceiverId) : s.postUpLoss r .signal =
    if s.lostMask r = true then s else s.post .linkLost (.link r) none 1 := rfl

theorem postUpLoss_alignment (s : State) (r : ReceiverId) : s.postUpLoss r .alignment =
    if s.lostMask r = true then s else s.post .linkLost (.link r) none 2 := rfl

/-- A link in UP that loses its signal or its alignment leaves UP (R35, R38). -/
theorem exec_lossInUp {r : ReceiverId} {s : State} {c : Instr} (h : c = .signalAbsent r ∨ c = .alignmentLost r)
    (link : (s.rx r).link = .up) {u : State} (hu : u = s.setRx r { s.rx r with
      signal := if c = .signalAbsent r then false else (s.rx r).signal
      link := .barred, timer := some (s.counter + BitVec.ofNat 32 s.barTime), barred := .lost, framer := .idle
      buffer := [], early := false, noPages := false }) :
    exec c s = .next (if s.lostMask r = true then u.dropOut r
      else (u.dropOut r).post .linkLost (.link r) none (if c = .signalAbsent r then 1 else 2)).settleCache := by
  have mask : (u.dropOut r).lostMask r = s.lostMask r := by
    rw [dropOut_lostMask, hu]
    rfl
  rcases h with rfl | rfl
  · show execSignalAbsent r s = _
    unfold execSignalAbsent
    rw [link]
    dsimp only
    have left : (s.setSignal r false).setRx r (((s.setSignal r false).rx r).barredWith UpLoss.signal.reason
        ((s.setSignal r false).timerFor (s.setSignal r false).barTime)) = u := by
      rw [hu, State.setSignal, State.setRx_rx_self, State.setRx_setRx, if_pos rfl]
      rfl
    rw [leaveUp_eq, left, postUpLoss_signal, mask, if_pos rfl]
  · show execAlignmentLost r s = _
    unfold execAlignmentLost
    rw [link]
    dsimp only
    have left : s.setRx r ((s.rx r).barredWith UpLoss.alignment.reason (s.timerFor s.barTime)) = u := by
      rw [hu]
      rfl
    rw [leaveUp_eq, left, postUpLoss_alignment, mask,
      if_neg (show ¬Instr.alignmentLost r = .signalAbsent r from Instr.noConfusion)]

/-- Settles O6. -/
theorem lossInUpBarsTheLink : Obligations.LossInUpBarsTheLink := by
  intro r s u c h link hu
  let v := u.dropOut r
  refine ⟨v, _, dropOut_sourceDropsOut u r, exec_lossInUp h link hu, rfl, ?_, fun quiet => ?_, ?_⟩
  · rw [dropOut_counter, hu]
    rfl
  · refine (dropOut_incidents u r ?_).trans (by rw [hu]; rfl)
    rw [hu]
    exact quiet.imp_right fun q => FreesQuietly.setRx q _
  · generalize ht : (if s.lostMask r = true then v
      else v.post .linkLost (.link r) none (if c = .signalAbsent r then 1 else 2)).settleCache = t
    have rx : t.rx r = v.rx r := by
      rw [← ht, settleCache_rx]
      split
      · rfl
      · rw [post_rx]
    have ctx (i : SlotId) : t.ctx i = v.ctx i := by
      rw [← ht, settleCache_ctx]
      split
      · rfl
      · rw [post_ctx]
    have barred : Receiver.BarredFor .lost (some (s.counter + BitVec.ofNat 32 s.barTime)) (s.rx r).errors (v.rx r) := by
      refine dropOut_stable u r (Receiver.barredFor_stable _ _ _) ?_
      rw [hu, State.setRx_rx_self]
      exact ⟨rfl, rfl, rfl, rfl, rfl, rfl, rfl, rfl⟩
    have drops (q : SourceId) (mapped : s.mapping r = some q) := dropOut_drops (s := u) (by rw [hu]; exact mapped) rx ctx
    have contexts : u.ctx = s.ctx := by rw [hu]; rfl
    rw [contexts] at drops
    rw [rx] at drops ⊢
    exact ⟨barred.link, barred.barred, barred.timer, barred.buffer, barred.framer, barred.early, barred.noPages,
      barred.errors, drops⟩

end Sys2Proof.Machine
end

section
/-! PROOF. The CRC_BAD verdict that completes an error burst bars the link (R38, R40). -/

namespace Sys2Proof.Machine

section
variable (s : State) (r : ReceiverId) {o : OpenSegment}

/-- Posting CRC_BAD leaves whatever an incident leaves. -/
theorem postCrcBad_keeps {α : Type} (g : State → α) (hs : ∀ s p x, g (s.setSent p x) = g s)
    (hp : ∀ s p x, g (s.setPort p x) = g s) (hi : ∀ s x, g (s.setIncidents x) = g s) : g (s.postCrcBad r o) = g s := by
  unfold State.postCrcBad
  split
  case h_3 => rfl
  all_goals
    split
    · exact post_keeps g hs hp hi _ _ _ _ _
    · rfl

theorem postCrcBad_items : (s.postCrcBad r o).items = s.items :=
  postCrcBad_keeps s r State.items (fun _ _ _ => rfl) (fun _ _ _ => rfl) (fun _ _ => rfl)

theorem postCrcBad_contexts : (s.postCrcBad r o).contexts = s.contexts :=
  postCrcBad_keeps s r State.contexts (fun _ _ _ => rfl) (fun _ _ _ => rfl) (fun _ _ => rfl)

/-- Posting CRC_BAD has no part in which source the receiver is mapped to. -/
theorem postCrcBad_mapping : (s.postCrcBad r o).mapping r = s.mapping r := by
  unfold State.mapping State.linkmap
  rw [postCrcBad_items]

/-- Posting CRC_BAD has no part in whether frees post. -/
theorem postCrcBad_quiet (h : s.FreesQuietly) : (s.postCrcBad r o).FreesQuietly := by
  have pool : (s.postCrcBad r o).pool = s.pool :=
    postCrcBad_keeps s r State.pool (fun _ _ _ => rfl) (fun _ _ _ => rfl) (fun _ _ => rfl)
  have pressure : (s.postCrcBad r o).pressure = s.pressure :=
    postCrcBad_keeps s r State.pressure (fun _ _ _ => rfl) (fun _ _ _ => rfl) (fun _ _ => rfl)
  exact FreesQuietly_congr (by rw [pool]) (by rw [pool]) pressure (postCrcBad_items s r) h

/-- Posting CRC_BAD and an update of the receiver that keeps its link state commute. -/
theorem postCrcBad_of_setRx (x : Receiver) (link : x.link = (s.rx r).link) :
    (s.setRx r x).postCrcBad r o = (s.postCrcBad r o).setRx r x := by
  unfold State.postCrcBad
  split
  case h_3 => rfl
  all_goals
    rw [inService_setRx s r x link]
    split
    · exact post_setRx _ _ _ _ _ _ _
    · rfl

/-- The stamp that completes an error burst takes the link out of UP (R40). -/
theorem countError_burst {l : List Stamp} (hl : appendStamp (s.rx r).errors s.counter = l) (burst : burstIn l = true) :
    s.countError r = (s.setRx r { s.rx r with errors := l }).leaveUp r .burst := by
  unfold State.countError
  dsimp only
  rw [hl, State.setRx_rx_self, if_pos burst]

theorem postUpLoss_burst : s.postUpLoss r .burst =
    s.post .errorBurst (.link r) none (BitVec.ofNat 64 (span (s.rx r).errors)) := rfl

end

section
variable {s u : State} {r : ReceiverId} {o : OpenSegment} {h : SegmentHeader} {l : List Stamp}

/-- The END whose CRC_BAD verdict completes an error burst takes the link out of UP (R38, R40, R45). -/
theorem exec_endSymbol_burst (link : (s.rx r).link = .up) (framer : (s.rx r).framer = .segment o)
    (header : o.header = some h) (due : o.received = 3 + h.length) (seen : o.fate ≠ .watched) (differs : ~~~o.crc ≠ o.crcWord)
    (hl : appendStamp (s.rx r).errors s.counter = l) (burst : burstIn l = true)
    (hu : u = (s.postCrcBad r o).setRx r { s.rx r with
      link := .barred, timer := some (s.counter + BitVec.ofNat 32 s.barTime), barred := .burst, errors := l
      framer := .idle, buffer := [], early := false, noPages := false })
    (errors : ((u.dropOut r).rx r).errors = l) (left : ((u.dropOut r).rx r).link = .barred) : exec (.endSymbol r) s =
      .next ((u.dropOut r).post .errorBurst (.link r) none (BitVec.ofNat 64 (span l))).settleCache := by
  have counted : ((s.setFramer r .idle).postCrcBad r o).countError r =
      (u.dropOut r).post .errorBurst (.link r) none (BitVec.ofNat 64 (span l)) := by
    have idle : (s.setFramer r .idle).postCrcBad r o = (s.postCrcBad r o).setRx r { s.rx r with framer := .idle } :=
      postCrcBad_of_setRx s r _ rfl
    have barTime : (s.postCrcBad r o).items.linktime.value 1 = s.barTime := by
      rw [postCrcBad_items]
      rfl
    have counter := postCrcBad_counter s r (o := o)
    rw [countError_burst _ r (l := l) (by rw [idle, State.setRx_rx_self]; exact counter ▸ hl) burst, leaveUp_eq, idle,
      State.setRx_rx_self, State.setRx_setRx, State.setRx_rx_self, State.setRx_setRx]
    have same : (s.postCrcBad r o).setRx r (Receiver.barredWith { s.rx r with framer := .idle, errors := l } UpLoss.burst.reason
        (some ((s.postCrcBad r o).counter + BitVec.ofNat 32 ((s.postCrcBad r o).items.linktime.value 1)))) = u := by
      rw [hu, counter, barTime]
      rfl
    refine (congrArg (fun t => (State.dropOut t r).postUpLoss r .burst) same).trans ?_
    rw [postUpLoss_burst, errors]
  rw [exec_endSymbol r s (.inl link), ending_due s r framer header due, finishSegment_crcBad s r link seen differs]
  unfold State.crcVerdict
  dsimp only
  rw [counted, post_rx, left, if_neg (by decide)]

end

/-- Settles O13. -/
theorem errorBurstBarsTheLink : Obligations.ErrorBurstBarsTheLink := by
  intro r s u w o h l link framer header due passed differs few hl four close hw hu
  have seen : o.fate ≠ .watched := by rcases passed with e | e | e | e <;> rw [e] <;> decide
  have burst : burstIn l = true := by
    rw [hl, burstIn_append, ← hl]
    exact ⟨four, close⟩
  have spans : span l = (s.counter - l.headD 0).toNat := by
    rw [hl, span_append]
  rw [← postCrcBad_eq s r header] at hw
  subst hw
  have barred : Receiver.BarredFor .burst (some (s.counter + BitVec.ofNat 32 s.barTime)) l ((u.dropOut r).rx r) := by
    refine dropOut_stable u r (Receiver.barredFor_stable _ _ _) ?_
    rw [hu, State.setRx_rx_self]
    exact ⟨rfl, rfl, rfl, rfl, rfl, rfl, rfl, rfl⟩
  have ends := exec_endSymbol_burst link framer header due seen differs ((appendStamp_eq s.counter few).trans hl.symm) burst hu
    barred.errors barred.link
  rw [spans] at ends
  refine ⟨u.dropOut r, _, dropOut_sourceDropsOut u r, ends, rfl, ?_, fun quiet => ?_, ?_⟩
  · rw [dropOut_counter, hu]
    exact postCrcBad_counter s r
  · refine (dropOut_incidents u r ?_).trans (by rw [hu]; rfl)
    rw [hu]
    exact quiet.imp (postCrcBad_mapping s r).trans fun q => FreesQuietly.setRx (postCrcBad_quiet s r q) _
  · generalize ht : ((u.dropOut r).post .errorBurst (.link r) none
      (BitVec.ofNat 64 (s.counter - l.headD 0).toNat)).settleCache = t
    have rx : t.rx r = (u.dropOut r).rx r := by rw [← ht, settleCache_rx, post_rx]
    have ctx (i : SlotId) : t.ctx i = (u.dropOut r).ctx i := by rw [← ht, settleCache_ctx, post_ctx]
    have mapping : u.mapping r = s.mapping r := by
      rw [hu]
      exact postCrcBad_mapping s r
    have drops (q : SourceId) (mapped : s.mapping r = some q) := dropOut_drops (s := u) (mapping.trans mapped) rx ctx
    have contexts : u.ctx = s.ctx := by
      have same : u.contexts = s.contexts := by rw [hu]; exact postCrcBad_contexts s r
      unfold State.ctx
      rw [same]
    rw [contexts] at drops
    rw [rx] at drops ⊢
    exact ⟨barred.link, barred.barred, barred.errors, barred.timer, barred.buffer, drops⟩

end Sys2Proof.Machine
end

section
/-! PROOF. PLACEMENT: which presented segments are accepted, stall or are discarded, and what each does (R9 to R15). -/

namespace Sys2Proof.Machine

/-! ## The class of a slice number and the kind of a segment -/

section
variable {s : State} {n : Slice}

theorem State.classify_inWindow (h : distance s.frontier n < 64) : s.classify n = .inWindow := if_pos h

theorem State.classify_early (far : 64 ≤ distance s.frontier n) (h : distance s.frontier n < 2 ^ 31) :
    s.classify n = .early := (if_neg (Nat.not_lt.mpr far)).trans (if_pos h)

theorem State.classify_late (h : 2 ^ 31 ≤ distance s.frontier n) : s.classify n = .late :=
  (if_neg (by omega)).trans (if_neg (Nat.not_lt.mpr h))

end

theorem SegmentKind.starts_iff (k : SegmentKind) : k.starts = true ↔ k = .first ∨ k = .only := by
  cases k <;> simp [SegmentKind.starts]

theorem SegmentKind.not_starts_iff (k : SegmentKind) : k.starts = false ↔ k = .middle ∨ k = .last := by
  cases k <;> simp [SegmentKind.starts]

theorem SegmentKind.not_starts_of {k : SegmentKind} (h : ¬(k = .first ∨ k = .only)) : k.starts = false := by
  rw [Bool.eq_false_iff, Ne, k.starts_iff]
  exact h

/-! ## The decision -/

section
variable {s : State} {h : SegmentHeader} {current : Option Slice} {q : SourceId}

/-- Past the run gate the window decides (R11). -/
theorem State.answer_window (run : s.run = .running ∨
    s.run = .draining ∧ distance s.frontier h.slice < 64 ∧ (s.ctx (slotOf h.slice)).state ≠ .unopened) :
    s.answer h current q = s.windowAnswer h current q := by
  unfold State.answer
  rcases run with run | ⟨run, inside, opened⟩
  · rw [run]
  · rw [run]
    refine if_pos ?_
    unfold State.knownSlice
    rw [State.classify_inWindow inside]
    simpa using opened

/-- Outside a run, and in DRAINING for a slice that is not in window or not opened, the run gate discards (R11). -/
theorem State.answer_runState (run : (s.run = .stopped ∨ s.run = .flushing) ∨ s.run = .draining ∧
    (64 ≤ distance s.frontier h.slice ∨ (s.ctx (slotOf h.slice)).state = .unopened)) :
    s.answer h current q = .discard .runState := by
  unfold State.answer
  rcases run with (run | run) | ⟨run, unknown⟩
  · rw [run]
  · rw [run]
  · rw [run]
    refine if_neg ?_
    unfold State.knownSlice
    rcases unknown with outside | unopened
    · have class_ : s.classify h.slice ≠ .inWindow := by
        unfold State.classify
        dsimp only
        rw [if_neg (Nat.not_lt.mpr outside)]
        split <;> decide
      simp [class_]
    · simp [unopened]

theorem State.windowAnswer_early (far : 64 ≤ distance s.frontier h.slice) (near : distance s.frontier h.slice < 2 ^ 31) :
    s.windowAnswer h current q = .stallEarly := by
  unfold State.windowAnswer
  rw [State.classify_early far near]

theorem State.windowAnswer_late (behind : 2 ^ 31 ≤ distance s.frontier h.slice) :
    s.windowAnswer h current q = .discard .late := by
  unfold State.windowAnswer
  rw [State.classify_late behind]

section
variable (inside : distance s.frontier h.slice < 64)
include inside

theorem State.windowAnswer_closed (closed : (s.ctx (slotOf h.slice)).state = .ready ∨
    (s.ctx (slotOf h.slice)).state = .delivering ∨ (s.ctx (slotOf h.slice)).state = .retired) :
    s.windowAnswer h current q = .discard .late := by
  unfold State.windowAnswer
  rw [State.classify_inWindow inside]
  rcases closed with e | e | e <;> rw [e]

theorem State.windowAnswer_unopened (unopened : (s.ctx (slotOf h.slice)).state = .unopened) :
    s.windowAnswer h current q = if h.kind.starts then .accept else .discard .framing := by
  unfold State.windowAnswer
  rw [State.classify_inWindow inside, unopened]

theorem State.windowAnswer_opened (opened : (s.ctx (slotOf h.slice)).state = .opened) :
    s.windowAnswer h current q = openAnswer h current ((s.ctx (slotOf h.slice)).chain q).state := by
  unfold State.windowAnswer
  rw [State.classify_inWindow inside, opened]

end

section
variable {x : ChainState}

/-- What is accepted in an OPEN slot: the start of a chain that is NONE, and the continuation of one that is RECEIVING (R14,
R15). -/
theorem openAnswer_accept (hx : (h.kind = .first ∨ h.kind = .only) ∧ x = .none ∨
    (h.kind = .middle ∨ h.kind = .last) ∧ current = some h.slice ∧ x = .receiving) : openAnswer h current x = .accept := by
  unfold openAnswer
  rcases hx with ⟨kind, rfl⟩ | ⟨kind, fragment, rfl⟩
  · rw [if_pos (h.kind.starts_iff.mpr kind)]
  · rw [if_neg (by rw [h.kind.not_starts_iff.mpr kind]; decide), if_pos fragment]

/-- The start of a chain that is final is a duplicate (R14). -/
theorem openAnswer_duplicate (starts : h.kind.starts = true) (final : x.final = true) :
    openAnswer h current x = .discard .duplicate := by
  unfold openAnswer
  rw [if_pos starts]
  cases x <;> simp_all [ChainState.final]

/-- The start of a chain that is RECEIVING, and what continues no chain, break the framing (R14, R15). -/
theorem openAnswer_framing (hx : h.kind.starts = true ∧ x = .receiving ∨
    h.kind.starts = false ∧ (current ≠ some h.slice ∨ x ≠ .receiving ∧ x ≠ .cut)) :
    openAnswer h current x = .discard .framing := by
  unfold openAnswer
  rcases hx with ⟨starts, rfl⟩ | ⟨starts, other⟩
  · rw [if_pos starts]
  · rw [if_neg (by rw [starts]; decide)]
    split
    case isFalse => rfl
    case isTrue fragment =>
      obtain ⟨notReceiving, notCut⟩ := other.resolve_left (not_not_intro fragment)
      cases x <;> simp_all

/-- What continues a chain that was CUT is discarded without an incident (R15). -/
theorem openAnswer_cut (starts : h.kind.starts = false) (fragment : current = some h.slice) :
    openAnswer h current .cut = .discard .cut := by
  unfold openAnswer
  rw [if_neg (by rw [starts]; decide), if_pos fragment]

end

end

/-! ## The cut of the fragment in progress -/

section
variable (s : State) (r : ReceiverId) (q : SourceId) (h : SegmentHeader)

/-- A segment that starts no fragment, or finds none in progress, cuts none (R10). -/
theorem cutFragment_none (kind : SegmentKind) (h : (s.rx r).current = none ∨ kind.starts = false) :
    s.cutFragment r q kind = s := by
  unfold State.cutFragment
  split
  case h_1 => rfl
  case h_2 n current =>
    have continues := h.resolve_left (by rw [current]; exact Option.some_ne_none n)
    exact if_neg (by rw [continues]; decide)

/-- A segment that starts one cuts the fragment in progress: its RECEIVING chain of an OPEN slot becomes PARTIAL (R10). -/
theorem cutFragment_some {kind : SegmentKind} {n : Slice} (current : (s.rx r).current = some n)
    (starts : kind.starts = true) : s.cutFragment r q kind =
      (if (s.ctx (slotOf n)).slice = n ∧ (s.ctx (slotOf n)).state = .opened then s.breakChain (slotOf n) q
      else s).setCurrent r none := by
  unfold State.cutFragment
  rw [current]
  exact if_pos starts

/-- Once the fragment in progress is cut the segment is judged as if there had been none (R10). -/
theorem judge_cut {n : Slice} (current : (s.rx r).current = some n) (starts : h.kind.starts = true) :
    s.judge r q h = (s.cutFragment r q h.kind).judge r q h := by
  have cleared : ((s.cutFragment r q h.kind).rx r).current = none := by
    rw [cutFragment_some s r q current starts, State.setCurrent, State.setRx_rx_self]
  have again := cutFragment_none (s.cutFragment r q h.kind) r q h.kind (.inl cleared)
  unfold State.judge
  dsimp only
  rw [again]

variable (uncut : (s.rx r).current = none ∨ h.kind.starts = false)
include uncut

theorem judge_accept (a : s.answer h (s.rx r).current q = .accept) : s.judge r q h = s.accept r q h := by
  unfold State.judge
  rw [cutFragment_none s r q h.kind uncut]
  dsimp only
  rw [a]

theorem judge_stall (a : s.answer h (s.rx r).current q = .stallEarly) :
    s.judge r q h = s.setRx r { s.rx r with early := true } := by
  unfold State.judge
  rw [cutFragment_none s r q h.kind uncut]
  dsimp only
  rw [a]

theorem judge_discard {reason : DiscardReason} (a : s.answer h (s.rx r).current q = .discard reason) :
    s.judge r q h = (s.discardWhole r).discardEffects r q h reason := by
  unfold State.judge
  rw [cutFragment_none s r q h.kind uncut]
  dsimp only
  rw [a]

end

/-! ## Presenting a segment -/

section
variable {s : State} {r : ReceiverId} {g : BufferedSegment} {q : SourceId}

/-- A receiver that does not hold with EARLY has its head segment presented (R9). -/
theorem exec_placement (early : (s.rx r).early = false) :
    exec (.placement r) s = .next (s.present r).settleCache :=
  if_neg (by rw [early]; decide)

/-- A stalled segment is not presented by the step again (log 2). -/
theorem exec_placement_early (early : (s.rx r).early = true) : exec (.placement r) s = .next s := if_pos early

theorem Receiver.candidate_of {x : Receiver} (head : x.head = some g) (place : g.place = .waiting) : x.candidate = some g := by
  unfold Receiver.candidate
  rw [head]
  exact if_pos place

theorem Receiver.head_of {x : Receiver} {rest : List BufferedSegment} (buffer : x.buffer = g :: rest) : x.head = some g := by
  unfold Receiver.head
  rw [buffer]
  rfl

section
variable (link : (s.rx r).link = .up) (head : (s.rx r).head = some g) (place : g.place = .waiting)
include link head place

/-- The waiting head segment of a receiver in UP, mapped and enrolled, is judged (R9). -/
theorem present_judged (mapped : s.mapping r = some q) (enrolled : s.enrolled r = true) :
    s.present r = s.judge r q g.header := by
  unfold State.present
  rw [if_pos link, Receiver.candidate_of head place]
  dsimp only
  rw [mapped]
  exact if_pos enrolled

/-- That of a receiver not mapped or not enrolled is discarded (R55; log 16). -/
theorem present_unattached (h : s.mapping r = none ∨ s.enrolled r = false) : s.present r = s.discardWhole r := by
  unfold State.present
  rw [if_pos link, Receiver.candidate_of head place]
  dsimp only
  rcases h with h | h
  · rw [h]
  · split
    · exact if_neg (by rw [h]; decide)
    · rfl

end

/-- What is left of a receiver whose head segment is discarded whole (R46). -/
theorem discardWhole_eq {rest : List BufferedSegment} (buffer : (s.rx r).buffer = g :: rest)
    (early : (s.rx r).early = false) : s.discardWhole r = s.setRx r
      { s.rx r with
        buffer := rest
        framer := if g.verdict = none then (s.rx r).framer.disowned else (s.rx r).framer } := by
  unfold State.discardWhole Receiver.withoutHead
  rw [buffer]
  dsimp only
  rw [early]

end

/-- Settles O17. -/
theorem segmentsAreDiscardedOutsideARun : Obligations.SegmentsAreDiscardedOutsideARun := by
  intro r s g rest link early uncut buffer place outside
  have head := Receiver.head_of buffer
  rw [exec_placement early, ← discardWhole_eq buffer early]
  by_cases attached : s.mapping r = none ∨ s.enrolled r = false
  · rw [present_unattached link head place attached]
  · have gate : (s.run = .stopped ∨ s.run = .flushing) ∨ s.run = .draining ∧
        (64 ≤ distance s.frontier g.header.slice ∨ (s.ctx (slotOf g.header.slice)).state = .unopened) :=
      outside.imp_right fun h => h.resolve_right attached
    obtain ⟨unmapped, disenrolled⟩ := not_or.mp attached
    obtain ⟨q, mapped⟩ := Option.ne_none_iff_exists'.mp unmapped
    rw [present_judged link head place mapped (by simpa using disenrolled),
      judge_discard s r q _ (uncut.imp_right (SegmentKind.not_starts_iff _).mpr) (State.answer_runState gate)]
    rfl

/-- Settles O18. -/
theorem earlySegmentStalls : Obligations.EarlySegmentStalls := by
  intro r s g q
  refine ⟨fun link early uncut head place mapped enrolled run far near => ?_, fun early => exec_placement_early early⟩
  have stalls := (State.answer_window (h := g.header) (current := (s.rx r).current) (q := q) (.inl run)).trans
    (State.windowAnswer_early far near)
  rw [exec_placement early, present_judged link head place mapped enrolled,
    judge_stall s r q _ (uncut.imp_right (SegmentKind.not_starts_iff _).mpr) stalls]

/-! ## What is accepted -/

section
variable {s : State} {r : ReceiverId} {q : SourceId}

/-- A source whose receiver is mapped, enrolled and UP is expected (R7). -/
theorem expectedNow_ne_zero (mapped : s.mapping r = some q) (enrolled : s.enrolled r = true) (link : (s.rx r).link = .up) :
    s.expectedNow ≠ 0 := by
  intro empty
  have expected := (expectedSetIsTheSourcesUp s q).mpr ⟨r, mapped, enrolled, link⟩
  rw [empty] at expected
  simp [member] at expected

/-- With a source to expect, opening slices leaves the receivers (R7). -/
theorem openToward_rx (expects : s.expectedNow ≠ 0) (n : Slice) (k : ReceiverId) : (s.openToward n).rx k = s.rx k := by
  obtain ⟨none, some⟩ := openToward_cases s n
  by_cases opens : s.run = .running ∧ distance s.frontier n < 2 ^ 31
  · rw [some opens.1 opens.2]
    by_cases past : min (distance s.frontier n) 63 + 1 ≤ s.openCount
    · rw [Nat.sub_eq_zero_of_le past]
      rfl
    · rw [openNext_each expects s.openCount rfl _ (by omega)]
      rfl
  · rw [none]
    by_cases run : s.run = .running
    · exact .inr (Nat.le_of_not_lt fun near => opens ⟨run, near⟩)
    · exact .inl run

/-- The receiver as its head segment is accepted (R63). -/
theorem Receiver.accepting_eq {x : Receiver} {g : BufferedSegment} {rest : List BufferedSegment} (buffer : x.buffer = g :: rest)
    (early : x.early = false) (record : ProvisionalRecord) :
    x.accepting record = { x with buffer := { g with place := .accepted } :: rest, record := some record } := by
  unfold Receiver.accepting Receiver.acceptHead
  rw [Receiver.head_of buffer]
  dsimp only
  unfold Receiver.setHead
  rw [buffer]
  dsimp only
  rw [early]

/-- What accepting makes of the state (R14, R15, R63). -/
theorem accept_eq {u v : State} {g : BufferedSegment} {rest : List BufferedSegment} {x : ProvisionalRecord} {c : Chain}
    (hu : (if (s.ctx (slotOf g.header.slice)).state = .unopened then s.openThrough g.header.slice else s) = u)
    (rx : u.rx r = s.rx r) (buffer : (s.rx r).buffer = g :: rest) (early : (s.rx r).early = false)
    (hc : c = (u.ctx (slotOf g.header.slice)).chain q) (hx : c.recordFor (slotOf g.header.slice) q g.header = x)
    (hv : v = u.setRx r { s.rx r with buffer := { g with place := .accepted } :: rest, record := some x }) :
    s.accept r q g.header = (if g.header.kind = .first then
      v.setCtx (slotOf g.header.slice) ((u.ctx (slotOf g.header.slice)).setChain q { c with state := .receiving })
      else v).settleVerdict r := by
  unfold State.accept
  dsimp only
  rw [hu, ← hc, hx, rx, Receiver.accepting_eq buffer early, ← hv]
  unfold State.setChain
  rw [show v.ctx (slotOf g.header.slice) = u.ctx (slotOf g.header.slice) by rw [hv, State.setRx_ctx]]

end

/-- Settles O19. -/
theorem segmentsAreAccepted : Obligations.SegmentsAreAccepted := by
  refine ⟨fun r s u v g rest q i c x link early buffer place mapped enrolled inside hi accepted hc slot slice source kind
    length tailBefore fillBefore writePage writeFill firstPage pages written hv => ?accepts,
    fun r s g q link early head place mapped enrolled => ?judged, fun r s q h n d current kind hd => ?cuts⟩
  case accepts =>
    subst hi
    have record : c.recordFor (slotOf g.header.slice) q g.header = x := by
      cases x
      unfold Chain.recordFor
      simp_all only
    obtain ⟨answer, uncut, hu, rx⟩ : s.answer g.header (s.rx r).current q = .accept ∧
        ((s.rx r).current = none ∨ g.header.kind.starts = false) ∧
        (if (s.ctx (slotOf g.header.slice)).state = .unopened then s.openThrough g.header.slice else s) = u ∧
        u.rx r = s.rx r := by
      rcases accepted with ⟨unopened, run, starts, current, rfl⟩ | ⟨opened, run, rfl, fits⟩
      · refine ⟨?_, .inl current, ?_, openToward_rx (expectedNow_ne_zero mapped enrolled link) _ r⟩
        · rw [State.answer_window (.inl run), State.windowAnswer_unopened inside unopened,
            if_pos ((SegmentKind.starts_iff _).mpr starts)]
        · rw [if_pos unopened]
          unfold State.openToward
          rw [if_pos run, State.classify_inWindow inside]
      · refine ⟨?_, ?_, if_neg (by rw [opened]; decide), rfl⟩
        · rw [State.answer_window (run.imp_right fun run => ⟨run, inside, by rw [opened]; decide⟩),
            State.windowAnswer_opened inside opened]
          exact openAnswer_accept (fits.imp (fun ⟨kind, _, chain⟩ => ⟨kind, chain⟩) id)
        · exact fits.imp (fun ⟨_, current, _⟩ => current) fun ⟨kind, _⟩ => (SegmentKind.not_starts_iff _).mpr kind
    rw [exec_placement early, present_judged link (Receiver.head_of buffer) place mapped enrolled,
      judge_accept s r q _ uncut answer, accept_eq hu rx buffer early hc record hv]
  case judged =>
    rw [exec_placement early, present_judged link head place mapped enrolled]
  case cuts =>
    have starts := h.kind.starts_iff.mpr kind
    subst hd
    rw [judge_cut s r q h current starts, cutFragment_some s r q current starts]
    refine ⟨fun receiving opened slice => ?_, fun other => ?_⟩
    · rw [if_pos ⟨slice, opened⟩]
      unfold State.breakChain
      rw [if_pos receiving]
      rfl
    · split
      case isFalse => rfl
      case isTrue known =>
        have broken : ((s.ctx (slotOf n)).chain q).state ≠ .receiving :=
          other.resolve_right fun h => h.elim (absurd known.2) (absurd known.1)
        unfold State.breakChain
        rw [if_neg broken]

/-! ## What is discarded -/

/-- A FRAMING discard of a segment for an OPEN slot breaks the chain it meets (R14, R15). -/
theorem breakPlaced_opened {s : State} {n : Slice} {q : SourceId} (opened : (s.ctx (slotOf n)).state = .opened) :
    s.breakPlaced n q = if ((s.ctx (slotOf n)).chain q).state = .receiving then
      (s.setCtx (slotOf n) ((s.ctx (slotOf n)).setChain q
        { (s.ctx (slotOf n)).chain q with state := .partial_ })).closureCheck (slotOf n)
    else s := if_pos opened

/-- Settles O20: each clause names the decision, and then its effects. -/
theorem misplacedSegmentsAreDiscarded : Obligations.MisplacedSegmentsAreDiscarded := by
  rintro r s u framing g rest q i n starts link early hstarts startsUncut buffer place mapped enrolled rfl rfl run hu hframing
  rw [← SegmentKind.starts_iff] at hstarts
  have continues : ¬starts → g.header.kind.starts = false := fun h => by
    rw [Bool.eq_false_iff, Ne, ← hstarts]
    exact h
  have uncut : (s.rx r).current = none ∨ g.header.kind.starts = false := by
    by_cases h : starts
    · exact .inl (startsUncut h)
    · exact .inr (continues h)
  have discards {reason : DiscardReason} (a : s.windowAnswer g.header (s.rx r).current q = .discard reason) :
      exec (.placement r) s = .next (u.discardEffects r q g.header reason).settleCache := by
    have answer := (State.answer_window (current := (s.rx r).current) (q := q) run).trans a
    rw [exec_placement early, present_judged link (Receiver.head_of buffer) place mapped enrolled,
      judge_discard s r q _ uncut answer, discardWhole_eq buffer early, ← hu]
  have ctx (j : SlotId) : u.ctx j = s.ctx j := by rw [hu, State.setRx_ctx]
  have frontier : u.frontier = s.frontier := by rw [hu]; rfl
  have framed (j : SlotId) : framing.ctx j = s.ctx j := by rw [hframing, post_ctx, ctx]
  have code : fieldAt 0 g.header.kind.code = BitVec.ofNat 64 g.header.kind.code := by simp [fieldAt]
  have posts : u.post .framing (.link r) (some g.header.slice) (framingDetail causePlacement (some g.header.kind)) = framing :=
    hframing.symm
  have late (h : (s.ctx (slotOf g.header.slice)).state ≠ .ready ∨ 2 ^ 31 ≤ distance s.frontier g.header.slice) :
      u.discardEffects r q g.header .late =
        u.post .late (.link r) (some g.header.slice) (BitVec.ofNat 64 g.header.kind.code) := by
    unfold State.discardEffects State.markLateSeen
    dsimp only
    rw [code, if_neg]
    rintro ⟨inWindow, ready⟩
    rw [ctx] at ready
    rcases h with other | behind
    · exact other ready
    · rw [State.classify_late (frontier ▸ behind)] at inWindow
      cases inWindow
  refine ⟨fun behind => ?late, fun inside => ⟨fun ready => ?ready, fun closed => ?closed, fun unopened h => ?unopened,
    fun opened => ⟨fun h final => ?duplicate, fun h => ?framing, fun h current cut => ?cut⟩⟩⟩
  case late => rw [discards (State.windowAnswer_late behind), late (.inr behind)]
  case ready =>
    have inWindow : u.classify g.header.slice = .inWindow := State.classify_inWindow (frontier ▸ inside)
    rw [discards (State.windowAnswer_closed inside (.inl ready))]
    unfold State.discardEffects State.markLateSeen
    dsimp only
    rw [ctx, if_pos ⟨inWindow, ready⟩, code]
  case closed =>
    rw [discards (State.windowAnswer_closed inside (.inr closed)), late (.inl ?_)]
    rcases closed with e | e <;> rw [e] <;> decide
  case unopened =>
    rw [discards ((State.windowAnswer_unopened inside unopened).trans (if_neg (by rw [continues h]; decide)))]
    unfold State.discardEffects State.breakPlaced
    dsimp only
    rw [posts, framed, if_neg (by rw [unopened]; decide)]
  case duplicate =>
    rw [discards ((State.windowAnswer_opened inside opened).trans (openAnswer_duplicate (hstarts.mp h) final))]
    unfold State.discardEffects State.markDuplicateSeen
    dsimp only
    rw [ctx, code]
  case framing =>
    have misplaced := h.imp (fun ⟨a, b⟩ => And.intro (hstarts.mp a) b) (fun ⟨a, b⟩ => And.intro (continues a) b)
    rw [discards ((State.windowAnswer_opened inside opened).trans (openAnswer_framing misplaced))]
    unfold State.discardEffects
    dsimp only
    rw [posts, breakPlaced_opened (by rw [framed]; exact opened), framed]
  case cut =>
    rw [discards ((State.windowAnswer_opened inside opened).trans (cut ▸ openAnswer_cut (continues h) current))]
    rfl

end Sys2Proof.Machine
end

section
/-! PROOF. The delivery of a verdict: the record committed, rolled back, or found missing (R16 to R18, R47, R68, R69). -/

namespace Sys2Proof.Machine

/-- Every stored word has left just when the segment is decided and has no payload left (R47). -/
theorem BufferedSegment.emptied_iff (g : BufferedSegment) : g.emptied = true ↔ g.place ≠ .waiting ∧ g.payload = [] := by
  unfold BufferedSegment.emptied
  cases g.place <;> simp

/-- A LAST or ONLY without a record clears the current fragment if the page limit removed the record (R18). -/
theorem Receiver.verdictUnrecorded_eq (x : Receiver) (g : BufferedSegment) : x.verdictUnrecorded g = { x with
    current := if g.place = .remainder true ∧ (g.header.kind = .last ∨ g.header.kind = .only) then none else x.current } := by
  unfold Receiver.verdictUnrecorded
  split
  case h_1 place kind => rw [if_pos ⟨place, .inl kind⟩]
  case h_2 place kind => rw [if_pos ⟨place, .inr kind⟩]
  case h_3 notLast notOnly =>
    rw [if_neg]
    rintro ⟨place, kind | kind⟩
    · exact notLast place kind
    · exact notOnly place kind

/-- The chain state after a GOOD verdict (R16). -/
theorem SegmentHeader.chainAfter_eq (h : SegmentHeader) : h.chainAfter =
    if h.kind = .first ∨ h.kind = .middle then .receiving else if h.truncated = true then .feTruncated
    else if h.kind = .only ∧ h.empty = true then .empty else .whole := by
  unfold SegmentHeader.chainAfter
  cases h.kind <;> simp

/-- It is final after a LAST or ONLY (R5, R16). -/
theorem SegmentHeader.chainAfter_final (h : SegmentHeader) :
    h.chainAfter.final = true ↔ h.kind = .last ∨ h.kind = .only := by
  unfold SegmentHeader.chainAfter
  cases h.kind <;> cases h.truncated <;> cases h.empty <;> simp [ChainState.final]

/-- The current fragment after a GOOD verdict (R16). -/
theorem SegmentHeader.fragmentAfter_eq (h : SegmentHeader) :
    h.fragmentAfter = if h.kind = .first ∨ h.kind = .middle then some h.slice else none := by
  unfold SegmentHeader.fragmentAfter
  cases h.kind <;> simp

section
variable {s u : State} {r : ReceiverId} {g : BufferedSegment} {rest : List BufferedSegment} {v : Verdict}
variable (buffer : (s.rx r).buffer = g :: rest)
include buffer

/-- A verdict is held until it is taken and the segment's words have left the buffer (R47). -/
theorem settleVerdict_held (h : g.verdict = none ∨ g.place = .waiting ∨ g.payload ≠ []) : s.settleVerdict r = s := by
  unfold State.settleVerdict
  rw [Receiver.head_of buffer]
  dsimp only
  cases verdict : g.verdict with
  | none => rfl
  | some v =>
    have stays := h.resolve_left (by rw [verdict]; exact Option.some_ne_none v)
    refine if_neg ?_
    rw [g.emptied_iff]
    rintro ⟨decided, written⟩
    exact stays.elim decided fun left => left written

/-- Then it is delivered (R47). -/
theorem settleVerdict_delivers (verdict : g.verdict = some v) (decided : g.place ≠ .waiting) (written : g.payload = []) :
    s.settleVerdict r = s.deliver r g v := by
  unfold State.settleVerdict
  rw [Receiver.head_of buffer]
  dsimp only
  rw [verdict]
  exact if_pos (g.emptied_iff.mpr ⟨decided, written⟩)

variable (hu : u = s.setRx r { s.rx r with buffer := rest })
include hu

/-- The segment leaves the buffer as its verdict is delivered (R47). -/
theorem popHead_eq : s.setRx r (s.rx r).popHead = u := by
  rw [hu]
  unfold Receiver.popHead
  rw [buffer]
  rfl

/-- A verdict that finds no record changes no chain (R18). -/
theorem deliver_unrecorded (record : (s.rx r).record = none) : s.deliver r g v = u.setRx r { u.rx r with
    current := if g.place = .remainder true ∧ (g.header.kind = .last ∨ g.header.kind = .only) then none
      else (s.rx r).current } := by
  have rx : u.rx r = { s.rx r with buffer := rest } := by rw [hu, State.setRx_rx_self]
  unfold State.deliver
  rw [popHead_eq buffer hu]
  dsimp only
  rw [rx]
  dsimp only
  rw [record]
  dsimp only
  rw [Receiver.verdictUnrecorded_eq]

/-- A GOOD verdict commits the record it finds (R16). -/
theorem deliver_good {x : ProvisionalRecord} (record : (s.rx r).record = some x) :
    s.deliver r g .good = u.commitRecord r x g.header := by
  have found : (u.rx r).record = some x := by rw [hu, State.setRx_rx_self]; exact record
  unfold State.deliver
  rw [popHead_eq buffer hu]
  dsimp only
  rw [found]
  rfl

/-- Any other rolls it back (R17). -/
theorem deliver_bad {x : ProvisionalRecord} (record : (s.rx r).record = some x) (bad : v ≠ .good) :
    s.deliver r g v = u.rejectRecord r x v := by
  have found : (u.rx r).record = some x := by rw [hu, State.setRx_rx_self]; exact record
  unfold State.deliver
  rw [popHead_eq buffer hu]
  dsimp only
  rw [found]
  exact if_neg bad

end

section
variable (u : State) (r : ReceiverId) (x : ProvisionalRecord) (h : SegmentHeader)

/-- What a commit makes of the context (R16, R68). -/
theorem Context.commit_eq (c : Context) : c.commit x h =
    { c.setChain x.source
        { state := h.chainAfter
          head := if (c.chain x.source).head = 0 ∧ x.firstPage ≠ 0 then x.firstPage else (c.chain x.source).head
          tail := if x.writePage = 0 then (c.chain x.source).tail else x.writePage
          words := (c.chain x.source).words + x.written
          fill := if x.writePage = 0 then (c.chain x.source).fill else x.writeFill } with
      totalWords := c.totalWords + x.written } := by
  unfold Context.commit Chain.committed
  rw [ite_not, ite_not]

/-- What a commit makes of the state; a final chain has its slice checked for closure (R16, R68). -/
theorem commitRecord_eq : u.commitRecord r x h =
    if h.kind = .last ∨ h.kind = .only then
      ((u.setRx r { u.rx r with record := none, current := h.fragmentAfter }).setCtx x.slot
        ((u.ctx x.slot).commit x h)).closureCheck x.slot
    else (u.setRx r { u.rx r with record := none, current := h.fragmentAfter }).setCtx x.slot
      ((u.ctx x.slot).commit x h) := by
  simp only [← SegmentHeader.chainAfter_final]
  rfl

end

/-- Settles O21. -/
theorem verdictsCommitOrRollBackTheRecord : Obligations.VerdictsCommitOrRollBackTheRecord := by
  refine ⟨fun r s o g h link framer stored newest header due => ⟨fun agrees => ?good,
    fun l u differs few hl quiet hu => ?bad⟩, fun r s g rest buffer => ⟨fun held => settleVerdict_held buffer held,
      fun v u verdict decided written hu => ⟨fun record => ?unrecorded, fun x record =>
        ⟨fun c d after t => ?commits, fun t y z => ?rejects⟩⟩⟩, fun s t r x pages record holds tail quiet canonical ht => ?rollback⟩
  case good => exact exec_endSymbol_good s r link framer header due stored newest agrees
  case bad => exact exec_endSymbol_stored s r link framer header due differs few hl quiet stored newest hu
  case unrecorded =>
    rw [settleVerdict_delivers buffer verdict decided written, deliver_unrecorded buffer hu record]
  case commits =>
    rintro rfl rfl rfl hafter ht
    have ctx : u.ctx x.slot = s.ctx x.slot := by rw [hu, State.setRx_ctx]
    rw [settleVerdict_delivers buffer verdict decided written, deliver_good buffer hu record, commitRecord_eq, ctx,
      Context.commit_eq, SegmentHeader.chainAfter_eq, ← hafter, SegmentHeader.fragmentAfter_eq, ← ht]
  case rejects =>
    rintro bad rfl rfl rfl
    rw [settleVerdict_delivers buffer verdict decided written, deliver_bad buffer hu record bad]
    rfl
  case rollback =>
    subst ht
    obtain ⟨free, occupancy, retired, store, -, attributes, links, receivers, contexts, incidents⟩ :=
      rollback_spec record holds tail quiet canonical
    exact ⟨free, occupancy, retired, attributes, links, fun a => by rw [store], receivers, contexts, incidents⟩

end Sys2Proof.Machine
end

section
/-! PROOF. Closure checks and the directory (R6, R20), and what the slot timer drives (R22, R23, R81, R93, R182). -/

namespace Sys2Proof.Machine

/-! ## The directory -/

section
variable (c : Context) (q : SourceId)

/-- The status of a source (R6). -/
theorem Context.status_eq : c.status q = match (c.chain q).state with
    | .none => if member c.expected q = true ∨ member c.dropped q = true then .missing else .notExpected
    | .whole => if member c.expected q = true then .whole else .unexpected
    | .empty => .empty
    | .feTruncated => .feTruncated
    | .cut => .cut
    | .partial_ => .partial_
    | .receiving => .partial_ := by
  unfold Context.status
  simp only [Bool.or_eq_true] <;> rfl

/-- The words of the sources below a number, as a sum over all sources (R6). -/
theorem Context.offset_eq_sum (n : Nat) : c.offset n = ∑ x : SourceId, if x.val < n then (c.chain x).words else 0 := by
  have filtered (l : List SourceId) : ((l.filter fun x => decide (x.val < n)).map fun x => (c.chain x).words).sum =
      (l.map fun x => if x.val < n then (c.chain x).words else 0).sum := by
    induction l with
    | nil => rfl
    | cons a l ih => by_cases h : a.val < n <;> simp [h, ih]
  unfold Context.offset allSources
  rw [filtered, ← List.ofFn_eq_map, List.sum_ofFn]

theorem Context.offset_zero : c.offset 0 = 0 := by simp [Context.offset_eq_sum]

/-- The offset past a source is its own offset and its words (R6). -/
theorem Context.offset_succ : c.offset (q.val + 1) = c.offset q.val + (c.chain q).words := by
  have split (x : SourceId) : (if x.val < q.val + 1 then (c.chain x).words else 0) =
      (if x.val < q.val then (c.chain x).words else 0) + if x = q then (c.chain x).words else 0 := by
    rcases Nat.lt_trichotomy x.val q.val with below | same | above
    · simp [Nat.lt_succ_of_lt below, below, Fin.ne_of_lt below]
    · simp [Fin.ext same]
    · have other : x ≠ q := Fin.ne_of_gt above
      simp [Nat.not_lt.mpr above, Nat.not_lt.mpr above.le, other]
  rw [Context.offset_eq_sum, Context.offset_eq_sum]
  simp only [split, Finset.sum_add_distrib, Finset.sum_ite_eq', Finset.mem_univ, if_true]

/-- The entry of a source in the directory (R6). -/
theorem Context.withDirectory_entry {d : Vector DirectoryEntry 24} (h : d = Vector.ofFn c.directoryEntry) :
    d[q] = { status := c.status q, length := (c.chain q).words, offset := c.offset q.val } := by
  rw [h, Fin.getElem_fin, Vector.getElem_ofFn]
  rfl

/-- The directory and the total words of a closing context (R6). -/
theorem Context.withDirectory_spec : ∃ d, c.withDirectory.directory = some d ∧ d[q].status = c.status q ∧
    d[q].length = (c.chain q).words ∧ (q = 0 → d[q].offset = 0) ∧
    (∀ p : SourceId, p.val + 1 = q.val → d[q].offset = d[p].offset + d[p].length) ∧
    (q.val = 23 → c.withDirectory.totalWords = d[q].offset + d[q].length) := by
  refine ⟨Vector.ofFn c.directoryEntry, rfl, ?_⟩
  simp only [c.withDirectory_entry _ rfl, true_and]
  refine ⟨?_, fun p next => ?_, fun last => ?_⟩
  · rintro rfl
    exact c.offset_zero
  · rw [← next]
    exact c.offset_succ p
  · rw [← c.offset_succ q, last]
    rfl

end

/-! ## Closure checks -/

section
variable (c : Context)

/-- A chain state is final unless it is NONE or RECEIVING (R5). -/
theorem ChainState.final_iff (x : ChainState) : x.final = true ↔ x ≠ .none ∧ x ≠ .receiving := by
  cases x <;> simp [ChainState.final]

/-- The whole-like chain states (R5). -/
theorem ChainState.wholeLike_iff (x : ChainState) :
    x.wholeLike = true ↔ x = .whole ∨ x = .empty ∨ x = .feTruncated := by
  cases x <;> simp [ChainState.wholeLike]

/-- All sources that are expected have a property (R20). -/
theorem Context.expected_all (P : SourceId → Bool) :
    (allSources.all fun q => !member c.expected q || P q) = true ↔ ∀ q, member c.expected q = true → P q = true := by
  rw [List.all_eq_true]
  refine forall_congr' fun q => ?_
  cases member c.expected q <;> simp [allSources]

/-- Every source that is expected has a final chain (R20). -/
theorem Context.allFinal_iff : c.allFinal = true ↔
    ∀ q, member c.expected q = true → (c.chain q).state ≠ .none ∧ (c.chain q).state ≠ .receiving := by
  simp only [← ChainState.final_iff]
  exact c.expected_all _

/-- The reason of a closure by check (R20). -/
theorem Context.checkReason_eq : c.checkReason =
    if (∀ q, member c.expected q = true → (c.chain q).state = .whole ∨ (c.chain q).state = .empty ∨
      (c.chain q).state = .feTruncated) ∧ c.dropped = 0 then .complete else .deficient := by
  simp only [← ChainState.wholeLike_iff, ← c.expected_all]
  unfold Context.checkReason
  simp only [Bool.and_eq_true, beq_iff_eq]

end

/-- Settles O22. -/
theorem closureChecksAndTheDirectory : Obligations.ClosureChecksAndTheDirectory := by
  refine ⟨fun c q => ⟨c.status_eq q, c.withDirectory_spec q, rfl⟩, ?_⟩
  rintro s i c rfl
  refine ⟨fun opened final => ?closes, fun other => ?stays⟩
  case closes =>
    unfold State.closureCheck
    rw [if_pos ⟨opened, (s.ctx i).allFinal_iff.mpr final⟩, ← Context.checkReason_eq]
    exact closeContext_spec s i _
  case stays =>
    refine if_neg ?_
    rw [Context.allFinal_iff]
    rintro ⟨opened, final⟩
    rcases other with closed | ⟨q, expected, waits⟩
    · exact closed opened
    · exact waits.elim (final q expected).1 (final q expected).2

/-! ## Deadlines -/

section
variable (s : State)

theorem State.expiredSlot_iff (i : SlotId) :
    s.expiredSlot i = true ↔ (s.ctx i).state = .opened ∧ (s.ctx i).deadline = 0 := by
  simp [State.expiredSlot]

/-- The slot whose deadline has run out and that stands first from the frontier expires (R23). -/
theorem expireFirst_due {d : Nat} (hd : d < 64) (expired : s.expiredSlot (slotOf (s.frontier + BitVec.ofNat 32 d)) = true)
    (first : ∀ e, e < d → s.expiredSlot (slotOf (s.frontier + BitVec.ofNat 32 e)) = false) :
    s.expireFirst = s.closeContext (slotOf (s.frontier + BitVec.ofNat 32 d)) .expired := by
  have found : s.slotsInOrder.find? s.expiredSlot = some (slotOf (s.frontier + BitVec.ofNat 32 d)) := by
    have here : (List.range 64).find? (s.expiredSlot ∘ fun e => slotOf (s.frontier + BitVec.ofNat 32 e)) = some d :=
      List.find?_range_eq_some.mpr ⟨expired, List.mem_range.mpr hd, fun e he => by simp [first e he]⟩
    unfold State.slotsInOrder
    rw [List.find?_map, here]
    rfl
  unfold State.expireFirst
  rw [found]
  exact if_pos expired

/-- With none such nothing expires (log 2). -/
theorem expireFirst_none (h : ∀ i, s.expiredSlot i = false) : s.expireFirst = s := by
  have found : s.slotsInOrder.find? s.expiredSlot = none := List.find?_eq_none.mpr fun i _ => by simp [h i]
  unfold State.expireFirst
  rw [found]

/-- The cache's own work has no part in a closure (log 19). -/
theorem ClosedAs.settleCache {s t : State} {i : SlotId} {reason : ClosureReason} (h : ClosedAs s t i reason) :
    ClosedAs s t.settleCache i reason := by
  unfold ClosedAs at h ⊢
  simpa only [settleCache_ctx, settleCache_rx, settleCache_ready] using h

end

/-- Settles O23. -/
theorem deadlineExpiryClosesTheSlice : Obligations.DeadlineExpiryClosesTheSlice := by
  refine fun s i => ⟨fun d hd hi opened out first => ?due, fun none => ?none⟩
  case due =>
    subst hi
    refine ⟨_, congrArg (fun t : State => Host.Outcome.next t.settleCache) (expireFirst_due s hd ?_ fun e he => ?_),
      (closeContext_spec s _ _).settleCache⟩
    · exact (s.expiredSlot_iff _).mpr ⟨opened, out⟩
    · rw [Bool.eq_false_iff, Ne, s.expiredSlot_iff]
      exact fun ⟨opened, out⟩ => first e he opened out
  case none =>
    refine congrArg (fun t : State => Host.Outcome.next t.settleCache) (expireFirst_none s fun j => ?_)
    rw [Bool.eq_false_iff, Ne, s.expiredSlot_iff]
    exact fun ⟨opened, out⟩ => none j opened out

/-! ## The advance of the slot counter -/

section
variable (s : State)

/-- What is due in the slot that ends leaves the counter and the items. -/
theorem takeDue_time : s.takeDue.settleCache.counter = s.counter ∧ s.takeDue.settleCache.items = s.items := by
  have leads := leads_takeDue (lv := 1) (ws := false) s
  rw [settleCache_counter, settleCache_items]
  exact ⟨(leads.unreached.time (by decide)).1, (leads.unreached.items (by decide)).1⟩

/-- The hold share of the pressure level (R80, R81). -/
theorem State.holdShare_eq (k : Fin 4) : s.holdShare k = if k = 1 then ((s.contents .pressure)[4]).toNat
    else if k = 2 then ((s.contents .pressure)[5]).toNat else if k = 3 then ((s.contents .pressure)[6]).toNat else 0 := by
  fin_cases k <;> rfl

/-- The advance of the slot counter: the hold decision, and a deadline less for every OPEN context unless the slot is held
(R22, R81, R182, R183). -/
theorem tick_eq {held : Bool}
    (hheld : held = true ↔ (s.counter + 1).toNat % 16 < s.holdShare s.pressure.level) : s.tick = { s with
      counter := s.counter + 1
      slotLength := ((s.contents .slot)[0]).toNat
      pressure := { s.pressure with held := held, heldFor := s.counter + 1 }
      contexts := Vector.ofFn fun i =>
        if (s.ctx i).state = .opened ∧ held = false then { s.ctx i with deadline := (s.ctx i).deadline - 1 }
        else s.ctx i } := by
  have decided : (decide ((s.counter + 1).toNat % 16 < s.holdShare s.pressure.level)) = held := by
    rw [Bool.eq_iff_iff, decide_eq_true_iff, hheld]
  have ticked : (s.setTime (s.counter + 1) (s.items.slot.value 0)).decideHold =
      { s with
        counter := s.counter + 1
        slotLength := ((s.contents .slot)[0]).toNat
        pressure := { s.pressure with held := held, heldFor := s.counter + 1 } } := by
    rw [← decided]
    rfl
  unfold State.tick
  rw [ticked]
  dsimp only
  cases held with
  | true =>
    have same : (Vector.ofFn fun i => s.ctx i) = s.contexts := Vector.ofFn_getElem
    simp only [Bool.true_eq_false, and_false, if_false, if_true, same]
  | false =>
    simp only [and_true, Bool.false_eq_true, if_false]
    rfl

/-- An expired context closes, and no other (R23). -/
theorem State.expireSlot_eq (i : SlotId) : s.expireSlot i =
    if (s.ctx i).state = .opened ∧ (s.ctx i).deadline = 0 then s.closeContext i .expired else s := by
  unfold State.expireSlot
  simp only [s.expiredSlot_iff]

/-- With nothing due nothing is done (log 3). -/
theorem takeDue_id (deadlines : ∀ i, s.expiredSlot i = false)
    (timers : ∀ r, (s.rx r).link = .probation ∨ (s.rx r).link = .barred → s.timerDue (s.rx r).timer = false)
    (waits : s.ready.any s.waitDue = false) (quiet : ∀ p, s.quietDue p = false) : s.takeDue = s := by
  have expired : s.each s.slotsInOrder (fun i t => t.expireSlot i) = s :=
    s.each_id _ _ fun i _ => if_neg (by simp [deadlines i])
  have timed : s.each allReceivers (fun r t => (t.expireProbation r).expireBar r) = s := by
    refine s.each_id _ _ fun r _ => ?_
    have probation : s.expireProbation r = s :=
      if_neg fun ⟨link, due⟩ => Bool.eq_false_iff.mp (timers r (.inl link)) due
    rw [probation]
    exact if_neg fun ⟨link, due⟩ => Bool.eq_false_iff.mp (timers r (.inr link)) due
  have elapsed : s.elapseWaits = s := if_neg (by simp [waits])
  have quieted : s.each allPorts (fun p t => t.endQuietPeriod p) = s :=
    s.each_id _ _ fun p _ => if_neg (by simp [quiet p])
  unfold State.takeDue
  rw [expired]
  dsimp only
  rw [timed, elapsed, quieted]

end

/-- Settles O24. -/
theorem slotAdvanceCounts : Obligations.SlotAdvanceCounts := by
  refine ⟨?advance, fun s deadlines timers waits quiet => ?nothing, ?order, fun s => ⟨fun i reason => closeContext_spec s i reason,
    fun r => ⟨rfl, rfl⟩, rfl, fun p => rfl⟩⟩
  case advance =>
    intro s u share held hu hshare hheld
    obtain ⟨counter, items⟩ := takeDue_time s
    have same (n : ItemName) (hn : n = .pressure ∨ n = .slot) : s.contents n = s.takeDue.settleCache.contents n := by
      rcases hn with rfl | rfl <;> unfold State.contents <;> rw [items]
    rw [hu, same .pressure (.inl rfl), ← State.holdShare_eq] at hshare
    rw [hu, same .slot (.inr rfl), ← counter]
    rw [← counter, hshare] at hheld
    exact congrArg Host.Outcome.next (tick_eq _ hheld)
  case nothing =>
    refine takeDue_id s (fun i => ?_) (fun r link => ?_) ?_ fun p => ?_
    · rw [Bool.eq_false_iff, Ne, s.expiredSlot_iff]
      exact fun ⟨opened, out⟩ => deadlines i opened out
    · rw [Bool.eq_false_iff, Ne, s.timerDue_iff]
      rintro ⟨e, timer, reached⟩
      rw [timers r e link timer] at reached
      cases reached
    · rw [List.any_eq_false]
      intro e he
      have := waits e he
      unfold State.waitDue
      rw [Bool.and_eq_true, Bool.not_eq_true', decide_eq_true_iff]
      rintro ⟨pending, out⟩
      rcases this with elapsed | running
      · rw [elapsed] at pending; cases pending
      · omega
    · rw [Bool.eq_false_iff, Ne, s.quietDue_iff]
      rintro ⟨attached, e, until_, reached⟩
      have state : (s.port p).state = .active ∨ (s.port p).state = .draining := by
        cases h : (s.port p).state <;> simp_all [PortState.attached]
      rw [quiet p e state until_] at reached
      cases reached
  case order =>
    intro s a b c ha hb hc
    simp only [← State.expireSlot_eq] at ha
    have ports (t : State) : t.each allPorts (fun p t => t.endQuietPeriod p) =
        (((t.endQuietPeriod 0).endQuietPeriod 1).endQuietPeriod 2).endQuietPeriod 3 := rfl
    unfold State.takeDue
    dsimp only
    rw [ports, hc, hb, ha]
    unfold State.each State.slotsInOrder allReceivers
    rfl

end Sys2Proof.Machine
end

section
/-! PROOF. The store write port: who is granted it, the burst it moves, the page it takes, and the cut at the page limit
(R19, R64 to R67). -/

namespace Sys2Proof.Machine

/-! ## Who is granted the port -/

/-- A receiver wants the port when its record waits for words of its accepted head segment and no page is lacking (R64). -/
theorem Receiver.wantsPort_iff (x : Receiver) : x.wantsPort = true ↔ x.record.isSome = true ∧ x.noPages = false ∧
    ∃ g rest, x.buffer = g :: rest ∧ g.place = .accepted ∧ g.payload ≠ [] := by
  have words : x.unwritten.isEmpty = false ↔ ∃ g rest, x.buffer = g :: rest ∧ g.place = .accepted ∧ g.payload ≠ [] := by
    unfold Receiver.unwritten Receiver.head
    cases x.buffer with
    | nil => simp
    | cons g rest => by_cases accepted : g.place = .accepted <;> simp [accepted]
  unfold Receiver.wantsPort
  simp only [Bool.and_eq_true, Bool.not_eq_true', words]
  exact ⟨fun ⟨⟨record, words⟩, pages⟩ => ⟨record, pages, words⟩, fun ⟨record, pages, words⟩ => ⟨⟨record, words⟩, pages⟩⟩

section
variable (s : State) (r : ReceiverId)

/-- The number of places from one receiver to another in round-robin order, and the receiver at it. -/
theorem receiver_at (b k : ReceiverId) : b + Fin.ofNat 24 (k - b).val = k := by
  rw [show Fin.ofNat 24 (k - b).val = k - b from Fin.ofNat_val_eq_self _]
  exact add_sub_cancel b k

theorem receiver_place (b : ReceiverId) {j : Nat} (h : j < 24) : (b + Fin.ofNat 24 j - b).val = j := by
  rw [add_sub_cancel_left]
  exact Nat.mod_eq_of_lt h

/-- The port is granted to the first receiver after the one served last that wants it (R64). -/
theorem State.nextGrant_iff : s.nextGrant = some r ↔ (s.rx r).wantsPort = true ∧
    ∀ k, (k - (s.lastServed + 1)).val < (r - (s.lastServed + 1)).val → (s.rx k).wantsPort = false := by
  have order : s.nextGrant = ((List.range 24).find? fun d => (s.rx (s.lastServed + 1 + Fin.ofNat 24 d)).wantsPort).map
      fun d => s.lastServed + 1 + Fin.ofNat 24 d := List.find?_map
  rw [order, Option.map_eq_some_iff]
  constructor
  · rintro ⟨d, found, rfl⟩
    obtain ⟨wants, inRange, first⟩ := List.find?_range_eq_some.mp found
    refine ⟨wants, fun k before => ?_⟩
    rw [receiver_place _ (List.mem_range.mp inRange)] at before
    have := first _ before
    rwa [receiver_at, Bool.not_eq_true'] at this
  · rintro ⟨wants, first⟩
    refine ⟨(r - (s.lastServed + 1)).val, List.find?_range_eq_some.mpr ⟨?_, ?_, fun j before => ?_⟩, receiver_at _ r⟩
    · rwa [receiver_at]
    · exact List.mem_range.mpr (r - (s.lastServed + 1)).isLt
    · rw [Bool.not_eq_true']
      refine first _ ?_
      rwa [receiver_place _ (before.trans (r - (s.lastServed + 1)).isLt)]

/-- With no receiver wanting the port none is granted it. -/
theorem State.nextGrant_none (h : ∀ k, (s.rx k).wantsPort = false) : s.nextGrant = none :=
  List.find?_eq_none.mpr fun k _ => by simp [h k]

theorem grantPort_none (fuel : Nat) (h : s.nextGrant = none) : s.grantPort fuel = s := by
  cases fuel with
  | zero => rfl
  | succ fuel =>
    unfold State.grantPort
    rw [h]

theorem exec_storeBurst : exec .storeBurst s = .next (s.grantPort maxGrants).settleCache := rfl

theorem maxGrants_eq : maxGrants = 599 + 1 := rfl

/-- With no receiver wanting the port nothing moves (log 2). -/
theorem exec_storeBurst_none (h : ∀ k, (s.rx k).wantsPort = false) : exec .storeBurst s = .next s.settleCache := by
  rw [exec_storeBurst, grantPort_none s _ (s.nextGrant_none h)]

end

/-- The next word needs a new page where no write page stands or it is full (R65). -/
theorem ProvisionalRecord.needsPage_iff (x : ProvisionalRecord) :
    x.needsPage = true ↔ x.writePage = 0 ∨ x.writeFill = 64 := by
  simp [ProvisionalRecord.needsPage, Config.pageWords]

/-! ## A burst into the write page -/

/-- The state after the words of a burst, before the verdict that may follow: the words stand in the page, and nothing else
of the pool changes (R65). -/
theorem exec_storeBurst_moves {s : State} {r : ReceiverId} {x : ProvisionalRecord} {g : BufferedSegment}
    {rest : List BufferedSegment} {moved : List Word} (granted : s.nextGrant = some r) (record : (s.rx r).record = some x)
    (page : x.writePage ≠ 0) (fill : x.writeFill < 64) (buffer : (s.rx r).buffer = g :: rest)
    (hm : moved = g.payload.take (64 - x.writeFill)) : exec .storeBurst s =
      .next ((((s.setLastServed r).setPool (s.pool.writeWords (64 * x.writePage + x.writeFill) moved)).setRx r { s.rx r with
        buffer := { g with payload := g.payload.drop moved.length } :: rest
        record := some { x with
          writeFill := x.writeFill + moved.length, written := x.written + moved.length } }).settleVerdict r).settleCache := by
  have room : x.needsPage = false := by
    rw [Bool.eq_false_iff, Ne, x.needsPage_iff]
    rintro (none | full)
    · exact page none
    · exact absurd full (Nat.ne_of_lt fill)
  rw [exec_storeBurst, maxGrants_eq, grantPort_moves 599 granted record room,
    burst_eq (s := s.setLastServed r) x buffer moved hm]
  rfl

/-- Settles O25. -/
theorem burstWritesThePage : Obligations.BurstWritesThePage := by
  refine ⟨Receiver.wantsPort_iff, State.nextGrant_iff, fun s r x g rest moved a => ⟨?moves, exec_storeBurst_none s⟩⟩
  case moves =>
    rintro granted ⟨store, conditions, -, -⟩ record page fill buffer hm rfl
    refine ⟨_, exec_storeBurst_moves granted record page fill buffer hm, ?_⟩
    obtain ⟨kept, words, bytes, -, others⟩ :=
      PagePool.writeWords_spec moved (64 * x.writePage + x.writeFill) s.pool _ store conditions rfl
    refine ⟨?_, words, bytes, others⟩
    exact congrArg (fun pool => ((s.setLastServed r).setPool pool).setRx r _) kept

/-! ## A burst into a new page -/

/-- Below the page limit the record may have a page more (R19). -/
theorem State.atLimit_iff (s : State) (x : ProvisionalRecord) : s.atLimit x = true ↔
    s.pageLimit ≤ (((s.ctx x.slot).chain x.source).words + 63) / 64 + x.pages := by
  exact decide_eq_true_iff

/-- The links once a page is taken and linked behind the record's last page (R58, R66). -/
theorem PagePool.linkBehind_linkOf {pool : PagePool} (h : Cells.wf 0 pool.links = true) (x : ProvisionalRecord) (page b : Nat) :
    ((pool.setLink page 0).linkBehind x page).linkOf b =
      if b = x.lastPage ∧ x.lastPage ≠ 0 then page else if b = page then 0 else pool.linkOf b := by
  have taken (b : Nat) : (pool.setLink page 0).linkOf b = if b = page then 0 else pool.linkOf b := by
    split
    case isTrue e => subst e; exact Cells.get_put_self _ _ h
    case isFalse e => exact Cells.get_put_ne _ _ e
  unfold PagePool.linkBehind
  split
  case isTrue none =>
    rw [taken]
    exact (if_neg fun h => h.2 none).symm
  case isFalse some =>
    split
    case isTrue e =>
      rw [e.1]
      exact Cells.get_put_self _ _ (Cells.wf_put _ _ _ h)
    case isFalse e =>
      rw [← taken]
      exact Cells.get_put_ne _ _ fun same => e ⟨same, some⟩

/-- Linking a page behind a record changes the links alone (R66). -/
theorem PagePool.linkBehind_keeps (pool : PagePool) (x : ProvisionalRecord) (page : Nat) :
    pool.linkBehind x page = { pool with links := (pool.linkBehind x page).links } := by
  unfold PagePool.linkBehind
  split <;> rfl

section
variable {s e u : State} {r : ReceiverId} {x : ProvisionalRecord} {g : BufferedSegment} {rest : List BufferedSegment}
variable {moved : List Word} {page : Nat} {free : List Nat}

/-- What an evaluation leaves in the incident queue (R79). -/
theorem evaluate_incidents (s : State) : s.evaluate.incidents =
    if s.pressure.level ≠ 3 ∧ s.evaluated = 3 then
      (s.post .pressureHigh .none none (BitVec.ofNat 64 s.pool.occupancy)).incidents
    else s.incidents := by
  unfold State.evaluate
  split
  · exact post_incidents_congr _ _ _ _ rfl rfl
  · rfl

/-- The evaluation a page taken causes does not depend on the links and the receiver served last (R76). -/
theorem evaluate_taken (he : e = (s.setPool { s.pool with free := free, occupancy := s.pool.occupancy + 1 }).evaluate)
    (hu : u = ((s.setLastServed r).setPool (s.pool.taken page free)).evaluate) :
    u.pressure = e.pressure ∧ u.incidents = e.incidents := by
  rw [hu, he]
  refine ⟨by rw [evaluate_pressure, evaluate_pressure]; rfl, ?_⟩
  have same : ((s.setLastServed r).setPool (s.pool.taken page free)).evaluated =
      (s.setPool { s.pool with free := free, occupancy := s.pool.occupancy + 1 }).evaluated := rfl
  have posts := post_incidents_congr (s := s.setPool { s.pool with free := free, occupancy := s.pool.occupancy + 1 })
    (t := (s.setLastServed r).setPool (s.pool.taken page free)) .pressureHigh .none none
    (BitVec.ofNat 64 (s.pool.occupancy + 1)) rfl rfl
  rw [evaluate_incidents, evaluate_incidents, same]
  exact if_congr Iff.rfl posts rfl

/-- What the evaluation keeps of a page taken. -/
theorem evaluate_taken_keeps (hu : u = ((s.setLastServed r).setPool (s.pool.taken page free)).evaluate) :
    u.pool = s.pool.taken page free ∧ u.receivers = s.receivers ∧ u.contexts = s.contexts ∧ u.lastServed = r := by
  rw [hu]
  refine ⟨evaluate_pool _, ?_, ?_, ?_⟩
  · exact evaluate_keeps State.receivers (fun _ _ _ => rfl) (fun _ _ _ => rfl) (fun _ _ => rfl) (fun _ _ => rfl) _
  · exact evaluate_keeps State.contexts (fun _ _ _ => rfl) (fun _ _ _ => rfl) (fun _ _ => rfl) (fun _ _ => rfl) _
  · exact evaluate_keeps State.lastServed (fun _ _ _ => rfl) (fun _ _ _ => rfl) (fun _ _ => rfl) (fun _ _ => rfl) _

/-- The state after a burst into a page just taken, before the verdict that may follow (R66). -/
theorem exec_storeBurst_extends (granted : s.nextGrant = some r) (record : (s.rx r).record = some x)
    (needs : x.needsPage = true) (below : s.atLimit x = false) (list : s.pool.free = page :: free)
    (buffer : (s.rx r).buffer = g :: rest) (hm : moved = g.payload.take 64)
    (hu : u = ((s.setLastServed r).setPool (s.pool.taken page free)).evaluate) : exec .storeBurst s =
      .next (((u.setPool ((u.pool.linkBehind x page).writeWords (64 * page) moved)).setRx r { s.rx r with
        buffer := { g with payload := g.payload.drop moved.length } :: rest
        record := some { x with
          firstPage := if x.firstPage = 0 then page else x.firstPage
          pages := x.pages + 1, writePage := page, writeFill := moved.length
          written := x.written + moved.length } }).settleVerdict r).settleCache := by
  obtain ⟨-, receivers, -, -⟩ := evaluate_taken_keeps hu
  have rx : u.rx r = s.rx r := by unfold State.rx; rw [receivers]
  have extended : ((u.setPool (u.pool.linkBehind x page)).setRecord r (x.withPage page)).rx r =
      { s.rx r with record := some (x.withPage page) } := by
    unfold State.setRecord
    rw [State.setRx_rx_self, State.setPool_rx, rx]
  have pool : ((u.setPool (u.pool.linkBehind x page)).setRecord r (x.withPage page)).pool = u.pool.linkBehind x page := rfl
  rw [exec_storeBurst, maxGrants_eq, grantPort_extends 599 granted record needs below list u hu,
    burst_eq (x.withPage page) (by rw [extended]; exact buffer) moved hm, extended, pool]
  refine congrArg (fun t : State => Host.Outcome.next (t.settleVerdict r).settleCache) ?_
  have fill : 0 + moved.length = moved.length := Nat.zero_add _
  unfold State.setRecord ProvisionalRecord.withPage
  dsimp only
  rw [fill, Nat.add_zero]
  exact State.setRx_setRx (u.setPool ((u.pool.linkBehind x page).writeWords (64 * page) moved)) r _ _

end

/-- Settles O26. -/
theorem burstTakesAFreePage : Obligations.BurstTakesAFreePage := by
  intro s r x g rest granted record needs below buffer
  have needsPage := x.needsPage_iff.mpr needs
  have notLimit : s.atLimit x = false := by
    rw [Bool.eq_false_iff, Ne, s.atLimit_iff]
    exact Nat.not_le.mpr below
  refine ⟨fun page free moved last canonical list hm hlast => ?takes, fun u empty hu => ?starves⟩
  case takes =>
    obtain ⟨u, hu⟩ : ∃ u, u = ((s.setLastServed r).setPool (s.pool.taken page free)).evaluate := ⟨_, rfl⟩
    obtain ⟨pool, receivers, contexts, served⟩ := evaluate_taken_keeps hu
    obtain ⟨e, he⟩ : ∃ e, e = (s.setPool { s.pool with free := free, occupancy := s.pool.occupancy + 1 }).evaluate := ⟨_, rfl⟩
    obtain ⟨pressure, incidents⟩ := evaluate_taken he hu
    obtain ⟨store, conditions, links, -⟩ := canonical
    have lastPage : x.lastPage = last := by
      rw [hlast]
      exact ite_not _ _ _
    have linked : u.pool.linkBehind x page =
        { s.pool with
          free := free, occupancy := s.pool.occupancy + 1
          links := ((s.pool.setLink page 0).linkBehind x page).links } := by
      rw [pool]
      unfold PagePool.linkBehind
      split <;> rfl
    have rx (k : ReceiverId) : u.rx k = s.rx k := by unfold State.rx; rw [receivers]
    obtain ⟨kept, words, bytes, -, others⟩ := PagePool.writeWords_spec moved (64 * page) (u.pool.linkBehind x page) _
      (by rw [linked]; exact store) (by rw [linked]; exact conditions) rfl
    have linkOf := PagePool.linkBehind_linkOf links x page
    refine ⟨_, e, exec_storeBurst_extends granted record needsPage notLimit list buffer hm hu, he, pressure, incidents, served,
      contexts, ?_, fun b => ?_, State.setRx_rx_self _ _ _, fun k other => ?_, words, fun b outside => ?_, fun b outside => ?_⟩
    · rw [State.setRx_pool, State.setPool_pool, kept, linked]
    · rw [State.setRx_pool, State.setPool_pool, kept, linked, ← lastPage, ← linkOf b]
      rfl
    · rw [State.setRx_rx, if_neg (Ne.symm other), State.setPool_rx, rx]
    · refine (bytes b (by omega)).trans ?_
      rw [linked]
    · refine (others b outside).trans ?_
      rw [linked]
      rfl
  case starves =>
    have passes : exec .storeBurst s = exec .storeBurst u := by
      rw [exec_storeBurst, grantPort_starves granted record needsPage notLimit empty, ← hu]
      rfl
    refine ⟨passes, fun others => ?_⟩
    rw [passes]
    refine exec_storeBurst_none u fun k => ?_
    rw [hu, State.setRx_rx]
    split
    · simp [Receiver.wantsPort]
    · exact others k (Ne.symm (by assumption))

/-! ## The cut at the page limit -/

/-- A rollback leaves the elastic buffer of every receiver (R69). -/
theorem rollback_buffer (s : State) (r k : ReceiverId) : ((s.rollback r).rx k).buffer = (s.rx k).buffer := by
  have replaced (t : State) (j : ReceiverId) (y : Receiver) (h : y.buffer = (t.rx j).buffer) :
      ((t.setRx j y).rx k).buffer = (t.rx k).buffer := by
    rw [State.setRx_rx]
    split
    case isTrue e => subst e; exact h
    case isFalse => rfl
  have freed (t : State) (n : Slice) (pages : List Nat) : ((t.freePages n pages).rx k).buffer = (t.rx k).buffer :=
    freePages_keeps (fun t => (t.rx k).buffer) (fun _ _ _ => rfl) (fun _ _ _ => rfl) (fun _ _ => rfl) (fun _ _ => rfl)
      (fun _ _ => rfl) (fun t j => replaced t j _ rfl) t n pages
  unfold State.rollback
  split
  case h_1 => rfl
  case h_2 x _ =>
    unfold State.dropRecord
    dsimp only
    rw [replaced, freed]
    · unfold State.unlink
      split <;> rfl
    · rfl

/-- The remainder of the head segment is discarded, and its verdict delivered if it was taken already (R18, R46). -/
theorem Receiver.discardRemainder_limit {x : Receiver} {g : BufferedSegment} {rest : List BufferedSegment} {n : Slice}
    (buffer : x.buffer = g :: rest) : ({ x with current := some n } : Receiver).discardRemainder true = { x with
      current := if g.verdict ≠ none ∧ (g.header.kind = .last ∨ g.header.kind = .only) then none else some n
      buffer := if g.verdict = none then { g with place := .remainder true, payload := [] } :: rest else rest } := by
  unfold Receiver.discardRemainder Receiver.head Receiver.setHead
  dsimp only
  rw [buffer]
  dsimp only [List.head?_cons]
  unfold Receiver.settleRemainder Receiver.head
  dsimp only [List.head?_cons]
  cases verdict : g.verdict with
  | none => simp
  | some v =>
    dsimp only
    rw [Receiver.verdictUnrecorded_eq]
    simp [Receiver.popHead]

/-- A chain that has ended stays as it is through a closure (R21). -/
theorem Context.chain_stable (q : SourceId) {d : Chain} (ended : d.state ≠ .receiving) :
    Context.Stable fun c => c.chain q = d := by
  rintro c rfl
  refine ⟨fun _ => rfl, fun reason now => ?_⟩
  have closed : (c.closed reason now).chain q = (c.chain q).broken := by
    simp [Context.closed, Context.withDirectory, Context.chain]
  exact closed.trans (if_neg ended)

section
variable {s u v : State} {r : ReceiverId} {x : ProvisionalRecord} {g : BufferedSegment} {rest : List BufferedSegment}
variable (buffer : (s.rx r).buffer = g :: rest)
variable (hu : u = (s.setCtx x.slot ((s.ctx x.slot).setChain x.source
  { (s.ctx x.slot).chain x.source with state := .cut })).rollback r)
variable (hv : v = u.setRx r { u.rx r with
  current := if g.verdict ≠ none ∧ (g.header.kind = .last ∨ g.header.kind = .only) then none else some x.slice
  buffer := if g.verdict = none then { g with place := .remainder true, payload := [] } :: rest else rest })
include buffer hu hv

/-- What a cut at the page limit makes of the state (R19). -/
theorem cutAtLimit_eq : s.cutAtLimit r x = v.closureCheck x.slot := by
  have kept : (u.rx r).buffer = g :: rest := by
    rw [hu, rollback_buffer, State.setCtx_rx]
    exact buffer
  unfold State.cutAtLimit State.setChain
  dsimp only
  rw [← hu]
  unfold State.setCurrent
  rw [State.setRx_rx_self, State.setRx_setRx, Receiver.discardRemainder_limit kept, ← hv]

/-- The chain is CUT with its committed words, and stays so (R19). -/
theorem cutAtLimit_chain : ((s.cutAtLimit r x).ctx x.slot).chain x.source =
    { (s.ctx x.slot).chain x.source with state := .cut } := by
  rw [cutAtLimit_eq buffer hu hv]
  refine closureCheck_ctx_stable (Context.chain_stable x.source (d := { (s.ctx x.slot).chain x.source with state := .cut })
    (fun h => nomatch h)) x.slot ?_
  have contexts : u.ctx = (s.setCtx x.slot ((s.ctx x.slot).setChain x.source
      { (s.ctx x.slot).chain x.source with state := .cut })).ctx := by
    rw [hu]
    exact rollback_keeps State.ctx (fun t n page => freePage_keeps State.ctx (fun _ _ _ => rfl) (fun _ _ _ => rfl)
      (fun _ _ => rfl) (fun _ _ => rfl) (fun _ _ => rfl) (fun _ _ => rfl) t n page) (fun _ _ => rfl) (fun _ _ _ => rfl) _ r
  rw [hv, State.setRx_ctx, contexts, State.setCtx_ctx_self, Context.setChain_chain, if_pos rfl]

end

/-- A cut at the page limit changes no word of the store, and not the receiver served last. -/
theorem cutAtLimit_store (s : State) (r : ReceiverId) (x : ProvisionalRecord) :
    (s.cutAtLimit r x).pool.store = s.pool.store ∧ (s.cutAtLimit r x).lastServed = s.lastServed := by
  obtain ⟨store, -, served⟩ := (leads_cutAtLimit (lv := 1) (ws := false) s r x).unreached.store rfl (by decide)
  exact ⟨store, served⟩

/-- Settles O28. -/
theorem pageLimitCutsTheChain : Obligations.PageLimitCutsTheChain := by
  intro s u v t r x g rest granted record needs limit buffer hu hv ht
  have cut : (s.setLastServed r).cutAtLimit r x = t := by
    rw [ht]
    exact cutAtLimit_eq (s := s.setLastServed r) buffer hu hv
  have passes : exec .storeBurst s = exec .storeBurst t := by
    rw [exec_storeBurst, grantPort_cuts granted record (x.needsPage_iff.mpr needs) ((s.atLimit_iff x).mpr limit), cut]
    rfl
  have chain := cutAtLimit_chain (s := s.setLastServed r) buffer hu hv
  obtain ⟨store, served⟩ := cutAtLimit_store (s.setLastServed r) r x
  have gone := (cutAtLimit_record (s.setLastServed r) r r x).resolve_right fun h => h.1 rfl
  rw [cut] at chain store served gone
  refine ⟨passes, fun none => passes.trans (exec_storeBurst_none t none), served, gone, ?_, ?_, fun b => ?_⟩
  · rw [chain]
  · rw [chain]
    rfl
  · rw [store]
    rfl

end Sys2Proof.Machine
end

section
/-! PROOF. The ready list (R88), ranks and eligibility (R94, R95), the walk (R97, R98), the buffer an engine takes (R112,
R142) and the dispatch wait (R93). -/

namespace Sys2Proof.Machine

/-! ## The ready list -/

theorem mem_insertEntry (f : Slice) (e x : ReadyEntry) : ∀ l, x ∈ insertEntry f e l ↔ x = e ∨ x ∈ l
  | [] => by simp [insertEntry]
  | y :: rest => by
    unfold insertEntry
    split
    · rw [List.mem_cons]
    · rw [List.mem_cons, mem_insertEntry f e x rest, List.mem_cons, or_left_comm]

/-- Slices at the same distance from the frontier are the same (R1). -/
theorem distance_inj {f a b : Slice} (h : distance f a = distance f b) : a = b := by
  have := BitVec.eq_of_toNat_eq h
  exact sub_left_inj.mp this

/-- The entry takes its place among entries of other slices by its distance from the frontier (R88). -/
theorem insertEntry_pairwise (f : Slice) (e : ReadyEntry) : ∀ l : List ReadyEntry,
    l.Pairwise (fun a b => distance f a.slice < distance f b.slice) → (∀ x ∈ l, x.slice ≠ e.slice) →
    (insertEntry f e l).Pairwise (fun a b => distance f a.slice < distance f b.slice)
  | [], _, _ => List.pairwise_singleton _ _
  | y :: rest, ordered, others => by
    obtain ⟨first, later⟩ := List.pairwise_cons.mp ordered
    unfold insertEntry
    split
    case isTrue before =>
      refine List.pairwise_cons.mpr ⟨fun x hx => ?_, ordered⟩
      rcases List.mem_cons.mp hx with rfl | hx
      · exact before
      · exact before.trans (first x hx)
    case isFalse notBefore =>
      have other := others y List.mem_cons_self
      have after : distance f y.slice < distance f e.slice :=
        (Nat.le_of_not_lt notBefore).lt_of_ne fun same => other (distance_inj same)
      refine List.pairwise_cons.mpr ⟨fun x hx => ?_, insertEntry_pairwise f e rest later fun x hx =>
        others x (List.mem_cons_of_mem _ hx)⟩
      rcases (mem_insertEntry f e x rest).mp hx with rfl | hx
      · exact after
      · exact first x hx

/-- Settles O33. -/
theorem readyListStaysOrdered : Obligations.ReadyListStaysOrdered := fun f e l ordered others =>
  ⟨insertEntry_pairwise f e l ordered others, fun x => mem_insertEntry f e x l⟩

/-! ## Preference lists -/

/-- A list that passes the checks has one to four ports, each of them a port (R91, R197). -/
theorem steerChecks_valid {w : Fin 8 → Nat} (h : (steerChecks w).all id = true) :
    w 0 ≤ 4 ∧ ∀ j : Fin 8, 1 ≤ j.val → j.val ≤ w 0 → w j < 4 := by
  unfold steerChecks inRange at h
  obtain ⟨low, high⟩ : 1 ≤ w 0 ∧ w 0 ≤ 4 := by
    simp only [List.all_cons, id_eq, Bool.and_eq_true, decide_eq_true_iff] at h
    exact h.1
  refine ⟨high, fun j hj le => ?_⟩
  generalize w 0 = n at *
  interval_cases n <;> fin_cases j <;> simp_all <;> omega

/-- The ports of a list of port words, all of them ports. -/
theorem portWords_val : ∀ l : List Word, (∀ w ∈ l, w.toNat < 4) →
    (l.filterMap fun w => if h : w.toNat < 4 then some (⟨w.toNat, h⟩ : PortId) else none).map Fin.val = l.map BitVec.toNat
  | [], _ => rfl
  | w :: l, h => by
    have small := h w List.mem_cons_self
    rw [List.filterMap_cons, dif_pos small]
    simp only [List.map_cons]
    rw [portWords_val l fun x hx => h x (List.mem_cons_of_mem _ hx)]

/-- The ports of a STEER item that passes its checks, word for word (R90, R197). -/
theorem Item.portList_spec {item : Item} (h : (steerChecks fun i => item.words[i].toNat).all id = true) :
    item.portList.length = item.words[0].toNat ∧ ∀ (j : Fin 8) (p : PortId), 1 ≤ j.val → j.val ≤ item.words[0].toNat →
      (item.portList[j.val - 1]? = some p ↔ item.words[j].toNat = p.val) := by
  obtain ⟨few, ports⟩ := steerChecks_valid h
  have word (k : Nat) : ((item.words.toList.drop 1).take item.words[0].toNat)[k]? =
      if k < item.words[0].toNat then item.words[1 + k]? else none := by
    rw [List.getElem?_take, List.getElem?_drop, Vector.getElem?_toList]
  have small : ∀ w ∈ (item.words.toList.drop 1).take item.words[0].toNat, w.toNat < 4 := by
    intro w hw
    obtain ⟨k, hk⟩ := List.getElem?_of_mem hw
    rw [word] at hk
    split at hk
    case isFalse => cases hk
    case isTrue inside =>
      change item.words[0].toNat ≤ 4 at few
      have place : 1 + k < 8 := by omega
      rw [Vector.getElem?_eq_getElem place] at hk
      rw [← Option.some.inj hk]
      exact ports ⟨1 + k, place⟩ (Nat.le_add_right 1 k) (by change 1 + k ≤ item.words[0].toNat; omega)
  have values : item.portList.map Fin.val = ((item.words.toList.drop 1).take item.words[0].toNat).map BitVec.toNat :=
    portWords_val _ small
  refine ⟨?_, fun j p first last => ?_⟩
  · change item.words[0].toNat ≤ 4 at few
    have count := congrArg List.length values
    rw [List.length_map, List.length_map, List.length_take, List.length_drop, Vector.length_toList] at count
    omega
  · have at_ := congrArg (fun l : List Nat => l[j.val - 1]?) values
    rw [List.getElem?_map, List.getElem?_map, word, if_pos (by omega), Nat.add_sub_cancel' first,
      Vector.getElem?_eq_getElem j.isLt] at at_
    constructor
    · intro found
      rw [found] at at_
      exact (Option.some.inj at_).symm
    · intro value
      obtain ⟨v, found, same⟩ := Option.map_eq_some_iff.mp at_
      rw [found]
      exact congrArg some (Fin.ext (same.trans value))

/-! ## Ranks and eligibility -/

/-- What a search finds stands before everything else it would accept. -/
theorem find?_iff_idxOf {α : Type} [DecidableEq α] (P : α → Bool) (p : α) : ∀ l : List α,
    l.find? P = some p ↔ p ∈ l ∧ P p = true ∧ ∀ v ∈ l, P v = true → l.idxOf p ≤ l.idxOf v
  | [] => by simp
  | a :: l => by
    by_cases ha : P a = true
    · rw [List.find?_cons_of_pos ha, Option.some.injEq]
      constructor
      · rintro rfl
        exact ⟨List.mem_cons_self, ha, fun v _ _ => by simp⟩
      · rintro ⟨-, -, first⟩
        have zero := first a List.mem_cons_self ha
        rw [List.idxOf_cons_self, Nat.le_zero] at zero
        by_contra other
        rw [List.idxOf_cons_ne l other] at zero
        cases zero
    · rw [List.find?_cons_of_neg ha, find?_iff_idxOf P p l]
      have passes {v : α} (hv : P v = true) : a ≠ v := fun e => ha (e ▸ hv)
      constructor
      · rintro ⟨mem, hp, first⟩
        refine ⟨List.mem_cons_of_mem a mem, hp, fun v hv hPv => ?_⟩
        rw [List.idxOf_cons_ne l (passes hp), List.idxOf_cons_ne l (passes hPv)]
        exact Nat.succ_le_succ (first v ((List.mem_cons.mp hv).resolve_left (passes hPv).symm) hPv)
      · rintro ⟨mem, hp, first⟩
        refine ⟨(List.mem_cons.mp mem).resolve_left (passes hp).symm, hp, fun v hv hPv => ?_⟩
        have := first v (List.mem_cons_of_mem a hv) hPv
        rw [List.idxOf_cons_ne l (passes hp), List.idxOf_cons_ne l (passes hPv)] at this
        exact Nat.le_of_succ_le_succ this

section
variable (s : State) (i : SlotId) (e : ReadyEntry) (p : PortId)

/-- The ports not preferred rank after the preferred ones, in ascending number (R94). -/
theorem State.ranking_eq : s.ranking i =
    s.preference i ++ ([0, 1, 2, 3] : List PortId).filter (fun p => decide (p ∉ s.preference i)) := by
  have ports : allPorts = [0, 1, 2, 3] := rfl
  unfold State.ranking
  rw [ports]
  congr 2
  funext p
  by_cases h : p ∈ s.preference i <;> simp [h]

/-- Every port has a rank (R94). -/
theorem State.mem_ranking : p ∈ s.ranking i := by
  have ports : p ∈ ([0, 1, 2, 3] : List PortId) := by fin_cases p <;> simp
  rw [State.ranking_eq, List.mem_append, List.mem_filter, decide_eq_true_iff]
  by_cases h : p ∈ s.preference i
  · exact .inl h
  · exact .inr ⟨ports, h⟩

/-- The primary port is the first ACTIVE port of the preference list (R94). -/
theorem State.primary_iff : s.primary i = some p ↔ p ∈ s.preference i ∧ (s.port p).state = .active ∧
    ∀ v ∈ s.preference i, (s.port v).state = .active → (s.preference i).idxOf p ≤ (s.preference i).idxOf v := by
  unfold State.primary
  rw [find?_iff_idxOf]
  simp only [beq_iff_eq]

/-- Which ports are eligible for an entry (R95). -/
theorem State.eligible_iff : s.eligible e p = true ↔ (s.port p).state = .active ∧ (s.engine p).state = .idle ∧
    (s.primary (slotOf e.slice) = some p ∨ e.elapsed = true) := by
  unfold State.eligible
  simp only [Bool.and_eq_true, Bool.or_eq_true, beq_iff_eq, and_assoc]

/-- The best port is the highest-ranked of the eligible (R97). -/
theorem State.bestPort_some {p : PortId} (h : s.bestPort e = some p) : s.eligible e p = true ∧
    ∀ v, s.eligible e v = true → (s.ranking (slotOf e.slice)).idxOf p ≤ (s.ranking (slotOf e.slice)).idxOf v := by
  obtain ⟨-, eligible, first⟩ := (find?_iff_idxOf _ p _).mp h
  exact ⟨eligible, fun v hv => first v (s.mem_ranking _ v) hv⟩

/-- There is none only if no port is eligible (R97). -/
theorem State.bestPort_none (h : s.bestPort e = none) : s.eligible e p = false :=
  Bool.eq_false_iff.mpr (List.find?_eq_none.mp h p (s.mem_ranking _ p))

end

/-! ## The buffer an engine takes -/

section
variable (s : State) (p : PortId)

/-- The entry that an engine is handed is the CACHED one at consumed-for-delivery (R142). -/
theorem cached_any_iff (entries : List CacheEntry) (n : Count) : (entries.any fun b => b.cachedFor p && b.count == n) = true ↔
    ∃ b ∈ entries, b.port = p ∧ b.state = .cached ∧ b.count = n := by
  simp [CacheEntry.cachedFor, and_assoc]

/-- Handing it over makes it ASSIGNED (R142). -/
theorem assignEntry_eq (n : Count) : assignEntry p n =
    fun b => if b.port = p ∧ b.state = .cached ∧ b.count = n then { b with state := .assigned } else b := by
  funext b
  unfold assignEntry CacheEntry.cachedFor
  simp only [Bool.and_eq_true, beq_iff_eq, and_assoc]

/-- Without a descriptor CACHED at consumed-for-delivery the engine waits for one (R112; log 34). -/
theorem takeBuffer_defers (none : ∀ b ∈ s.cache.entries, b.port = p → b.state = .cached → b.count ≠ (s.ring p).consumed) :
    s.takeBuffer p = s.setEngine p { s.engine p with state := .waitBuffer, bufferFill := 0 } := by
  refine if_neg ?_
  rw [cached_any_iff]
  rintro ⟨b, mem, port, state, count⟩
  exact none b mem port state count

/-- A replaced cache stands between two replacements of an engine without a part in them. -/
theorem setEngine_setCache_setEngine (c : Cache) (x y : Engine) :
    ((s.setEngine p x).setCache c).setEngine p y = (s.setCache c).setEngine p y := State.setEngine_setEngine (s.setCache c) p x y

/-- With one it takes the buffer and is MOVING (R112, R142, R145). -/
theorem takeBuffer_hands (cached : ∃ b ∈ s.cache.entries, b.port = p ∧ b.state = .cached ∧ b.count = (s.ring p).consumed) :
    s.takeBuffer p = (s.setCache
      { s.cache with
        entries := s.cache.entries.map fun b =>
          if b.port = p ∧ b.state = .cached ∧ b.count = (s.ring p).consumed then { b with state := .assigned } else b
        rings := s.cache.rings.set p { s.ring p with consumed := (s.ring p).consumed + 1 }
        holds := s.cache.holds.set p none }).setEngine p
          { s.engine p with
            state := .moving, bufferFill := 0, buffers := (s.engine p).buffers + 1
            firstBuffer := some ((s.engine p).firstBuffer.getD (s.ring p).consumed) } := by
  have first : (s.engine p).withBuffer (s.ring p).consumed = { s.engine p with
      state := .moving, bufferFill := 0, buffers := (s.engine p).buffers + 1
      firstBuffer := some ((s.engine p).firstBuffer.getD (s.ring p).consumed) } := by
    unfold Engine.withBuffer
    cases (s.engine p).firstBuffer <;> rfl
  refine (if_pos ((cached_any_iff p s.cache.entries (s.ring p).consumed).mpr cached)).trans ?_
  rw [first, ← assignEntry_eq]
  rfl

end

/-! ## The walk -/

/-- The image header of a closed context (R110, R195). -/
theorem Context.imageHeader_eq {c : Context} {x : Closure} {d : Vector DirectoryEntry 24} (p : PortId)
    (closure : c.closure = some x) (directory : c.directory = some d) : c.imageHeader p =
      [fieldAt 0 c.slice.toNat ||| fieldAt 32 x.reason.code ||| fieldAt 36 p.val |||
          (flagAt 40 c.flags.duplicateSeen ||| flagAt 41 c.flags.lateSeen ||| flagAt 42 c.flags.crcSeen |||
            flagAt 43 c.flags.uncorrectable ||| flagAt 44 c.flags.redirected),
        fieldAt 0 c.openedAt.toNat ||| fieldAt 32 x.closedAt.toNat,
        fieldAt 0 c.expected.toNat ||| fieldAt 32 c.dropped.toNat, fieldAt 0 c.totalWords, 0, 0, 0, 0] ++
      d.toList.map (fun y => fieldAt 0 y.status.code ||| fieldAt 8 y.length ||| fieldAt 32 y.offset) := by
  unfold Context.imageHeader Context.reasonCode Context.closedAt Context.entries DefectFlags.fields
  rw [closure, directory]
  rfl

section
variable (s : State) (e : ReadyEntry)

theorem considerEntry_none (h : s.bestPort e = none) : s.considerEntry e = s := by
  unfold State.considerEntry
  rw [h]

/-- An assignment takes the entry off the list, sets the slot DELIVERING and has the engine take the slice (R98). -/
theorem considerEntry_some {p : PortId} {i : SlotId} {u : State} (h : s.bestPort e = some p) (hi : i = slotOf e.slice)
    (hu : u = (s.setReady (s.ready.filter fun y => decide (y.slice ≠ e.slice))).setCtx i
      { s.ctx i with state := .delivering }) :
    s.considerEntry e = (u.setEngine p (u.engineFor p i)).takeBuffer p := by
  have left : (s.ready.filter fun y => y.slice != e.slice) = s.ready.filter fun y => decide (y.slice ≠ e.slice) := by
    congr 1
    funext y
    exact Bool.eq_iff_iff.mpr (by simp)
  unfold State.considerEntry State.assign State.takeSlice
  rw [h]
  dsimp only
  rw [left, ← hi, State.setReady_ctx, ← hu]

end

/-- Settles O34. -/
theorem walkAssignsToTheHighestRankedPort : Obligations.WalkAssignsToTheHighestRankedPort := by
  refine ⟨fun s i w hw valid => ?preference, fun s i => ⟨s.ranking_eq i, s.primary_iff i⟩,
    fun s e => ⟨s.eligible_iff e, fun p => s.bestPort_some e, fun none p => s.bestPort_none e p none⟩, fun s => rfl,
    ⟨rfl, rfl⟩, fun s e => ⟨considerEntry_none s e, fun p i c x d n u g best hi hc closure directory hn hu assigned length
      position fill cut kind header => ?assigns⟩⟩
  case preference =>
    subst hw
    exact Item.portList_spec valid
  case assigns =>
    subst hc hn
    have engine : u.engineFor p i = { Engine.idle with
        assigned := g.assigned, header := g.header, imageLength := g.imageLength } := by
      have ctx : u.ctx i = { s.ctx i with state := .delivering } := by rw [hu, State.setCtx_ctx_self]
      unfold State.engineFor
      rw [ctx, assigned, header, length, Context.imageHeader_eq (c := { s.ctx i with state := .delivering }) p closure directory]
      rfl
    have cache : (u.setEngine p (u.engineFor p i)).cache = s.cache := by rw [hu]; rfl
    have ring : (u.setEngine p (u.engineFor p i)).ring p = s.ring p := by rw [State.ring, cache]; rfl
    rw [considerEntry_some s e best hi hu]
    refine ⟨fun none state first buffers => ?_, fun cached state first buffers => ?_⟩
    · rw [takeBuffer_defers _ p (by rw [cache, ring]; exact none), State.setEngine_engine_self, State.setEngine_setEngine, engine]
      congr 1
      cases g
      simp_all [Engine.idle]
    · rw [takeBuffer_hands _ p (by rw [cache, ring]; exact cached), cache, ring, State.setEngine_engine_self]
      have taken : { u.engineFor p i with
          state := .moving, bufferFill := 0, buffers := (u.engineFor p i).buffers + 1
          firstBuffer := some ((u.engineFor p i).firstBuffer.getD (s.ring p).consumed) } = g := by
        rw [engine]
        cases g
        simp_all [Engine.idle]
      rw [taken]
      exact setEngine_setCache_setEngine _ _ _ _ _

/-! ## The dispatch wait -/

/-- Settles O35. -/
theorem dispatchWaitElapses : Obligations.DispatchWaitElapses := by
  intro s l hl
  have entries : (s.ready.map fun e => { e with elapsed := e.elapsed || s.waitDue e }) = l := by
    rw [hl]
    refine List.map_congr_left fun e _ => ?_
    unfold State.waitDue
    cases e.elapsed <;> simp
  have due : s.ready.any s.waitDue = true ↔ l ≠ s.ready := by
    have unchanged := List.map_eq_map_iff (l := s.ready) (g := id) (f := fun e => { e with elapsed := e.elapsed || s.waitDue e })
    rw [List.map_id] at unchanged
    rw [← not_iff_not, not_not, Bool.not_eq_true, List.any_eq_false, ← entries, unchanged]
    refine forall₂_congr fun e _ => ?_
    cases waits : s.waitDue e
    · simp
    · have pending : e.elapsed = false := by
        unfold State.waitDue at waits
        simp_all
      refine iff_of_false (fun h => h rfl) fun same => ?_
      have elapsed := congrArg ReadyEntry.elapsed same
      simp [pending] at elapsed
  have elapses : s.elapseWaits = if l ≠ s.ready then (s.setReady l).walk else s := by
    unfold State.elapseWaits
    simp only [due, entries]
  have executes : exec .dispatchWaitElapse s = .next s.elapseWaits.settleCache := rfl
  rw [executes, elapses]
  refine ⟨fun same => by rw [if_neg (not_not_intro same)], fun other => by rw [if_pos other], fun inactive => ?_⟩
  by_cases same : l = s.ready
  · rw [if_neg (not_not_intro same), same]
    rfl
  · rw [if_pos same, walk_inactive (s := s.setReady l) inactive]

end Sys2Proof.Machine
end

section
/-! PROOF. One WRITE of a delivery engine (R109, R111 to R114) and the store's check of the words it reads (R72, R73). -/

namespace Sys2Proof.Machine

/-! ## The store's check -/

/-- Damage falls on the condition of its word alone, and mends none (R72; log 7). -/
theorem PagePool.damage_conditionOf {x : PagePool} (h : x.Canonical) (a : Nat) (c : WordCondition) (b : Nat) :
    (x.damage a c).conditionOf b = if b = a then
      (match x.conditionOf a, c with
        | .uncorrectable w, _ => .uncorrectable w
        | .singleBit, .sound => .singleBit
        | _, c => c) else x.conditionOf b := by
  obtain ⟨-, conditions, -, -⟩ := h
  split
  case isTrue e =>
    subst e
    refine (Cells.get_put_self _ _ conditions).trans ?_
    cases x.conditionOf b <;> cases c <;> rfl
  case isFalse e => exact Cells.get_put_ne _ _ e

section
variable (s : State) (p : PortId) (i : SlotId) (j page : Nat)

/-- A corrected word steps the mark of its page (R60, R72). -/
theorem checked_singleBit (h : s.pool.Canonical) :
    (s.checked p i j page .singleBit).pool.attributeOf page = (s.pool.attributeOf page).stepped :=
  PagePool.setAttribute_attributeOf h _ _

section
variable (w : Word)

/-- An uncorrectable word has its page retired when it is freed (R60, R73). -/
theorem checked_uncorrectable_attribute (h : s.pool.Canonical) :
    (s.checked p i j page (.uncorrectable w)).pool.attributeOf page = .retireOnFree := by
  unfold State.checked
  dsimp only
  rw [State.setCtx_pool, post_pool]
  exact PagePool.setAttribute_attributeOf h _ _

/-- It posts UNCORRECTABLE (R73). -/
theorem checked_uncorrectable_incidents : (s.checked p i j page (.uncorrectable w)).incidents =
    (s.post .uncorrectable (.port p) (some (s.ctx i).slice) (BitVec.ofNat 64 page)).incidents :=
  post_incidents_congr _ _ _ _ rfl rfl

/-- It marks the slice (R73). -/
theorem checked_uncorrectable_ctx : (s.checked p i j page (.uncorrectable w)).ctx i = (s.ctx i).uncorrectableAt (256 + 8 * j) := by
  unfold State.checked
  dsimp only
  rw [State.setCtx_ctx_self, post_ctx]
  rfl

end

end

/-- The offset of the first uncorrectable word stays (R73). -/
theorem Context.uncorrectableAt_first (c : Context) (byte : Nat) :
    (c.uncorrectableAt byte).firstUncorrectable = some (c.firstUncorrectable.getD byte) := by
  unfold Context.uncorrectableAt
  cases c.firstUncorrectable <;> rfl

/-- Settles O38. -/
theorem readCheckMarksPageAndSlice : Obligations.ReadCheckMarksPageAndSlice := by
  intro s p i j page w canonical
  refine ⟨rfl, rfl, rfl, ?_, checked_uncorrectable_attribute s p i j page w canonical,
    checked_uncorrectable_incidents s p i j page w, ?_, ?_, rfl, rfl, fun x => rfl⟩
  · rw [checked_singleBit s p i j page canonical]
    cases s.pool.attributeOf page <;> rfl
  · rw [checked_uncorrectable_ctx]
    rfl
  · rw [checked_uncorrectable_ctx, Context.uncorrectableAt_first]

/-! ## The words of a WRITE -/

/-- The words of a WRITE message (R196). -/
theorem writeMessage_laid (a : Address) (data : List Word) (h : data.length ≤ 32) :
    ∃ w0 w1, writeMessage a data = w0 :: w1 :: data ∧ Laid w0 [(0, 8, 0x80), (16, 9, 8 * data.length)] ∧
      Laid w1 [(0, 48, a.toNat)] := by
  refine ⟨_, _, rfl, Laid.of_union _ (by simp) (by simp) ?_, Laid.of_union _ (by simp) (by simp) ?_⟩
  · simp
    omega
  · have := a.isLt
    simpa using this

/-- The address of a WRITE inside the address space (R113). -/
theorem Engine.writeAddress_toNat (e : Engine) (b : CacheEntry) (inside : b.address.toNat + e.bufferFill < 2 ^ 48) :
    (e.writeAddress b).toNat = b.address.toNat + e.bufferFill := by
  unfold Engine.writeAddress
  rw [if_pos inside, BitVec.toNat_add, BitVec.toNat_ofNat, Nat.add_mod_mod, Nat.mod_eq_of_lt inside]

/-- Sound words are given as they are stored, and their check does nothing (R72). -/
theorem wordsRead_sound {s t : State} {p : PortId} {i : SlotId} {first count : Nat} {words : List Word}
    (h : ∀ j ∈ List.range' first count, s.pool.conditionOf (s.wordPlace i j) = .sound) :
    WordsRead s p i first count [] words t ↔
      t = s ∧ words = (List.range' first count).map fun j => Memory.readWord s.pool.store (s.wordPlace i j) := by
  rw [wordsRead_iff]
  show s.readWords p i first count = (words, t) ↔ _
  rw [State.readWords_sound s p i first count h, Prod.mk.injEq]
  exact ⟨fun ⟨read, same⟩ => ⟨same.symm, read.symm⟩, fun ⟨same, read⟩ => ⟨read.symm, same.symm⟩⟩

/-! ## One WRITE -/

/-- An engine that is not MOVING does not write (log 2). -/
theorem exec_write_idle {p : PortId} {s : State} (found : List (Nat × WordCondition)) (h : (s.engine p).state ≠ .moving) :
    exec (.write p found) s = .next s.settleCache :=
  congrArg (fun t : State => Host.Outcome.next t.settleCache) (if_neg h)

/-- Giving back the current buffer takes the ASSIGNED entries of the port (R142). -/
theorem giveBack_eq (s : State) (p : PortId) : s.giveBack p = s.setCache { s.cache with
    entries := s.cache.entries.filter fun x => decide (¬(x.port = p ∧ x.state = .assigned)) } := by
  have kept : (fun x : CacheEntry => !x.assignedTo p) = fun x => decide (¬(x.port = p ∧ x.state = .assigned)) := by
    funext x
    simp only [CacheEntry.assignedTo, Bool.decide_and, decide_not]
    rfl
  unfold State.giveBack
  rw [kept]

section
variable {p : PortId} {s t u : State} {i : SlotId} {n : Slice} {b : CacheEntry} {g : RingParameters} {e : Engine}
variable {k first count : Nat} {words : List Word} {found : List (Nat × WordCondition)}

/-- The state a WRITE leaves, up to what follows it (R111, R113). -/
theorem exec_write_eq (he : e = s.engine p) (moving : e.state = .moving) (assigned : e.assigned = some (i, n))
    (buffer : s.cache.currentBuffer p = some b) (ring : (s.ring p).parameters = some g)
    (hk : k = min 256 (min (b.length - e.bufferFill) (e.imageLength - e.readPosition)))
    (hfirst : first = (e.readPosition - 256) / 8)
    (hcount : count = (e.readPosition + k - 256 - (e.readPosition - 256)) / 8) (read : WordsRead s p i first count found words t)
    (hu : u = t.send p (writeMessage (e.writeAddress b) ((e.header.drop (e.readPosition / 8)).take (k / 8) ++ words))) :
    exec (.write p found) s = .next ((u.setEngine p (e.wrote k)).afterWrite p b g).settleCache := by
  have length : (s.engine p).writeLength b = k := by rw [hk, he]; rfl
  have span : (s.engine p).dataSpan k = (first, count) := by rw [hfirst, hcount, he]; rfl
  subst he
  rw [exec_write moving assigned buffer ring found, issueWrite_eq length span read, hu]
  rfl

/-- What a WRITE leaves of the cache. -/
theorem write_cache (read : WordsRead s p i first count found words t) {message : List Word} (hu : u = t.send p message) :
    u.cache = s.cache := by
  rw [hu]
  exact read.cache

end

section
variable (u : State) (p : PortId) (b : CacheEntry) (g : RingParameters) (e : Engine)

/-- An engine inside its image and its buffer goes on in the buffer (R114). -/
theorem afterWrite_goesOn (more : e.readPosition ≠ e.imageLength) (room : e.bufferFill ≠ b.length) :
    (u.setEngine p e).afterWrite p b g = u.setEngine p e := by
  unfold State.afterWrite
  dsimp only
  rw [State.setEngine_engine_self, if_neg more, if_neg room]

/-- With its buffer full, and another allowed, it gives the buffer back and asks for the next (R114, R115). -/
theorem afterWrite_nextBuffer (more : e.readPosition ≠ e.imageLength) (full : e.bufferFill = b.length)
    (allowed : e.buffers ≠ 2 ^ g.k) : (u.setEngine p e).afterWrite p b g = ((u.setEngine p e).giveBack p).takeBuffer p := by
  unfold State.afterWrite
  dsimp only
  rw [State.setEngine_engine_self, if_neg more, if_pos full, if_neg allowed]

end

/-- Settles O36. -/
theorem writeIssuesOneMessage : Obligations.WriteIssuesOneMessage := by
  refine ⟨writeMessage_laid, Engine.writeAddress_toNat, fun x a c canonical => ⟨rfl, PagePool.damage_conditionOf canonical a c⟩,
    fun s t p i first count words => wordsRead_sound, fun p s found => ⟨fun i n b g e k first count words t u he moving assigned
      buffer ring hk more hfirst hcount read hu => ⟨fun room => ?goesOn, fun left c full allowed hleft hc => ?nextBuffer⟩,
      exec_write_idle found⟩⟩
  case goesOn =>
    rw [exec_write_eq he moving assigned buffer ring hk hfirst hcount read hu, afterWrite_goesOn u p b g (e.wrote k) more room]
    rfl
  case nextBuffer =>
    have cache := write_cache read hu
    rw [exec_write_eq he moving assigned buffer ring hk hfirst hcount read hu,
      afterWrite_nextBuffer u p b g (e.wrote k) more full allowed, giveBack_eq]
    obtain ⟨v, hv⟩ : ∃ v, v = (u.setEngine p (e.wrote k)).setCache
        { s.cache with entries := left } := ⟨_, rfl⟩
    have given : (u.setEngine p (e.wrote k)).cache = s.cache :=
      cache
    rw [given, ← hleft, ← hv]
    have entries : v.cache.entries = left := by rw [hv]; rfl
    have consumed : (v.ring p).consumed = c := by rw [hc, hv]; rfl
    have engine : v.engine p = e.wrote k := by
      rw [hv, State.setCache_engine, State.setEngine_engine_self]
    refine ⟨fun none => ?_, fun cached => ?_⟩
    · have waits : ∀ x ∈ v.cache.entries, x.port = p → x.state = .cached → x.count ≠ (v.ring p).consumed := by
        rw [entries, consumed, hleft]
        exact fun x hx => none x (List.mem_of_mem_filter hx)
      rw [takeBuffer_defers v p waits, engine, hv, setEngine_setCache_setEngine]
      rfl
    · have stays : ∃ x ∈ v.cache.entries, x.port = p ∧ x.state = .cached ∧ x.count = (v.ring p).consumed := by
        obtain ⟨x, mem, port, state, count⟩ := cached
        rw [entries, consumed, hleft]
        refine ⟨x, List.mem_filter.mpr ⟨mem, decide_eq_true ?_⟩, port, state, count⟩
        rw [state]
        exact fun h => nomatch h.2
      have kept : v.cache = { s.cache with entries := left } := by rw [hv]; rfl
      have ringKept : v.ring p = s.ring p := by rw [hv]; rfl
      have replaced (d : Cache) : v.setCache d = (u.setEngine p (e.wrote k)).setCache d := by rw [hv]; rfl
      have hands := takeBuffer_hands v p stays
      rw [engine, consumed, kept, ringKept, replaced, setEngine_setCache_setEngine, ← moving] at hands
      exact congrArg (fun t : State => Host.Outcome.next t.settleCache) hands

end Sys2Proof.Machine
end

section
/-! PROOF. The words of a completion record (R118, R194). -/

namespace Sys2Proof.Machine

theorem ClosureReason.code_lt (x : ClosureReason) : x.code < 4 := by cases x <;> decide

theorem SourceStatus.code_lt (x : SourceStatus) : x.code < 16 := by cases x <;> decide

/-- The bits of the statuses of a run of sources, 4 for each (R194). -/
theorem statusWord_getLsbD : ∀ (l : List DirectoryEntry) (i : Nat), i < 64 →
    (statusWord l).getLsbD i = (match l[i / 4]? with
      | some d => d.status.code.testBit (i % 4)
      | none => false)
  | [], i, _ => by simp [statusWord]
  | d :: l, i, hi => by
    unfold statusWord
    rw [BitVec.getLsbD_or, BitVec.getLsbD_shiftLeft, fieldAt_getLsbD 0 _ i hi, Nat.sub_zero]
    by_cases first : i < 4
    · have zero : i / 4 = 0 := Nat.div_eq_of_lt first
      simp [first, zero, Nat.mod_eq_of_lt first]
    · have past : d.status.code.testBit i = false := testBit_past (n := 4) d.status.code_lt (Nat.le_of_not_lt first)
      have next : i / 4 = (i - 4) / 4 + 1 := by omega
      have same : (i - 4) % 4 = i % 4 := by omega
      rw [past, statusWord_getLsbD l (i - 4) (by omega), next, List.getElem?_cons_succ, same]
      simp [first, hi]

/-- The status of one source of a run (R194). -/
theorem statusWord_status {l : List DirectoryEntry} {k : Nat} {d : DirectoryEntry} (h : l[k]? = some d) (hk : k < 16) :
    ((statusWord l).extractLsb' (4 * k) 4).toNat = d.status.code := by
  have field : (statusWord l).extractLsb' (4 * k) 4 = BitVec.ofNat 4 d.status.code := by
    refine BitVec.eq_of_getLsbD_eq fun i hi => ?_
    have place : (4 * k + i) / 4 = k := by omega
    have bit : (4 * k + i) % 4 = i := by omega
    rw [BitVec.getLsbD_extractLsb', statusWord_getLsbD l _ (by omega), place, bit, h, BitVec.getLsbD_ofNat]
  rw [field, BitVec.toNat_ofNat, Nat.mod_eq_of_lt d.status.code_lt]

/-- Past the sources of a run its word is 0 (R192). -/
theorem statusWord_past {l : List DirectoryEntry} (h : l.length ≤ 8) : (statusWord l).extractLsb' 32 32 = 0 := by
  refine BitVec.eq_of_getLsbD_eq fun i hi => ?_
  have past : l[(32 + i) / 4]? = none := List.getElem?_eq_none (by omega)
  rw [BitVec.getLsbD_extractLsb', statusWord_getLsbD l _ (by omega), past]
  simp

/-- The words of a completion record, and what each holds (R194). -/
theorem completionRecord_laid (c : Context) (n : Slice) (kind : RecordKind) (first : Count) (buffers total : Nat)
    (truncated cycle : Bool) (x : Closure) (d : Vector DirectoryEntry 24) (closure : c.closure = some x)
    (directory : c.directory = some d) (hb : buffers ≤ 65536) (ht : total < 2 ^ 32) (hu : c.firstUncorrectable.getD 0 < 2 ^ 32) :
    ∃ w0 w1 w2 w3 w4 w5 w7,
      completionRecord c n kind first buffers total truncated cycle = [w0, w1, w2, w3, w4, w5, 0, w7] ∧
      Laid w0 [(0, 32, n.toNat), (32, 2, if kind = .delivered then 1 else 2), (36, 2, x.reason.code)] ∧
      Laid w1 [(0, 32, first.toNat), (32, 17, buffers)] ∧
      Laid w2 [(0, 32, total), (32, 32, c.firstUncorrectable.getD 0)] ∧
      Laid w3 [(0, 32, x.closedAt.toNat), (32, 1, c.flags.duplicateSeen.toNat), (33, 1, c.flags.lateSeen.toNat),
        (34, 1, c.flags.crcSeen.toNat), (35, 1, c.flags.uncorrectable.toNat), (36, 1, c.flags.redirected.toNat),
        (37, 1, truncated.toNat)] ∧
      (∀ q : SourceId, (q.val < 16 → (w4.extractLsb' (4 * q.val) 4).toNat = d[q].status.code) ∧
        (16 ≤ q.val → (w5.extractLsb' (4 * (q.val - 16)) 4).toNat = d[q].status.code)) ∧
      w5.extractLsb' 32 32 = 0 ∧ Laid w7 [(63, 1, cycle.toNat)] := by
  have reason : c.reasonCode = x.reason.code := by unfold Context.reasonCode; rw [closure]
  have closedAt : c.closedAt = x.closedAt := by unfold Context.closedAt; rw [closure]
  have entries : c.entries = d.toList := by unfold Context.entries; rw [directory]
  have entry (q : SourceId) : d.toList[q.val]? = some d[q] := by
    rw [Vector.getElem?_toList]
    exact Vector.getElem?_eq_getElem q.isLt
  have code : kind.code = if kind = .delivered then 1 else 2 := by cases kind <;> rfl
  have bit (b : Bool) : b.toNat < 2 := b.toNat_lt
  unfold completionRecord
  rw [reason, closedAt, entries, code]
  refine ⟨_, _, _, _, _, _, _, rfl, Laid.of_union _ (by simp [BitVec.or_assoc]) (by simp) ?_,
    Laid.of_union _ (by simp) (by simp) ?_, Laid.of_union _ (by simp) (by simp) ?_,
    Laid.of_union _ (by simp [DefectFlags.fields, flagAt_eq, BitVec.or_assoc]) (by simp) ?_,
    fun q => ⟨fun low => ?_, fun high => ?_⟩, ?_, Laid.of_union _ (by simp [flagAt_eq]) (by simp) ?_⟩
  · have := n.isLt
    have := x.reason.code_lt
    split <;> simp <;> omega
  · have := first.isLt
    simp
    omega
  · simp
    omega
  · have := x.closedAt.isLt
    simp [bit]
    omega
  · refine statusWord_status ?_ low
    rw [List.getElem?_take_of_lt low]
    exact entry q
  · have := q.isLt
    refine statusWord_status ?_ (by omega)
    rw [List.getElem?_drop, Nat.add_sub_cancel' high]
    exact entry q
  · exact statusWord_past (by simp)
  · simp [bit]

end Sys2Proof.Machine
end

section
/-! PROOF. The completion of a delivery (R116 to R120), the slot it retires and the frontier's advance (R28, R71), and the end
of a delivery (R158, R179). -/

namespace Sys2Proof.Machine

/-! ## Completion credit and the completion record -/

section
variable (v : State) (p : PortId) (i : SlotId) (n : Slice) (g : RingParameters)

/-- Credit is left while fewer records than the ring holds are not consumed (R116). -/
theorem State.credit_pos (m : Nat) :
    1 ≤ v.credit p m ↔ ((v.ring p).produced - (v.ring p).announcedConsumed).toNat < 2 ^ m := by
  unfold State.credit
  omega

section
variable (assigned : (v.engine p).assigned = some (i, n)) (ring : (v.ring p).parameters = some g)
include assigned ring

/-- With credit the delivery completes (R116). -/
theorem proceedToCredit_completes (credit : ((v.ring p).produced - (v.ring p).announcedConsumed).toNat < 2 ^ g.m) :
    v.proceedToCredit p = v.complete p i n g := by
  unfold State.proceedToCredit
  rw [assigned, ring]
  exact if_pos ((v.credit_pos p g.m).mpr credit)

/-- Without it the engine waits (R117). -/
theorem proceedToCredit_waits (credit : 2 ^ g.m ≤ ((v.ring p).produced - (v.ring p).announcedConsumed).toNat) :
    v.proceedToCredit p = (v.setHold p none).setEngine p { v.engine p with state := .waitCredit, bufferFill := 0 } := by
  unfold State.proceedToCredit
  rw [assigned, ring]
  exact if_neg fun h => Nat.not_lt.mpr credit ((v.credit_pos p g.m).mp h)

end

/-- The completion record stands at its place in the completion ring, produced advances, and NOTIFY is triggered (R118,
R119). -/
theorem writeRecord_eq : v.writeRecord p i n g = ((v.send p
    (writeMessage (g.completionBase + BitVec.ofNat 48 (64 * ((v.ring p).produced.toNat % 2 ^ g.m)))
      (completionRecord (v.ctx i) n (v.engine p).kind ((v.engine p).firstBuffer.getD (v.ring p).consumed) (v.engine p).buffers
        (v.engine p).readPosition (v.engine p).cut (expectedCycle g.m (v.ring p).produced)))).setRing p
          { v.ring p with produced := (v.ring p).produced + 1 }).trigger p := rfl

end

/-! ## The last WRITE -/

section
variable (u : State) (p : PortId) (b : CacheEntry) (g : RingParameters) (e : Engine)

/-- An engine that has finished its image gives back the buffer and looks at its credit (R116). -/
theorem afterWrite_finished (done : e.readPosition = e.imageLength) :
    (u.setEngine p e).afterWrite p b g = ((u.setEngine p e).giveBack p).proceedToCredit p := by
  unfold State.afterWrite
  dsimp only
  rw [State.setEngine_engine_self, if_pos done]

/-- One that fills the last buffer the ring limit allows cuts its image (R115). -/
theorem afterWrite_cut (more : e.readPosition ≠ e.imageLength) (full : e.bufferFill = b.length)
    (last : e.buffers = 2 ^ g.k) : (u.setEngine p e).afterWrite p b g =
      (((u.setEngine p e).giveBack p).setEngine p { e with cut := true }).proceedToCredit p := by
  unfold State.afterWrite
  dsimp only
  rw [State.setEngine_engine_self, if_neg more, if_pos full, if_pos last]

/-- Giving back the buffer and replacing the engine do not meet. -/
theorem setEngine_giveBack : (u.setEngine p e).giveBack p = (u.giveBack p).setEngine p e := rfl

/-- Waiting for credit takes what was the engine's state (R117). -/
theorem setEngine_setHold_setEngine (x : Option Nat) (y : Engine) :
    ((u.setEngine p e).setHold p x).setEngine p y = (u.setHold p x).setEngine p y :=
  setEngine_setCache_setEngine u p { u.cache with holds := u.cache.holds.set p x } e y

/-- An engine whose image is finished, or cut at the last buffer, looks at its credit with its buffer given back (R115,
R116). -/
theorem afterWrite_last {cut : Bool} (last : e.readPosition = e.imageLength ∧ cut = e.cut ∨
    e.readPosition ≠ e.imageLength ∧ e.bufferFill = b.length ∧ e.buffers = 2 ^ g.k ∧ cut = true) :
    (u.setEngine p e).afterWrite p b g = ((u.giveBack p).setEngine p { e with cut := cut }).proceedToCredit p := by
  rcases last with ⟨done, rfl⟩ | ⟨more, full, limit, rfl⟩
  · rw [afterWrite_finished u p b g e done, setEngine_giveBack]
  · rw [afterWrite_cut u p b g e more full limit, setEngine_giveBack, State.setEngine_setEngine]

end

/-! ## The frontier -/

/-- The slot at a distance from the frontier holds its slice in state RETIRED (R28). -/
def State.RetiredAt (s : State) (j : Nat) : Prop :=
  (s.ctx (slotOf (s.frontier + BitVec.ofNat 32 j))).state = .retired ∧
    (s.ctx (slotOf (s.frontier + BitVec.ofNat 32 j))).slice = s.frontier + BitVec.ofNat 32 j

/-- The state once the frontier has passed its next `k` slots (R28). -/
def State.passed (s : State) (k : Nat) : State :=
  { s with
    frontier := s.frontier + BitVec.ofNat 32 k
    contexts := Vector.ofFn fun j : SlotId => if (j - slotOf s.frontier).val < k then Context.unopened else s.ctx j }

section
variable (s : State)

theorem State.frontierRetired_iff : s.frontierRetired = true ↔ s.RetiredAt 0 := by
  simp [State.frontierRetired, State.RetiredAt]

theorem State.passed_zero : s.passed 0 = s := by
  have contexts : (Vector.ofFn fun j : SlotId => if (j - slotOf s.frontier).val < 0 then Context.unopened else s.ctx j) =
      s.contexts := by
    simp only [Nat.not_lt_zero, if_false]
    exact Vector.ofFn_getElem
  unfold State.passed
  rw [contexts, show s.frontier + BitVec.ofNat 32 0 = s.frontier from BitVec.add_zero _]

/-- The state once the frontier has passed one RETIRED slot (R28). -/
def State.passOne (s : State) : State := (s.setCtx (slotOf s.frontier) Context.unopened).setFrontier (s.frontier + 1)

theorem slice_next (f : Slice) (j : Nat) : f + 1 + BitVec.ofNat 32 j = f + BitVec.ofNat 32 (j + 1) := by
  rw [BitVec.ofNat_add, BitVec.add_assoc]
  exact congrArg (f + ·) (BitVec.add_comm _ _)

/-- Passing one slot and then `k` is passing `k + 1`. -/
theorem State.passOne_passed (k : Nat) : s.passOne.passed k = s.passed (k + 1) := by
  have contexts (j : SlotId) : (if (j - slotOf (s.frontier + 1)).val < k then Context.unopened else s.passOne.ctx j) =
      if (j - slotOf s.frontier).val < k + 1 then Context.unopened else s.ctx j := by
    have slot : slotOf (s.frontier + 1) = slotOf s.frontier + 1 := by
      have h := (slotOf_add s.frontier 1 (by decide) (slotOf s.frontier + 1)).mpr (by rw [add_sub_cancel_left]; rfl)
      exact h.symm
    have ctx : s.passOne.ctx j = if slotOf s.frontier = j then Context.unopened else s.ctx j := by
      unfold State.passOne
      rw [State.setFrontier_ctx, State.setCtx_ctx]
    rw [slot, ctx]
    generalize hd : j - slotOf s.frontier = d
    have shifted : j - (slotOf s.frontier + 1) = d - 1 := by rw [← hd, sub_add_eq_sub_sub]
    have here : slotOf s.frontier = j ↔ d = 0 := by rw [← hd, sub_eq_zero]; exact eq_comm
    rw [shifted]
    simp only [here]
    by_cases first : d = 0
    · simp [first]
    · have before : (d - 1).val + 1 = d.val := by
        have : d.val ≠ 0 := fun h => first (Fin.ext h)
        rw [Fin.sub_val_of_le (Fin.le_iff_val_le_val.mpr (by simp; omega))]
        simp
        omega
      simp only [first, if_false]
      exact if_congr (by omega) rfl rfl
  unfold State.passed
  have frontier : s.passOne.frontier = s.frontier + 1 := rfl
  rw [frontier, slice_next]
  simp only [contexts]
  rfl

/-- A slot past the frontier's own keeps what it holds. -/
theorem State.passOne_retiredAt {j : Nat} (hj : j + 1 < 64) : s.passOne.RetiredAt j ↔ s.RetiredAt (j + 1) := by
  have frontier : s.passOne.frontier = s.frontier + 1 := rfl
  have other : slotOf s.frontier ≠ slotOf (s.frontier + BitVec.ofNat 32 (j + 1)) := fun h => by
    have := (slotOf_add s.frontier (j + 1) hj _).mp h
    rw [sub_self] at this
    exact Nat.succ_ne_zero j this.symm
  have ctx : s.passOne.ctx (slotOf (s.frontier + BitVec.ofNat 32 (j + 1))) =
      s.ctx (slotOf (s.frontier + BitVec.ofNat 32 (j + 1))) := by
    unfold State.passOne
    rw [State.setFrontier_ctx, State.setCtx_ctx, if_neg other]
  unfold State.RetiredAt
  rw [frontier, slice_next, ctx]

end

/-- The frontier passes just the RETIRED slots that follow one another from its own on (R28). -/
theorem passRetired_eq : ∀ (fuel k : Nat) (s : State), k ≤ fuel → fuel ≤ 64 → (∀ j, j < k → s.RetiredAt j) →
    (k < fuel → ¬s.RetiredAt k) → State.passRetired fuel s = s.passed k
  | 0, k, s, hk, _, _, _ => by
    obtain rfl := Nat.le_zero.mp hk
    exact s.passed_zero.symm
  | fuel + 1, 0, s, _, _, _, stops => by
    rw [s.passed_zero]
    exact if_neg fun h => stops (Nat.succ_pos fuel) (s.frontierRetired_iff.mp h)
  | fuel + 1, k + 1, s, hk, small, retired, stops => by
    have first := s.frontierRetired_iff.mpr (retired 0 (Nat.succ_pos k))
    have passes : State.passRetired (fuel + 1) s = State.passRetired fuel s.passOne := if_pos first
    rw [passes, ← s.passOne_passed k]
    refine passRetired_eq fuel k s.passOne (by omega) (by omega) (fun j hj => ?_) fun more => ?_
    · exact (s.passOne_retiredAt (by omega)).mpr (retired (j + 1) (by omega))
    · rw [s.passOne_retiredAt (by omega)]
      exact stops (by omega)

section
variable (s : State)

/-- With the frontier's slot not RETIRED nothing is done (R28; log 24). -/
theorem frontierAdvance_stays (h : ¬s.RetiredAt 0) : s.frontierAdvance = s :=
  if_neg fun retired => h (s.frontierRetired_iff.mp retired)

/-- The frontier passes the RETIRED slots from its own on (R28). -/
theorem frontierAdvance_passes {k : Nat} (some : 1 ≤ k) (hk : k ≤ 64) (retired : ∀ j, j < k → s.RetiredAt j)
    (stops : k < 64 → ¬s.RetiredAt k) :
    s.frontierAdvance = (((s.passed k).openToward s.newestStrobe).presentStalled).drainReport := by
  unfold State.frontierAdvance
  rw [if_pos (s.frontierRetired_iff.mpr (retired 0 some)), passRetired_eq 64 k s hk le_rfl retired stops]
  rfl

/-- Every opened slice is retired just when the frontier has passed the newest (R1, R28). -/
theorem State.openCount_eq_zero : s.openCount = 0 ↔ s.newestOpened + 1 = s.frontier := by
  unfold State.openCount
  constructor <;> intro h <;> bv_omega

theorem drainReport_ends (run : s.run = .draining) (empty : s.newestOpened + 1 = s.frontier) :
    s.drainReport = (s.setRun .stopped).presentStalled := if_pos ⟨run, s.openCount_eq_zero.mpr empty⟩

theorem drainReport_none (h : s.run ≠ .draining ∨ s.newestOpened + 1 ≠ s.frontier) : s.drainReport = s :=
  if_neg fun ⟨run, empty⟩ => h.elim (fun h => h run) fun h => h (s.openCount_eq_zero.mp empty)

end

/-! ## The end of a delivery -/

section
variable {s u : State} {p : PortId}

theorem State.allIdle_iff (s : State) : s.allIdle = true ↔ ∀ v, (s.engine v).state = .idle := by
  simp [State.allIdle, allPorts]

/-- FLUSHING ends once every engine is IDLE (R179). -/
theorem flushingEnd_eq (calm : ∀ r, (s.rx r).early = false) : s.flushingEnd =
    if s.run = .flushing ∧ ∀ v, (s.engine v).state = .idle then s.setRun .stopped else s := by
  unfold State.flushingEnd
  simp only [s.allIdle_iff]
  refine if_congr Iff.rfl ?_ rfl
  exact (s.setRun .stopped).presentStalled_id calm

/-- With nothing READY and no segment stalled, an engine that becomes IDLE ends FLUSHING with the last of them (R179). -/
theorem idle_flushingEnd (ready : s.ready = []) (calm : ∀ r, (s.rx r).early = false)
    (hu : u = (s.setEngine p Engine.idle).setHold p none) : (s.idleEngine p).walk.flushingEnd =
      if s.run = .flushing ∧ ∀ v, v ≠ p → (s.engine v).state = .idle then u.setRun .stopped else u := by
  have walked : (s.idleEngine p).walk = u := by
    unfold State.idleEngine
    rw [← hu]
    unfold State.walk
    rw [show u.ready = [] by rw [hu]; exact ready]
    rfl
  have engine (v : PortId) : (u.engine v).state = .idle ↔ v ≠ p → (s.engine v).state = .idle := by
    rw [hu, State.setHold, State.setCache_engine, State.setEngine_engine]
    split
    case isTrue e => exact iff_of_true rfl fun other => absurd e.symm other
    case isFalse e => exact ⟨fun h _ => h, fun h => h (Ne.symm e)⟩
  rw [walked, flushingEnd_eq (by rw [hu]; exact calm)]
  simp only [engine]
  rw [show u.run = s.run by rw [hu]; rfl]

/-- Draining ends with the engine of the port IDLE (R158). -/
theorem drainingEnd_draining (draining : (s.port p).state = .draining) (idle : (s.engine p).state = .idle) :
    s.drainingEnd p = ((s.setPort p { s.port p with state := .detached, notifyPending := false, quietUntil := none }).setCache
      (s.cache.teardown p false)).send p detachedMessage := if_pos ⟨draining, idle⟩

theorem drainingEnd_other (h : (s.port p).state ≠ .draining) : s.drainingEnd p = s := if_neg fun k => h k.1

end

/-- Settles O37. -/
theorem lastWriteCompletesTheDelivery : Obligations.LastWriteCompletesTheDelivery := by
  refine ⟨completionRecord_laid, fun p s i n b g e k first count x record t u cut found words he moving assigned buffer hx ring hk
    last hfirst hcount read hu hrecord => ?write, fun s i u hu => ⟨by rw [hu]; rfl, fun pages l holds hl nodup quiet canonical =>
      ?pages⟩, fun s u k retired hretired => ⟨fun h => ?stays, fun some hk all stops hu => ?passes, drainReport_none s,
      drainReport_ends s⟩, fun s u p ready calm hu => ?ends⟩
  case write =>
    obtain ⟨w, hw⟩ : ∃ w, w = t.send p (writeMessage (e.writeAddress b)
        ((e.header.drop (e.readPosition / 8)).take (k / 8) ++ words)) := ⟨_, rfl⟩
    have given : w.giveBack p = u := by
      rw [giveBack_eq, write_cache read hw, hw, hu]
    have writes := afterWrite_last w p b g (e.wrote k) last
    rw [given] at writes
    rw [exec_write_eq he moving assigned buffer (hx ▸ ring) hk hfirst hcount read hw, writes]
    have ringKept : (u.setEngine p { e.wrote k with cut := cut }).ring p = x := by rw [hx, hu]; rfl
    have engine : (u.setEngine p { e.wrote k with cut := cut }).engine p = { e.wrote k with cut := cut } :=
      State.setEngine_engine_self _ _ _
    have context : (u.setEngine p { e.wrote k with cut := cut }).ctx i = t.ctx i := by rw [hu]; rfl
    refine ⟨fun credit => ?_, fun credit => ?_⟩
    · rw [proceedToCredit_completes _ p i n g (by rw [engine]; exact assigned) (by rw [ringKept]; exact ring)
        (by rw [ringKept]; exact credit), hrecord]
      unfold State.complete
      rw [writeRecord_eq, ringKept, engine, context]
      rfl
    · rw [proceedToCredit_waits _ p i n g (by rw [engine]; exact assigned) (by rw [ringKept]; exact ring)
        (by rw [ringKept]; exact credit), engine, setEngine_setHold_setEngine]
      rfl
  case pages =>
    subst hl
    obtain ⟨pool, -, incidents, others, own⟩ := freeSlice_spec holds nodup quiet canonical
    obtain ⟨-, free, occupancy, retired, -, -, attributes, links⟩ :=
      PagePool.freedAll_spec (allSources.flatMap pages) s.pool canonical
    rw [← pool] at free occupancy retired attributes links
    subst hu
    exact ⟨free, occupancy, links, retired, attributes, incidents, others, own⟩
  case stays => exact frontierAdvance_stays s fun here => h ((hretired 0).mpr here)
  case passes =>
    rw [hu]
    exact frontierAdvance_passes s some hk (fun j hj => (hretired j).mp (all j hj)) fun more here =>
      stops more ((hretired k).mpr here)
  case ends =>
    obtain ⟨w, hw⟩ : ∃ w, w = if s.run = .flushing ∧ ∀ v, v ≠ p → (s.engine v).state = .idle then u.setRun .stopped else u :=
      ⟨_, rfl⟩
    obtain ⟨port, engine, cache⟩ : w.port p = s.port p ∧ (w.engine p).state = .idle ∧ w.cache = u.cache := by
      have idle : (u.engine p).state = .idle := by
        rw [hu, State.setHold, State.setCache_engine, State.setEngine_engine_self]
        rfl
      have kept : u.port p = s.port p := by rw [hu]; rfl
      rw [hw]
      split
      · exact ⟨kept, idle, rfl⟩
      · exact ⟨kept, idle, rfl⟩
    have ended : s.endOfDelivery p = w.drainingEnd p := by
      unfold State.endOfDelivery
      rw [idle_flushingEnd ready calm hu, ← hw]
    rw [ended, ← hw]
    refine ⟨fun other => drainingEnd_other (port ▸ other), fun draining => ?_⟩
    obtain ⟨entries, ring, hold, slots⟩ := u.cache.teardown_clears p false
    have joins := u.cache.teardown_tagJoins p
    rw [drainingEnd_draining (port ▸ draining) engine, port, cache]
    refine ⟨_, rfl, ring, entries, fun y found => slots y ?_, hold, ?_⟩
    · rw [hu]
      exact found
    · rw [hu] at joins ⊢
      exact joins

end Sys2Proof.Machine
end

section
/-! SUPPORT. A property of the state that the updates of slice assembly keep is kept by all that slice assembly does: closures,
openings, placements, verdicts, frees and the frontier's advance. -/

namespace Sys2Proof.Machine

/-- A property of the state that the updates slice assembly is made of keep: what it keeps of receivers, pages, contexts, the
ready list, the run, incidents and their triggers, and the slices the dispatcher assigns to ACTIVE ports. -/
structure Undisturbed (P : State → Prop) : Prop where
  rx : ∀ s r x, P s → P (s.setRx r x)
  pool : ∀ s x, P s → P (s.setPool x)
  pressure : ∀ s x, P s → P (s.setPressure x)
  ctx : ∀ s i x, P s → P (s.setCtx i x)
  ready : ∀ s x, P s → P (s.setReady x)
  incidents : ∀ s x, P s → P (s.setIncidents x)
  frontier : ∀ s n, P s → P (s.setFrontier n)
  opened : ∀ s n, P s → P (s.setNewestOpened n)
  trigger : ∀ s p, P s → P (s.trigger p)
  assign : ∀ s e p, (s.port p).state = .active → P s → P (s.assign e p)

namespace Undisturbed

variable {P : State → Prop} (h : Undisturbed P)
include h

/-! ## Incidents and pages -/

theorem post {s : State} (k : IncidentKind) (c : IncidentSource) (n : Option Slice) (d : Word) (hs : P s) : P (s.post k c n d) := by
  unfold State.post
  split
  · split
    · exact each_holds _ (fun p t => h.trigger t p) _ (h.incidents _ _ hs)
    · exact h.incidents _ _ hs
  · exact h.incidents _ _ hs

theorem evaluate {s : State} (hs : P s) : P s.evaluate := by
  unfold State.evaluate
  split
  · exact h.post _ _ _ _ (h.pressure _ _ hs)
  · exact h.pressure _ _ hs

theorem endNoPages {s : State} (hs : P s) : P s.endNoPages := each_holds _ (fun _ _ => h.rx _ _ _) _ hs

theorem freePage {s : State} (n : Slice) (page : Nat) (hs : P s) : P (s.freePage n page) := by
  unfold State.freePage
  split
  · split
    · exact h.evaluate (h.pool _ _ hs)
    · exact h.post _ _ _ _ (h.endNoPages (h.evaluate (h.pool _ _ hs)))
  · exact h.endNoPages (h.evaluate (h.pool _ _ hs))

theorem freePages {s : State} (n : Slice) (pages : List Nat) (hs : P s) : P (s.freePages n pages) :=
  each_holds _ (fun page _ => h.freePage n page) _ hs

theorem rollback {s : State} (r : ReceiverId) (hs : P s) : P (s.rollback r) := by
  unfold State.rollback State.dropRecord State.unlink
  split
  · exact hs
  · refine h.rx _ _ _ (h.freePages _ _ ?_)
    split
    · exact h.pool _ _ hs
    · exact hs

theorem freeSlice {s : State} (i : SlotId) (hs : P s) : P (s.freeSlice i) :=
  each_holds _ (fun _ _ ht => h.ctx _ _ _ (h.freePages _ _ ht)) _ hs

/-! ## The walk and closures -/

theorem walk {s : State} (hs : P s) : P s.walk := by
  refine each_holds _ (fun e t ht => ?_) _ hs
  unfold State.considerEntry
  split
  case h_1 p best => exact h.assign t e p (bestPort_active best) ht
  case h_2 => exact ht

theorem enterReady {s : State} (n : Slice) (hs : P s) : P (s.enterReady n) := h.walk (h.ready _ _ hs)

theorem abandonFor {s : State} (i : SlotId) (r : ReceiverId) (hs : P s) : P (s.abandonFor i r) := by
  unfold State.abandonFor State.abandonRecord
  split
  · split
    · split
      · exact hs
      · exact h.rx _ _ _ (h.rollback r hs)
    · exact hs
  · exact hs

theorem clearCurrent {s : State} (n : Slice) (r : ReceiverId) (hs : P s) : P (s.clearCurrent n r) := by
  unfold State.clearCurrent
  split
  · exact h.rx _ _ _ hs
  · exact hs

theorem closeContext {s : State} (i : SlotId) (reason : ClosureReason) (hs : P s) : P (s.closeContext i reason) :=
  h.enterReady _ (h.ctx _ _ _ (each_holds _ (fun r _ => h.clearCurrent _ r) _ (each_holds _ (fun r _ => h.abandonFor i r) _ hs)))

theorem closureCheck {s : State} (i : SlotId) (hs : P s) : P (s.closureCheck i) := by
  unfold State.closureCheck
  split
  · exact h.closeContext i _ hs
  · exact hs

theorem breakChain {s : State} (i : SlotId) (q : SourceId) (hs : P s) : P (s.breakChain i q) := by
  unfold State.breakChain
  split
  · exact h.closureCheck i (h.ctx _ _ _ hs)
  · exact hs

/-! ## Openings -/

theorem openNext {s : State} (hs : P s) : P s.openNext := h.closureCheck _ (h.opened _ _ (h.ctx _ _ _ hs))

theorem openThrough {s : State} (n : Slice) (hs : P s) : P (s.openThrough n) :=
  each_holds (P := P) _ (fun _ _ ht => h.openNext ht) _ hs

theorem openToward {s : State} (n : Slice) (hs : P s) : P (s.openToward n) := by
  unfold State.openToward
  split
  · split
    · exact h.openThrough _ hs
    · exact h.openThrough _ hs
    · exact hs
  · exact hs

/-! ## Verdicts and placement -/

theorem commitRecord {s : State} (r : ReceiverId) (x : ProvisionalRecord) (header : SegmentHeader) (hs : P s) :
    P (s.commitRecord r x header) := by
  rw [commitRecord_eq]
  split
  · exact h.closureCheck _ (h.ctx _ _ _ (h.rx _ _ _ hs))
  · exact h.ctx _ _ _ (h.rx _ _ _ hs)

theorem rejectRecord {s : State} (r : ReceiverId) (x : ProvisionalRecord) (v : Verdict) (hs : P s) : P (s.rejectRecord r x v) := by
  refine h.breakChain _ _ ?_
  split
  · exact h.ctx _ _ _ (h.rx _ _ _ (h.rollback r hs))
  · exact h.rx _ _ _ (h.rollback r hs)

theorem settleVerdict {s : State} (r : ReceiverId) (hs : P s) : P (s.settleVerdict r) := by
  unfold State.settleVerdict State.deliver
  split
  · exact hs
  split
  · exact hs
  split
  case isFalse => exact hs
  case isTrue =>
    have popped := h.rx s r (s.rx r).popHead hs
    dsimp only
    split
    · exact h.rx _ _ _ popped
    · split
      · exact h.commitRecord r _ _ popped
      · exact h.rejectRecord r _ _ popped

theorem accept {s : State} (r : ReceiverId) (q : SourceId) (header : SegmentHeader) (hs : P s) : P (s.accept r q header) := by
  unfold State.accept
  refine h.settleVerdict r ?_
  have opened : P (if (s.ctx (slotOf header.slice)).state = .unopened then s.openThrough header.slice else s) := by
    split
    · exact h.openThrough _ hs
    · exact hs
  split
  · exact h.ctx _ _ _ (h.rx _ _ _ opened)
  · exact h.rx _ _ _ opened

theorem discardEffects {s : State} (r : ReceiverId) (q : SourceId) (header : SegmentHeader) (reason : DiscardReason) (hs : P s) :
    P (s.discardEffects r q header reason) := by
  unfold State.discardEffects
  split
  · exact hs
  · refine h.post _ _ _ _ ?_
    unfold State.markLateSeen
    dsimp only
    split
    · exact h.ctx _ _ _ hs
    · exact hs
  · unfold State.breakPlaced
    split
    · exact h.breakChain _ _ (h.post _ _ _ _ hs)
    · exact h.post _ _ _ _ hs
  · exact h.post _ _ _ _ (h.ctx _ _ _ hs)
  · split
    · exact h.rx _ _ _ hs
    · exact hs

theorem cutFragment {s : State} (r : ReceiverId) (q : SourceId) (kind : SegmentKind) (hs : P s) : P (s.cutFragment r q kind) := by
  unfold State.cutFragment
  split
  · exact hs
  · split
    · refine h.rx _ _ _ ?_
      split
      · exact h.breakChain _ _ hs
      · exact hs
    · exact hs

theorem judge {s : State} (r : ReceiverId) (q : SourceId) (header : SegmentHeader) (hs : P s) : P (s.judge r q header) := by
  have cut := h.cutFragment r q header.kind hs
  unfold State.judge
  dsimp only
  split
  · exact h.accept r q header cut
  · exact h.rx _ _ _ cut
  · exact h.discardEffects r q header _ (h.rx _ _ _ cut)

theorem present {s : State} (r : ReceiverId) (hs : P s) : P (s.present r) := by
  unfold State.present
  split
  · split
    · exact hs
    · split
      · split
        · exact h.judge r _ _ hs
        · exact h.rx _ _ _ hs
      · exact h.rx _ _ _ hs
  · exact hs

theorem presentStalled {s : State} (hs : P s) : P s.presentStalled := by
  refine each_holds _ (fun r t ht => ?_) _ hs
  unfold State.presentAgain
  split
  · exact h.present r ht
  · exact ht

/-! ## The frontier and the run -/

theorem passRetired : ∀ (fuel : Nat) {s : State}, P s → P (State.passRetired fuel s)
  | 0, _, hs => hs
  | fuel + 1, s, hs => by
    unfold State.passRetired
    split
    · exact passRetired fuel (h.frontier _ _ (h.ctx _ _ _ hs))
    · exact hs

section
variable (run : ∀ s x, P s → P (s.setRun x))
include run

theorem changeRun {s : State} (x : RunState) (hs : P s) : P (s.changeRun x) := h.presentStalled (run _ _ hs)

theorem frontierAdvance {s : State} (hs : P s) : P s.frontierAdvance := by
  unfold State.frontierAdvance State.drainReport
  split
  · have presented : P (((State.passRetired 64 s).openToward (State.passRetired 64 s).newestStrobe).presentStalled) :=
      h.presentStalled (h.openToward _ (h.passRetired 64 hs))
    dsimp only
    split
    · exact h.changeRun run _ presented
    · exact presented
  · exact hs

theorem retire {s : State} (i : SlotId) (hs : P s) : P (s.retire i) := h.frontierAdvance run (h.ctx _ _ _ (h.freeSlice i hs))

theorem flushingEnd {s : State} (hs : P s) : P s.flushingEnd := by
  unfold State.flushingEnd
  split
  · exact h.changeRun run _ hs
  · exact hs

end

end Undisturbed

/-! ## The cache's own work -/

/-- A property that every grant and every eviction keeps is kept by the cache's own work (log 19). -/
theorem settleCache_holds {P : State → Prop} (fetch : ∀ s p, P s → P (s.considerFetch p)) (evict : ∀ s p, P s → P (s.evictFor p))
    {s : State} (hs : P s) : P s.settleCache := by
  have grants {t : State} (ht : P t) : P t.grantFetches := each_holds _ (fun p u => fetch u p) _ ht
  have pass {t : State} (ht : P t) : P t.cachePass := each_holds _ (fun p u => evict u p) _ (grants ht)
  exact grants (pass (pass (pass (pass hs))))

end Sys2Proof.Machine
end

section
/-! PROOF. The link of a port that is not attached (R151, R161). -/

namespace Sys2Proof.Machine

/-- A port that is not attached comes out of a link loss in LINK_DOWN, its abandoned tags ended (R147, R161). -/
theorem loseLink_unattached {s : State} {p : PortId} (h : (s.port p).state.attached = false) :
    s.loseLink p = (s.setPort p { Port.reset with state := .linkDown, cause := (s.port p).cause }).endTags p := by
  unfold State.loseLink
  dsimp only
  rw [if_neg (Bool.eq_false_iff.mp h)]
  refine congrArg (fun x => (s.setPort p x).endTags p) ?_
  unfold Port.lost
  rw [if_neg (Bool.eq_false_iff.mp h)]
  rfl

section
variable {s : State} {p : PortId}

/-- PORT_LINK_UP of a LINK_DOWN port (R151). -/
theorem exec_portLinkUp_down (h : (s.port p).state = .linkDown) :
    exec (.portLinkUp p) s = .next (s.setPort p { Port.reset with state := .detached, cause := (s.port p).cause }) := by
  show execPortLinkUp p s = _
  unfold execPortLinkUp
  rw [h]

/-- PORT_LINK_UP of a port whose link is up (R151). -/
theorem exec_portLinkUp_up (h : (s.port p).state ≠ .linkDown) : exec (.portLinkUp p) s = .next s := by
  show execPortLinkUp p s = _
  unfold execPortLinkUp
  split
  case h_1 down => exact absurd down h
  all_goals rfl

/-- PORT_LINK_DOWN of a LINK_DOWN port (R161). -/
theorem exec_portLinkDown_down (h : (s.port p).state = .linkDown) : exec (.portLinkDown p) s = .next s := by
  show execPortLinkDown p s = _
  unfold execPortLinkDown
  rw [h]

/-- PORT_LINK_DOWN of a port whose link is up (R161). -/
theorem exec_portLinkDown_up (h : (s.port p).state ≠ .linkDown) :
    exec (.portLinkDown p) s = .next (s.loseLink p).settleCache := by
  show execPortLinkDown p s = _
  unfold execPortLinkDown
  split
  case h_1 down => exact absurd down h
  all_goals rfl

end

/-- Settles O39. -/
theorem linkOfAnUnattachedPort : Obligations.LinkOfAnUnattachedPort := by
  intro p s
  refine ⟨exec_portLinkUp_down, exec_portLinkUp_up, exec_portLinkDown_down, fun h => ?_⟩
  have up : (s.port p).state ≠ .linkDown := by rcases h with h | h <;> simp [h]
  have unattached : (s.port p).state.attached = false := by rcases h with h | h <;> simp [h, PortState.attached]
  rw [exec_portLinkDown_up up, loseLink_unattached unattached]
  rfl

end Sys2Proof.Machine
end

section
/-! SUPPORT. A port that is not attached rests through the work of the other parts (R135, R142, R144, R152, R188), and its rings stay torn
down (R146). -/

namespace Sys2Proof.Machine

/-! ## A port at rest -/

/-- Port `p` has this record, this engine and has sent these messages. -/
structure State.Rests (p : PortId) (x : Port) (e : Engine) (m : List (List Word)) (t : State) : Prop where
  port : t.port p = x
  engine : t.engine p = e
  sent : t.sent[p] = m

/-- Port `p` rests, with its ring record, entries, eviction hold and the fetch slot `out` gone from the cache and its abandoned tags at
`tags` (R146, R147). -/
structure State.Torn (p : PortId) (x : Port) (e : Engine) (m : List (List Word)) (out : Option (Fin 4)) (tags : BitVec 4)
    (t : State) : Prop where
  rests : t.Rests p x e m
  ring : t.ring p = Ring.torn
  entries : ∀ b ∈ t.cache.entries, b.port ≠ p
  slots : ∀ y, out = some y → ∀ f, t.cache.slots[y] = some f → f.port ≠ p
  hold : t.cache.holds[p] = none
  tags : t.cache.abandoned[p] = tags

section
variable {p : PortId} {x : Port} {e : Engine} {m : List (List Word)} {out : Option (Fin 4)} {tags : BitVec 4} {s t : State}

theorem State.Rests.congr (h : s.Rests p x e m) (port : t.port p = s.port p) (engine : t.engine p = s.engine p)
    (sent : t.sent[p] = s.sent[p]) : t.Rests p x e m :=
  ⟨port.trans h.port, engine.trans h.engine, sent.trans h.sent⟩

theorem State.Torn.congr (h : s.Torn p x e m out tags) (port : t.port p = s.port p) (engine : t.engine p = s.engine p)
    (sent : t.sent[p] = s.sent[p]) (cache : t.cache = s.cache) : t.Torn p x e m out tags where
  rests := h.rests.congr port engine sent
  ring := by unfold State.ring; rw [cache]; exact h.ring
  entries := by rw [cache]; exact h.entries
  slots := by rw [cache]; exact h.slots
  hold := by rw [cache]; exact h.hold
  tags := by rw [cache]; exact h.tags

/-- What another port sends does not change what a port has sent. -/
theorem setSent_sent_ne {q : PortId} (l : List (List Word)) (h : q ≠ p) : (s.setSent q l).sent[p] = s.sent[p] :=
  Vector.getElem_set_ne q.isLt p.isLt fun same => h (Fin.ext same)

/-- A trigger changes nothing of a port that is not attached (R188). -/
theorem trigger_rests {q : PortId} (unattached : (s.port p).state.attached = false) :
    (s.trigger q).port p = s.port p ∧ (s.trigger q).sent[p] = s.sent[p] := by
  rcases eq_or_ne q p with rfl | other
  · rw [trigger_unattached s q unattached]
    exact ⟨rfl, rfl⟩
  · unfold State.trigger State.sendNotify State.send
    split
    · split
      · exact ⟨State.setPort_port_ne _ _ _ _ other, rfl⟩
      · exact ⟨State.setPort_port_ne _ _ _ _ other, setSent_sent_ne _ other⟩
    · exact ⟨rfl, rfl⟩

/-- Another port's engine has no part in a port's rest. -/
theorem setEngine_rests {q : PortId} (h : s.Rests p x e m) (y : Engine) (other : q ≠ p) : (s.setEngine q y).Rests p x e m :=
  h.congr rfl (State.setEngine_engine_ne _ _ _ _ other) rfl

theorem takeBuffer_rests {q : PortId} (h : s.Rests p x e m) (other : q ≠ p) : (s.takeBuffer q).Rests p x e m := by
  unfold State.takeBuffer
  dsimp only
  split
  · exact setEngine_rests (s := (s.setCache (s.cache.handOver q)).setHold q none) (h.congr rfl rfl rfl) _ other
  · exact setEngine_rests h _ other

theorem takeSlice_rests {q : PortId} (h : s.Rests p x e m) (i : SlotId) (other : q ≠ p) : (s.takeSlice q i).Rests p x e m :=
  takeBuffer_rests (setEngine_rests h _ other) other

/-- A slice assigned to another port leaves a port at rest (R98, R108, R142). -/
theorem assign_rests {q : PortId} (h : s.Rests p x e m) (entry : ReadyEntry) (other : q ≠ p) :
    (s.assign entry q).Rests p x e m := by
  refine takeSlice_rests ?_ _ other
  exact h.congr rfl rfl rfl

/-- Handing another port its entry keeps a port's rings torn down (R142). -/
theorem handOver_torn {q : PortId} (h : s.Torn p x e m out tags) (other : q ≠ p) :
    (s.setCache (s.cache.handOver q)).Torn p x e m out tags where
  rests := h.rests.congr rfl rfl rfl
  ring := (Vector.getElem_set_ne q.isLt p.isLt fun same => other (Fin.ext same)).trans h.ring
  entries b mem := by
    obtain ⟨c, old, rfl⟩ := List.mem_map.mp mem
    rw [assignEntry_eq]
    dsimp only
    split
    · exact h.entries c old
    · exact h.entries c old
  slots := h.slots
  hold := h.hold
  tags := h.tags

/-- The hold of another port has no part in a port's torn rings (R145). -/
theorem setHold_torn {q : PortId} (h : s.Torn p x e m out tags) (y : Option Nat) (other : q ≠ p) :
    (s.setHold q y).Torn p x e m out tags where
  rests := h.rests.congr rfl rfl rfl
  ring := h.ring
  entries := h.entries
  slots := h.slots
  hold := (Vector.getElem_set_ne q.isLt p.isLt fun same => other (Fin.ext same)).trans h.hold
  tags := h.tags

/-- Another port's engine has no part in a port's torn rings. -/
theorem setEngine_torn {q : PortId} (h : s.Torn p x e m out tags) (y : Engine) (other : q ≠ p) :
    (s.setEngine q y).Torn p x e m out tags := h.congr rfl (State.setEngine_engine_ne _ _ _ _ other) rfl rfl

theorem takeBuffer_torn {q : PortId} (h : s.Torn p x e m out tags) (other : q ≠ p) : (s.takeBuffer q).Torn p x e m out tags := by
  unfold State.takeBuffer
  dsimp only
  split
  · exact setEngine_torn (setHold_torn (handOver_torn h other) none other) _ other
  · exact setEngine_torn h _ other

theorem takeSlice_torn {q : PortId} (h : s.Torn p x e m out tags) (i : SlotId) (other : q ≠ p) :
    (s.takeSlice q i).Torn p x e m out tags := takeBuffer_torn (setEngine_torn h _ other) other

theorem assign_torn {q : PortId} (h : s.Torn p x e m out tags) (entry : ReadyEntry) (other : q ≠ p) :
    (s.assign entry q).Torn p x e m out tags := by
  refine takeSlice_torn ?_ _ other
  exact h.congr rfl rfl rfl rfl

/-! ## The cache's own work -/

/-- A port that is not attached is granted no fetch (R135), and a fetch of another port leaves its rings torn down. -/
theorem considerFetch_torn (q : PortId) (unattached : x.state.attached = false) (h : s.Torn p x e m out tags) :
    (s.considerFetch q).Torn p x e m out tags := by
  unfold State.considerFetch
  split
  case h_2 => exact h
  dsimp only
  split
  case isFalse => exact h
  case isTrue grant =>
    have other : q ≠ p := by
      rintro rfl
      rw [Bool.and_eq_true, State.wantsFetch_iff] at grant
      obtain ⟨⟨⟨attached, -⟩, -⟩, -⟩ := grant
      rw [h.rests.port] at attached
      rcases attached with state | ⟨state, -⟩ <;> simp [state, PortState.attached] at unattached
    unfold State.issueFetch State.send
    refine ⟨⟨h.rests.port, h.rests.engine, (setSent_sent_ne _ other).trans h.rests.sent⟩, h.ring, h.entries, fun y gone f slot => ?_,
      (Vector.getElem_set_ne q.isLt p.isLt fun same => other (Fin.ext same)).trans h.hold, h.tags⟩
    rename_i t g _ _
    rcases eq_or_ne t y with rfl | apart
    · have : f.port = q := by
        have held := (Vector.getElem_set_self t.isLt).symm.trans slot
        cases held
        rfl
      exact this ▸ other
    · exact h.slots y gone f ((Vector.getElem_set_ne t.isLt y.isLt fun same => apart (Fin.ext same)).symm.trans slot)

/-- A port with its rings torn down has no entry CACHED. -/
theorem State.Torn.cachedCount (h : s.Torn p x e m out tags) : s.cache.cachedCount p = 0 := by
  refine List.length_eq_zero_iff.mpr (List.filter_eq_nil_iff.mpr fun b mem cached => h.entries b mem ?_)
  simp only [CacheEntry.cachedFor, Bool.and_eq_true, beq_iff_eq] at cached
  exact cached.1

/-- Which ports may lose entries to an eviction (R144). -/
theorem Cache.mayLose_iff (c : Cache) (p v : PortId) :
    c.mayLose p v = true ↔ v ≠ p ∧ 2 ≤ c.cachedCount v ∧ c.outstanding v = none := by
  simp [Cache.mayLose, and_assoc]

/-- What another port loses to an eviction has no part in a port's torn rings (R145). -/
theorem rewind_torn {v : PortId} (h : s.Torn p x e m out tags) (other : v ≠ p) (n : Nat) :
    (s.setCache (s.cache.rewind v n)).Torn p x e m out tags where
  rests := h.rests.congr rfl rfl rfl
  ring := (Vector.getElem_set_ne v.isLt p.isLt fun same => other (Fin.ext same)).trans h.ring
  entries b mem := h.entries b (List.mem_filter.mp mem).1
  slots := h.slots
  hold := h.hold
  tags := h.tags

/-- A port without entries loses none to an eviction, and none is made for an IDLE engine (R144, R145). -/
theorem evictFor_torn (q : PortId) (idle : e.state = .idle) (h : s.Torn p x e m out tags) :
    (s.evictFor q).Torn p x e m out tags := by
  unfold State.evictFor
  split
  case isFalse => exact h
  case isTrue starves =>
    split
    case h_2 => exact h
    case h_1 v victim =>
      have other : q ≠ p := by
        rintro rfl
        obtain ⟨waits, -⟩ := (s.starves_iff q).mp starves
        rw [h.rests.engine, idle] at waits
        cases waits
      have apart : v ≠ p := by
        rintro rfl
        obtain ⟨loses, -⟩ := ((s.cache.victim_iff q).2 v).mp victim
        obtain ⟨-, two, -⟩ := (s.cache.mayLose_iff q v).mp loses
        rw [h.cachedCount] at two
        exact absurd two (by decide)
      exact setHold_torn (rewind_torn h apart _) _ other

theorem settleCache_torn (unattached : x.state.attached = false) (idle : e.state = .idle) (h : s.Torn p x e m out tags) :
    s.settleCache.Torn p x e m out tags :=
  settleCache_holds (fun _ q => considerFetch_torn q unattached) (fun _ q => evictFor_torn q idle) h

/-! ## Slice assembly and the dispatcher -/

/-- A port that is not attached rests through slice assembly and the walks it causes. -/
theorem rests_undisturbed (unattached : x.state.attached = false) : Undisturbed (State.Rests p x e m) where
  rx _ _ _ h := h.congr rfl rfl rfl
  pool _ _ h := h.congr rfl rfl rfl
  pressure _ _ h := h.congr rfl rfl rfl
  ctx _ _ _ h := h.congr rfl rfl rfl
  ready _ _ h := h.congr rfl rfl rfl
  incidents _ _ h := h.congr rfl rfl rfl
  frontier _ _ h := h.congr rfl rfl rfl
  opened _ _ h := h.congr rfl rfl rfl
  trigger s q h := by
    obtain ⟨port, sent⟩ := trigger_rests (s := s) (q := q) (h.port ▸ unattached)
    exact h.congr port (trigger_keeps (fun t => t.engine p) (fun _ _ _ => rfl) (fun _ _ _ => rfl) s q) sent
  assign s entry q active h := by
    have other : q ≠ p := by
      rintro rfl
      rw [h.port] at active
      simp [active, PortState.attached] at unattached
    exact assign_rests h entry other

/-- Its rings stay torn down too. -/
theorem torn_undisturbed (unattached : x.state.attached = false) : Undisturbed (State.Torn p x e m out tags) where
  rx _ _ _ h := h.congr rfl rfl rfl rfl
  pool _ _ h := h.congr rfl rfl rfl rfl
  pressure _ _ h := h.congr rfl rfl rfl rfl
  ctx _ _ _ h := h.congr rfl rfl rfl rfl
  ready _ _ h := h.congr rfl rfl rfl rfl
  incidents _ _ h := h.congr rfl rfl rfl rfl
  frontier _ _ h := h.congr rfl rfl rfl rfl
  opened _ _ h := h.congr rfl rfl rfl rfl
  trigger s q h := by
    obtain ⟨port, sent⟩ := trigger_rests (s := s) (q := q) (h.rests.port ▸ unattached)
    exact h.congr port (trigger_keeps (fun t => t.engine p) (fun _ _ _ => rfl) (fun _ _ _ => rfl) s q) sent
      (trigger_keeps State.cache (fun _ _ _ => rfl) (fun _ _ _ => rfl) s q)
  assign s entry q active h := by
    refine assign_torn h entry ?_
    rintro rfl
    rw [h.rests.port] at active
    simp [active, PortState.attached] at unattached

end

end Sys2Proof.Machine
end

section
/-! PROOF. The end of a port's session by link loss (R161), and what it shares with a fault (R159): the port at rest with its rings torn
down, and what becomes of the slice its engine held (R101, R121, R124). -/

namespace Sys2Proof.Machine

/-! ## Freeing a slice reads the store's side alone -/

/-- Two states agree on what freeing pages reads: the pool, the contexts, the pressure, the incidents, the items and the slot counter. -/
structure State.StoreAgrees (s t : State) : Prop where
  pool : t.pool = s.pool
  contexts : t.contexts = s.contexts
  pressure : t.pressure = s.pressure
  incidents : t.incidents = s.incidents
  items : t.items = s.items
  counter : t.counter = s.counter

namespace State.StoreAgrees

variable {s t : State} (h : s.StoreAgrees t)
include h

theorem post (k : IncidentKind) (c : IncidentSource) (n : Option Slice) (d : Word) : (s.post k c n d).StoreAgrees (t.post k c n d) where
  pool := by rw [post_pool, post_pool, h.pool]
  contexts := by rw [post_contexts, post_contexts, h.contexts]
  pressure := by
    rw [post_keeps State.pressure (fun _ _ _ => rfl) (fun _ _ _ => rfl) (fun _ _ => rfl),
      post_keeps State.pressure (fun _ _ _ => rfl) (fun _ _ _ => rfl) (fun _ _ => rfl), h.pressure]
  incidents := post_incidents_congr k c n d h.incidents h.counter
  items := by rw [post_items, post_items, h.items]
  counter := by
    rw [post_keeps State.counter (fun _ _ _ => rfl) (fun _ _ _ => rfl) (fun _ _ => rfl),
      post_keeps State.counter (fun _ _ _ => rfl) (fun _ _ _ => rfl) (fun _ _ => rfl), h.counter]

theorem evaluated : t.evaluated = s.evaluated := by
  have threshold (k : Fin 4) : t.threshold k = s.threshold k := by unfold State.threshold; rw [h.items]
  have below (k : Fin 4) : t.below k = s.below k := by unfold State.below State.margin; rw [h.pool, h.items, threshold]
  unfold State.evaluated State.risen State.fallenFrom
  simp only [threshold, below, h.pool, h.pressure]

theorem setPool (x : PagePool) : (s.setPool x).StoreAgrees (t.setPool x) :=
  ⟨rfl, h.contexts, h.pressure, h.incidents, h.items, h.counter⟩

theorem evaluate : s.evaluate.StoreAgrees t.evaluate := by
  have level : (s.setPressure { s.pressure with level := s.evaluated }).StoreAgrees
      (t.setPressure { t.pressure with level := t.evaluated }) :=
    ⟨h.pool, h.contexts, by rw [h.evaluated, h.pressure]; rfl, h.incidents, h.items, h.counter⟩
  unfold State.evaluate
  rw [h.pool, h.pressure, h.evaluated] at *
  split
  · exact level.post _ _ _ _
  · exact level

theorem endNoPages : s.endNoPages.StoreAgrees t.endNoPages := by
  have keeps {α : Type} (g : State → α) (hg : ∀ u r, g (State.clearNoPages u r) = g u) (u : State) : g u.endNoPages = g u :=
    each_keeps g _ _ (fun r v => hg v r) u
  exact ⟨by rw [keeps State.pool fun _ _ => rfl, keeps State.pool fun _ _ => rfl, h.pool],
    by rw [keeps State.contexts fun _ _ => rfl, keeps State.contexts fun _ _ => rfl, h.contexts],
    by rw [keeps State.pressure fun _ _ => rfl, keeps State.pressure fun _ _ => rfl, h.pressure],
    by rw [keeps State.incidents fun _ _ => rfl, keeps State.incidents fun _ _ => rfl, h.incidents],
    by rw [keeps State.items fun _ _ => rfl, keeps State.items fun _ _ => rfl, h.items],
    by rw [keeps State.counter fun _ _ => rfl, keeps State.counter fun _ _ => rfl, h.counter]⟩

theorem freePage (n : Slice) (page : Nat) : (s.freePage n page).StoreAgrees (t.freePage n page) := by
  unfold State.freePage
  rw [h.pool]
  split
  · split
    · exact (h.setPool _).evaluate
    · exact (h.setPool _).evaluate.endNoPages.post _ _ _ _
  · exact (h.setPool _).evaluate.endNoPages

omit h in
theorem each {α : Type} {f : α → State → State} (hf : ∀ a {u v : State}, u.StoreAgrees v → (f a u).StoreAgrees (f a v)) :
    ∀ (l : List α) {s t : State}, s.StoreAgrees t → (s.each l f).StoreAgrees (t.each l f)
  | [], _, _, h => h
  | a :: l, _, _, h => each hf l (hf a h)

theorem ctx (i : SlotId) : t.ctx i = s.ctx i := by unfold State.ctx; rw [h.contexts]

theorem setCtx (i : SlotId) (c : Context) : (s.setCtx i c).StoreAgrees (t.setCtx i c) :=
  ⟨h.pool, congrArg (fun v : Vector Context 64 => v.set i c) h.contexts, h.pressure, h.incidents, h.items, h.counter⟩

theorem freeChain (i : SlotId) (q : SourceId) : (s.freeChain i q).StoreAgrees (t.freeChain i q) := by
  have freed : (s.freePages (s.ctx i).slice (s.pool.run ((s.ctx i).chain q).tail Config.maxChainPages ((s.ctx i).chain q).head)).StoreAgrees
      (t.freePages (s.ctx i).slice (s.pool.run ((s.ctx i).chain q).tail Config.maxChainPages ((s.ctx i).chain q).head)) :=
    each (fun page _ _ agrees => agrees.freePage _ page) _ h
  unfold State.freeChain
  rw [h.ctx, h.pool]
  dsimp only
  rw [freed.ctx]
  exact freed.setCtx _ _

theorem freeSlice (i : SlotId) : (s.freeSlice i).StoreAgrees (t.freeSlice i) := each (fun q _ _ agrees => agrees.freeChain i q) _ h

end State.StoreAgrees

/-- Freeing a slice keeps whatever each of its updates keeps. -/
theorem freeSlice_keeps {α : Type} (g : State → α) (hs : ∀ s p x, g (s.setSent p x) = g s) (hp : ∀ s p x, g (s.setPort p x) = g s)
    (hi : ∀ s x, g (s.setIncidents x) = g s) (hq : ∀ s x, g (s.setPressure x) = g s) (hl : ∀ s x, g (s.setPool x) = g s)
    (hr : ∀ s r, g (s.clearNoPages r) = g s) (hc : ∀ s i x, g (s.setCtx i x) = g s) (s : State) (i : SlotId) :
    g (s.freeSlice i) = g s :=
  each_keeps g _ _ (fun _ t => (hc _ _ _).trans (freePages_keeps g hs hp hi hq hl hr t _ _)) s

/-! ## The frontier in FLUSHING -/

section
variable {α : Type} (g : State → α) (hc : ∀ s i x, g (s.setCtx i x) = g s) (hf : ∀ s n, g (s.setFrontier n) = g s)
include hc hf

/-- Passing retired slots changes contexts and the frontier alone (R28). -/
theorem passRetired_keeps : ∀ (fuel : Nat) (s : State), g (State.passRetired fuel s) = g s
  | 0, _ => rfl
  | fuel + 1, s => by
    unfold State.passRetired
    split
    · rw [passRetired_keeps fuel, hf, hc]
    · rfl

end

/-- In FLUSHING, with no segment stalled, the frontier passes retired slots and nothing else is done (R8, R28). -/
theorem frontierAdvance_flushing {s : State} (run : s.run = .flushing) (calm : ∀ r, (s.rx r).early = false) :
    s.frontierAdvance = s ∨ s.frontierAdvance = State.passRetired 64 s := by
  unfold State.frontierAdvance
  split
  case isFalse => exact .inl rfl
  case isTrue =>
    refine .inr ?_
    obtain ⟨u, hu⟩ : ∃ u, u = State.passRetired 64 s := ⟨_, rfl⟩
    have keptRun : u.run = .flushing := by rw [hu, passRetired_keeps State.run (fun _ _ _ => rfl) fun _ _ => rfl, run]
    have keptCalm (r : ReceiverId) : (u.rx r).early = false := by
      rw [hu, passRetired_keeps (fun t => t.rx r) (fun _ _ _ => rfl) fun _ _ => rfl, calm]
    dsimp only
    rw [← hu]
    have opens : u.openToward u.newestStrobe = u := if_neg (by rw [keptRun]; decide)
    rw [opens, State.presentStalled_id u keptCalm]
    exact if_neg fun h => by rw [keptRun] at h; exact absurd h.1 (by decide)

theorem frontierAdvance_flushing_keeps {α : Type} (g : State → α) (hc : ∀ s i x, g (s.setCtx i x) = g s)
    (hf : ∀ s n, g (s.setFrontier n) = g s) {s : State} (run : s.run = .flushing) (calm : ∀ r, (s.rx r).early = false) :
    g s.frontierAdvance = g s := by
  rcases frontierAdvance_flushing run calm with same | passes
  · rw [same]
  · rw [passes]
    exact passRetired_keeps g hc hf _ _

/-- A retired slot is passed or stays (R28). -/
theorem passRetired_state (i : SlotId) : ∀ (fuel : Nat) (s : State), (s.ctx i).state = .retired ∨ (s.ctx i).state = .unopened →
    ((State.passRetired fuel s).ctx i).state = .retired ∨ ((State.passRetired fuel s).ctx i).state = .unopened
  | 0, _, h => h
  | fuel + 1, s, h => by
    unfold State.passRetired
    split
    · refine passRetired_state i fuel _ ?_
      show (((s.setCtx _ _).ctx i).state = .retired ∨ ((s.setCtx _ _).ctx i).state = .unopened)
      rw [State.setCtx_ctx]
      split
      · exact .inr rfl
      · exact h
    · exact h

/-! ## The session's end -/

/-- What becomes of the slice that an engine held keeps what slice assembly keeps. -/
theorem Undisturbed.releaseSlice {P : State → Prop} (h : Undisturbed P) (run : ∀ s x, P s → P (s.setRun x)) {s : State} (e : Engine)
    (hs : P s) : P (s.releaseSlice e) := by
  unfold State.releaseSlice State.returnSlice
  split
  · exact hs
  · split
    · exact h.enterReady _ (h.ctx _ _ _ hs)
    · exact h.flushingEnd run (h.retire run _ hs)

/-- Port `p` has left its session with record `x`, its engine IDLE and its slice given up (R121, R124, R159 steps 1 and 2). -/
def State.released (s : State) (p : PortId) (x : Port) : State := ((s.idleEngine p).setPort p x).releaseSlice (s.engine p)

/-- Its cache is then `c`, PORT_FAULT is posted and the walk made (R146, R159 steps 3, 5 and 6, R161). -/
def State.sessionEnd (s : State) (p : PortId) (x : Port) (cause : FaultCause) (c : Cache) : State :=
  (((s.released p x).setCache c).postPortFault p cause (s.engine p).slice).walkIf ((s.port p).state == .active)

section
variable {s : State} {p : PortId}

theorem fault_attached (attached : (s.port p).state.attached = true) (cause : FaultCause) : s.fault p cause =
    s.sessionEnd p ((s.port p).faultedBy cause) cause ((s.released p ((s.port p).faultedBy cause)).cache.teardown p false) := by
  unfold State.fault
  dsimp only
  rw [if_pos attached]
  rfl

theorem loseLink_attached (attached : (s.port p).state.attached = true) : s.loseLink p =
    s.sessionEnd p (s.port p).lost .linkLost (((s.released p (s.port p).lost).cache.teardown p true).endTags p) := by
  unfold State.loseLink
  dsimp only
  rw [if_pos attached]
  rfl

variable {x : Port} {cause : FaultCause} {c : Cache}

/-- An assignment changes no fetch slot and no abandoned tag (R98, R142). -/
theorem assign_slots (e : ReadyEntry) (q : PortId) : (s.assign e q).cache.slots = s.cache.slots :=
  (apply_ite (fun t : State => t.cache.slots) _ _ _).trans (ite_self _)

theorem assign_abandoned (e : ReadyEntry) (q : PortId) : (s.assign e q).cache.abandoned = s.cache.abandoned :=
  (apply_ite (fun t : State => t.cache.abandoned) _ _ _).trans (ite_self _)

/-- The READ outstanding is read from the fetch slots alone. -/
theorem outstanding_congr {c d : Cache} (slots : c.slots = d.slots) (q : PortId) : c.outstanding q = d.outstanding q := by
  unfold Cache.outstanding
  refine congrArg (fun f => (List.finRange 4).find? f) (funext fun y => ?_)
  unfold Cache.slotOf
  rw [slots]

/-- Giving up a slice changes no fetch slot and no abandoned tag. -/
theorem released_cache : (s.released p x).cache.slots = s.cache.slots ∧ (s.released p x).cache.abandoned = s.cache.abandoned := by
  have kept : Undisturbed fun t => t.cache.slots = s.cache.slots ∧ t.cache.abandoned = s.cache.abandoned :=
    { rx := fun _ _ _ h => h, pool := fun _ _ h => h, pressure := fun _ _ h => h, ctx := fun _ _ _ h => h, ready := fun _ _ h => h,
      incidents := fun _ _ h => h, frontier := fun _ _ h => h, opened := fun _ _ h => h
      trigger := fun t q h => by
        rw [trigger_keeps State.cache (fun _ _ _ => rfl) (fun _ _ _ => rfl) t q]
        exact h
      assign := fun t e q _ h => by
        rw [assign_slots, assign_abandoned]
        exact h }
  exact kept.releaseSlice (fun _ _ h => h) _ ⟨rfl, rfl⟩

/-- The port rests once its session has ended, and its rings stay torn down. -/
theorem sessionEnd_torn {out : Option (Fin 4)} {tags : BitVec 4} (unattached : x.state.attached = false)
    (ring : c.rings[p] = Ring.torn) (entries : ∀ b ∈ c.entries, b.port ≠ p)
    (slots : ∀ y, out = some y → ∀ f, c.slots[y] = some f → f.port ≠ p) (hold : c.holds[p] = none) (abandoned : c.abandoned[p] = tags) :
    (s.sessionEnd p x cause c).settleCache.Torn p x Engine.idle s.sent[p] out tags := by
  have start : ((s.idleEngine p).setPort p x).Rests p x Engine.idle s.sent[p] :=
    ⟨State.setPort_port_self _ _ _, State.setEngine_engine_self _ _ _, rfl⟩
  have rests := (rests_undisturbed unattached).releaseSlice (fun _ _ h => h.congr rfl rfl rfl) (s.engine p) start
  have torn : ((s.released p x).setCache c).Torn p x Engine.idle s.sent[p] out tags :=
    ⟨rests.congr rfl rfl rfl, ring, entries, slots, hold, abandoned⟩
  have posted := (torn_undisturbed unattached).post .portFault (.port p) (s.engine p).slice (fieldAt 0 cause.code) torn
  refine settleCache_torn unattached rfl ?_
  unfold State.sessionEnd State.walkIf
  split
  · exact (torn_undisturbed unattached).walk posted
  · exact posted

/-- What the post, the walk and the cache's own work at a session's end change. -/
theorem sessionEnd_keeps {α : Type} (g : State → α) (hs : ∀ s p x, g (s.setSent p x) = g s) (hp : ∀ s p x, g (s.setPort p x) = g s)
    (hi : ∀ s x, g (s.setIncidents x) = g s) (hr : ∀ s x, g (s.setReady x) = g s) (hx : ∀ s i x, g (s.setCtx i x) = g s)
    (he : ∀ s p x, g (s.setEngine p x) = g s) (hc : ∀ s x, g (s.setCache x) = g s) :
    g (s.sessionEnd p x cause c).settleCache = g (s.released p x) := by
  have posted : g (((s.released p x).setCache c).postPortFault p cause (s.engine p).slice) = g (s.released p x) :=
    (post_keeps g hs hp hi _ _ _ _ _).trans (hc _ _)
  rw [settleCache_keeps g hc hs]
  unfold State.sessionEnd State.walkIf
  split
  · exact (walk_keeps g hr hx he hc _).trans posted
  · exact posted

theorem fieldAt_low (n : Nat) : fieldAt 0 n = BitVec.ofNat 64 n := by simp [fieldAt]

/-- PORT_FAULT is the last incident of a session's end (R159 step 5, R161). -/
theorem sessionEnd_incidents {u : State} (incidents : (s.released p x).incidents = u.incidents)
    (counter : (s.released p x).counter = u.counter) : (s.sessionEnd p x cause c).settleCache.incidents =
      (u.post .portFault (.port p) (s.engine p).slice (BitVec.ofNat 64 cause.code)).incidents := by
  rw [settleCache_incidents, ← fieldAt_low]
  have posted : (((s.released p x).setCache c).postPortFault p cause (s.engine p).slice).incidents =
      (u.post .portFault (.port p) (s.engine p).slice (fieldAt 0 cause.code)).incidents :=
    post_incidents_congr _ _ _ _ incidents counter
  unfold State.sessionEnd State.walkIf
  split
  · exact (walk_keeps State.incidents (fun _ _ => rfl) (fun _ _ _ => rfl) (fun _ _ _ => rfl) (fun _ _ => rfl) _).trans posted
  · exact posted

/-- Taking back a slice changes the ready list, contexts, engines and the cache alone (R101). -/
theorem returnSlice_keeps {α : Type} (g : State → α) (hr : ∀ s x, g (s.setReady x) = g s) (hx : ∀ s i x, g (s.setCtx i x) = g s)
    (he : ∀ s p x, g (s.setEngine p x) = g s) (hc : ∀ s x, g (s.setCache x) = g s) (t : State) (i : SlotId) (n : Slice) :
    g (t.returnSlice i n) = g t := (walk_keeps g hr hx he hc _).trans ((hr _ _).trans (hx _ _ _))

/-- A delivery goes back without an incident (R101). -/
theorem released_delivered_keeps {α : Type} (g : State → α) (hp : ∀ s p x, g (s.setPort p x) = g s) (hr : ∀ s x, g (s.setReady x) = g s)
    (hx : ∀ s i x, g (s.setCtx i x) = g s) (he : ∀ s p x, g (s.setEngine p x) = g s) (hc : ∀ s x, g (s.setCache x) = g s)
    (delivered : (s.engine p).kind = .delivered) : g (s.released p x) = g s := by
  have start : g ((s.idleEngine p).setPort p x) = g s := (hp _ _ _).trans ((hc _ _).trans (he _ _ _))
  unfold State.released State.releaseSlice
  split
  · exact start
  · rw [delivered]
    exact (returnSlice_keeps g hr hx he hc _ _ _).trans start

theorem released_delivered (delivered : (s.engine p).kind = .delivered) :
    (s.released p x).incidents = s.incidents ∧ (s.released p x).counter = s.counter :=
  ⟨released_delivered_keeps State.incidents (fun _ _ _ => rfl) (fun _ _ => rfl) (fun _ _ _ => rfl) (fun _ _ _ => rfl) (fun _ _ => rfl)
    delivered,
    released_delivered_keeps State.counter (fun _ _ _ => rfl) (fun _ _ => rfl) (fun _ _ _ => rfl) (fun _ _ _ => rfl) (fun _ _ => rfl)
      delivered⟩

/-- The delivery a port held at its session's end goes back (R101, R121). -/
theorem DeliveryReturns.settleCache {t : State} (h : DeliveryReturns p s t) : DeliveryReturns p s t.settleCache :=
  h.congr (settleCache_contexts t) (settleCache_ready t)

/-! ## A FLUSHED wait -/

/-- With nothing READY the walk at a session's end assigns nothing. -/
theorem sessionEnd_empty (ready : (s.released p x).ready = []) : s.sessionEnd p x cause c =
    ((s.released p x).setCache c).postPortFault p cause (s.engine p).slice := by
  unfold State.sessionEnd State.walkIf
  split
  · refine State.walk_empty _ ?_
    exact (post_keeps State.ready (fun _ _ _ => rfl) (fun _ _ _ => rfl) (fun _ _ => rfl) _ _ _ _ _).trans ready
  · rfl

/-- What is left when a FLUSHED wait is given up in FLUSHING (R124, R71, R27, R179). -/
structure State.WaitEnded (s : State) (p : PortId) (i : SlotId) (t : State) : Prop where
  pool : t.pool = (s.freeSlice i).pool
  incidents : t.incidents = (s.freeSlice i).incidents
  counter : t.counter = (s.freeSlice i).counter
  ready : t.ready = []
  slot : (t.ctx i).state = .retired ∨ (t.ctx i).state = .unopened
  run : t.run = .stopped ↔ ∀ v, v ≠ p → (s.engine v).state = .idle

/-- The state in which slice `i` is given up, its slot RETIRED, but for the frontier's advance. -/
def State.withdrawing (s : State) (p : PortId) (x : Port) (i : SlotId) : State :=
  (((s.idleEngine p).setPort p x).freeSlice i).setSlotState i .retired

section
variable {i : SlotId} {n : Slice}

theorem withdrawing_keeps {α : Type} (g : State → α) (hs : ∀ s p x, g (s.setSent p x) = g s)
    (hp : ∀ s p x, g (s.setPort p x) = g s) (hi : ∀ s x, g (s.setIncidents x) = g s) (hq : ∀ s x, g (s.setPressure x) = g s)
    (hl : ∀ s x, g (s.setPool x) = g s) (hr : ∀ s r, g (s.clearNoPages r) = g s) (hc : ∀ s i x, g (s.setCtx i x) = g s) :
    g (s.withdrawing p x i) = g (s.idleEngine p) :=
  (hc _ _ _).trans ((freeSlice_keeps g hs hp hi hq hl hr hc _ _).trans (hp _ _ _))

/-- Giving the slice up reads nothing of engines and ports. -/
theorem withdrawing_agrees : (s.withdrawing p x i).pool = (s.freeSlice i).pool ∧
    (s.withdrawing p x i).incidents = (s.freeSlice i).incidents ∧ (s.withdrawing p x i).counter = (s.freeSlice i).counter := by
  have start : s.StoreAgrees ((s.idleEngine p).setPort p x) := ⟨rfl, rfl, rfl, rfl, rfl, rfl⟩
  obtain ⟨pool, -, -, incidents, -, counter⟩ := start.freeSlice i
  exact ⟨(State.setCtx_pool _ _ _).trans pool, (State.setCtx_incidents _ _ _).trans incidents,
    (State.setCtx_counter _ _ _).trans counter⟩

theorem released_flushed (assigned : (s.engine p).assigned = some (i, n))
    (flushed : (s.engine p).kind = .flushed) (run : s.run = .flushing) (ready : s.ready = []) (calm : ∀ r, (s.rx r).early = false) :
    s.WaitEnded p i (s.released p x) := by
  obtain ⟨u, hu⟩ : ∃ u, u = s.withdrawing p x i := ⟨_, rfl⟩
  obtain ⟨v, hv⟩ : ∃ v, v = u.frontierAdvance := ⟨_, rfl⟩
  have released : s.released p x = v.flushingEnd := by
    unfold State.released State.releaseSlice State.retire
    rw [assigned]
    dsimp only
    rw [flushed, hv, hu]
    rfl
  have freed {α : Type} (g : State → α) (hs : ∀ s p x, g (s.setSent p x) = g s) (hp : ∀ s p x, g (s.setPort p x) = g s)
      (hi : ∀ s x, g (s.setIncidents x) = g s) (hq : ∀ s x, g (s.setPressure x) = g s) (hl : ∀ s x, g (s.setPool x) = g s)
      (hr : ∀ s r, g (s.clearNoPages r) = g s) (hc : ∀ s i x, g (s.setCtx i x) = g s) : g u = g (s.idleEngine p) := by
    rw [hu]
    exact withdrawing_keeps g hs hp hi hq hl hr hc
  have runU : u.run = .flushing := (freed State.run (fun _ _ _ => rfl) (fun _ _ _ => rfl) (fun _ _ => rfl) (fun _ _ => rfl)
    (fun _ _ => rfl) (fun _ _ => rfl) (fun _ _ _ => rfl)).trans run
  have readyU : u.ready = [] := (freed State.ready (fun _ _ _ => rfl) (fun _ _ _ => rfl) (fun _ _ => rfl) (fun _ _ => rfl)
    (fun _ _ => rfl) (fun _ _ => rfl) (fun _ _ _ => rfl)).trans ready
  have engineU (k : PortId) : u.engine k = (s.idleEngine p).engine k := freed (fun t => t.engine k) (fun _ _ _ => rfl)
    (fun _ _ _ => rfl) (fun _ _ => rfl) (fun _ _ => rfl) (fun _ _ => rfl) (fun _ _ => rfl) (fun _ _ _ => rfl)
  have calmU (r : ReceiverId) : (u.rx r).early = false := by
    have apart : Receiver.Apart fun y => y.early := fun _ _ _ _ _ => rfl
    exact (freed (fun t => (t.rx r).early) (fun _ _ _ => rfl) (fun _ _ _ => rfl) (fun _ _ => rfl) (fun _ _ => rfl) (fun _ _ => rfl)
      (fun t k => State.setRx_apart apart t k r _ rfl) (fun _ _ _ => rfl)).trans (calm r)
  have slotU : (u.ctx i).state = .retired := by
    rw [hu]
    exact congrArg Context.state (State.setCtx_ctx_self _ _ _)
  obtain ⟨poolU, incidentsU, counterU⟩ := withdrawing_agrees (s := s) (p := p) (x := x) (i := i)
  rw [← hu] at poolU incidentsU counterU
  have advanced {α : Type} (g : State → α) (hc : ∀ s i x, g (s.setCtx i x) = g s) (hf : ∀ s n, g (s.setFrontier n) = g s) :
      g v = g u := by
    rw [hv]
    exact frontierAdvance_flushing_keeps g hc hf runU calmU
  have slotV : (v.ctx i).state = .retired ∨ (v.ctx i).state = .unopened := by
    rw [hv]
    rcases frontierAdvance_flushing runU calmU with same | passes
    · rw [same]
      exact .inl slotU
    · rw [passes]
      exact passRetired_state i 64 u (.inl slotU)
  have runV : v.run = .flushing := (advanced State.run (fun _ _ _ => rfl) fun _ _ => rfl).trans runU
  have engineV (k : PortId) : (v.engine k).state = .idle ↔ k ≠ p → (s.engine k).state = .idle := by
    rw [advanced (fun t => t.engine k) (fun _ _ _ => rfl) fun _ _ => rfl, engineU, State.idleEngine, State.setHold,
      State.setCache_engine, State.setEngine_engine]
    split
    case isTrue e => exact iff_of_true rfl fun other => absurd e.symm other
    case isFalse e => exact ⟨fun h _ => h, fun h => h (Ne.symm e)⟩
  rw [released, flushingEnd_eq fun r => by
    rw [advanced (fun t => t.rx r) (fun _ _ _ => rfl) fun _ _ => rfl]
    exact calmU r]
  simp only [engineV]
  have poolV := (advanced State.pool (fun _ _ _ => rfl) fun _ _ => rfl).trans poolU
  have incidentsV := (advanced State.incidents (fun _ _ _ => rfl) fun _ _ => rfl).trans incidentsU
  have counterV := (advanced State.counter (fun _ _ _ => rfl) fun _ _ => rfl).trans counterU
  have readyV := (advanced State.ready (fun _ _ _ => rfl) fun _ _ => rfl).trans readyU
  split
  case isTrue all => exact ⟨poolV, incidentsV, counterV, readyV, slotV, iff_of_true rfl all.2⟩
  case isFalse busy =>
    refine ⟨poolV, incidentsV, counterV, readyV, slotV, iff_of_false ?_ fun all => busy ⟨runV, all⟩⟩
    rw [runV]
    decide

end

/-- A FLUSHED wait ends with the session (R124). -/
theorem sessionEnd_flushedWait : FlushedWaitEnds p cause s (s.sessionEnd p x cause c).settleCache := by
  intro i n assigned flushed run ready calm
  have ended := released_flushed (x := x) assigned flushed run ready calm
  have empty := sessionEnd_empty (cause := cause) (c := c) ended.ready
  refine ⟨?_, ?_, ?_, ?_, ?_⟩
  · exact (sessionEnd_keeps State.pool (fun _ _ _ => rfl) (fun _ _ _ => rfl) (fun _ _ => rfl) (fun _ _ => rfl) (fun _ _ _ => rfl)
      (fun _ _ _ => rfl) fun _ _ => rfl).trans ended.pool
  · rw [settleCache_ctx, empty, State.postPortFault, post_ctx]
    exact ended.slot
  · rw [sessionEnd_incidents ended.incidents ended.counter, Engine.slice, assigned]
    rfl
  · rw [settleCache_ready, empty]
    exact (post_keeps State.ready (fun _ _ _ => rfl) (fun _ _ _ => rfl) (fun _ _ => rfl) _ _ _ _ _).trans ended.ready
  · rw [sessionEnd_keeps State.run (fun _ _ _ => rfl) (fun _ _ _ => rfl) (fun _ _ => rfl) (fun _ _ => rfl) (fun _ _ _ => rfl)
      (fun _ _ _ => rfl) fun _ _ => rfl]
    exact ended.run

end

/-- The port record of a lost link, from ACTIVE or DRAINING (R161). -/
theorem Port.lost_attached {x : Port} (attached : x.state.attached = true) : x.lost =
    { state := .linkDown, cause := some .linkLost, reservation := none, staging := Vector.replicate 8 none, cursor := none,
      notifyPending := false, quietUntil := none } := by
  unfold Port.lost
  rw [if_pos attached]
  rfl

/-- Settles O40. -/
theorem linkLossTakesThePortDown : Obligations.LinkLossTakesThePortDown := by
  intro p s h
  have attached : (s.port p).state.attached = true := (PortState.attached_iff _).mpr h
  have up : (s.port p).state ≠ .linkDown := by rcases h with h | h <;> simp [h]
  obtain ⟨c, hc⟩ : ∃ c, c = (s.released p (s.port p).lost).cache := ⟨_, rfl⟩
  have lost := loseLink_attached attached
  rw [← hc] at lost
  obtain ⟨entries, ring, hold, slots⟩ := c.teardown_clears p true
  have torn := sessionEnd_torn (s := s) (p := p) (x := (s.port p).lost) (cause := .linkLost) (c := (c.teardown p true).endTags p)
    (out := s.cache.outstanding p) (tags := 0) rfl ring entries (fun y found f slot => ?gone) hold (Vector.getElem_set_self _)
  case gone =>
    have same : c.outstanding p = s.cache.outstanding p := outstanding_congr (hc ▸ released_cache.1) p
    rw [show ((c.teardown p true).endTags p).slots[y] = none from slots y (same.trans found)] at slot
    cases slot
  have returns := (loseLink_returns s p attached).settleCache
  rw [lost] at returns
  refine ⟨_, by rw [exec_portLinkDown_up up, lost], torn.rests.port.trans (Port.lost_attached attached), torn.rests.engine, torn.ring,
    torn.entries, torn.slots, torn.hold, torn.tags, returns, fun delivered => ?_, sessionEnd_flushedWait⟩
  obtain ⟨incidents, counter⟩ := released_delivered (x := (s.port p).lost) delivered
  exact sessionEnd_incidents incidents counter

end Sys2Proof.Machine
end

section
/-! PROOF. What puts an attached port into FAULTED (R131, R138 to R141, R154, R159). -/

namespace Sys2Proof.Machine

/-! ## A fault from ACTIVE or DRAINING -/

/-- A teardown fills no fetch slot (R146). -/
theorem Cache.teardown_slots {c : Cache} {p : PortId} {b : Bool} {y : Fin 4} {f : Fetch}
    (held : (c.teardown p b).slots[y] = some f) : c.slots[y] = some f := by
  have freed (t : Fin 4) (slot : (c.slots.set t none)[y] = some f) : c.slots[y] = some f := by
    rcases eq_or_ne t y with rfl | other
    · rw [show (c.slots.set t none)[t] = none from Vector.getElem_set_self t.isLt] at slot
      cases slot
    · exact (Vector.getElem_set_ne t.isLt y.isLt fun same => other (Fin.ext same)).symm.trans slot
  unfold Cache.teardown at held
  cases out : c.outstanding p with
  | none => rw [out] at held; exact held
  | some t =>
    rw [out] at held
    cases b with
    | true => exact freed t held
    | false => exact freed t held

section
variable {s : State} {p : PortId}

/-- A fault of port `p` once its cache is `c`, which has its abandoned tags and has lost at most its READ outstanding (R159). -/
theorem fault_faulted (cause : FaultCause) {c : Cache} (attached : (s.port p).state.attached = true)
    (slots : ∀ y, s.cache.outstanding p = some y → c.outstanding p = some y ∨ ∀ f, c.slots[y] = some f → f.port ≠ p)
    (abandoned : c.abandoned[p] = s.cache.abandoned[p]) :
    Faulted p cause (c.outstanding p) s ((s.setCache c).fault p cause).settleCache := by
  obtain ⟨u, hu⟩ : ∃ u, u = s.setCache c := ⟨_, rfl⟩
  have attachedU : (u.port p).state.attached = true := by rw [hu]; exact attached
  obtain ⟨x, hx⟩ : ∃ x, x = (u.port p).faultedBy cause := ⟨_, rfl⟩
  obtain ⟨d, hd⟩ : ∃ d, d = (u.released p x).cache := ⟨_, rfl⟩
  have faults := fault_attached attachedU cause
  rw [← hx, ← hd] at faults
  obtain ⟨sameSlots, sameTags⟩ := released_cache (s := u) (p := p) (x := x)
  rw [← hd, show u.cache = c by rw [hu]; rfl] at sameSlots sameTags
  obtain ⟨entries, ring, hold, gone⟩ := d.teardown_clears p false
  have torn := sessionEnd_torn (s := u) (p := p) (x := x) (cause := cause) (c := d.teardown p false) (out := s.cache.outstanding p)
    (tags := (d.teardown p false).abandoned[p]) (by rw [hx]; rfl) ring entries (fun y found f slot => ?slots) hold rfl
  case slots =>
    rcases slots y found with still | other
    · rw [gone y ((outstanding_congr sameSlots p).trans still)] at slot
      cases slot
    · exact other f (sameSlots ▸ Cache.teardown_slots slot)
  have joins : TagJoins p (c.outstanding p) s.cache (u.fault p cause).settleCache.cache := by
    intro y
    have tag := d.teardown_tagJoins p y
    unfold Cache.abandonedTag at tag ⊢
    rw [sameTags, abandoned, outstanding_congr sameSlots p] at tag
    rw [faults, torn.tags]
    exact tag
  have returns : DeliveryReturns p s (u.fault p cause).settleCache := by
    have back := (fault_returns u p cause attachedU).settleCache
    rw [hu] at back ⊢
    exact back
  have waits : FlushedWaitEnds p cause s (u.fault p cause).settleCache := by
    rw [faults]
    intro i n assigned flushed run ready calm
    have agrees : (s.freeSlice i).StoreAgrees (u.freeSlice i) :=
      State.StoreAgrees.freeSlice (by rw [hu]; exact ⟨rfl, rfl, rfl, rfl, rfl, rfl⟩) i
    obtain ⟨pool, slot, incidents, empty, stops⟩ := sessionEnd_flushedWait (s := u) (p := p) (x := x) (cause := cause)
      (c := d.teardown p false) i n (by rw [hu]; exact assigned) (by rw [hu]; exact flushed) (by rw [hu]; exact run)
      (by rw [hu]; exact ready) (by rw [hu]; exact calm)
    refine ⟨pool.trans agrees.pool, slot, incidents.trans ?_, empty, stops.trans ?_⟩
    · exact post_incidents_congr _ _ _ _ agrees.incidents agrees.counter
    · rw [hu]
      rfl
  rw [← hu]
  refine ⟨?_, ?_, ?_, ?_, ?_, ?_, joins, returns, fun delivered => ?_, waits⟩
  · rw [faults, torn.rests.port, hx, hu]
    rfl
  · rw [faults]; exact torn.rests.engine
  · rw [faults]; exact torn.ring
  · rw [faults]; exact torn.entries
  · rw [faults]; exact torn.slots
  · rw [faults]; exact torn.hold
  · rw [faults]
    obtain ⟨incidents, counter⟩ := released_delivered (s := u) (x := x) (by rw [hu]; exact delivered)
    refine (sessionEnd_incidents incidents counter).trans ?_
    rw [hu]
    exact post_incidents_congr _ _ _ _ rfl rfl

/-- A fault of a port leaves it FAULTED, the tag of its READ outstanding abandoned (R147, R159). -/
theorem fault_faulted_outstanding (cause : FaultCause) (attached : (s.port p).state.attached = true) :
    Faulted p cause (s.cache.outstanding p) s (s.fault p cause).settleCache :=
  fault_faulted (c := s.cache) cause attached (fun _ found => .inl found) rfl

end

/-! ## The messages of an attached port -/

/-- The three checks of an ANNOUNCE (R131). -/
theorem Ring.admits_iff (x : Ring) (k : Nat) (producer consumed : Count) : x.admits k producer consumed = true ↔
    (producer - x.announced).toNat < 2 ^ 31 ∧
      ((producer - x.consumed).toNat ≤ 2 ^ k ∨ 2 ^ 31 ≤ (producer - x.consumed).toNat) ∧
      (consumed - x.announcedConsumed).toNat ≤ (x.produced - x.announcedConsumed).toNat := by
  unfold Ring.admits behind
  simp only [Bool.and_eq_true, Bool.not_eq_true', Bool.and_eq_false_iff, decide_eq_true_eq, decide_eq_false_iff_not, not_le, not_lt,
    and_assoc]

/-- Which descriptors are sound (R139). -/
theorem Descriptor.sound_iff (d : Descriptor) :
    d.sound = true ↔ 1 ≤ d.units ∧ d.units ≤ 2048 ∧ d.address.toNat % 64 = 0 := by
  simp [Descriptor.sound, and_assoc]

section
variable {s : State} {p : PortId} {g : RingParameters}

/-- An ANNOUNCE whose counts fail a check faults the port (R131). -/
theorem takeAnnounce_refused {producer consumed : Count} (attached : (s.port p).state.attached = true)
    (ring : (s.ring p).parameters = some g) (fails : (s.ring p).admits g.k producer consumed = false) :
    s.takeAnnounce p producer consumed = s.fault p .protocol := by
  unfold State.takeAnnounce State.checkAnnounce
  rw [if_pos attached, ring]
  exact if_neg (Bool.eq_false_iff.mp fails)

theorem PortState.linked_of_attached {x : PortState} (h : x.attached = true) : x.linked = true := by
  refine PortState.linked_of_ne ?_
  rintro rfl
  cases h

section
variable {tag : BitVec 8} {data : List Word} (linked : (s.port p).state.linked = true)
include linked

/-- An answer to the port's READ is looked at (R138). -/
theorem takeReadData_outstanding {i : Fin 4} {f : Fetch} (found : s.cache.matchTag p tag = .outstanding i f)
    (ring : (s.ring p).parameters = some g) : s.takeReadData p tag data =
      if data.length = 2 * f.n then s.takeReturn p i f g.k data else s.fault p .malformed := by
  unfold State.takeReadData State.answerRead
  rw [if_pos linked, found]
  dsimp only
  rw [ring]

/-- An error answer to it faults the port (R138). -/
theorem takeReadError_outstanding {i : Fin 4} {f : Fetch} (found : s.cache.matchTag p tag = .outstanding i f) :
    s.takeReadError p tag = s.fault p .memoryError := by
  unfold State.takeReadError
  rw [if_pos linked, found]

theorem takeReadData_unknown (found : s.cache.matchTag p tag = .unknown) : s.takeReadData p tag data = s.unknownTag p := by
  unfold State.takeReadData
  rw [if_pos linked, found]

theorem takeReadError_unknown (found : s.cache.matchTag p tag = .unknown) : s.takeReadError p tag = s.unknownTag p := by
  unfold State.takeReadError
  rw [if_pos linked, found]

end

/-- A port with one READ has none once its slot is freed. -/
theorem Cache.freeSlot_alone {c : Cache} {i : Fin 4} (alone : ∀ v h, v ≠ i → c.slots[v] = some h → h.port ≠ p) (y : Fin 4) (f : Fetch)
    (held : (c.freeSlot i).slots[y] = some f) : f.port ≠ p := by
  rcases eq_or_ne i y with rfl | other
  · rw [show (c.freeSlot i).slots[i] = none from Vector.getElem_set_self i.isLt] at held
    cases held
  · exact alone y f (Ne.symm other) ((Vector.getElem_set_ne i.isLt y.isLt fun same => other (Fin.ext same)).symm.trans held)

/-- A port that no fetch slot names has no READ outstanding. -/
theorem Cache.outstanding_none {c : Cache} (gone : ∀ (y : Fin 4) (f : Fetch), c.slots[y] = some f → f.port ≠ p) :
    c.outstanding p = none := by
  cases found : c.outstanding p with
  | none => rfl
  | some y =>
    obtain ⟨f, slot, port⟩ := Cache.outstanding_slot found
    exact absurd port (gone y f slot)

/-- A descriptor that is not sound, or was announced and is not valid, faults the port after the ones before it are CACHED (R140,
R141). -/
theorem takeReturn_faults {i : Fin 4} {f : Fetch} {k : Nat} {data : List Word} {valid rest : List Descriptor} {d : Descriptor}
    (looked : (parseDescriptors data).take f.reserved = valid ++ d :: rest)
    (fine : ∀ j y, valid[j]? = some y → y.cycle = expectedCycle k (f.first + BitVec.ofNat 32 j) ∧ y.sound = true)
    (fails : d.cycle = expectedCycle k (f.first + BitVec.ofNat 32 valid.length) ∧ d.sound = false ∨
      d.cycle ≠ expectedCycle k (f.first + BitVec.ofNat 32 valid.length) ∧
        ahead (f.producer - (f.first + BitVec.ofNat 32 valid.length)) = true) :
    s.takeReturn p i f k data = (s.setCache ((s.cache.freeSlot i).keepAll p f.first valid)).fault p .ringInvalid := by
  have received : Cache.receive p k f.producer f.reserved f.first (parseDescriptors data) (s.cache.freeSlot i) =
      ((s.cache.freeSlot i).keepAll p f.first valid, true) := by
    obtain ⟨unsound, invalid⟩ := (Cache.receive_spec (p := p) (producer := f.producer) (s.cache.freeSlot i) looked fine).2 d rest rfl
    rcases fails with ⟨cycle, sound⟩ | ⟨cycle, announced⟩
    · exact unsound cycle sound
    · rw [invalid cycle, announced]
  unfold State.takeReturn
  rw [received]
  rfl

end

/-- Settles O45. -/
theorem portFaultsTakeThePortDown : Obligations.PortFaultsTakeThePortDown := by
  refine ⟨rfl, fun p s x g left h hx ring hleft => ?_⟩
  subst hx hleft
  have attached : (s.port p).state.attached = true := (PortState.attached_iff _).mpr h
  have linked := PortState.linked_of_attached attached
  have faulted (cause : FaultCause) := fault_faulted_outstanding (s := s) cause attached
  refine ⟨fun producer consumed fails => ?announce, fun tag i f number slot port => ?answers, fun tag data status unmatched => ?unknown,
    fun message bad unanswered => ?malformed⟩
  case announce =>
    refine ⟨_, rfl, ?_⟩
    rw [takeAnnounce_refused attached ring]
    · exact faulted .protocol
    · rw [Bool.eq_false_iff, Ne, Ring.admits_iff]
      omega
  case answers =>
    have found := Cache.matchTag_outstanding number slot port
    refine ⟨fun status => ⟨_, rfl, ?_⟩, fun data length => ⟨_, rfl, ?_⟩, fun data valid rest d n length looked hn fine fails alone => ?_⟩
    · rw [takeReadError_outstanding linked found]
      exact faulted .memoryError
    · rw [takeReadData_outstanding linked found ring, if_neg length]
      exact faulted .malformed
    · subst hn
      have gone := Cache.freeSlot_alone alone
      refine ⟨_, rfl, ?_⟩
      rw [takeReadData_outstanding linked found ring, if_pos length, takeReturn_faults looked
        (fun j y at_j => ⟨(fine j y at_j).1, y.sound_iff.mpr (fine j y at_j).2⟩)
        (fails.imp (fun bad => ⟨bad.1, Bool.eq_false_iff.mpr fun sound => bad.2 (d.sound_iff.mp sound)⟩) id),
        ← Cache.outstanding_none (c := (s.cache.freeSlot i).keepAll p f.first valid) gone]
      exact fault_faulted .ringInvalid attached (fun y _ => .inr (gone y)) rfl
  case unknown =>
    have found := Cache.matchTag_unknown unmatched
    have faults : s.unknownTag p = s.fault p .unknownTag := if_pos attached
    refine ⟨⟨_, rfl, ?_⟩, _, rfl, ?_⟩
    · rw [takeReadData_unknown linked found, faults]
      exact faulted .unknownTag
    · rw [takeReadError_unknown linked found, faults]
      exact faulted .unknownTag
  case malformed =>
    have taken : s.takeMalformed p message = s.fault p .malformed := by
      unfold State.takeMalformed
      rcases h with h | h <;> rw [h, unanswered]
    refine ⟨_, if_pos bad, ?_⟩
    rw [taken]
    exact faulted .malformed

end Sys2Proof.Machine
end

section
/-! PROOF. Attaching a port: the refusals in their order, and the port made ACTIVE (R155, R196). -/

namespace Sys2Proof.Machine

/-! ## Messages sent are never taken back -/

/-- The messages a port has sent begin with these. -/
def State.HasSent (p : PortId) (l : List (List Word)) (t : State) : Prop := l <+: t.sent[p]

section
variable {p : PortId} {l : List (List Word)} {s t : State}

theorem State.HasSent.congr (h : s.HasSent p l) (sent : t.sent[p] = s.sent[p]) : t.HasSent p l := by
  unfold State.HasSent
  rw [sent]
  exact h

/-- A message sent on any port follows those sent before. -/
theorem State.HasSent.send (h : s.HasSent p l) (q : PortId) (m : List Word) : (s.send q m).HasSent p l := by
  rcases eq_or_ne q p with rfl | other
  · refine h.trans ?_
    rw [show (s.send q m).sent[q] = s.sent[q] ++ [m] from Vector.getElem_set_self q.isLt]
    exact List.prefix_append _ _
  · exact h.congr (setSent_sent_ne _ other)

/-- What a port sends now is the last of its messages. -/
theorem State.HasSent.of_send (m : List Word) : (s.send p m).HasSent p (s.sent[p] ++ [m]) := by
  unfold State.HasSent
  rw [show (s.send p m).sent[p] = s.sent[p] ++ [m] from Vector.getElem_set_self p.isLt]

theorem State.HasSent.trigger (h : s.HasSent p l) (q : PortId) : (s.trigger q).HasSent p l := by
  unfold State.trigger State.sendNotify
  split
  · split
    · exact h.congr rfl
    · exact (h.send q _).congr rfl
  · exact h

/-- An engine that asks for a buffer sends nothing, and so does an assignment. -/
theorem takeBuffer_sent (q : PortId) : (s.takeBuffer q).sent = s.sent := by
  unfold State.takeBuffer
  dsimp only
  split
  · rfl
  · rfl

theorem assign_sent (e : ReadyEntry) (q : PortId) : (s.assign e q).sent = s.sent := takeBuffer_sent q

/-- Slice assembly only adds to the messages sent. -/
theorem hasSent_undisturbed : Undisturbed (State.HasSent p l) where
  rx _ _ _ h := h.congr rfl
  pool _ _ h := h.congr rfl
  pressure _ _ h := h.congr rfl
  ctx _ _ _ h := h.congr rfl
  ready _ _ h := h.congr rfl
  incidents _ _ h := h.congr rfl
  frontier _ _ h := h.congr rfl
  opened _ _ h := h.congr rfl
  trigger _ q h := h.trigger q
  assign _ e q _ h := h.congr (congrArg (fun v : Vector (List (List Word)) 4 => v[p]) (assign_sent e q))

/-- So does the cache's own work. -/
theorem State.HasSent.settleCache (h : s.HasSent p l) : s.settleCache.HasSent p l := by
  refine settleCache_holds (fun t q ht => ?_) (fun t q ht => ?_) h
  · unfold State.considerFetch State.issueFetch
    split
    · dsimp only
      split
      · exact (ht.congr rfl : (t.setCache _).HasSent p l).send q _
      · exact ht
    · exact ht
  · unfold State.evictFor
    split
    · split
      · exact ht.congr rfl
      · exact ht
    · exact ht

end

/-! ## The checks of an ATTACH -/

/-- The conditions on a ring's base, on its size and on the two rings together (R155). -/
theorem baseSound_iff (a : Address) (size : Nat) : baseSound a size = true ↔ a.toNat % 64 = 0 ∧ a.toNat + size ≤ 2 ^ 48 := by
  simp [baseSound]

theorem sizeSound_iff (k : Nat) : sizeSound k = true ↔ 4 ≤ k ∧ k ≤ 16 := by simp [sizeSound]

theorem overlap_iff (a x b y : Nat) : overlap a x b y = true ↔ a < b + y ∧ b < a + x := by simp [overlap]

/-- The checks in their order (R155). -/
theorem RingParameters.refusal_eq (x : RingParameters) : x.refusal =
    if ¬(x.descriptorBase.toNat % 64 = 0 ∧ x.descriptorBase.toNat + 16 * 2 ^ x.k ≤ 2 ^ 48) then some .descriptorBase
    else if ¬(4 ≤ x.k ∧ x.k ≤ 16) then some .descriptorSize
    else if ¬(x.completionBase.toNat % 64 = 0 ∧ x.completionBase.toNat + 64 * 2 ^ x.m ≤ 2 ^ 48) then some .completionBase
    else if ¬(4 ≤ x.m ∧ x.m ≤ 16) then some .completionSize
    else if x.descriptorBase.toNat < x.completionBase.toNat + 64 * 2 ^ x.m ∧
        x.completionBase.toNat < x.descriptorBase.toNat + 16 * 2 ^ x.k then some .overlap
    else none := by
  unfold RingParameters.refusal
  simp only [Bool.not_eq_true', ← Bool.not_eq_true, baseSound_iff, sizeSound_iff, overlap_iff]

/-- Every reason is told in one word (R196). -/
theorem refusedMessage_laid (reason : RefusalReason) :
    ∃ w, refusedMessage reason = [w] ∧ Laid w [(0, 8, 0x84), (16, 8, reason.code)] := by
  refine ⟨_, rfl, Laid.of_union _ (by simp) (by simp) ?_⟩
  cases reason <;> simp [RefusalReason.code]

section
variable {s : State} {p : PortId} {x : RingParameters}

theorem exec_attach (d c : Address) (k m : BitVec 5) : exec (.attach p d k c m) s =
    .next (s.takeAttach p { descriptorBase := d, k := k.toNat, completionBase := c, m := m.toNat }).settleCache := rfl

theorem takeAttach_down (h : (s.port p).state = .linkDown) : s.takeAttach p x = s := by
  unfold State.takeAttach
  rw [h]

theorem takeAttach_attached (h : (s.port p).state = .active ∨ (s.port p).state = .draining) :
    s.takeAttach p x = s.send p (refusedMessage .state) := by
  unfold State.takeAttach
  rcases h with h | h <;> rw [h]

section
variable (h : (s.port p).state = .detached ∨ (s.port p).state = .faulted)
include h

theorem takeAttach_unattached : s.takeAttach p x = s.validateAttach p x := by
  unfold State.takeAttach
  rcases h with h | h <;> rw [h]

theorem takeAttach_refused {reason : RefusalReason} (refused : x.refusal = some reason) :
    s.takeAttach p x = s.send p (refusedMessage reason) := by
  rw [takeAttach_unattached h, State.validateAttach, refused]

theorem takeAttach_passes (passes : x.refusal = none) : s.takeAttach p x = s.attachPort p x := by
  rw [takeAttach_unattached h, State.validateAttach, passes]

end

/-- The port record and the ring record of a port that is attached (R155, R130). -/
theorem attachPort_eq : s.attachPort p x = (((s.setRing p
    { parameters := some x, announced := 0, fetched := 0, consumed := 0, announcedConsumed := 0, produced := 0 }).setPort p
      { s.port p with state := .active, notifyPending := false, quietUntil := none }).send p (attachedMessage x.k x.m)).walk := rfl

/-- With the ready list empty the walk assigns nothing. -/
theorem attachPort_empty (ready : s.ready = []) : s.attachPort p x = ((s.setRing p
    { parameters := some x, announced := 0, fetched := 0, consumed := 0, announcedConsumed := 0, produced := 0 }).setPort p
      { s.port p with state := .active, notifyPending := false, quietUntil := none }).send p (attachedMessage x.k x.m) :=
  attachPort_eq.trans (State.walk_empty _ ready)

theorem attachPort_port :
    (s.attachPort p x).port p = { s.port p with state := .active, notifyPending := false, quietUntil := none } := by
  rw [attachPort_eq, walk_keeps (fun t => t.port p) (fun _ _ => rfl) (fun _ _ _ => rfl) (fun _ _ _ => rfl) fun _ _ => rfl]
  exact State.setPort_port_self _ _ _

theorem attachPort_hasSent : (s.attachPort p x).HasSent p (s.sent[p] ++ [attachedMessage x.k x.m]) := by
  rw [attachPort_eq]
  exact hasSent_undisturbed.walk (State.HasSent.of_send _)

end

/-- Settles O41. -/
theorem attachIsRefusedInOrder : Obligations.AttachIsRefusedInOrder := by
  refine ⟨refusedMessage_laid, rfl, fun p s d c k m kd kc hkd hkc => ?_⟩
  subst hkd hkc
  refine ⟨fun h => ?down, fun h => ?attached, fun h => ?unattached⟩
  case down => rw [exec_attach, takeAttach_down h]
  case attached => rw [exec_attach, takeAttach_attached h]
  case unattached =>
    obtain ⟨x, hx⟩ : ∃ x : RingParameters, x = { descriptorBase := d, k := k.toNat, completionBase := c, m := m.toNat } := ⟨_, rfl⟩
    have checks := x.refusal_eq
    have refused {reason : RefusalReason} (found : x.refusal = some reason) :
        exec (.attach p d k c m) s = .next (s.send p (refusedMessage reason)).settleCache := by
      rw [exec_attach, ← hx, takeAttach_refused h found]
    rw [show x.descriptorBase = d by rw [hx], show x.completionBase = c by rw [hx], show x.k = k.toNat by rw [hx],
      show x.m = m.toNat by rw [hx]] at checks
    split
    case isTrue fails => exact refused (checks.trans (if_pos fails))
    case isFalse base =>
      rw [if_neg base] at checks
      split
      case isTrue fails => exact refused (checks.trans (if_pos fails))
      case isFalse size =>
        rw [if_neg size] at checks
        split
        case isTrue fails => exact refused (checks.trans (if_pos fails))
        case isFalse base =>
          rw [if_neg base] at checks
          split
          case isTrue fails => exact refused (checks.trans (if_pos fails))
          case isFalse size =>
            rw [if_neg size] at checks
            split
            case isTrue fails => exact refused (checks.trans (if_pos fails))
            case isFalse apart =>
              refine ⟨_, rfl, ?_⟩
              rw [settleCache_port, ← hx, takeAttach_passes h (checks.trans (if_neg apart)), attachPort_port]

/-- The word of ATTACHED (R196). -/
theorem attachedMessage_laid (k m : Nat) (hk : k < 32) (hm : m < 32) :
    ∃ w, attachedMessage k m = [w] ∧ Laid w [(0, 8, 0x83), (16, 5, k), (24, 5, m)] :=
  ⟨_, rfl, Laid.of_union _ (by simp [BitVec.or_assoc]) (by simp) (by simp [hk, hm])⟩

/-- Settles O42. -/
theorem attachMakesThePortActive : Obligations.AttachMakesThePortActive := by
  refine ⟨attachedMessage_laid, fun p s d c k m h baseD baseC lowK highK lowM highM endD endC apart => ?_⟩
  have passes : RingParameters.refusal { descriptorBase := d, k := k.toNat, completionBase := c, m := m.toNat } = none := by
    rw [RingParameters.refusal_eq]
    dsimp only
    rw [if_neg (not_not.mpr ⟨baseD, endD⟩), if_neg (not_not.mpr ⟨lowK, highK⟩), if_neg (not_not.mpr ⟨baseC, endC⟩),
      if_neg (not_not.mpr ⟨lowM, highM⟩), if_neg (by omega)]
  rw [exec_attach, takeAttach_passes h passes]
  refine ⟨fun ready => ?_, _, rfl, ?_, ?_⟩
  · exact congrArg (fun t : State => Host.Outcome.next t.settleCache) (attachPort_empty ready)
  · rw [settleCache_port, attachPort_port]
  · have sent := attachPort_hasSent (s := s) (p := p) (x := { descriptorBase := d, k := k.toNat, completionBase := c, m := m.toNat })
    exact sent.settleCache

end Sys2Proof.Machine
end

section
/-! PROOF. Detaching a port: draining, its end, and the answers to a DETACH (R157, R158, R196). -/

namespace Sys2Proof.Machine

/-- A walk leaves a port that is not ACTIVE at rest (R96). -/
theorem walk_rests {p : PortId} {x : Port} {e : Engine} {m : List (List Word)} {s : State} (passive : x.state ≠ .active)
    (h : s.Rests p x e m) : s.walk.Rests p x e m := by
  refine each_holds _ (fun entry t ht => ?_) _ h
  unfold State.considerEntry
  split
  case h_2 => exact ht
  case h_1 q best =>
    refine assign_rests ht entry ?_
    rintro rfl
    exact passive (ht.port ▸ bestPort_active best)

/-- It changes no fetch slot and no abandoned tag (R98, R142). -/
theorem walk_slots (s : State) : s.walk.cache.slots = s.cache.slots ∧ s.walk.cache.abandoned = s.cache.abandoned := by
  refine each_holds (P := fun t => t.cache.slots = s.cache.slots ∧ t.cache.abandoned = s.cache.abandoned) _ (fun entry t ht => ?_) _
    ⟨rfl, rfl⟩
  unfold State.considerEntry
  split
  · rw [assign_slots, assign_abandoned]
    exact ht
  · exact ht

section
variable {s : State} {p : PortId}

/-- The state of a port that begins to drain (R157). -/
def State.draining (s : State) (p : PortId) : State := (s.setPort p { s.port p with state := .draining }).walk

theorem draining_rests : (s.draining p).Rests p { s.port p with state := .draining } (s.engine p) s.sent[p] :=
  walk_rests PortState.noConfusion ⟨State.setPort_port_self _ _ _, rfl, rfl⟩

theorem draining_slots : (s.draining p).cache.slots = s.cache.slots ∧ (s.draining p).cache.abandoned = s.cache.abandoned :=
  walk_slots _

theorem takeDetach_active (h : (s.port p).state = .active) : s.takeDetach p = (s.draining p).drainingEnd p := by
  unfold State.takeDetach
  rw [h]
  rfl

theorem takeDetach_detached (h : (s.port p).state = .detached) : s.takeDetach p = s.send p detachedMessage := by
  unfold State.takeDetach
  rw [h]

theorem takeDetach_other (h : (s.port p).state = .draining ∨ (s.port p).state = .faulted ∨ (s.port p).state = .linkDown) :
    s.takeDetach p = s := by
  unfold State.takeDetach
  rcases h with h | h | h <;> rw [h]

/-- With its engine IDLE a port that drains is DETACHED at once, its rings torn down (R158, R146). -/
theorem draining_ends (idle : (s.engine p).state = .idle) :
    ((s.draining p).drainingEnd p).Torn p { s.port p with state := .detached, notifyPending := false, quietUntil := none } (s.engine p)
      (s.sent[p] ++ [detachedMessage]) (s.cache.outstanding p) (((s.draining p).cache.teardown p false).abandoned[p]) := by
  have rests := draining_rests (s := s) (p := p)
  obtain ⟨w, hw⟩ : ∃ w, w = s.draining p := ⟨_, rfl⟩
  have slots : w.cache.slots = s.cache.slots := by
    rw [hw]
    exact draining_slots.1
  rw [← hw] at rests ⊢
  obtain ⟨port, engine, sent⟩ := rests
  obtain ⟨entries, ring, hold, gone⟩ := w.cache.teardown_clears p false
  rw [drainingEnd_draining (by rw [port]) (by rw [engine]; exact idle)]
  refine ⟨⟨?_, engine, ?_⟩, ring, entries, fun y found f slot => ?_, hold, rfl⟩
  · refine (State.setPort_port_self _ _ _).trans ?_
    rw [port]
  · rw [← sent]
    exact Vector.getElem_set_self p.isLt
  · have empty := gone y ((outstanding_congr slots p).trans found)
    exact absurd (empty.symm.trans slot) (by simp)

/-- With its engine busy it drains (R157). -/
theorem draining_goes_on (busy : (s.engine p).state ≠ .idle) : (s.draining p).drainingEnd p = s.draining p := by
  refine if_neg fun h => busy ?_
  rw [← draining_rests.engine]
  exact h.2

end

/-- Settles O43. -/
theorem detachDrainsThePort : Obligations.DetachDrainsThePort := by
  refine ⟨⟨_, rfl, Laid.of_union _ (by simp) (by simp) (by simp)⟩, fun p s => ?_⟩
  have exec_detach : exec (.detach p) s = .next (s.takeDetach p).settleCache := rfl
  rw [exec_detach]
  refine ⟨fun active idle => ?ends, fun active busy => ?drains, fun detached => ?answered, fun other => ?ignored⟩
  case ends =>
    have torn := settleCache_torn rfl idle (draining_ends (p := p) idle)
    rw [← takeDetach_active active] at torn
    refine ⟨_, rfl, torn.rests.port, torn.ring, torn.entries, torn.slots, fun y => ?_, torn.rests.sent⟩
    have tag := (s.draining p).cache.teardown_tagJoins p y
    obtain ⟨slots, abandoned⟩ := draining_slots (s := s) (p := p)
    unfold Cache.abandonedTag at tag ⊢
    rw [torn.tags, tag, outstanding_congr slots p, abandoned]
  case drains =>
    rw [takeDetach_active active, draining_goes_on busy]
    exact ⟨_, rfl, (settleCache_port _ _).trans draining_rests.port, (settleCache_engine _ _).trans draining_rests.engine⟩
  case answered => rw [takeDetach_detached detached]
  case ignored => rw [takeDetach_other other]

end Sys2Proof.Machine
end

section
/-! PROOF. The counts of the descriptor cache, fetch grants and evictions (R133 to R137, R144, R145). -/

namespace Sys2Proof.Machine

/-! ## Counts -/

section
variable (c : Cache) (p : PortId)

theorem Cache.cachedCount_eq : c.cachedCount p = (c.entries.filter fun x => decide (x.port = p ∧ x.state = .cached)).length := by
  refine congrArg (fun f => (c.entries.filter f).length) (funext fun b => ?_)
  rw [Bool.eq_iff_iff]
  simp [CacheEntry.cachedFor]

/-- A port without a READ outstanding is named by no fetch slot. -/
theorem Cache.outstanding_eq_none : c.outstanding p = none ↔ ∀ (y : Fin 4) (f : Fetch), c.slots[y] = some f → f.port ≠ p := by
  refine ⟨fun none y f slot port => ?_, Cache.outstanding_none⟩
  have free := List.find?_eq_none.mp none y (List.mem_finRange y)
  unfold Cache.slotOf at free
  rw [slot] at free
  simp [port] at free

/-- The reservations of a port, slot by slot. -/
theorem Cache.reservedCount_eq : c.reservedCount p = ∑ t : Fin 4, reservedIn p c.slots[t] := by
  have slots : c.slots.toList = List.ofFn fun t : Fin 4 => c.slots[t] := by
    refine List.ext_getElem (by simp) fun j h h' => ?_
    rw [Vector.getElem_toList, List.getElem_ofFn]
    rfl
  unfold Cache.reservedCount
  rw [slots, List.map_ofFn, List.sum_ofFn]
  rfl

/-- A slot that does not name the port reserves nothing for it. -/
theorem reservedIn_other {o : Option Fetch} (other : ∀ f, o = some f → f.port ≠ p) : reservedIn p o = 0 := by
  cases o with
  | none => rfl
  | some f => exact if_neg (other f rfl)

theorem Cache.reservedCount_none (none : c.outstanding p = none) : c.reservedCount p = 0 := by
  rw [Cache.reservedCount_eq]
  exact Finset.sum_eq_zero fun t _ => reservedIn_other p ((c.outstanding_eq_none p).mp none t)

theorem Cache.reservedCount_one {t : Fin 4} {f : Fetch} (slot : c.slots[t] = some f) (port : f.port = p)
    (alone : ∀ (v : Fin 4) h, v ≠ t → c.slots[v] = some h → h.port ≠ p) : c.reservedCount p = f.reserved := by
  rw [Cache.reservedCount_eq, Finset.sum_eq_single t (fun v _ other => reservedIn_other p fun h held => alone v h other held)
    fun outside => absurd (Finset.mem_univ t) outside, slot]
  exact if_pos port

theorem Cache.sharedRoom_eq : c.sharedRoom p =
    64 - (c.entries.length + (c.reservedCount 0 + c.reservedCount 1 + c.reservedCount 2 + c.reservedCount 3)) -
      ((([0, 1, 2, 3] : List PortId).filter fun v => decide (v ≠ p)).map fun v => (c.holds[v]).getD 0).sum := by
  have ports : allPorts = [0, 1, 2, 3] := rfl
  have others : (fun v : PortId => v != p) = fun v => decide (v ≠ p) := funext fun v => by rw [Bool.eq_iff_iff]; simp
  unfold Cache.sharedRoom Cache.free Cache.used Cache.otherHolds
  rw [ports, others]
  refine congrArg (fun k => 64 - (c.entries.length + k) - _) ?_
  simp [add_assoc]

end

/-! ## Fetch grants -/

section
variable (s : State) (p : PortId)

/-- The slot a fetch gets: the lowest in force that is free and that no abandoned tag blocks (R137, R147). -/
theorem State.openSlot_iff (t : Fin 4) : s.openSlot p = some t ↔
    (t.val < s.fetchSlots ∧ s.cache.slots[t] = none ∧ s.cache.abandonedTag p t = false) ∧
      ∀ v, v < t → ¬(v.val < s.fetchSlots ∧ s.cache.slots[v] = none ∧ s.cache.abandonedTag p v = false) := by
  have index (v : Fin 4) : (List.finRange 4).idxOf v = v.val := by revert v; decide
  unfold State.openSlot
  rw [find?_iff_idxOf]
  simp only [index, List.mem_finRange, true_and, forall_const, Bool.and_eq_true, decide_eq_true_eq, beq_iff_eq, Bool.not_eq_true',
    and_assoc]
  refine and_congr_right fun _ => and_congr_right fun _ => and_congr_right fun _ => forall_congr' fun v => ?_
  rw [← not_imp_not, not_le, Fin.lt_def]

/-- A port that wants no fetch is passed over, attached or not. -/
theorem considerFetch_unwanted {s : State} {p : PortId} (h : s.wantsFetch p = false) : s.considerFetch p = s := by
  unfold State.considerFetch
  split
  · exact if_neg (by simp [h])
  · rfl

/-- The READ of a fetch that is issued, and what it reserves (R136, R137). -/
theorem issueFetch_eq (t : Fin 4) (n : Nat) (g : RingParameters) : s.issueFetch p t n g = (s.setCache
    { s.cache with
      slots := s.cache.slots.set t (some
        { port := p, first := (s.ring p).fetched, n, reserved := n, producer := (s.ring p).announced })
      granted := p
      holds := s.cache.holds.set p none }).send p
        (readMessage t.val n (g.descriptorBase + BitVec.ofNat 48 (16 * ((s.ring p).fetched.toNat % 2 ^ g.k)))) := rfl

theorem fetchSize_eq (k : Nat) : s.fetchSize p k = min (max ((s.ring p).announced - (s.ring p).fetched).toNat s.fetchMin)
    (min s.fetchMax (min (s.perPortMax - s.cache.cachedCount p - s.cache.reservedCount p)
      (min (s.cache.sharedRoom p) (2 ^ k - (s.ring p).fetched.toNat % 2 ^ k)))) := rfl

end

/-! ## Evictions -/

section
variable {s : State} {p v : PortId}

theorem evictFor_fed (h : s.starves p = false) : s.evictFor p = s := if_neg (by simp [h])

theorem evictFor_victimless (h : s.cache.victim p = none) : s.evictFor p = s := by
  unfold State.evictFor
  rw [h]
  exact ite_self _

/-- What the victim loses, and the hold of the port it is lost for (R145). -/
theorem evictFor_eq (starves : s.starves p = true) (victim : s.cache.victim p = some v) : s.evictFor p = s.setCache
    { s.cache with
      entries := s.cache.entries.filter fun x => decide (¬(x.port = v ∧ x.state = .cached ∧
        ((s.ring v).fetched - 1 - x.count).toNat < min s.fetchMin (s.cache.cachedCount v - 1)))
      rings := s.cache.rings.set v { s.ring v with
        fetched := (s.ring v).fetched - BitVec.ofNat 32 (min s.fetchMin (s.cache.cachedCount v - 1)) }
      holds := s.cache.holds.set p (some (min s.fetchMin (s.cache.cachedCount v - 1))) } := by
  have keeps (e : Nat) : (fun x : CacheEntry => !(x.cachedFor v && decide ((s.cache.rings[v].fetched - 1 - x.count).toNat < e))) =
      fun x => decide (¬(x.port = v ∧ x.state = .cached ∧ ((s.ring v).fetched - 1 - x.count).toNat < e)) := by
    funext x
    rw [Bool.eq_iff_iff]
    simp only [CacheEntry.cachedFor, State.ring, Bool.not_eq_true', Bool.and_eq_false_iff, beq_eq_false_iff_ne, decide_eq_false_iff_not,
      ← not_and_or, and_assoc]
    exact decide_eq_true_iff.symm
  unfold State.evictFor
  rw [if_pos starves, victim]
  dsimp only
  rw [← keeps]
  rfl

end

/-! ## The cache's own work when one port wants a fetch -/

section
variable {s : State} {p : PortId} {t : Fin 4} {n : Nat} {g : RingParameters}

/-- Every port has its turn in a round (R137). -/
theorem mem_portsAfter : ∀ v q : PortId, v ∈ portsAfter q := by decide

/-- A grant to port `p` passes over every other port that wants none, wherever `p` stands in the round (R137). -/
theorem grantFetches_one {w : State} (others : ∀ v, v ≠ p → s.considerFetch v = s) (issued : s.considerFetch p = w)
    (done : ∀ v, w.considerFetch v = w) : s.grantFetches = w := by
  have round (l : List PortId) (mem : p ∈ l) : s.each l (fun v u => u.considerFetch v) = w := by
    induction l with
    | nil => cases mem
    | cons v l ih =>
      rcases eq_or_ne v p with rfl | other
      · show (s.considerFetch v).each l _ = w
        rw [issued]
        exact State.each_id _ _ _ fun u _ => done u
      · show (s.considerFetch v).each l _ = w
        rw [others v other]
        exact ih ((List.mem_cons.mp mem).resolve_left (Ne.symm other))
  exact round _ (mem_portsAfter p _)

/-- What the cache's own work comes to when one grant is all there is to do (log 19). -/
theorem settleCache_one {w : State} (others : ∀ v, v ≠ p → s.considerFetch v = s) (issued : s.considerFetch p = w)
    (done : ∀ v, w.considerFetch v = w ∧ w.evictFor v = w) : s.settleCache = w := by
  have granted := grantFetches_one others issued fun v => (done v).1
  have again : w.grantFetches = w := State.each_id _ _ _ fun v _ => (done v).1
  have evicted : w.each allPorts (fun v u => u.evictFor v) = w := State.each_id _ _ _ fun v _ => (done v).2
  have first : s.cachePass = w := by
    unfold State.cachePass
    rw [granted, evicted]
  have more : w.cachePass = w := by
    unfold State.cachePass
    rw [again, evicted]
  unfold State.settleCache
  rw [first, more, more, more, again]

end

end Sys2Proof.Machine
end

section
/-! PROOF. ANNOUNCE: the counts installed, the credit looked at again, and the READ that may follow (R131, R132, R117, R135, R136). -/

namespace Sys2Proof.Machine

/-! ## The end of a delivery only adds to the messages sent -/

section
variable {p : PortId} {l : List (List Word)} {s : State}

theorem State.HasSent.drainingEnd (h : s.HasSent p l) (q : PortId) : (s.drainingEnd q).HasSent p l := by
  unfold State.drainingEnd
  split
  · exact (h.congr rfl : (State.setCache _ _).HasSent p l).send q _
  · exact h

theorem State.HasSent.idleEngine (h : s.HasSent p l) (q : PortId) : (s.idleEngine q).HasSent p l := h.congr rfl

theorem State.HasSent.complete (q : PortId) (i : SlotId) (n : Slice) (g : RingParameters) (h : (s.writeRecord q i n g).HasSent p l) :
    (s.complete q i n g).HasSent p l := by
  have run (t : State) (x : RunState) (ht : t.HasSent p l) : (t.setRun x).HasSent p l := ht.congr rfl
  have retired := hasSent_undisturbed.retire run i h
  exact (hasSent_undisturbed.flushingEnd run (hasSent_undisturbed.walk (retired.idleEngine q))).drainingEnd q

/-- The completion record is sent after what the port has sent before (R118). -/
theorem writeRecord_hasSent (i : SlotId) (n : Slice) (g : RingParameters) : (s.writeRecord p i n g).HasSent p (s.sent[p] ++
    [writeMessage (g.completionBase + BitVec.ofNat 48 (64 * ((s.ring p).produced.toNat % 2 ^ g.m)))
      (completionRecord (s.ctx i) n (s.engine p).kind ((s.engine p).firstBuffer.getD (s.ring p).consumed) (s.engine p).buffers
        (s.engine p).readPosition (s.engine p).cut (expectedCycle g.m (s.ring p).produced))]) := by
  rw [writeRecord_eq]
  refine State.HasSent.trigger ?_ p
  exact (State.HasSent.of_send _).congr rfl

end

/-! ## The counts -/

/-- The words of a READ (R196). -/
theorem readMessage_laid (tag n : Nat) (a : Address) (htag : tag < 256) (hn : n < 4096) : ∃ w0 w1, readMessage tag n a = [w0, w1] ∧
    Laid w0 [(0, 8, 0x81), (16, 8, tag), (32, 16, 16 * n)] ∧ Laid w1 [(0, 48, a.toNat)] := by
  refine ⟨_, _, rfl, Laid.of_union _ (by simp [BitVec.or_assoc]) (by simp) ?_, Laid.of_union _ (by simp) (by simp) ?_⟩
  · simp
    omega
  · have := a.isLt
    simp
    omega

section
variable {s u : State} {p : PortId} {x : Ring} {g : RingParameters} {producer consumed : Count}

/-- The state with the counts of an ANNOUNCE installed (R132). -/
def State.announced (s : State) (p : PortId) (producer consumed : Count) : State :=
  s.setRing p { s.ring p with announced := producer, announcedConsumed := consumed }

theorem announced_ring : (s.announced p producer consumed).ring p =
    { s.ring p with announced := producer, announcedConsumed := consumed } := Vector.getElem_set_self p.isLt

theorem announced_ring_ne {v : PortId} (other : v ≠ p) : (s.announced p producer consumed).ring v = s.ring v :=
  Vector.getElem_set_ne p.isLt v.isLt fun same => other (Fin.ext same).symm

theorem exec_announce : exec (.announce p producer consumed) s = .next (s.takeAnnounce p producer consumed).settleCache := rfl

/-- Counts that pass the three checks are installed (R132). -/
theorem takeAnnounce_accepted (attached : (s.port p).state.attached = true) (ring : (s.ring p).parameters = some g)
    (passes : (s.ring p).admits g.k producer consumed = true) :
    s.takeAnnounce p producer consumed = (s.announced p producer consumed).wakeCredit p := by
  unfold State.takeAnnounce State.checkAnnounce
  rw [if_pos attached, ring]
  exact if_pos passes

theorem takeAnnounce_unattached (unattached : (s.port p).state.attached = false) : s.takeAnnounce p producer consumed = s :=
  if_neg (by simp [unattached])

/-- Where the announced producer is ahead of fetched for one port alone, and no engine waits for a buffer, the cache's own work is that
port's READ (R135, R136). -/
theorem announced_fetches {t : Fin 4} {n : Nat} (ring : (s.ring p).parameters = some g) (active : (s.port p).state = .active)
    (waits : ∀ v, (s.engine v).state ≠ .waitBuffer)
    (level : ∀ v, v ≠ p → ahead ((s.ring v).announced - (s.ring v).fetched) = false)
    (isAhead : ahead (producer - (s.ring p).fetched) = true) (none : s.cache.outstanding p = none) (slot : s.openSlot p = some t)
    (size : (s.announced p producer consumed).fetchSize p g.k = n) (some : 1 ≤ n) :
    (s.announced p producer consumed).settleCache = (s.announced p producer consumed).issueFetch p t n g := by
  obtain ⟨u, hu⟩ : ∃ u, u = s.announced p producer consumed := ⟨_, rfl⟩
  have own : u.ring p = { s.ring p with announced := producer, announcedConsumed := consumed } := hu ▸ announced_ring
  have other {v : PortId} (apart : v ≠ p) : u.ring v = s.ring v := hu ▸ announced_ring_ne apart
  rw [← hu] at size ⊢
  have engine (v : PortId) : u.engine v = s.engine v := by rw [hu]; rfl
  have passedOver {w : State} (rings : ∀ v, w.ring v = u.ring v) {v : PortId} (apart : v ≠ p) : w.considerFetch v = w := by
    refine considerFetch_unwanted (Bool.eq_false_iff.mpr fun wants => ?_)
    obtain ⟨⟨-, -, more⟩, -⟩ := (w.wantsFetch_iff v).mp wants
    rw [rings, other apart, level v apart] at more
    cases more
  have wants : u.wantsFetch p = true := by
    rw [State.wantsFetch_iff, own]
    refine ⟨⟨.inl ?_, ?_, isAhead⟩, ?_⟩
    · rw [hu]; exact active
    · rw [hu]; exact none
    · rw [show u.openSlot p = Option.some t by rw [hu]; exact slot]
      exact Option.some_ne_none t
  have issued : u.considerFetch p = u.issueFetch p t n g := by
    rw [← size]
    exact State.considerFetch_issues (by rw [own]; exact ring) wants (by rw [hu]; exact slot) (size ▸ some)
  refine settleCache_one (fun v apart => passedOver (fun _ => rfl) apart) issued fun v => ⟨?_, ?_⟩
  · rcases eq_or_ne v p with rfl | apart
    · refine considerFetch_unwanted (Bool.eq_false_iff.mpr fun again => ?_)
      obtain ⟨⟨-, free, -⟩, -⟩ := (State.wantsFetch_iff _ _).mp again
      exact (Cache.outstanding_eq_none _ _).mp free t
        { port := v, first := (u.ring v).fetched, n, reserved := n, producer := (u.ring v).announced } (Vector.getElem_set_self t.isLt) rfl
    · exact passedOver (w := u.issueFetch p t n g) (fun _ => rfl) apart
  · refine evictFor_fed (Bool.eq_false_iff.mpr fun starves => ?_)
    obtain ⟨waiting, -⟩ := (State.starves_iff _ _).mp starves
    exact waits v ((congrArg Engine.state (engine v)).symm.trans waiting)

end

/-! ## The credit looked at again -/

section
variable {s : State} {p : PortId} {x : Ring} {g : RingParameters} {producer consumed : Count} {i : SlotId} {n : Slice} {e : Engine}

theorem wakeCredit_other (h : (s.engine p).state ≠ .waitCredit) : s.wakeCredit p = s := if_neg h

theorem wakeCredit_waiting (h : (s.engine p).state = .waitCredit) : s.wakeCredit p = s.proceedToCredit p := if_pos h

/-- With credit the engine that waited writes its completion record (R116, R117). -/
theorem announced_completes (hx : x = s.ring p) (he : e = s.engine p) (ring : x.parameters = some g) (waits : e.state = .waitCredit)
    (assigned : e.assigned = some (i, n)) (credit : (x.produced - consumed).toNat < 2 ^ g.m) :
    ((s.announced p producer consumed).wakeCredit p).HasSent p (s.sent[p] ++
      [writeMessage (g.completionBase + BitVec.ofNat 48 (64 * (x.produced.toNat % 2 ^ g.m)))
        (completionRecord (s.ctx i) n e.kind (e.firstBuffer.getD x.consumed) e.buffers e.readPosition e.cut
          (expectedCycle g.m x.produced))]) := by
  subst hx he
  obtain ⟨u, hu⟩ : ∃ u, u = s.announced p producer consumed := ⟨_, rfl⟩
  have own : u.ring p = { s.ring p with announced := producer, announcedConsumed := consumed } := hu ▸ announced_ring
  have engine : u.engine p = s.engine p := by rw [hu]; rfl
  rw [← hu, wakeCredit_waiting (engine ▸ waits), proceedToCredit_completes _ p i n g (engine ▸ assigned) (by rw [own]; exact ring)
    (by rw [own]; exact credit)]
  have written := writeRecord_hasSent (s := u) (p := p) i n g
  rw [own, engine, show u.ctx i = s.ctx i by rw [hu]; rfl, show u.sent = s.sent by rw [hu]; rfl] at written
  exact written.complete p i n g

/-- Without it the engine goes on waiting, its buffer fill 0 (R117; log 34). -/
theorem announced_waits (hx : x = s.ring p) (he : e = s.engine p) (ring : x.parameters = some g) (waits : e.state = .waitCredit)
    (assigned : e.assigned = some (i, n)) (credit : 2 ^ g.m ≤ (x.produced - consumed).toNat) :
    (s.announced p producer consumed).wakeCredit p =
      ((s.announced p producer consumed).setHold p none).setEngine p { e with bufferFill := 0 } := by
  subst hx he
  obtain ⟨u, hu⟩ : ∃ u, u = s.announced p producer consumed := ⟨_, rfl⟩
  have own : u.ring p = { s.ring p with announced := producer, announcedConsumed := consumed } := hu ▸ announced_ring
  have engine : u.engine p = s.engine p := by rw [hu]; rfl
  have still : { s.engine p with state := .waitCredit, bufferFill := 0 } = { s.engine p with bufferFill := 0 } := by rw [← waits]
  rw [← hu, wakeCredit_waiting (engine ▸ waits), proceedToCredit_waits _ p i n g (engine ▸ assigned) (by rw [own]; exact ring)
    (by rw [own]; exact credit), engine, still]

end

/-- The state once an ANNOUNCE passes the checks (R131, R132). -/
theorem announce_accepted {s : State} {p : PortId} {x : Ring} {g : RingParameters} {producer consumed : Count}
    (attached : (s.port p).state = .active ∨ (s.port p).state = .draining) (hx : x = s.ring p) (ring : x.parameters = some g)
    (recent : (producer - x.announced).toNat < 2 ^ 31)
    (room : (producer - x.consumed).toNat ≤ 2 ^ g.k ∨ 2 ^ 31 ≤ (producer - x.consumed).toNat)
    (read : (consumed - x.announcedConsumed).toNat ≤ (x.produced - x.announcedConsumed).toNat) :
    s.takeAnnounce p producer consumed = (s.announced p producer consumed).wakeCredit p := by
  subst hx
  exact takeAnnounce_accepted ((PortState.attached_iff _).mpr attached) ring ((Ring.admits_iff _ _ _ _).mpr ⟨recent, room, read⟩)

/-- The round of grants, and the tests for evictions after it (R137, R144; log 19). -/
theorem grantFetches_eq (s : State) : s.grantFetches =
    (((s.considerFetch (s.cache.granted + 1)).considerFetch (s.cache.granted + 2)).considerFetch (s.cache.granted + 3)).considerFetch
      (s.cache.granted + 4) := by
  unfold State.grantFetches State.each portsAfter
  simp only [List.foldl_cons, List.foldl_nil]

theorem cachePass_eq (s : State) :
    s.cachePass = (((s.grantFetches.evictFor 0).evictFor 1).evictFor 2).evictFor 3 := by
  have ports : allPorts = [0, 1, 2, 3] := rfl
  unfold State.cachePass State.each
  rw [ports]
  simp only [List.foldl_cons, List.foldl_nil]

/-- Settles O44. -/
theorem announceInstallsTheCounts : Obligations.AnnounceInstallsTheCounts := by
  refine ⟨readMessage_laid, fun p producer consumed s x g u hx hu => ⟨fun attached ring recent room read => ⟨fun busy => ?installs,
      fun i n e he waits assigned => ⟨fun credit => ?completes, fun credit => ?waits⟩⟩, fun other => ?ignored⟩,
    fun c p => ⟨c.cachedCount_eq p, fun t f out slot => ?outstanding, c.reservedCount_none p, fun t f => c.reservedCount_one p,
      c.sharedRoom_eq p⟩, fun s p t => s.openSlot_iff p t, fun s p g n wants ring hwants hn => ⟨fun passes => ?passes,
      fun t wanted slot some => ?issues⟩, fun s p starves mayLose hstarves hlose => ⟨fun spared => ?spared,
      fun v e starving loses richest he => ?evicts⟩, fun s t ht => ⟨fun g hg => ?round, ?pass, State.settleCache_id, rfl⟩⟩
  case installs =>
    have accepted := announce_accepted attached hx ring recent room read
    have taken : exec (.announce p producer consumed) s = .next u.settleCache := by
      rw [exec_announce, accepted, hu, hx]
      exact congrArg (fun t : State => Host.Outcome.next t.settleCache) (wakeCredit_other busy)
    refine ⟨taken, fun t n active waits level isAhead none slot size some => ?_⟩
    subst hx
    have fetched : (s.announced p producer consumed).fetchSize p g.k = n := by
      rw [fetchSize_eq, announced_ring]
      exact size.symm
    rw [taken, hu]
    refine congrArg Host.Outcome.next ((announced_fetches ring active waits level isAhead none slot fetched some).trans ?_)
    rw [issueFetch_eq, announced_ring]
    rfl
  case completes =>
    have accepted := announce_accepted attached hx ring recent room read
    refine ⟨_, rfl, ?_⟩
    rw [accepted]
    exact (announced_completes hx he ring waits assigned credit).settleCache
  case waits =>
    have accepted := announce_accepted attached hx ring recent room read
    rw [exec_announce, accepted, announced_waits hx he ring waits assigned credit, hu, hx]
    rfl
  case ignored =>
    rw [exec_announce, takeAnnounce_unattached]
    rcases other with h | h | h <;> rw [h] <;> rfl
  case outstanding =>
    obtain ⟨f', slot', port⟩ := Cache.outstanding_slot out
    cases slot.symm.trans slot'
    exact port
  case passes =>
    refine State.considerFetch_passes ring ?_
    rcases passes with unwanted | blocked | zero
    · exact .inl (Bool.eq_false_iff.mpr fun h => unwanted (hwants.mpr ((s.wantsFetch_iff p).mp h).1))
    · exact .inl (Bool.eq_false_iff.mpr fun h => ((s.wantsFetch_iff p).mp h).2 blocked)
    · exact .inr (hn.symm.trans zero)
  case issues =>
    rw [hn] at some ⊢
    rw [State.considerFetch_issues ring ((s.wantsFetch_iff p).mpr ⟨hwants.mp wanted, by rw [slot]; exact Option.some_ne_none t⟩) slot some]
    rfl
  case spared =>
    rcases spared with fed | safe
    · exact evictFor_fed (Bool.eq_false_iff.mpr fun h => fed (hstarves.mpr ((s.starves_iff p).mp h)))
    · refine evictFor_victimless ((s.cache.victim_iff p).1.mpr fun v => Bool.eq_false_iff.mpr fun h => safe v ?_)
      exact (hlose v).mpr ((s.cache.mayLose_iff p v).mp h)
  case evicts =>
    have lose (w : PortId) : s.cache.mayLose p w = true ↔ mayLose w := (s.cache.mayLose_iff p w).trans (hlose w).symm
    rw [he]
    exact evictFor_eq ((s.starves_iff p).mpr (hstarves.mp starving)) (((s.cache.victim_iff p).2 v).mpr
      ⟨(lose v).mpr loses, fun w h => richest w ((lose w).mp h)⟩)
  case round => rw [ht, hg, grantFetches_eq]
  case pass => rw [ht, cachePass_eq]

end Sys2Proof.Machine
end

section
/-! PROOF. An answer to a port's READ: its descriptors are CACHED, and an engine that waits is woken (R139 to R143, R112). -/

namespace Sys2Proof.Machine

/-- The two words of a descriptor (R194). -/
theorem parseDescriptors_cons (w0 w1 : Word) (l : List Word) : parseDescriptors (w0 :: w1 :: l) =
    { address := w0.extractLsb' 0 48, units := (w1.extractLsb' 0 12).toNat, cycle := w1.getLsbD 63 } :: parseDescriptors l := by
  have parsed : parseDescriptor w0 w1 =
      { address := w0.extractLsb' 0 48, units := (w1.extractLsb' 0 12).toNat, cycle := w1.getLsbD 63 } := by
    unfold parseDescriptor
    rw [ofNat_bits, bits_eq_toNat]
  rw [parseDescriptors, parsed]

section
variable {s : State} {p : PortId} {i : Fin 4} {f : Fetch} {k : Nat} {data : List Word} {valid rest : List Descriptor}

/-- The cache once the descriptors at the front of an answer are kept (R139). -/
def Cache.answered (c : Cache) (p : PortId) (i : Fin 4) (f : Fetch) (valid : List Descriptor) : Cache :=
  (c.freeSlot i).keepAll p f.first valid

/-- A descriptor kept changes no consumed count. -/
theorem Cache.answered_consumed (c : Cache) : (c.answered p i f valid).rings[p].consumed = c.rings[p].consumed := by
  unfold Cache.answered Cache.keepAll
  dsimp only
  split
  · rfl
  · rw [show ∀ x : Ring, ((c.freeSlot i).rings.set p x)[p] = x from fun x => Vector.getElem_set_self p.isLt]
    rfl

theorem Cache.answered_entries (c : Cache) :
    c.entries.length < (c.answered p i f valid).entries.length ↔ valid ≠ [] := by
  unfold Cache.answered Cache.keepAll
  rw [List.length_append, List.length_mapIdx, ← List.length_pos_iff]
  exact Nat.lt_add_right_iff_pos

/-- Descriptors valid and sound, and after them none that was announced, end the READ without a fault, and where one became CACHED the
engine is woken (R139, R140, R143). -/
theorem takeReturn_keeps (looked : (parseDescriptors data).take f.reserved = valid ++ rest)
    (fine : ∀ j y, valid[j]? = some y → y.cycle = expectedCycle k (f.first + BitVec.ofNat 32 j) ∧ y.sound = true)
    (ends : ∀ d, rest.head? = some d → d.cycle ≠ expectedCycle k (f.first + BitVec.ofNat 32 valid.length) ∧
      ahead (f.producer - (f.first + BitVec.ofNat 32 valid.length)) = false) :
    s.takeReturn p i f k data = if valid ≠ [] then (s.setCache (s.cache.answered p i f valid)).wake p
      else s.setCache (s.cache.answered p i f valid) := by
  have received : Cache.receive p k f.producer f.reserved f.first (parseDescriptors data) (s.cache.freeSlot i) =
      (s.cache.answered p i f valid, false) := by
    obtain ⟨all, stops⟩ := Cache.receive_spec (p := p) (producer := f.producer) (s.cache.freeSlot i) looked fine
    cases rest with
    | nil => exact all rfl
    | cons d more =>
      obtain ⟨cycle, beyond⟩ := ends d rfl
      rw [(stops d more rfl).2 cycle, beyond]
      rfl
  unfold State.takeReturn
  rw [received]
  exact (if_neg Bool.false_ne_true).trans (if_congr s.cache.answered_entries rfl rfl)

end

/-- Settles O47. -/
theorem readDataCachesTheDescriptors : Obligations.ReadDataCachesTheDescriptors := by
  refine ⟨fun w0 w1 l => ⟨parseDescriptors_cons w0 w1 l, rfl, rfl⟩, fun k n => by simp [expectedCycle],
    fun p s tag i f g data valid rest c e n m state number slot port ring length looked hn fine ends hc he hm => ?_⟩
  subst hn hm he
  have attached := (PortState.attached_iff _).mpr state
  obtain ⟨u, hu⟩ : ∃ u, u = s.setCache c := ⟨_, rfl⟩
  have kept : c = s.cache.answered p i f valid := hc
  have taken : exec (.readData p tag data) s = .next (if valid ≠ [] then u.wake p else u).settleCache := by
    refine congrArg (fun t : State => Host.Outcome.next t.settleCache) ?_
    rw [takeReadData_outstanding (PortState.linked_of_attached attached) (Cache.matchTag_outstanding number slot port) ring,
      if_pos length, takeReturn_keeps looked (fun j y at_j => ⟨(fine j y at_j).1, y.sound_iff.mpr (fine j y at_j).2⟩) ends, hu, kept]
  have consumed : (u.ring p).consumed = (s.ring p).consumed := by
    rw [hu, kept]
    exact s.cache.answered_consumed
  have engine : u.engine p = s.engine p := by rw [hu]; rfl
  rw [taken, ← hu]
  refine ⟨fun rests => ?_, fun some waits => ⟨fun cached => ?_, fun none => ?_⟩⟩
  · split
    case isTrue some => rw [show u.wake p = u from if_neg (engine ▸ rests.resolve_left some)]
    case isFalse => rfl
  · rw [if_pos some, show u.wake p = u.takeBuffer p from if_pos (engine ▸ waits), takeBuffer_hands u p
      (by rw [consumed, hu]; exact cached), consumed, engine]
    subst hu
    rfl
  · have still : { s.engine p with state := .waitBuffer, bufferFill := 0 } = { s.engine p with bufferFill := 0 } := by rw [← waits]
    rw [if_pos some, show u.wake p = u.takeBuffer p from if_pos (engine ▸ waits), takeBuffer_defers u p
      (by rw [consumed, hu]; exact none), engine, still]

end Sys2Proof.Machine
end

section
/-! PROOF. Builder messages judged by their type code, their length and their tag (R154, R162, R147, R196). -/

namespace Sys2Proof.Machine

/-! ## Type codes and lengths -/

section
variable {w0 : Word} {code : BitVec 8} (hc : code = w0.extractLsb' 0 8)
include hc

/-- The type code is read from the low eight bits of word 0 (R196). -/
theorem typeCode_eq {k : BitVec 8} (h : code = k) : bits w0 0 8 = k.toNat := by rw [bits_eq_toNat, ← hc, h]

/-- Which type codes and lengths make a message well formed (R154). -/
theorem malformed_eq_false_iff (data : List Word) : malformed (w0 :: data) = false ↔
    data.length = 0 ∧ (code = 0x02 ∨ code = 0x11 ∨ code = 0x18) ∨
      data.length = 1 ∧ (code = 0x03 ∨ code = 0x10 ∨ code = 0x13 ∨ code = 0x21) ∨
      data.length = 2 ∧ (code = 0x01 ∨ code = 0x12) ∨ code = 0x20 := by
  rw [malformed_eq_false]
  simp only [bits_eq_toNat, ← hc, BitVec.toNat_eq]
  rfl

end

theorem malformed_eq_false_iff_command (p : PortId) (message : List Word) :
    malformed message = false ↔ messageCommand p message ≠ none := by
  rw [← messageCommand_isNone p, Ne, ← Option.isNone_iff_eq_none, Bool.not_eq_true]

/-! ## Tags -/

section
variable {s : State} {p : PortId} {i : Fin 4} {message data : List Word} {tag : BitVec 8}

/-- A message answers an abandoned tag if it is a READ-DATA by its type code and its tag matches one (R147, R154). -/
theorem answersAbandoned_cons (c : Cache) (w0 : Word) (rest : List Word) : c.answersAbandoned p (w0 :: rest) = some i ↔
    (bits w0 0 8 = 0x20 ∨ bits w0 0 8 = 0x21) ∧ c.matchTag p (messageTag w0) = .abandoned i := by
  unfold Cache.answersAbandoned readDataTag
  dsimp only
  by_cases answer : bits w0 0 8 = 0x20 ∨ bits w0 0 8 = 0x21
  · rw [if_pos answer]
    dsimp only
    cases c.matchTag p (messageTag w0) <;> simp [answer]
  · rw [if_neg answer]
    simp [answer]

/-- Which messages answer an abandoned tag, whatever their length (R147, R154). -/
theorem answersAbandoned_iff (c : Cache) : c.answersAbandoned p message = some i ↔
    ∃ w0 rest, message = w0 :: rest ∧ (w0.extractLsb' 0 8 = 0x20#8 ∨ w0.extractLsb' 0 8 = 0x21#8) ∧
      (w0.extractLsb' 16 8).toNat = i.val ∧ c.abandonedTag p i = true ∧ ∀ f, c.slots[i] = some f → f.port ≠ p := by
  have types (w0 : Word) : (bits w0 0 8 = 0x20 ∨ bits w0 0 8 = 0x21) ↔ (w0.extractLsb' 0 8 = 0x20#8 ∨ w0.extractLsb' 0 8 = 0x21#8) := by
    simp only [bits_eq_toNat, BitVec.toNat_eq]
    rfl
  cases message with
  | nil => simp [Cache.answersAbandoned, readDataTag]
  | cons w0 rest =>
    rw [answersAbandoned_cons, types, Cache.matchTag_abandoned_iff, messageTag_eq]
    constructor
    · exact fun h => ⟨w0, rest, rfl, h⟩
    · rintro ⟨_, _, same, h⟩
      cases same
      exact h

/-! ## Malformed messages -/

theorem exec_malformed (bad : malformed message = true) :
    exec (.malformedMessage p message) s = .next (s.takeMalformed p message).settleCache := if_pos bad

/-- A fault of a DETACHED port: there is no delivery to give back, and no walk (R159). -/
theorem fault_detached (detached : (s.port p).state = .detached) (cause : FaultCause) : s.fault p cause =
    (s.setPort p
      { state := .faulted, cause := some cause, reservation := none, staging := Vector.replicate 8 none,
        cursor := (s.port p).cursor, notifyPending := false, quietUntil := none }).post .portFault (.port p) (s.engine p).slice
          (fieldAt 0 cause.code) := by
  unfold State.fault State.walkIf
  dsimp only
  rw [detached]
  rfl

theorem takeMalformed_down (down : (s.port p).state = .linkDown) : s.takeMalformed p message = s := by
  unfold State.takeMalformed
  rw [down]

theorem takeMalformed_detached (detached : (s.port p).state = .detached) (unanswered : s.cache.answersAbandoned p message = none) :
    s.takeMalformed p message = s.fault p .malformed := by
  unfold State.takeMalformed
  rw [detached, unanswered]

theorem takeMalformed_faulted (faulted : (s.port p).state = .faulted) (unanswered : s.cache.answersAbandoned p message = none) :
    s.takeMalformed p message = s := by
  unfold State.takeMalformed
  rw [faulted, unanswered]

theorem takeMalformed_answers (up : (s.port p).state ≠ .linkDown) (answers : s.cache.answersAbandoned p message = some i) :
    s.takeMalformed p message = s.endTag p i := by
  unfold State.takeMalformed
  rw [answers]
  split
  case h_1 down => exact absurd down up
  all_goals rfl

/-! ## Answers without a READ -/

theorem takeReadData_down (down : (s.port p).state = .linkDown) : s.takeReadData p tag data = s :=
  if_neg (by simp [down, PortState.linked])

theorem takeReadError_down (down : (s.port p).state = .linkDown) : s.takeReadError p tag = s :=
  if_neg (by simp [down, PortState.linked])

theorem unknownTag_unattached (unattached : (s.port p).state.attached = false) : s.unknownTag p = s := if_neg (by simp [unattached])

section
variable (up : (s.port p).state ≠ .linkDown) (found : s.cache.matchTag p tag = .abandoned i)
include up found

theorem takeReadData_abandoned : s.takeReadData p tag data = s.endTag p i := by
  unfold State.takeReadData
  rw [if_pos (PortState.linked_of_ne up), found]

theorem takeReadError_abandoned : s.takeReadError p tag = s.endTag p i := by
  unfold State.takeReadError
  rw [if_pos (PortState.linked_of_ne up), found]

end

end

/-- Settles O46. -/
theorem messagesAreJudgedByTypeLengthAndTag : Obligations.MessagesAreJudgedByTypeLengthAndTag := by
  refine ⟨fun p w0 w1 w2 code data hc => ⟨fun h => ?_, fun h => ?_, fun h => ?_, fun h => ?_, fun h => ?_, fun h => ?_, fun h => ?_,
    fun h => ?_, fun h => ?_, fun h => ?_, malformed_eq_false_iff_command p _, malformed_eq_false_iff hc data⟩,
    fun p s => ⟨fun message i => answersAbandoned_iff s.cache, fun message bad => ⟨fun detached unanswered => ?detached,
      fun discards => ?discarded, fun i up answers => ?answers⟩, fun data tag status => ⟨fun down => ?down,
      fun state unmatched => ?unmatched, fun up i number abandoned slots u hu => ?ended⟩⟩⟩
  iterate 10
    have type := typeCode_eq hc h
    unfold messageCommand
    simp only [type, ofNat_bits, messageTag_eq, noFurtherWord, oneFurtherWord, twoFurtherWords]
    rfl
  case detached =>
    rw [exec_malformed bad, takeMalformed_detached detached unanswered, fault_detached detached]
    rfl
  case discarded =>
    rw [exec_malformed bad]
    rcases discards with ⟨faulted, unanswered⟩ | down
    · rw [takeMalformed_faulted faulted unanswered]
    · rw [takeMalformed_down down]
  case answers =>
    rw [exec_malformed bad, takeMalformed_answers up answers]
    rfl
  case down =>
    exact ⟨congrArg (fun t : State => Host.Outcome.next t.settleCache) (takeReadData_down down),
      congrArg (fun t : State => Host.Outcome.next t.settleCache) (takeReadError_down down)⟩
  case unmatched =>
    have linked : (s.port p).state.linked = true := by rcases state with h | h <;> rw [h] <;> rfl
    have ignored : s.unknownTag p = s := unknownTag_unattached (by rcases state with h | h <;> rw [h] <;> rfl)
    have found := Cache.matchTag_unknown unmatched
    exact ⟨congrArg (fun t : State => Host.Outcome.next t.settleCache) ((takeReadData_unknown linked found).trans ignored),
      congrArg (fun t : State => Host.Outcome.next t.settleCache) ((takeReadError_unknown linked found).trans ignored)⟩
  case ended =>
    have found := (s.cache.matchTag_abandoned_iff p tag i).mpr ⟨number, abandoned, slots⟩
    rw [hu]
    exact ⟨congrArg (fun t : State => Host.Outcome.next t.settleCache) (takeReadData_abandoned up found),
      congrArg (fun t : State => Host.Outcome.next t.settleCache) (takeReadError_abandoned up found)⟩

end Sys2Proof.Machine
end

section
/-! PROOF. Item requests: reading, staging, and what the status items show (R167 to R169, R192, R196, R197). -/

namespace Sys2Proof.Machine

/-! ## Replies -/

theorem ReplyCode.code_lt (code : ReplyCode) : code.code < 256 := by cases code <;> decide

theorem ItemName.table_lt (n : ItemName) : n.table < 256 := by cases n <;> simp [ItemName.table]

theorem ItemName.number_lt (n : ItemName) : n.number < 256 := by
  cases n <;> simp only [ItemName.number] <;> omega

/-- The word of a reply without item fields (R196). -/
theorem plainReply_laid (code : ReplyCode) : ∃ w, plainReply code = [w] ∧ Laid w [(0, 8, 0x86), (16, 8, code.code)] :=
  ⟨_, rfl, Laid.of_union _ (by simp) (by simp) (by simp [code.code_lt])⟩

/-- The word of a reply that names an item (R196). -/
theorem itemReply_laid (code : ReplyCode) (index : Nat) (n : ItemName) (g : BitVec 16) (h : index < 256) :
    ∃ w, itemReply code index n g = [w] ∧ Laid w [(0, 8, 0x86), (16, 8, code.code), (24, 8, index), (32, 8, n.table),
      (40, 8, n.number), (48, 16, g.toNat)] := by
  refine ⟨_, rfl, Laid.of_union _ (by simp [itemFields, BitVec.or_assoc]) (by simp) ?_⟩
  have := g.isLt
  simp [code.code_lt, h, n.table_lt, n.number_lt, this]

/-- The words of the reply to a read (R196). -/
theorem readReply_laid (n : ItemName) (g : BitVec 16) (contents : Vector Word 8) : ∃ w, readReply n g contents = w :: contents.toList ∧
    Laid w [(0, 8, 0x86), (16, 8, 1), (32, 8, n.table), (40, 8, n.number), (48, 16, g.toNat)] := by
  refine ⟨_, rfl, Laid.of_union _ (by simp [itemFields, BitVec.or_assoc, ReplyCode.code]) (by simp) ?_⟩
  have := g.isLt
  simp [n.table_lt, n.number_lt, this]

/-! ## The catalogue -/

section
variable {item n : ItemName} {x count : Nat}

/-- A table of one item names it by number 0. -/
theorem singleItem_some (zero : item.number = 0) (h : singleItem item x = some n) : n.table = item.table ∧ n.number = x := by
  unfold singleItem at h
  split at h
  case isTrue e => cases h; exact ⟨rfl, zero.trans e.symm⟩
  case isFalse => cases h

/-- A table of more items names each by its number. -/
theorem tableItem_some {f : Fin count → ItemName} {table : Nat} (h : tableItem count f x = some n)
    (named : ∀ i, (f i).table = table ∧ (f i).number = i.val) : n.table = table ∧ n.number = x := by
  unfold tableItem at h
  split at h
  case isTrue e => cases h; exact named ⟨x, e⟩
  case isFalse => cases h

end

/-- A table code and an item number name the item that has them (R166, R197). -/
theorem ItemName.ofCodes_iff (table number : BitVec 8) (n : ItemName) :
    ItemName.ofCodes table number = some n ↔ table.toNat = n.table ∧ number.toNat = n.number := by
  constructor
  · intro h
    unfold ItemName.ofCodes at h
    split at h
    case h_1 code | h_2 code | h_3 code | h_4 code | h_6 code | h_8 code | h_9 code | h_11 code | h_14 code =>
      obtain ⟨same, place⟩ := singleItem_some rfl h
      exact ⟨code.trans same.symm, place.symm⟩
    case h_5 code | h_7 code | h_10 code | h_12 code | h_13 code | h_15 code | h_16 code =>
      obtain ⟨same, place⟩ := tableItem_some h fun _ => ⟨rfl, rfl⟩
      exact ⟨code.trans same.symm, place.symm⟩
    case h_17 => cases h
  · rintro ⟨code, place⟩
    unfold ItemName.ofCodes
    rw [code, place]
    cases n <;> simp [ItemName.table, ItemName.number, singleItem, tableItem]

/-- The item after an item of a table of `count` items (R168). -/
theorem ItemName.next_spec (n : ItemName) (count : Nat) (h : count = if n.table = 4 ∨ n.table = 11 then 24
    else if n.table = 6 ∨ n.table = 15 then 64 else if n.table = 9 ∨ n.table = 12 ∨ n.table = 14 then 4 else 1) :
    n.next.table = n.table ∧ n.next.number = (n.number + 1) % count := by
  subst h
  cases n <;> simp [ItemName.next, ItemName.table, ItemName.number, Fin.val_add]

/-! ## Requests -/

section
variable {s : State} {p : PortId} {table number index : BitVec 8} {value : Word}

theorem exec_itemRequest_down (down : (s.port p).state = .linkDown) : exec (.itemRead p table number) s = .next s ∧
    exec (.itemReadNext p) s = .next s ∧ exec (.itemStage p index value) s = .next s := by
  have unlinked : ¬(s.port p).state.linked = true := by simp [down, PortState.linked]
  exact ⟨if_neg unlinked, if_neg unlinked, if_neg unlinked⟩

section
variable (up : (s.port p).state ≠ .linkDown)
include up

theorem exec_itemRead : exec (.itemRead p table number) s = .next (s.takeItemRead p (ItemName.ofCodes table number)) :=
  if_pos (PortState.linked_of_ne up)

theorem exec_itemReadNext : exec (.itemReadNext p) s = .next (s.takeReadNext p) := if_pos (PortState.linked_of_ne up)

theorem exec_itemStage : exec (.itemStage p index value) s = .next (s.takeStage p index value) := if_pos (PortState.linked_of_ne up)

end

theorem takeReadNext_cursor {n : ItemName} (cursor : (s.port p).cursor = some n) : s.takeReadNext p = s.readItem p n.next := by
  unfold State.takeReadNext
  rw [cursor]

theorem takeReadNext_none (cursor : (s.port p).cursor = none) : s.takeReadNext p = s.send p (plainReply .noCursor) := by
  unfold State.takeReadNext
  rw [cursor]

/-- A staging word is written (R169). -/
theorem takeStage_word (j : Fin 8) (h : index.toNat = j.val) : s.takeStage p index value =
    (s.setPort p { s.port p with staging := (s.port p).staging.set j (some value) }).send p (plainReply .ok) := by
  have place (low : index.toNat < 8) : (⟨index.toNat, low⟩ : Fin 8) = j := Fin.ext h
  refine (dif_pos (h ▸ j.isLt)).trans ?_
  rw [place]
  rfl

theorem takeStage_outside (h : 8 ≤ index.toNat) : s.takeStage p index value = s.send p (plainReply .badIndex) :=
  dif_neg (Nat.not_lt.mpr h)

end

/-! ## What the status items show -/

theorem packWords_toList (l : List Word) : (packWords l).toList =
    [l.getD 0 0, l.getD 1 0, l.getD 2 0, l.getD 3 0, l.getD 4 0, l.getD 5 0, l.getD 6 0, l.getD 7 0] := rfl

theorem pack_toList (l : List Nat) : (pack l).toList = [fieldAt 0 (l.getD 0 0), fieldAt 0 (l.getD 1 0), fieldAt 0 (l.getD 2 0),
    fieldAt 0 (l.getD 3 0), fieldAt 0 (l.getD 4 0), fieldAt 0 (l.getD 5 0), fieldAt 0 (l.getD 6 0), fieldAt 0 (l.getD 7 0)] := by
  simp only [fieldAt_low]
  rfl

/-- A source enters a set if its chain is final. -/
theorem member_addFinal (c : Context) (m : SourceSet) (v q : SourceId) :
    member (if (c.chain v).state.final then m ||| single v else m) q = true ↔
      member m q = true ∨ v = q ∧ (c.chain q).state.final = true := by
  split
  case isTrue final =>
    rw [member_or_single]
    exact or_congr_right ⟨fun e => ⟨e, e ▸ final⟩, And.left⟩
  case isFalse open_ =>
    refine (or_iff_left ?_).symm
    rintro ⟨rfl, final⟩
    exact open_ final

/-- The set of final sources holds the sources whose chains are final (R3). -/
theorem Context.member_finalSet (c : Context) (q : SourceId) : member c.finalSet q = true ↔ (c.chain q).state.final = true := by
  have key (l : List SourceId) (m : SourceSet) :
      member (l.foldl (fun m q => if (c.chain q).state.final then m ||| single q else m) m) q = true ↔
        member m q = true ∨ q ∈ l ∧ (c.chain q).state.final = true := by
    induction l generalizing m with
    | nil => simp
    | cons v l ih =>
      rw [List.foldl_cons, ih, member_addFinal, List.mem_cons, or_assoc, ← or_and_right, eq_comm (a := v)]
  unfold Context.finalSet
  rw [key]
  simp [member, allSources]

/-- Two sets with the same members are one. -/
theorem SourceSet.ext {a b : SourceSet} (h : ∀ q, member a q = true ↔ member b q = true) : a = b :=
  BitVec.eq_of_getLsbD_eq fun j hj => Bool.eq_iff_iff.mpr (h ⟨j, hj⟩)

section
variable (s : State)

/-- LINKSTAT (R56; log 36). -/
theorem linkstat_toList (r : ReceiverId) (x : Receiver) (hx : x = s.rx r) : (s.contents (.linkstat r)).toList =
    [fieldAt 0 x.link.code, fieldAt 0 x.barred.code,
      flagAt 0 (s.holdPressure r) ||| flagAt 1 x.early ||| flagAt 2 x.holdLow ||| flagAt 3 x.noPages,
      (match x.current with
        | some n => fieldAt 0 n.toNat ||| fieldAt 32 1
        | none => 0),
      fieldAt 0 x.errors.length, 0, 0, 0] := by
  subst hx
  unfold State.contents State.linkstatWords
  rw [packWords_toList]
  cases (s.rx r).current <;> simp [flagAt]

/-- PORTSTAT (R149, R165). -/
theorem portstat_toList (p : PortId) (x : Ring) (hx : x = s.ring p) : (s.contents (.portstat p)).toList =
    [fieldAt 0 (s.port p).state.code ||| fieldAt 8 (causeCode (s.port p).cause) ||| fieldAt 16 (s.engine p).state.code,
      fieldAt 0 x.announced.toNat ||| fieldAt 32 x.fetched.toNat,
      fieldAt 0 x.consumed.toNat ||| fieldAt 32 x.announcedConsumed.toNat, fieldAt 0 x.produced.toNat,
      fieldAt 0 (s.cache.cachedCount p) ||| fieldAt 8 (s.cache.reservedCount p) |||
        fieldAt 16 (match s.cache.outstanding p with
          | some y => y.val
          | none => 255) ||| fieldAt 24 (s.cache.holds[p].getD 255) ||| fieldAt 32 s.cache.abandoned[p].toNat,
      0, 0, 0] := by
  subst hx
  unfold State.contents State.portstatWords
  rw [packWords_toList]
  cases s.cache.outstanding p <;> rfl

/-- SLICESTAT (R3). -/
theorem slicestat_toList (i : SlotId) (c : Context) (finals : SourceSet) (hc : c = s.ctx i)
    (final : ∀ q, member finals q = true ↔ (c.chain q).state.final = true) : (s.contents (.slicestat i)).toList =
      [fieldAt 0 c.slice.toNat ||| fieldAt 32 c.state.code, fieldAt 0 c.expected.toNat, fieldAt 0 c.dropped.toNat,
        fieldAt 0 finals.toNat, fieldAt 0 c.deadline, 0, 0, 0] := by
  subst hc
  rw [SourceSet.ext fun q => (final q).trans ((s.ctx i).member_finalSet q).symm]
  rfl

/-- RETIRED (R62). -/
theorem retired_word (k : Fin 4) (j : Fin 8) : (s.contents (.retired k))[j] =
    fieldAt 0 (s.pool.retired.getD (8 * k.val + j.val) 0) := by
  unfold State.contents State.retiredWords pack
  rw [fieldAt_low]
  simp [List.getD_eq_getElem?_getD]

end

/-- Settles O48. -/
theorem itemRequestsReserveAndStage : Obligations.ItemRequestsReserveAndStage := by
  refine ⟨⟨fun lsb n v fits inside => Laid.of_union _ (by simp) (by simp) (by simp [fits, inside]), flagAt_eq, plainReply_laid,
      itemReply_laid, readReply_laid, rfl⟩,
    ⟨rfl, fun _ => ⟨rfl, rfl, rfl, rfl⟩, fun _ => ⟨rfl, rfl, rfl, rfl⟩, fun _ => ⟨rfl, rfl, rfl, rfl⟩, fun _ => ⟨rfl, rfl⟩,
      ItemName.ofCodes_iff, ItemName.next_spec⟩,
    fun p s table number index value reading hreading => ⟨exec_itemRequest_down, fun up => ⟨fun n named => ?read, fun unnamed => ?unknown,
      fun n cursor => ?next, fun cursor => ?noCursor, fun j h => ?staged, fun h => ?outside⟩⟩,
    ⟨rfl, rfl, rfl, rfl, rfl, rfl, rfl⟩,
    fun s => ⟨pack_toList _, fun r x => linkstat_toList s r x, fun p x => portstat_toList s p x, pack_toList _, retired_word s,
      fun i c finals => slicestat_toList s i c finals⟩⟩
  case read => rw [exec_itemRead up, named, hreading]; rfl
  case unknown => rw [exec_itemRead up, unnamed]; rfl
  case next => rw [exec_itemReadNext up, takeReadNext_cursor cursor, hreading]; rfl
  case noCursor => rw [exec_itemReadNext up, takeReadNext_none cursor]
  case staged => rw [exec_itemStage up, takeStage_word j h]
  case outside => rw [exec_itemStage up, takeStage_outside h]

end Sys2Proof.Machine
end

section
/-! PROOF. The checks of a commit and its refusals, in their order (R170 to R172). -/

namespace Sys2Proof.Machine

/-- The class of an item, by its table (9.1). -/
theorem ItemName.kind_eq (n : ItemName) : n.kind = if n.table = 0 then .command else if n.table = 1 ∨ n.table = 8 then .runLocked
    else if n.table = 4 then .mixed else if 11 ≤ n.table then .readOnly else .live := by
  cases n <;> rfl

section
variable {s : State} {p : PortId} {n : ItemName} {c : Instr}

/-- The run state permits the commit of a settable item (R171). -/
theorem State.permits_iff (words : Vector Word 8) (settable : n.kind ≠ .readOnly) (other : n ≠ .run) :
    s.permits n words = true ↔ s.run = .stopped ∨ n.kind = .live ∨ n.kind = .mixed ∧ words[0] = (s.contents n)[0] := by
  cases n with
  | run => exact absurd rfl other
  | linkstat _ | portstat _ | store | retired _ | slicestat _ => exact absurd rfl settable
  | slot | cache | linkmap _ => simp [State.permits, ItemName.kind]
  | assembly | linktime | pressure | steer _ | dispatch | portcfg _ | outputs => simp [State.permits, ItemName.kind]

/-! ## The first check that fails -/

theorem commitRefusal_readOnly (h : n.kind = .readOnly) : s.commitRefusal p n = some .readOnly := if_pos h

theorem commitRefusal_conflict (settable : n.kind ≠ .readOnly) (h : (s.port p).reservation ≠ some (n, s.generation n)) :
    s.commitRefusal p n = some .conflict := (if_neg settable).trans (if_pos h)

section
variable (settable : n.kind ≠ .readOnly) (reserved : (s.port p).reservation = some (n, s.generation n))
include settable reserved

theorem commitRefusal_state (h : s.permits n (s.judged p n) = false) : s.commitRefusal p n = some .state :=
  (if_neg settable).trans ((if_neg (not_not.mpr reserved)).trans (if_pos h))

theorem commitRefusal_permitted (h : s.permits n (s.judged p n) = true) : s.commitRefusal p n =
    ((s.checks p n (s.judged p n)).findIdx? fun b => !b).map .rejected := by
  refine (if_neg settable).trans ((if_neg (not_not.mpr reserved)).trans ((if_neg (by simp [h])).trans ?_))
  cases (s.checks p n (s.judged p n)).findIdx? fun b => !b <;> rfl

end

/-- The first word check that fails (R172). -/
theorem findIdx?_failed {l : List Bool} {k : Nat} (fails : l[k]? = some false) (before : ∀ j, j < k → l[j]? = some true) :
    l.findIdx? (fun b => !b) = some k := by
  rw [List.findIdx?_eq_some_iff_getElem]
  obtain ⟨short, value⟩ := List.getElem?_eq_some_iff.mp fails
  refine ⟨short, by simp [value], fun j hj => ?_⟩
  obtain ⟨_, passed⟩ := List.getElem?_eq_some_iff.mp (before j hj)
  simp [passed]

/-! ## Commits -/

theorem State.checks_settable (other : n ≠ .run) (words : Vector Word 8) : s.checks p n words = s.items.checks n words := if_neg other

section
variable (target : commitTarget c = some (p, n))
include target

theorem exec_commit_down (down : (s.port p).state = .linkDown) : exec c s = .next s := by
  rw [(exec_commit s target).1]
  refine congrArg Host.Outcome.next (if_neg ?_)
  simp [down, PortState.linked]

theorem exec_commit_up (up : (s.port p).state ≠ .linkDown) : exec c s = .next (s.commitItem p n).settleCache := by
  rw [(exec_commit s target).1]
  exact congrArg Host.Outcome.next (if_pos (PortState.linked_of_ne up))

theorem exec_commit_refused (up : (s.port p).state ≠ .linkDown) {x : CommitRefusal} (refused : s.commitRefusal p n = some x) :
    exec c s = .next ((s.endAttempt p).send p (s.refusalReply n x)).settleCache := by
  rw [exec_commit_up target up]
  unfold State.commitItem
  rw [refused]

end

theorem exec_itemCommit_unknown {table number : BitVec 8} (unnamed : ItemName.ofCodes table number = none)
    (up : (s.port p).state ≠ .linkDown) :
    exec (.itemCommit p table number) s = .next ((s.endAttempt p).send p (plainReply .unknownItem)).settleCache := by
  show Host.Outcome.next (s.commitOn p (ItemName.ofCodes table number)) = _
  rw [unnamed]
  exact congrArg Host.Outcome.next (if_pos (PortState.linked_of_ne up))

end

/-! ## The checks of the words -/

theorem inRange_eq (lo x hi : Nat) : inRange lo x hi = decide (lo ≤ x ∧ x ≤ hi) := (Bool.decide_and _ _).symm

theorem Items.linkmapChecks_eq (x : Items) (r : ReceiverId) (w : Fin 8 → Nat) : x.linkmapChecks r w =
    [decide (w 0 = 255 ∨ w 0 ≤ 23 ∧ ∀ k : ReceiverId, k ≠ r → (((x.linkmap[k]).words)[0]).toNat ≠ w 0),
      decide (w 1 ≤ 1), decide (w 2 ≤ 1), decide (w 3 ≤ 1)] := by
  unfold Items.linkmapChecks
  refine congrArg (· :: _) ?_
  rw [Bool.eq_iff_iff, Bool.or_eq_true, Bool.and_eq_true, beq_iff_eq, decide_eq_true_iff, decide_eq_true_iff, Items.sourceFree_iff,
    Nat.lt_succ_iff]
  rfl

theorem pressureChecks_eq (w : Fin 8 → Nat) : pressureChecks w =
    [decide (1 ≤ w 0 ∧ w 0 ≤ 16383), decide (1 ≤ w 1 ∧ w 1 ≤ 16383 ∧ w 0 < w 1), decide (1 ≤ w 2 ∧ w 2 ≤ 16383 ∧ w 1 < w 2),
      decide (1 ≤ w 3 ∧ w 3 ≤ w 0 - 1), decide (w 4 ≤ 14), decide (w 5 ≤ 14 ∧ w 4 ≤ w 5), decide (w 6 ≤ 14 ∧ w 5 ≤ w 6),
      decide (1 ≤ w 7 ∧ w 7 ≤ 3)] := by
  have margin : (1 ≤ w 3 ∧ w 3 ≤ w 0 - 1) ↔ (1 ≤ w 3 ∧ w 3 < w 0) := by omega
  unfold pressureChecks
  simp only [inRange_eq, margin, Bool.decide_and, Bool.and_assoc]

theorem steerChecks_eq (w : Fin 8 → Nat) : steerChecks w = decide (1 ≤ w 0 ∧ w 0 ≤ 4) ::
    ([decide (w 1 ≤ 3), decide (w 2 ≤ 3 ∧ w 2 ≠ w 1), decide (w 3 ≤ 3 ∧ w 3 ≠ w 1 ∧ w 3 ≠ w 2),
      decide (w 4 ≤ 3 ∧ w 4 ≠ w 1 ∧ w 4 ≠ w 2 ∧ w 4 ≠ w 3)].take (w 0)) := by
  have apart (a b : Nat) : (a != b) = decide (a ≠ b) := by rw [Bool.eq_iff_iff]; simp
  unfold steerChecks
  simp only [inRange_eq, apart, Bool.decide_and, Bool.and_assoc]

theorem cacheChecks_eq (w : Fin 8 → Nat) : cacheChecks w =
    [decide (1 ≤ w 0 ∧ w 0 ≤ 4), decide (1 ≤ w 1 ∧ w 1 ≤ 32), decide (1 ≤ w 2 ∧ w 2 ≤ 16),
      decide (1 ≤ w 3 ∧ w 3 ≤ 16 ∧ w 2 ≤ w 3)] := by
  unfold cacheChecks
  simp only [inRange_eq, Bool.decide_and, Bool.and_assoc]

/-- Settles O49. -/
theorem commitsAreRefusedInOrder : Obligations.CommitsAreRefusedInOrder := by
  refine ⟨fun p n c s u target hu => ⟨exec_commit_down target, fun up => ?refusals, fun table number unnamed up => ?unknown⟩,
    ItemName.kind_eq, fun x words w hw => ?checks⟩
  case refusals =>
    have other := (exec_commit s target).2
    have ended : s.endAttempt p = u := hu.symm
    have refused {y : CommitRefusal} {m : List Word} (reply : s.refusalReply n y = m) (first : s.commitRefusal p n = some y) :
        exec c s = .next (u.send p m).settleCache := by
      rw [← ended, ← reply]
      exact exec_commit_refused target up first
    refine ⟨fun h => refused rfl (commitRefusal_readOnly h), fun settable h => refused rfl (commitRefusal_conflict settable h),
      fun reserved runs locked => ?_, fun k settable reserved permitted fails before => ?_⟩
    · have settable : n.kind ≠ .readOnly := by rcases locked with h | ⟨h, -⟩ <;> rw [h] <;> decide
      refine refused rfl (commitRefusal_state settable reserved (Bool.eq_false_iff.mpr fun permitted => ?_))
      rcases (State.permits_iff _ settable other).mp permitted with stopped | live | ⟨mixed, same⟩
      · exact runs stopped
      · rcases locked with h | ⟨h, -⟩ <;> rw [h] at live <;> cases live
      · rcases locked with h | ⟨-, h⟩
        · rw [h] at mixed; cases mixed
        · exact h same
    · refine refused (y := .rejected k) rfl ?_
      rw [commitRefusal_permitted settable reserved ((State.permits_iff _ settable other).mpr permitted),
        State.checks_settable other, findIdx?_failed fails before]
      rfl
  case unknown => rw [hu]; exact exec_itemCommit_unknown unnamed up
  case checks =>
    have read : (fun i : Fin 8 => (words[i]).toNat) = w := (funext hw).symm
    have word {f : Nat → List Bool} : f (words[(0 : Fin 8)]).toNat = f (w 0) := by rw [hw]
    have words₂ {f : Nat → Nat → List Bool} : f (words[(0 : Fin 8)]).toNat (words[(1 : Fin 8)]).toNat = f (w 0) (w 1) := by
      rw [hw, hw]
    exact ⟨word (f := fun a => [decide (a ≤ 4)]),
      (words₂ (f := fun a b => [inRange 8 a 65535, inRange 1 b 4096])).trans (by simp only [inRange_eq]),
      (words₂ (f := fun a b => [inRange 1 a 4095, inRange 1 b 65535])).trans (by simp only [inRange_eq]),
      fun r => (congrArg (x.linkmapChecks r) read).trans (x.linkmapChecks_eq r w), (congrArg pressureChecks read).trans (pressureChecks_eq w),
      fun _ => (congrArg steerChecks read).trans (steerChecks_eq w), word (f := fun a => [decide (a ≤ 65535)]),
      (congrArg cacheChecks read).trans (cacheChecks_eq w), fun _ => word (f := fun a => [decide (a ≤ 65535)]),
      congrArg outputsChecks read⟩

end Sys2Proof.Machine
end

section
/-! SUPPORT. The trim of the cache that a CACHE commit causes (R134), port by port. -/

namespace Sys2Proof.Machine

/-- The cache once the ports of a list are trimmed: their reservations first, then their newest CACHED entries, by the numbers given
(R134). -/
def Cache.trimmed (c : Cache) (excess released : PortId → Nat) (l : List PortId) : Cache :=
  { c with
    entries := c.entries.filter fun x => decide (¬(x.port ∈ l ∧ x.state = .cached ∧
      (c.rings[x.port].fetched - 1 - x.count).toNat < excess x.port - released x.port))
    slots := Vector.ofFn fun t => (c.slots[t]).map fun f =>
      if f.port ∈ l then { f with reserved := f.reserved - released f.port } else f
    rings := Vector.ofFn fun v =>
      if v ∈ l then { c.rings[v] with fetched := c.rings[v].fetched - BitVec.ofNat 32 (excess v - released v) } else c.rings[v] }

section
variable {c : Cache} {excess released : PortId → Nat} {l : List PortId} {p : PortId}

theorem Cache.trimmed_nil : c.trimmed excess released [] = c := by
  unfold Cache.trimmed
  simp

theorem Cache.trimmed_slot (t : Fin 4) : (c.trimmed excess released l).slots[t] = (c.slots[t]).map fun f =>
    if f.port ∈ l then { f with reserved := f.reserved - released f.port } else f := by
  unfold Cache.trimmed
  simp

/-- What another port's trim leaves reserved for a port. -/
theorem reservedIn_trimmed (outside : p ∉ l) {o : Option Fetch} :
    reservedIn p (o.map fun f => if f.port ∈ l then { f with reserved := f.reserved - released f.port } else f) = reservedIn p o := by
  cases o with
  | none => rfl
  | some f =>
    rw [Option.map_some]
    split
    case isFalse => rfl
    case isTrue inside =>
      have other : f.port ≠ p := fun same => outside (same ▸ inside)
      exact (if_neg other).trans (if_neg other).symm

/-- A port not yet trimmed has its entries, its reservations and its ring record. -/
theorem Cache.trimmed_apart (outside : p ∉ l) : (c.trimmed excess released l).cachedCount p = c.cachedCount p ∧
    (c.trimmed excess released l).reservedCount p = c.reservedCount p ∧ (c.trimmed excess released l).rings[p] = c.rings[p] := by
  refine ⟨?_, ?_, ?_⟩
  · unfold Cache.cachedCount Cache.trimmed
    rw [List.filter_filter]
    refine congrArg List.length (List.filter_congr fun x _ => ?_)
    rw [Bool.and_eq_left_iff_imp]
    intro own
    simp only [CacheEntry.cachedFor, Bool.and_eq_true, beq_iff_eq] at own
    rw [decide_eq_true_iff]
    exact fun h => outside (own.1 ▸ h.1)
  · rw [Cache.reservedCount_eq, Cache.reservedCount_eq]
    refine Finset.sum_congr rfl fun t _ => ?_
    rw [Cache.trimmed_slot]
    exact reservedIn_trimmed outside
  · unfold Cache.trimmed
    simp [outside]

section
variable {limit : Nat} (outside : p ∉ l) (hexcess : excess p = c.cachedCount p + c.reservedCount p - limit)
  (hreleased : released p = min (excess p) (c.reservedCount p))
include outside hexcess hreleased

/-- What a port's trim takes from a cache with other ports trimmed (R134). -/
theorem Cache.trimPort_eq : (c.trimmed excess released l).trimPort limit p = Cache.rewind
    { c.trimmed excess released l with
      slots := Vector.ofFn fun t : Fin 4 => ((c.trimmed excess released l).slots[t]).map fun f =>
        if f.port = p then { f with reserved := f.reserved - released p } else f } p (excess p - released p) := by
  obtain ⟨cached, reserved, -⟩ := Cache.trimmed_apart (c := c) (excess := excess) (released := released) outside
  unfold Cache.trimPort
  dsimp only
  rw [cached, reserved, ← hexcess, ← hreleased]
  refine congrArg (fun v => Cache.rewind { c.trimmed excess released l with slots := v } p (excess p - released p)) ?_
  refine congrArg Vector.ofFn (funext fun t => ?_)
  cases (c.trimmed excess released l).slots[t] with
  | none => rfl
  | some f =>
    dsimp only [Option.map_some]
    split
    · rfl
    · rfl

/-- Trimming one port more (R134). -/
theorem Cache.trimPort_trimmed : (c.trimmed excess released l).trimPort limit p = c.trimmed excess released (p :: l) := by
  have ring := (Cache.trimmed_apart (c := c) (excess := excess) (released := released) outside).2.2
  have entries : ((c.trimmed excess released l).entries.filter fun x =>
      !(x.cachedFor p && (c.rings[p].fetched - 1 - x.count).toNat < excess p - released p)) =
        (c.trimmed excess released (p :: l)).entries := by
    refine (List.filter_filter ..).trans (List.filter_congr fun x _ => ?_)
    rw [Bool.eq_iff_iff]
    rcases eq_or_ne x.port p with rfl | apart
    · simp [CacheEntry.cachedFor, outside]
    · simp [CacheEntry.cachedFor, apart]
  have slots : (Vector.ofFn fun t : Fin 4 => ((c.trimmed excess released l).slots[t]).map fun f =>
      if f.port = p then { f with reserved := f.reserved - released p } else f) = (c.trimmed excess released (p :: l)).slots := by
    refine congrArg Vector.ofFn (funext fun t => ?_)
    rw [Cache.trimmed_slot]
    cases c.slots[t] with
    | none => rfl
    | some f =>
      rcases eq_or_ne f.port p with rfl | apart
      · simp [outside]
      · by_cases inside : f.port ∈ l
        · simp [inside, apart]
        · simp [inside, apart]
  have rings : (c.trimmed excess released l).rings.set p
      { c.rings[p] with fetched := c.rings[p].fetched - BitVec.ofNat 32 (excess p - released p) } =
        (c.trimmed excess released (p :: l)).rings := by
    refine Vector.ext fun j hj => ?_
    unfold Cache.trimmed
    rw [Vector.getElem_set, Vector.getElem_ofFn, Vector.getElem_ofFn]
    rcases eq_or_ne (⟨j, hj⟩ : PortId) p with same | apart
    · subst same
      simp
    · have other : p.val ≠ j := fun h => apart (Fin.ext h.symm)
      simp [other, apart]
  rw [Cache.trimPort_eq outside hexcess hreleased]
  unfold Cache.rewind
  dsimp only
  rw [ring, entries, slots, rings]
  rfl

end

/-- The trim of every port (R134). -/
theorem State.trimCache_eq {s : State} (hexcess : ∀ v, excess v = s.cache.cachedCount v + s.cache.reservedCount v - s.perPortMax)
    (hreleased : ∀ v, released v = min (excess v) (s.cache.reservedCount v)) : s.trimCache = s.setCache
      { s.cache with
        entries := s.cache.entries.filter fun x => decide (¬(x.state = .cached ∧
          ((s.ring x.port).fetched - 1 - x.count).toNat < excess x.port - released x.port))
        slots := Vector.ofFn fun t => (s.cache.slots[t]).map fun f => { f with reserved := f.reserved - released f.port }
        rings := Vector.ofFn fun v =>
          { s.ring v with fetched := (s.ring v).fetched - BitVec.ofNat 32 (excess v - released v) } } := by
  have step {l : List PortId} {v : PortId} (outside : v ∉ l) :
      (s.cache.trimmed excess released l).trimPort s.perPortMax v = s.cache.trimmed excess released (v :: l) :=
    Cache.trimPort_trimmed outside (hexcess v) (hreleased v)
  have every (v : PortId) : v ∈ ([3, 2, 1, 0] : List PortId) := by revert v; decide
  have ports : allPorts = [0, 1, 2, 3] := rfl
  have first : s.cache.trimPort s.perPortMax 0 = s.cache.trimmed excess released [0] := by
    have one := step (l := []) (v := 0) (by simp)
    rwa [Cache.trimmed_nil] at one
  have all : allPorts.foldl (fun c p => c.trimPort s.perPortMax p) s.cache = s.cache.trimmed excess released [3, 2, 1, 0] := by
    rw [ports]
    simp only [List.foldl_cons, List.foldl_nil]
    rw [first, step (by decide), step (by decide), step (by decide)]
  unfold State.trimCache
  rw [all]
  unfold Cache.trimmed
  simp only [every, true_and, if_true]
  rfl

end

end Sys2Proof.Machine
end

section
/-! PROOF. A commit that passes every check: the words installed, the answer, and what the installation causes (R170, R173). -/

namespace Sys2Proof.Machine

/-! ## What stands through the work that follows an answer -/

/-- The items and the run state stand, port `p` has no attempt in progress, and it has sent these messages (R170). -/
structure State.Answered (p : PortId) (items : Items) (run : RunState) (l : List (List Word)) (t : State) : Prop where
  items : t.items = items
  run : t.run = run
  sent : t.HasSent p l
  reservation : (t.port p).reservation = none
  staging : (t.port p).staging = Vector.replicate 8 none

section
variable {p : PortId} {items : Items} {run : RunState} {l : List (List Word)} {s t : State}

theorem State.Answered.congr (h : s.Answered p items run l) (same : t.items = s.items) (sameRun : t.run = s.run)
    (sent : t.sent[p] = s.sent[p]) (port : t.port p = s.port p) : t.Answered p items run l :=
  ⟨same.trans h.items, sameRun.trans h.run, h.sent.congr sent, port ▸ h.reservation, port ▸ h.staging⟩

/-- A trigger changes neither the reservation nor the staging of any port (R188). -/
theorem trigger_attempt (q : PortId) :
    ((s.trigger q).port p).reservation = (s.port p).reservation ∧ ((s.trigger q).port p).staging = (s.port p).staging := by
  unfold State.trigger State.sendNotify
  split
  · split
    · rw [State.setPort_port]
      split
      case isTrue e => subst e; exact ⟨rfl, rfl⟩
      case isFalse => exact ⟨rfl, rfl⟩
    · rw [State.setPort_port]
      split
      case isTrue e => subst e; exact ⟨rfl, rfl⟩
      case isFalse => exact ⟨rfl, rfl⟩
  · exact ⟨rfl, rfl⟩

/-- An assignment changes the ready list, a context, an engine and the cache alone (R98, R108). -/
theorem assign_keeps {α : Type} (g : State → α) (hr : ∀ s x, g (s.setReady x) = g s) (hx : ∀ s i x, g (s.setCtx i x) = g s)
    (he : ∀ s p x, g (s.setEngine p x) = g s) (hc : ∀ s x, g (s.setCache x) = g s) (s : State) (e : ReadyEntry) (q : PortId) :
    g (s.assign e q) = g s := by
  have asks (u : State) : g (u.takeBuffer q) = g u := by
    unfold State.takeBuffer
    dsimp only
    split
    · exact (he _ _ _).trans ((hc _ _).trans (hc _ _))
    · exact he _ _ _
  exact (asks _).trans ((he _ _ _).trans ((hx _ _ _).trans (hr _ _)))

theorem answered_undisturbed : Undisturbed (State.Answered p items run l) where
  rx _ _ _ h := h.congr rfl rfl rfl rfl
  pool _ _ h := h.congr rfl rfl rfl rfl
  pressure _ _ h := h.congr rfl rfl rfl rfl
  ctx _ _ _ h := h.congr rfl rfl rfl rfl
  ready _ _ h := h.congr rfl rfl rfl rfl
  incidents _ _ h := h.congr rfl rfl rfl rfl
  frontier _ _ h := h.congr rfl rfl rfl rfl
  opened _ _ h := h.congr rfl rfl rfl rfl
  trigger s q h := by
    obtain ⟨reservation, staging⟩ := trigger_attempt (s := s) (p := p) q
    exact ⟨(trigger_keeps State.items (fun _ _ _ => rfl) (fun _ _ _ => rfl) s q).trans h.items,
      (trigger_keeps State.run (fun _ _ _ => rfl) (fun _ _ _ => rfl) s q).trans h.run, h.sent.trigger q,
      reservation.trans h.reservation, staging.trans h.staging⟩
  assign s e q _ h :=
    h.congr (assign_keeps State.items (fun _ _ => rfl) (fun _ _ _ => rfl) (fun _ _ _ => rfl) (fun _ _ => rfl) s e q)
      (assign_keeps State.run (fun _ _ => rfl) (fun _ _ _ => rfl) (fun _ _ _ => rfl) (fun _ _ => rfl) s e q)
      (assign_keeps (fun t => t.sent[p]) (fun _ _ => rfl) (fun _ _ _ => rfl) (fun _ _ _ => rfl) (fun _ _ => rfl) s e q)
      (assign_keeps (fun t => t.port p) (fun _ _ => rfl) (fun _ _ _ => rfl) (fun _ _ _ => rfl) (fun _ _ => rfl) s e q)

theorem State.Answered.settleCache (h : s.Answered p items run l) : s.settleCache.Answered p items run l :=
  ⟨(settleCache_items s).trans h.items, (settleCache_run s).trans h.run, h.sent.settleCache,
    (settleCache_port s p).symm ▸ h.reservation, (settleCache_port s p).symm ▸ h.staging⟩

/-- What an installation causes leaves the answer as it stands (R173). -/
theorem State.Answered.installEffect (n : ItemName) (h : s.Answered p items run l) : (s.installEffect n).Answered p items run l := by
  unfold State.installEffect State.elapseWaits State.trimCache
  split
  case h_1 => exact answered_undisturbed.evaluate h
  case h_2 => exact answered_undisturbed.walk h
  case h_3 =>
    split
    · exact answered_undisturbed.walk (answered_undisturbed.ready _ _ h)
    · exact h
  case h_4 => exact h.congr rfl rfl rfl rfl
  all_goals exact h

end

/-! ## The installation -/

/-- The generation of an item once its record is replaced (R166, R173). -/
theorem generation_put (s : State) {n : ItemName} (settable : n.kind ≠ .readOnly) (other : n ≠ .run) (v : Item) :
    (s.setItems (s.items.put n v)).generation n = v.generation := by
  cases n with
  | run => exact absurd rfl other
  | linkstat _ | portstat _ | store | retired _ | slicestat _ => exact absurd rfl settable
  | linkmap _ | steer _ | portcfg _ => simp [State.generation, Items.get, Items.put, State.setItems]
  | slot | assembly | linktime | pressure | dispatch | cache | outputs => rfl

/-- A word not staged is the one installed, and a word not used is 0 (R170, R172). -/
theorem installed_word (s : State) (p : PortId) (n : ItemName) (i : Fin 8) : (n.installed (s.judged p n))[i] =
    if i.val < n.usedWords (s.judged p n) then ((s.port p).staging[i]).getD (s.contents n)[i] else 0 := by
  have judged : (s.judged p n)[i] = ((s.port p).staging[i]).getD (s.contents n)[i] := by
    unfold State.judged
    rw [Fin.getElem_fin, Vector.getElem_ofFn]
  rw [← judged]
  unfold ItemName.installed
  rw [Fin.getElem_fin, Vector.getElem_ofFn]

/-- No word check fails. -/
theorem findIdx?_passed {l : List Bool} (h : ∀ b ∈ l, b = true) : l.findIdx? (fun b => !b) = none := by
  rw [List.findIdx?_eq_none_iff]
  intro b mem
  rw [h b mem]
  rfl

/-- The waits that the new wait has run out for end (R93). -/
theorem elapseWaits_eq {u : State} {l : List ReadyEntry}
    (hl : l = u.ready.map fun e => { e with elapsed := e.elapsed || decide (u.dispatchWait ≤ (u.counter - e.since).toNat) }) :
    (l = u.ready → u.elapseWaits = u) ∧ (l ≠ u.ready → u.elapseWaits = (u.setReady l).walk) := by
  have due (e : ReadyEntry) : (e.elapsed || u.waitDue e) = (e.elapsed || decide (u.dispatchWait ≤ (u.counter - e.since).toNat)) := by
    unfold State.waitDue
    cases e.elapsed <;> rfl
  have ends : (u.ready.map fun e => { e with elapsed := e.elapsed || u.waitDue e }) = l := by
    rw [hl]
    exact List.map_congr_left fun e _ => by rw [due]
  have same : l = u.ready ↔ u.ready.any u.waitDue = false := by
    have each : l = u.ready ↔ ∀ e ∈ u.ready, ({ e with elapsed := e.elapsed || u.waitDue e } : ReadyEntry) = e := by
      rw [← ends]
      conv_lhs => rhs; rw [← List.map_id u.ready]
      exact List.map_inj_left
    rw [each, List.any_eq_false]
    refine forall₂_congr fun e _ => ?_
    unfold State.waitDue
    obtain ⟨slice, since, elapsed⟩ := e
    cases elapsed <;> simp
  unfold State.elapseWaits
  rw [ends]
  refine ⟨fun h => if_neg ?_, fun h => if_pos ?_⟩
  · rw [same.mp h]
    exact Bool.false_ne_true
  · by_contra none
    exact h (same.mpr (Bool.eq_false_iff.mpr none))

/-- The state once a commit is answered OK, before what the installation causes (R170, R173; log 22). -/
def State.installing (s : State) (p : PortId) (n : ItemName) (words : Vector Word 8) : State :=
  ((s.setPort p { s.port p with reservation := none, staging := Vector.replicate 8 none }).setItems
    (s.items.put n { generation := s.generation n + 1, words := words })).send p (itemReply .ok 0 n (s.generation n + 1))

section
variable {s : State} {p : PortId} {n : ItemName} {c : Instr} {words : Vector Word 8}

theorem installing_answered : (s.installing p n words).Answered p (s.installing p n words).items s.run (s.installing p n words).sent[p] := by
  have own : (s.installing p n words).port p = { s.port p with reservation := none, staging := Vector.replicate 8 none } :=
    State.setPort_port_self _ _ _
  exact ⟨rfl, rfl, List.prefix_rfl, own ▸ rfl, own ▸ rfl⟩

/-- A commit that passes every check (R170, R173). -/
theorem exec_commit_installs (target : commitTarget c = some (p, n)) (settable : n.kind ≠ .readOnly) (up : (s.port p).state ≠ .linkDown)
    (reserved : (s.port p).reservation = some (n, s.generation n)) (permitted : s.permits n (s.judged p n) = true)
    (pass : ∀ b ∈ s.items.checks n (s.judged p n), b = true) (hwords : words = n.installed (s.judged p n)) :
    exec c s = .next ((s.installing p n words).installEffect n).settleCache := by
  have other := (exec_commit s target).2
  have accepted : s.commitRefusal p n = none := by
    rw [commitRefusal_permitted settable reserved permitted, State.checks_settable other, findIdx?_passed pass]
    rfl
  have installed : s.commitItem p n = (s.installing p n words).installEffect n := by
    unfold State.commitItem
    rw [accepted]
    dsimp only
    rw [if_neg other]
    unfold State.installItem State.install
    dsimp only
    rw [generation_put _ settable other, hwords]
    rfl
  rw [exec_commit_up target up, installed]

end

/-- Settles O50. -/
theorem commitsInstallTheWords : Obligations.CommitsInstallTheWords := by
  intro p n c s u words target settable up reserved permitted pass hwords hu
  have other := (exec_commit s target).2
  have installed : words = n.installed (s.judged p n) :=
    Vector.ext fun j hj => (hwords ⟨j, hj⟩).trans (installed_word s p n ⟨j, hj⟩).symm
  have same : s.installing p n words = u := hu.symm
  have taken := exec_commit_installs target settable up reserved ((State.permits_iff _ settable other).mpr permitted) pass installed
  have answered := (installing_answered (s := s) (p := p) (n := n) (words := words)).installEffect n
  rw [same] at taken answered
  obtain ⟨items, run, sent, reservation, staging⟩ := answered.settleCache
  refine ⟨⟨_, taken, items, sent, reservation, staging, run⟩, fun steer pressure dispatch cache => ?plain, fun h => ?pressure,
    fun i h => ?steer, fun l h hl => ?dispatch, fun excess released h hexcess hreleased => ?cache⟩
  case plain =>
    have nothing : u.installEffect n = u := by
      unfold State.installEffect
      split
      case h_1 => exact absurd rfl pressure
      case h_2 i => exact absurd rfl (steer i)
      case h_3 => exact absurd rfl dispatch
      case h_4 => exact absurd rfl cache
      all_goals rfl
    rw [taken, nothing]
  case pressure => subst h; exact taken
  case steer => subst h; exact taken
  case dispatch =>
    subst h
    have wait : u.dispatchWait = (words[0]).toNat := by rw [hu]; rfl
    have waits := elapseWaits_eq (u := u) (l := l) (by rw [wait, hl, hu]; rfl)
    have ready : u.ready = s.ready := by rw [hu]; rfl
    rw [ready] at waits
    rw [taken]
    exact ⟨fun stays => congrArg (fun t : State => Host.Outcome.next t.settleCache) (waits.1 stays),
      fun ends => congrArg (fun t : State => Host.Outcome.next t.settleCache) (waits.2 ends)⟩
  case cache =>
    subst h
    have limit : u.perPortMax = (words[1]).toNat := by rw [hu]; rfl
    have trims := State.trimCache_eq (s := u) (excess := excess) (released := released)
      (fun v => by rw [hexcess, limit, hu]; rfl) (fun v => by rw [hreleased, hu]; rfl)
    rw [taken]
    refine congrArg (fun t : State => Host.Outcome.next t.settleCache) (trims.trans ?_)
    rw [hu]
    rfl

end Sys2Proof.Machine
end

section
/-! PROOF. START and STOP, and the refusals of a RUN commit (R176 to R178, R11). -/

namespace Sys2Proof.Machine

/-! ## Segments stalled when a run drains -/

/-- The state once the stalled receivers of a list have lost their head segment (R11, R46). -/
def State.withoutStalled (s : State) (l : List ReceiverId) : State :=
  { s with receivers := Vector.ofFn fun r => if r ∈ l ∧ (s.rx r).early = true then (s.rx r).withoutHead else s.rx r }

section
variable {s t : State} {r : ReceiverId} {l : List ReceiverId}

theorem withoutStalled_rx : (s.withoutStalled l).rx r = if r ∈ l ∧ (s.rx r).early = true then (s.rx r).withoutHead else s.rx r := by
  unfold State.withoutStalled
  show (Vector.ofFn _)[r] = _
  rw [Fin.getElem_fin, Vector.getElem_ofFn]

theorem withoutStalled_frontier : (s.withoutStalled l).frontier = s.frontier := by simp only [State.withoutStalled]

theorem withoutStalled_run : (s.withoutStalled l).run = s.run := by simp only [State.withoutStalled]

/-- A receiver that does not hold with EARLY loses nothing. -/
theorem withoutStalled_cons (rested : (s.rx r).early = false) : s.withoutStalled (r :: l) = s.withoutStalled l := by
  unfold State.withoutStalled
  refine congrArg (fun v => { s with receivers := v }) (congrArg Vector.ofFn (funext fun k => ?_))
  rcases eq_or_ne k r with rfl | other
  · simp [rested]
  · simp [other]

/-- One that holds loses its head segment. -/
theorem withoutStalled_setRx (early : (s.rx r).early = true) :
    (s.withoutStalled l).setRx r (s.rx r).withoutHead = s.withoutStalled (r :: l) := by
  unfold State.withoutStalled State.setRx
  refine congrArg (fun v => { s with receivers := v }) (Vector.ext fun j hj => ?_)
  rw [Vector.getElem_set, Vector.getElem_ofFn, Vector.getElem_ofFn]
  rcases eq_or_ne (⟨j, hj⟩ : ReceiverId) r with same | other
  · subst same
    simp [early]
  · have apart : r.val ≠ j := fun h => other (Fin.ext h.symm)
    simp [other, apart]

/-- A stalled segment of an early slice is discarded whole in DRAINING, without an incident (R11, R46). -/
theorem present_drains {g : BufferedSegment} {rest : List BufferedSegment} (run : s.run = .draining) (link : (s.rx r).link = .up)
    (buffer : (s.rx r).buffer = g :: rest) (place : g.place = .waiting) (far : 64 ≤ distance s.frontier g.header.slice)
    (uncut : (s.rx r).current = none ∨ g.header.kind = .middle ∨ g.header.kind = .last) : s.present r = s.discardWhole r := by
  have head := Receiver.head_of buffer
  by_cases attached : s.mapping r = none ∨ s.enrolled r = false
  · exact present_unattached link head place attached
  · obtain ⟨unmapped, disenrolled⟩ := not_or.mp attached
    obtain ⟨q, mapped⟩ := Option.ne_none_iff_exists'.mp unmapped
    rw [present_judged link head place mapped (by simpa using disenrolled),
      judge_discard s r q _ (uncut.imp_right (SegmentKind.not_starts_iff _).mpr) (State.answer_runState (.inr ⟨run, .inl far⟩))]
    rfl

/-- Receiver `r` holds, with EARLY, a segment of an early slice that starts no fragment or finds none in progress (R11). -/
def State.StallsEarly (s : State) (r : ReceiverId) : Prop :=
  (s.rx r).link = .up ∧ ∃ g rest, (s.rx r).buffer = g :: rest ∧ g.place = .waiting ∧
    64 ≤ distance s.frontier g.header.slice ∧ ((s.rx r).current = none ∨ g.header.kind = .middle ∨ g.header.kind = .last)

theorem StallsEarly_congr (same : t.rx r = s.rx r) (frontier : t.frontier = s.frontier) (h : s.StallsEarly r) : t.StallsEarly r := by
  unfold State.StallsEarly
  rw [same, frontier]
  exact h

/-- The stalled segments are presented again one receiver after another (R11). -/
theorem presentAgain_drains (run : s.run = .draining) (stalled : (s.rx r).early = true → s.StallsEarly r) (fresh : r ∉ l) :
    (s.withoutStalled l).presentAgain r = s.withoutStalled (r :: l) := by
  have same : (s.withoutStalled l).rx r = s.rx r := by
    rw [withoutStalled_rx, if_neg fun h => fresh h.1]
  unfold State.presentAgain
  rw [same]
  split
  case isTrue early =>
    obtain ⟨link, g, rest, buffer, place, far, uncut⟩ := StallsEarly_congr same withoutStalled_frontier (stalled early)
    rw [present_drains (withoutStalled_run.trans run) link buffer place far uncut, State.discardWhole, same, withoutStalled_setRx early]
  case isFalse rested => exact (withoutStalled_cons (by simpa using rested)).symm

theorem State.each_cons {α : Type} (a : α) (xs : List α) (f : α → State → State) (u : State) :
    u.each (a :: xs) f = (f a u).each xs f := rfl

theorem each_presentAgain_drains (run : s.run = .draining) (stalled : ∀ r, (s.rx r).early = true → s.StallsEarly r)
    (m : List ReceiverId) (fresh : l.Nodup) (apart : ∀ r ∈ l, r ∉ m) :
    (s.withoutStalled m).each l (fun r t => t.presentAgain r) = s.withoutStalled (l.reverse ++ m) := by
  induction l generalizing m with
  | nil => rfl
  | cons r l ih =>
    obtain ⟨outside, fresh⟩ := List.nodup_cons.mp fresh
    rw [State.each_cons, presentAgain_drains run (stalled r) (apart r List.mem_cons_self), ih (r :: m) fresh fun k mem => ?_]
    · rw [List.reverse_cons, List.append_assoc]
      rfl
    · rw [List.mem_cons, not_or]
      exact ⟨fun e => outside (e ▸ mem), apart k (List.mem_cons_of_mem r mem)⟩

/-- When a run drains, every stalled segment of an early slice is discarded (R11). -/
theorem presentStalled_drains (run : s.run = .draining) (stalled : ∀ r, (s.rx r).early = true → s.StallsEarly r) :
    s.presentStalled = { s with
      receivers := Vector.ofFn fun r => if (s.rx r).early = true then (s.rx r).withoutHead else s.rx r } := by
  have start : s.withoutStalled [] = s := by
    unfold State.withoutStalled
    refine congrArg (fun v => { s with receivers := v }) (Vector.ext fun j hj => ?_)
    simp [State.rx]
  have all := each_presentAgain_drains run stalled [] (l := allReceivers) (List.nodup_finRange 24) fun _ _ h => by cases h
  rw [start] at all
  unfold State.presentStalled
  rw [all]
  unfold State.withoutStalled
  simp [allReceivers]

end

/-! ## Commits of RUN -/

section
variable {s : State} {p : PortId} {c : RunCommand} {w : Word}

/-- A commit of RUN with this command staged (R176). -/
theorem commitRun_staged (up : (s.port p).state ≠ .linkDown) (staged : (s.port p).staging[0] = some w) (spells : runCommand w = some c) :
    s.commitRun p c = (s.commitItem p .run).settleCache := by
  have command : s.staged p c = true := by
    unfold State.staged
    rw [staged]
    simp [spells]
  exact (if_pos command).trans (if_pos (PortState.linked_of_ne up))

theorem judged_staged {n : ItemName} (staged : (s.port p).staging[0] = some w) : (s.judged p n)[0] = w := by
  have word : (s.judged p n)[0] = ((s.port p).staging[0]).getD (s.contents n)[0] := by
    unfold State.judged
    rw [Vector.getElem_ofFn]
    rfl
  rw [word, staged]
  rfl

theorem run_settable : ItemName.run.kind ≠ .readOnly := by decide

/-- Without RUN's reservation the commit is answered CONFLICT (R170). -/
theorem commitRun_conflict (h : (s.port p).reservation ≠ some (.run, s.items.runGeneration)) :
    s.commitItem p .run = (s.endAttempt p).send p (itemReply .conflict 0 .run s.items.runGeneration) := by
  unfold State.commitItem
  rw [commitRefusal_conflict run_settable h]
  rfl

section
variable (reserved : (s.port p).reservation = some (.run, s.items.runGeneration))
include reserved

/-- In a run state that does not permit the command it is answered STATE (R176). -/
theorem commitRun_forbidden (staged : (s.port p).staging[0] = some w) (spells : runCommand w = some c)
    (forbidden : s.run.permits c = false) :
    s.commitItem p .run = (s.endAttempt p).send p (itemReply .state 0 .run s.items.runGeneration) := by
  have refused : s.permits .run (s.judged p .run) = false := by
    unfold State.permits
    dsimp only
    rw [judged_staged staged, spells]
    exact forbidden
  unfold State.commitItem
  rw [commitRefusal_state run_settable reserved refused]
  rfl

/-- A word 0 that spells no command, or was not staged, is answered REJECTED (R172). -/
theorem commitRun_rejected (none : runCommand (s.judged p .run)[0] = none) :
    s.commitItem p .run = (s.endAttempt p).send p (itemReply .rejected 0 .run s.items.runGeneration) := by
  have permitted : s.permits .run (s.judged p .run) = true := by
    unfold State.permits
    dsimp only
    rw [none]
  have fails : s.checks p .run (s.judged p .run) = [false] := by
    refine (if_pos rfl).trans ?_
    unfold State.runCheck
    rw [none, Option.isSome_none, Bool.and_false]
  unfold State.commitItem
  rw [commitRefusal_permitted run_settable reserved permitted, fails]
  rfl

/-- A command that the run state permits is answered OK and carried out (R176; log 22). -/
theorem commitRun_accepted (staged : (s.port p).staging[0] = some w) (spells : runCommand w = some c)
    (permits : s.run.permits c = true) : s.commitItem p .run = (((s.endAttempt p).setItems
      { s.items with runGeneration := s.items.runGeneration + 1 }).send p
        (itemReply .ok 0 .run (s.items.runGeneration + 1))).carryOut c ((s.judged p .run)[1].setWidth 32) := by
  have permitted : s.permits .run (s.judged p .run) = true := by
    unfold State.permits
    dsimp only
    rw [judged_staged staged, spells]
    exact permits
  have passes : s.checks p .run (s.judged p .run) = [true] := by
    refine (if_pos rfl).trans ?_
    unfold State.runCheck
    rw [judged_staged staged, staged, spells]
    rfl
  have accepted : s.commitRefusal p .run = none := by
    rw [commitRefusal_permitted run_settable reserved permitted, passes]
    rfl
  unfold State.commitItem
  rw [accepted]
  dsimp only
  rw [if_pos rfl]
  unfold State.installRun
  rw [judged_staged staged, spells]
  rfl

end

/-! ## START and STOP -/

/-- With no segment stalled nothing else follows a START (R177). -/
theorem startRun_calm (calm : ∀ r, (s.rx r).early = false) (n : Slice) : s.startRun n =
    (((s.setRun .running).setFrontier n).setNewestOpened (n - 1)).setNewestStrobe (n - 1) := State.presentStalled_id _ calm

/-- A run with no slice opened is STOPPED at once, and DRAINING otherwise (R178). -/
theorem drainReport_draining (run : s.run = .draining) (calm : ∀ r, (s.rx r).early = false) :
    s.drainReport = s.setRun (if s.newestOpened - s.frontier + 1 = 0 then .stopped else .draining) := by
  have empty : s.openCount = 0 ↔ s.newestOpened - s.frontier + 1 = 0 := by
    unfold State.openCount
    constructor <;> intro h <;> bv_omega
  have calls : (s.setRun .stopped).presentStalled = s.setRun .stopped := State.presentStalled_id _ calm
  have stays : s.setRun .draining = s := by rw [← run]; rfl
  unfold State.drainReport State.changeRun
  simp only [run, true_and, empty, calls]
  split
  · rfl
  · exact stays.symm

end

section
variable {s u : State}

/-- With no segment stalled a STOP only drains the run (R178). -/
theorem stopRun_calm (calm : ∀ r, (u.rx r).early = false) : u.stopRun =
    u.setRun (if u.newestOpened - u.frontier + 1 = 0 then .stopped else .draining) := by
  have drains : u.changeRun .draining = u.setRun .draining := State.presentStalled_id _ calm
  unfold State.stopRun
  rw [drains, drainReport_draining (s := u.setRun .draining) rfl calm]
  rfl

/-- A STOP discards the stalled segments of early slices (R11, R178). -/
theorem stopRun_stalled (stalled : ∀ r, (u.rx r).early = true → u.StallsEarly r) : u.stopRun =
    { u with
      run := if u.newestOpened - u.frontier + 1 = 0 then .stopped else .draining
      receivers := Vector.ofFn fun r => if (u.rx r).early = true then (u.rx r).withoutHead else u.rx r } := by
  have drains : u.changeRun .draining = { u.setRun .draining with
      receivers := Vector.ofFn fun r => if (u.rx r).early = true then (u.rx r).withoutHead else u.rx r } :=
    presentStalled_drains (s := u.setRun .draining) rfl stalled
  obtain ⟨w, hw⟩ : ∃ w, w = u.changeRun .draining := ⟨_, rfl⟩
  have calm (r : ReceiverId) : (w.rx r).early = false := by
    have own : w.rx r = if (u.rx r).early = true then (u.rx r).withoutHead else u.rx r := by
      rw [hw, drains]
      show (Vector.ofFn _)[r] = _
      rw [Fin.getElem_fin, Vector.getElem_ofFn]
    rw [own]
    split
    case isTrue early =>
      obtain ⟨-, g, rest, buffer, -⟩ := stalled r early
      unfold Receiver.withoutHead
      rw [buffer]
    case isFalse rested => simpa using rested
  unfold State.stopRun
  rw [← hw, drainReport_draining (by rw [hw, drains]; rfl) calm, hw, drains]
  rfl

end

/-- A receiver that holds with EARLY loses its head segment (R46). -/
theorem Receiver.stalled_eq (x : Receiver) : (if x.early = true then x.withoutHead else x) =
    match x.early, x.buffer with
    | true, g :: rest => { x with
        early := false, buffer := rest, framer := if g.verdict = none then x.framer.disowned else x.framer }
    | _, _ => x := by
  unfold Receiver.withoutHead
  cases x.early <;> cases x.buffer <;> rfl

/-- The start slice of a START: that staged, or the frontier (R177). -/
theorem judged_start (s : State) (p : PortId) : (s.judged p .run)[1] =
    ((s.port p).staging[1]).getD (BitVec.ofNat 64 s.frontier.toNat) := by
  unfold State.judged State.contents State.runWords pack
  simp

theorem judged_command (s : State) (p : PortId) : (s.judged p .run)[0] =
    ((s.port p).staging[0]).getD (BitVec.ofNat 64 s.run.code) := by
  unfold State.judged State.contents State.runWords pack
  simp

/-- A word 0 that was not staged spells no command: it is the code of the run state (R181). -/
theorem runCommand_unstaged {s : State} {p : PortId}
    (h : ∀ w, (s.port p).staging[0] = some w → w ≠ 5 ∧ w ≠ 6 ∧ w ≠ 7) : runCommand (s.judged p .run)[0] = none := by
  rw [judged_command]
  cases staged : (s.port p).staging[0] with
  | none => cases s.run <;> rfl
  | some w =>
    obtain ⟨five, six, seven⟩ := h w staged
    rw [Option.getD_some]
    unfold runCommand
    split
    case h_1 e => exact absurd (BitVec.eq_of_toNat_eq e) five
    case h_2 e => exact absurd (BitVec.eq_of_toNat_eq e) six
    case h_3 e => exact absurd (BitVec.eq_of_toNat_eq e) seven
    case h_4 => rfl

/-- Which run states forbid a START and a STOP (R176). -/
theorem RunState.permits_start {x : RunState} (h : x ≠ .stopped) : x.permits .start = false := by
  cases x with
  | stopped => exact absurd rfl h
  | running | draining | flushing => rfl

theorem RunState.permits_stop {x : RunState} (h : x ≠ .running) : x.permits .stop = false := by
  cases x with
  | running => exact absurd rfl h
  | stopped | draining | flushing => rfl

/-- Settles O51. -/
theorem runCommandsStartAndStop : Obligations.RunCommandsStartAndStop := by
  intro p s ended u n refused up hended hn hu hrefused
  have start : runCommand 5 = some .start := rfl
  have stop : runCommand 6 = some .stop := rfl
  have flush : runCommand 7 = some .flush := rfl
  have attempt : s.endAttempt p = ended := hended.symm
  have slice : (s.judged p .run)[1].setWidth 32 = n := by rw [judged_start, hn]
  have answered : (((s.endAttempt p).setItems { s.items with runGeneration := s.items.runGeneration + 1 }).send p
      (itemReply .ok 0 .run (s.items.runGeneration + 1))) = u := by rw [attempt, hu]
  have refuses {c : RunCommand} {w : Word} {x : ReplyCode} (staged : (s.port p).staging[0] = some w) (spells : runCommand w = some c)
      (answer : s.commitItem p .run = (s.endAttempt p).send p (itemReply x 0 .run s.items.runGeneration)) :
      Host.Outcome.next (s.commitRun p c) = (.next (refused x) : Host.Outcome State Fault Refusal) := by
    rw [commitRun_staged up staged spells, answer, attempt, hrefused]
  have rx (r : ReceiverId) : u.rx r = s.rx r := by rw [hu, hended]; rfl
  have window : u.newestOpened = s.newestOpened ∧ u.frontier = s.frontier := by rw [hu, hended]; exact ⟨rfl, rfl⟩
  refine ⟨fun reserved => ⟨fun staged run calm => ?start, fun staged run => ⟨fun calm => ?stop, fun stalled => ?stalled⟩,
    fun staged run => refuses staged start (commitRun_forbidden reserved staged start (RunState.permits_start run)),
    fun staged run => refuses staged stop (commitRun_forbidden reserved staged stop (RunState.permits_stop run)),
    fun staged run => refuses staged flush (commitRun_forbidden reserved staged flush (by rw [run]; rfl)), fun unstaged => ?rejected⟩,
    fun unreserved => ⟨fun staged => refuses staged start (commitRun_conflict unreserved),
      fun staged => refuses staged stop (commitRun_conflict unreserved),
      fun staged => refuses staged flush (commitRun_conflict unreserved)⟩⟩
  case start =>
    refine congrArg Host.Outcome.next ?_
    rw [commitRun_staged up staged start, commitRun_accepted reserved staged start (by rw [run]; rfl), answered, slice]
    exact congrArg State.settleCache (startRun_calm (fun r => by rw [rx]; exact calm r) n)
  case stop =>
    refine congrArg Host.Outcome.next ?_
    rw [commitRun_staged up staged stop, commitRun_accepted reserved staged stop (by rw [run]; rfl), answered]
    refine congrArg State.settleCache ((stopRun_calm fun r => by rw [rx]; exact calm r).trans ?_)
    rw [window.1, window.2]
  case stalled =>
    refine congrArg Host.Outcome.next ?_
    rw [commitRun_staged up staged stop, commitRun_accepted reserved staged stop (by rw [run]; rfl), answered]
    refine congrArg State.settleCache ((stopRun_stalled fun r early => ?_).trans ?_)
    · exact StallsEarly_congr (rx r) window.2 (stalled r (rx r ▸ early))
    · simp only [window.1, window.2, rx, Receiver.stalled_eq] <;> rfl
  case rejected =>
    have named : ItemName.ofCodes 0 0 = some .run := rfl
    have taken : exec (.itemCommit p 0 0) s = .next (s.commitItem p .run).settleCache := by
      show Host.Outcome.next (s.commitOn p (ItemName.ofCodes 0 0)) = _
      rw [named]
      exact congrArg Host.Outcome.next (if_pos (PortState.linked_of_ne up))
    rw [taken, commitRun_rejected reserved (runCommand_unstaged unstaged), attempt, hrefused]

end Sys2Proof.Machine
end

section
/-! SUPPORT. Entry into FLUSHING in the slice table: the records rolled back and the slices closed out (R32). -/

namespace Sys2Proof.Machine

/-! ## What freeing leaves alone -/

section
variable (s : State) (i k : SlotId)

theorem freeChain_ctx (q : SourceId) : (s.freeChain i q).ctx k =
    if i = k then (s.ctx i).setChain q { (s.ctx i).chain q with head := 0, tail := 0 } else s.ctx k := by
  unfold State.freeChain
  dsimp only
  have kept (j : SlotId) (n : Slice) (l : List Nat) : (s.freePages n l).ctx j = s.ctx j := by
    unfold State.ctx
    rw [freePages_contexts]
  rw [State.setCtx_ctx, kept, kept]

/-- Freeing a slice changes no other context (R71). -/
theorem freeSlice_ctx_ne (other : i ≠ k) : (s.freeSlice i).ctx k = s.ctx k :=
  each_keeps (fun t => t.ctx k) _ _ (fun q t => (freeChain_ctx t i k q).trans (if_neg other)) s

/-- It changes no slot's state (R71). -/
theorem freeSlice_state : ((s.freeSlice i).ctx k).state = (s.ctx k).state := by
  refine each_keeps (fun t => (t.ctx k).state) _ _ (fun q t => ?_) s
  rw [freeChain_ctx]
  split
  case isTrue e => subst e; rfl
  case isFalse => rfl

end

/-- Neither a record nor a current fragment is lost to the freeing of a page. -/
theorem clearNoPages_record (s : State) (k r : ReceiverId) : ((s.clearNoPages r).rx k).record = (s.rx k).record ∧
    ((s.clearNoPages r).rx k).current = (s.rx k).current := by
  unfold State.clearNoPages
  rw [State.setRx_rx]
  split
  case isTrue e => subst e; exact ⟨rfl, rfl⟩
  case isFalse => exact ⟨rfl, rfl⟩

theorem freePages_record (s : State) (n : Slice) (l : List Nat) (k : ReceiverId) :
    ((s.freePages n l).rx k).record = (s.rx k).record :=
  freePages_keeps (fun t => (t.rx k).record) (fun _ _ _ => rfl) (fun _ _ _ => rfl) (fun _ _ => rfl) (fun _ _ => rfl) (fun _ _ => rfl)
    (fun t r => (clearNoPages_record t k r).1) s n l

theorem freePages_current (s : State) (n : Slice) (l : List Nat) (k : ReceiverId) :
    ((s.freePages n l).rx k).current = (s.rx k).current :=
  freePages_keeps (fun t => (t.rx k).current) (fun _ _ _ => rfl) (fun _ _ _ => rfl) (fun _ _ => rfl) (fun _ _ => rfl) (fun _ _ => rfl)
    (fun t r => (clearNoPages_record t k r).2) s n l

/-! ## The pool reads the pool, the chains and the records -/

/-- The pool once a page is given up (R61). -/
def PagePool.givenUp (pool : PagePool) (page : Nat) : PagePool :=
  if pool.attributeOf page = .retireOnFree then
    if pool.retired.length < Config.retiredEntries then pool.withdrawn page else (pool.freed page).setAttribute page .suspect
  else pool.freed page

theorem freePage_givenUp (s : State) (n : Slice) (page : Nat) : (s.freePage n page).pool = s.pool.givenUp page := by
  have ended (t : State) : t.endNoPages.pool = t.pool :=
    each_keeps State.pool _ _ (fun r u => (rfl : (u.clearNoPages r).pool = u.pool)) t
  unfold State.freePage PagePool.givenUp
  split
  · split
    · rw [evaluate_pool]
      rfl
    · rw [post_pool, ended, evaluate_pool]
      rfl
  · rw [ended, evaluate_pool]
    rfl

theorem freePages_cons (s : State) (n : Slice) (page : Nat) (l : List Nat) :
    s.freePages n (page :: l) = (s.freePage n page).freePages n l := rfl

theorem freePages_givenUp (n : Slice) : ∀ (l : List Nat) (s : State), (s.freePages n l).pool = l.foldl PagePool.givenUp s.pool
  | [], _ => rfl
  | page :: l, s => by rw [freePages_cons, freePages_givenUp n l, freePage_givenUp, List.foldl_cons]

/-- Two states agree on what the pool's next state is read from: the pool, the chains and the records. -/
structure State.PoolAgrees (s t : State) : Prop where
  pool : t.pool = s.pool
  chains : ∀ i, (t.ctx i).chains = (s.ctx i).chains
  records : ∀ r, (t.rx r).record = (s.rx r).record

namespace State.PoolAgrees

variable {s t : State} (h : s.PoolAgrees t)
include h

theorem freePages (n m : Slice) (l : List Nat) : (s.freePages n l).PoolAgrees (t.freePages m l) where
  pool := by rw [freePages_givenUp, freePages_givenUp, h.pool]
  chains i := by
    unfold State.ctx
    rw [freePages_contexts, freePages_contexts]
    exact h.chains i
  records r := by rw [freePages_record, freePages_record, h.records]

theorem freeChain (i : SlotId) (q : SourceId) : (s.freeChain i q).PoolAgrees (t.freeChain i q) := by
  have chain : (t.ctx i).chain q = (s.ctx i).chain q := by
    unfold Context.chain
    rw [h.chains]
  have freed := h.freePages (s.ctx i).slice (t.ctx i).slice (s.pool.run ((s.ctx i).chain q).tail Config.maxChainPages ((s.ctx i).chain q).head)
  refine ⟨?_, fun k => ?_, fun r => ?_⟩
  · unfold State.freeChain
    dsimp only
    rw [State.setCtx_pool, State.setCtx_pool, chain, h.pool]
    exact freed.pool
  · rw [freeChain_ctx, freeChain_ctx]
    split
    · unfold Context.setChain
      dsimp only
      rw [chain, h.chains]
    · exact h.chains k
  · unfold State.freeChain
    dsimp only
    rw [chain, h.pool]
    exact freed.records r

omit h in
theorem each {α : Type} {f g : α → State → State} (hf : ∀ a {u v : State}, u.PoolAgrees v → (f a u).PoolAgrees (g a v)) :
    ∀ (l : List α) {s t : State}, s.PoolAgrees t → (s.each l f).PoolAgrees (t.each l g)
  | [], _, _, h => h
  | a :: l, _, _, h => each hf l (hf a h)

theorem freeSlice (i : SlotId) : (s.freeSlice i).PoolAgrees (t.freeSlice i) := each (fun q _ _ agrees => agrees.freeChain i q) _ h

/-- A change of a slot's state has no part in it. -/
theorem setSlotState (i : SlotId) (x : SlotState) : s.PoolAgrees (t.setSlotState i x) where
  pool := h.pool
  chains k := by
    unfold State.setSlotState
    rw [State.setCtx_ctx]
    split
    case isTrue e => subst e; exact h.chains i
    case isFalse => exact h.chains k
  records := h.records

end State.PoolAgrees

/-- A loop reaches what one of its turns brings about and every turn keeps. -/
theorem each_reaches {α : Type} {P : State → Prop} {f : α → State → State} {a : α} (brings : ∀ t, P (f a t))
    (keeps : ∀ x t, P t → P (f x t)) : ∀ (l : List α), a ∈ l → ∀ s : State, P (s.each l f)
  | b :: l, mem, s => by
    rw [State.each_cons]
    rcases List.mem_cons.mp mem with rfl | later
    · exact each_holds f keeps l (brings s)
    · exact each_reaches brings keeps l later (f b s)

/-! ## Records rolled back -/

section
variable (s : State) (r k : ReceiverId)

theorem rollback_record : ((s.rollback r).rx k).record = if r = k then none else (s.rx k).record := by
  unfold State.rollback
  split
  case h_1 none =>
    split
    case isTrue e => subst e; exact none
    case isFalse => rfl
  case h_2 x held =>
    have unlinked : ((s.unlink x).rx k).record = (s.rx k).record := by
      unfold State.unlink
      split <;> rfl
    unfold State.dropRecord
    rw [State.setRx_rx]
    split
    case isTrue => rfl
    case isFalse => exact (freePages_record _ _ _ k).trans unlinked

theorem Receiver.discardRemainder_record (x : Receiver) (b : Bool) : (x.discardRemainder b).record = x.record := by
  unfold Receiver.discardRemainder Receiver.settleRemainder Receiver.verdictUnrecorded Receiver.setHead Receiver.popHead
  repeat' split
  all_goals rfl

theorem abandonRecord_record : ((s.abandonRecord r).rx k).record = if r = k then none else (s.rx k).record := by
  unfold State.abandonRecord
  split
  case isTrue none =>
    split
    case isTrue e => subst e; exact none
    case isFalse => rfl
  case isFalse =>
    dsimp only
    rw [State.setRx_rx]
    split
    case isTrue e =>
      subst e
      rw [Receiver.discardRemainder_record, rollback_record, if_pos rfl]
    case isFalse other => rw [rollback_record, if_neg other]

theorem rollback_current : ((s.rollback r).rx k).current = (s.rx k).current := by
  unfold State.rollback
  split
  case h_1 => rfl
  case h_2 x held =>
    have unlinked : ((s.unlink x).rx k).current = (s.rx k).current := by
      unfold State.unlink
      split <;> rfl
    have freed : (((s.unlink x).freePages x.slice ((s.unlink x).pool.run x.writePage x.pages x.firstPage)).rx k).current =
        (s.rx k).current := (freePages_current _ _ _ k).trans unlinked
    unfold State.dropRecord
    rw [State.setRx_rx]
    split
    case isTrue e => subst e; exact freed
    case isFalse => exact freed

/-- The record and the current fragment of a receiver are gone once it is flushed, and no other receiver's (R32). -/
theorem flushReceiver_rx : ((s.flushReceiver r).rx k).record = (if r = k then none else (s.rx k).record) ∧
    ((s.flushReceiver r).rx k).current = if r = k then none else (s.rx k).current := by
  unfold State.flushReceiver State.setCurrent
  rw [State.setRx_rx]
  split
  case isTrue e =>
    subst e
    exact ⟨(abandonRecord_record s r r).trans (if_pos rfl), rfl⟩
  case isFalse other =>
    refine ⟨(abandonRecord_record s r k).trans (if_neg other), ?_⟩
    unfold State.abandonRecord
    split
    · rfl
    · exact (congrArg Receiver.current (State.setRx_rx_ne _ _ _ _ other)).trans (rollback_current s r k)

end

/-- Flushing a receiver changes only what a rollback and a change of its receiver record do. -/
theorem flushReceiver_keeps {α : Type} (g : State → α) (hf : ∀ s n page, g (s.freePage n page) = g s)
    (hl : ∀ s x, g (s.setPool x) = g s) (hr : ∀ s r x, g (s.setRx r x) = g s) (s : State) (r : ReceiverId) :
    g (s.flushReceiver r) = g s := by
  refine (hr _ _ _).trans ?_
  unfold State.abandonRecord
  split
  · rfl
  · exact (hr _ _ _).trans (rollback_keeps g hf hl hr s r)

/-- A rollback reads the pool and the record (R69). -/
theorem State.PoolAgrees.rollback {s t : State} (h : s.PoolAgrees t) (r : ReceiverId) : (s.rollback r).PoolAgrees (t.rollback r) := by
  refine ⟨?_, fun i => ?_, fun k => by rw [rollback_record, rollback_record, h.records]⟩
  · unfold State.rollback
    rw [h.records]
    split
    case h_1 => exact h.pool
    case h_2 x _ =>
      have unlinked : (s.unlink x).PoolAgrees (t.unlink x) := by
        unfold State.unlink
        rw [h.pool]
        split
        · exact ⟨rfl, h.chains, h.records⟩
        · exact h
      dsimp only
      rw [unlinked.pool]
      exact (unlinked.freePages x.slice x.slice _).pool
  · have kept (u : State) : (u.rollback r).contexts = u.contexts := rollback_keeps State.contexts
      (freePage_keeps State.contexts (fun _ _ _ => rfl) (fun _ _ _ => rfl) (fun _ _ => rfl) (fun _ _ => rfl) (fun _ _ => rfl)
        fun _ _ => rfl) (fun _ _ => rfl) (fun _ _ _ => rfl) u r
    unfold State.ctx
    rw [kept, kept]
    exact h.chains i

/-- A flushed receiver leaves the pool and the contexts as the rollback of its record does (R32, R69). -/
theorem flushReceiver_rollback {α : Type} (g : State → α) (hr : ∀ s r x, g (s.setRx r x) = g s) (s : State) (r : ReceiverId) :
    g (s.flushReceiver r) = g (s.rollback r) := by
  refine (hr _ _ _).trans ?_
  unfold State.abandonRecord
  split
  case isTrue none =>
    have nothing : s.rollback r = s := by
      unfold State.rollback
      rw [none]
    rw [nothing]
  case isFalse => exact hr _ _ _

theorem flushReceiver_agrees {s t : State} (h : s.PoolAgrees t) (r : ReceiverId) : (s.rollback r).PoolAgrees (t.flushReceiver r) := by
  have rolled := h.rollback r
  refine ⟨?_, fun i => ?_, fun k => ?_⟩
  · rw [flushReceiver_rollback State.pool fun _ _ _ => rfl]
    exact rolled.pool
  · rw [flushReceiver_rollback (fun u => u.ctx i) fun _ _ _ => rfl]
    exact rolled.chains i
  · rw [(flushReceiver_rx t r k).1, rollback_record, h.records]

/-! ## Slices closed out -/

section
variable (t : State) (i k : SlotId)

/-- Closing out a slot changes no other context (R32). -/
theorem flushSlot_ctx_ne (other : i ≠ k) : (t.flushSlot i).ctx k = t.ctx k := by
  unfold State.flushSlot State.setSlotState
  split
  · rw [State.setCtx_ctx_ne _ _ _ _ other, freeSlice_ctx_ne t i k other]
  · rfl

/-- A slot neither OPEN nor READY stays as it is (R32). -/
theorem flushSlot_other (h : (t.ctx i).state ≠ .opened ∧ (t.ctx i).state ≠ .ready) : t.flushSlot i = t :=
  if_neg fun closes => closes.elim h.1 h.2

/-- No slot is left OPEN or READY by its closing out (R32). -/
theorem flushSlot_closes : ((t.flushSlot i).ctx i).state ≠ .opened ∧ ((t.flushSlot i).ctx i).state ≠ .ready := by
  unfold State.flushSlot State.setSlotState
  split
  case isTrue =>
    rw [State.setCtx_ctx_self]
    exact ⟨nofun, nofun⟩
  case isFalse h => exact not_or.mp h

theorem flushSlot_keepsClosed (h : (t.ctx k).state ≠ .opened ∧ (t.ctx k).state ≠ .ready) :
    ((t.flushSlot i).ctx k).state ≠ .opened ∧ ((t.flushSlot i).ctx k).state ≠ .ready := by
  rcases eq_or_ne i k with rfl | other
  · exact flushSlot_closes t i
  · rw [flushSlot_ctx_ne t i k other]
    exact h

end

/-- Closing out a slot keeps what freeing its slice and a change of its context keep. -/
theorem flushSlot_keeps {α : Type} (g : State → α) (hs : ∀ s p x, g (s.setSent p x) = g s) (hp : ∀ s p x, g (s.setPort p x) = g s)
    (hi : ∀ s x, g (s.setIncidents x) = g s) (hq : ∀ s x, g (s.setPressure x) = g s) (hl : ∀ s x, g (s.setPool x) = g s)
    (hr : ∀ s r, g (s.clearNoPages r) = g s) (hc : ∀ s i x, g (s.setCtx i x) = g s) (t : State) (i : SlotId) :
    g (t.flushSlot i) = g t := by
  unfold State.flushSlot
  split
  · exact (hc _ _ _).trans (freeSlice_keeps g hs hp hi hq hl hr hc t i)
  · rfl

/-- The slots closed out, one after another, give up the pages of the OPEN and READY slices (R32). -/
theorem flushSlots_agrees (closes : SlotId → Prop) [DecidablePred closes] : ∀ (l : List SlotId) {s t : State}, l.Nodup →
    (∀ i ∈ l, closes i ↔ (t.ctx i).state = .opened ∨ (t.ctx i).state = .ready) → s.PoolAgrees t →
    (l.foldl (fun w i => if closes i then w.freeSlice i else w) s).PoolAgrees (t.each l fun i u => u.flushSlot i)
  | [], _, _, _, _, agrees => agrees
  | i :: l, s, t, nodup, reads, agrees => by
    obtain ⟨fresh, nodup⟩ := List.nodup_cons.mp nodup
    rw [List.foldl_cons, State.each_cons]
    refine flushSlots_agrees closes l nodup (fun k mem => ?_) ?_
    · rw [flushSlot_ctx_ne t i k fun e => fresh (e ▸ mem)]
      exact reads k (List.mem_cons_of_mem i mem)
    · unfold State.flushSlot
      by_cases h : closes i
      · rw [if_pos h, if_pos ((reads i List.mem_cons_self).mp h)]
        exact (agrees.freeSlice i).setSlotState i .retired
      · rw [if_neg h, if_neg fun opened => h ((reads i List.mem_cons_self).mpr opened)]
        exact agrees

end Sys2Proof.Machine
end

section
/-! SUPPORT. FLUSHING once every record is rolled back: what the frontier, the stalled receivers and the engines that end their
deliveries leave as it is (R32, R123, R179). -/

namespace Sys2Proof.Machine

/-! ## With no run on and nothing READY -/

/-- No run is on that opens slices or drains, nothing is READY, and no receiver has a record or a current fragment (R32). -/
structure State.Halted (t : State) : Prop where
  run : t.run = .stopped ∨ t.run = .flushing
  ready : t.ready = []
  records : ∀ r, (t.rx r).record = none ∧ (t.rx r).current = none

theorem State.Halted.congr {s t : State} (h : s.Halted) (run : t.run = s.run) (ready : t.ready = s.ready)
    (record : ∀ r, (t.rx r).record = (s.rx r).record) (current : ∀ r, (t.rx r).current = (s.rx r).current) : t.Halted where
  run := run ▸ h.run
  ready := ready.trans h.ready
  records r := ⟨(record r).trans (h.records r).1, (current r).trans (h.records r).2⟩

section
variable {t : State} (h : t.Halted)
include h

/-- A segment presented then is discarded whole without an incident, if it is looked at at all (R11). -/
theorem State.Halted.present (r : ReceiverId) : t.present r = t ∨ t.present r = t.discardWhole r := by
  have discards (q : SourceId) (header : SegmentHeader) : t.judge r q header = t.discardWhole r :=
    judge_discard t r q header (.inl (h.records r).2) (State.answer_runState (.inl h.run))
  unfold State.present
  split
  case isFalse => exact .inl rfl
  case isTrue =>
    split
    case h_1 => exact .inl rfl
    case h_2 g _ =>
      split
      case h_1 q _ =>
        split
        case isTrue => exact .inr (discards q g.header)
        case isFalse => exact .inr rfl
      case h_2 => exact .inr rfl

theorem State.Halted.setRx {x : Receiver} (r : ReceiverId) (gone : x.record = none ∧ x.current = none) : (t.setRx r x).Halted where
  run := h.run
  ready := h.ready
  records k := by
    rw [State.setRx_rx]
    split
    · exact gone
    · exact h.records k

theorem State.Halted.discardWhole (r : ReceiverId) : (t.discardWhole r).Halted := by
  refine h.setRx r ?_
  unfold Receiver.withoutHead
  split
  · exact h.records r
  · exact h.records r

/-- Freeing a slice halts nothing anew and brings back no record. -/
theorem State.Halted.freeSlice (i : SlotId) : (t.freeSlice i).Halted := by
  refine h.congr ?_ ?_ (fun r => ?_) fun r => ?_
  · exact freeSlice_keeps State.run (fun _ _ _ => rfl) (fun _ _ _ => rfl) (fun _ _ => rfl) (fun _ _ => rfl) (fun _ _ => rfl)
      (fun _ _ => rfl) (fun _ _ _ => rfl) t i
  · exact freeSlice_keeps State.ready (fun _ _ _ => rfl) (fun _ _ _ => rfl) (fun _ _ => rfl) (fun _ _ => rfl) (fun _ _ => rfl)
      (fun _ _ => rfl) (fun _ _ _ => rfl) t i
  · exact freeSlice_keeps (fun u => (u.rx r).record) (fun _ _ _ => rfl) (fun _ _ _ => rfl) (fun _ _ => rfl) (fun _ _ => rfl)
      (fun _ _ => rfl) (fun u k => (clearNoPages_record u r k).1) (fun _ _ _ => rfl) t i
  · exact freeSlice_keeps (fun u => (u.rx r).current) (fun _ _ _ => rfl) (fun _ _ _ => rfl) (fun _ _ => rfl) (fun _ _ => rfl)
      (fun _ _ => rfl) (fun u k => (clearNoPages_record u r k).2) (fun _ _ _ => rfl) t i

theorem State.Halted.setSlotState (i : SlotId) (x : SlotState) : (t.setSlotState i x).Halted :=
  h.congr rfl rfl (fun _ => rfl) fun _ => rfl

/-- With nothing READY a walk assigns nothing. -/
theorem State.Halted.walk : t.walk = t := t.walk_empty h.ready

theorem State.Halted.trigger (q : PortId) : (t.trigger q).Halted :=
  h.congr (trigger_keeps State.run (fun _ _ _ => rfl) (fun _ _ _ => rfl) t q)
    (trigger_keeps State.ready (fun _ _ _ => rfl) (fun _ _ _ => rfl) t q)
    (fun r => trigger_keeps (fun u => (u.rx r).record) (fun _ _ _ => rfl) (fun _ _ _ => rfl) t q)
    fun r => trigger_keeps (fun u => (u.rx r).current) (fun _ _ _ => rfl) (fun _ _ _ => rfl) t q

end

/-! ## What the frontier and the receivers leave -/

/-- A property that a change of a receiver, the end of the run and the passing of a RETIRED slot keep. -/
structure RunFrame (F : State → Prop) : Prop where
  rx : ∀ t r x, F t → F (t.setRx r x)
  stop : ∀ t, F t → F (t.setRun .stopped)
  pass : ∀ t, t.frontierRetired = true → F t → F ((t.setCtx (slotOf t.frontier) Context.unopened).setFrontier (t.frontier + 1))

section
variable {F : State → Prop} (frame : RunFrame F) {t : State}
include frame

theorem presentStalled_frame (h : t.Halted ∧ F t) : t.presentStalled.Halted ∧ F t.presentStalled := by
  refine each_holds (P := fun u => u.Halted ∧ F u) _ (fun r u hu => ?_) _ h
  obtain ⟨halted, kept⟩ := hu
  unfold State.presentAgain
  split
  case isFalse => exact ⟨halted, kept⟩
  case isTrue =>
    rcases halted.present r with same | discards
    · rw [same]
      exact ⟨halted, kept⟩
    · rw [discards]
      exact ⟨halted.discardWhole r, frame.rx u r _ kept⟩

theorem passRetired_frame : ∀ (fuel : Nat) {t : State}, t.Halted ∧ F t →
    (State.passRetired fuel t).Halted ∧ F (State.passRetired fuel t)
  | 0, _, h => h
  | fuel + 1, t, h => by
    unfold State.passRetired
    split
    case isTrue retired =>
      exact passRetired_frame fuel ⟨h.1.congr rfl rfl (fun _ => rfl) fun _ => rfl, frame.pass t retired h.2⟩
    case isFalse => exact h

/-- The frontier passes RETIRED slots, and no slice opens (R8, R28). -/
theorem frontierAdvance_frame (h : t.Halted ∧ F t) : t.frontierAdvance.Halted ∧ F t.frontierAdvance := by
  unfold State.frontierAdvance
  split
  case isFalse => exact h
  case isTrue =>
    have passed := passRetired_frame frame 64 h
    generalize State.passRetired 64 t = u at passed
    have opens : u.openToward u.newestStrobe = u := if_neg fun running => by
      rcases passed.1.run with e | e <;> rw [e] at running <;> cases running
    dsimp only
    rw [opens]
    have presented := presentStalled_frame frame passed
    have reports : u.presentStalled.drainReport = u.presentStalled := if_neg fun ends => by
      rcases presented.1.run with e | e <;> rw [e] at ends <;> exact absurd ends.1 nofun
    rw [reports]
    exact presented

theorem flushingEnd_frame (h : t.Halted ∧ F t) : t.flushingEnd.Halted ∧ F t.flushingEnd := by
  unfold State.flushingEnd State.changeRun
  split
  · exact presentStalled_frame frame ⟨⟨.inl rfl, h.1.ready, h.1.records⟩, frame.stop t h.2⟩
  · exact h

end

/-! ## What an engine that turns to FLUSHED leaves -/

/-- A property that the work of engine `q` at entry into FLUSHING keeps, its slice's slot RETIRED among it (R123, R120). -/
structure EngineFrame (F : State → Prop) (q : PortId) : Prop extends RunFrame F where
  trigger : ∀ t, F t → F (t.trigger q)
  send : ∀ t m, F t → F (t.send q m)
  ring : ∀ t x, F t → F (t.setRing q x)
  hold : ∀ t x, F t → F (t.setHold q x)
  giveBack : ∀ t, F t → F (t.giveBack q)
  teardown : ∀ t, F t → F (t.setCache (t.cache.teardown q false))
  port : ∀ t x, F t → F (t.setPort q x)
  engine : ∀ t x, x.assigned = none ∨ x.assigned = (t.engine q).assigned → F t → F (t.setEngine q x)
  retire : ∀ t i n, (t.engine q).assigned = some (i, n) → F t → F ((t.freeSlice i).setSlotState i .retired)

section
variable {F : State → Prop} {q : PortId} (frame : EngineFrame F q) {t : State}
include frame

theorem drainingEnd_frame (h : t.Halted ∧ F t) : (t.drainingEnd q).Halted ∧ F (t.drainingEnd q) := by
  unfold State.drainingEnd
  split
  · exact ⟨h.1.congr rfl rfl (fun _ => rfl) fun _ => rfl, frame.send _ _ (frame.teardown _ (frame.port t _ h.2))⟩
  · exact h

theorem endOfDelivery_frame (h : t.Halted ∧ F t) : (t.endOfDelivery q).Halted ∧ F (t.endOfDelivery q) := by
  have idle : (t.idleEngine q).Halted ∧ F (t.idleEngine q) :=
    ⟨h.1.congr rfl rfl (fun _ => rfl) fun _ => rfl, frame.hold _ _ (frame.engine t _ (.inl rfl) h.2)⟩
  unfold State.endOfDelivery
  rw [idle.1.walk]
  exact drainingEnd_frame frame (flushingEnd_frame frame.toRunFrame idle)

theorem writeRecord_frame (i : SlotId) (n : Slice) (g : RingParameters) (h : t.Halted ∧ F t) :
    (t.writeRecord q i n g).Halted ∧ F (t.writeRecord q i n g) := by
  rw [writeRecord_eq]
  refine ⟨State.Halted.trigger ?_ q, frame.trigger _ (frame.ring _ _ (frame.send t _ h.2))⟩
  exact h.1.congr rfl rfl (fun _ => rfl) fun _ => rfl

omit frame in
/-- A completion record changes no engine (R119). -/
theorem writeRecord_engine (i : SlotId) (n : Slice) (g : RingParameters) (v : PortId) :
    (t.writeRecord q i n g).engine v = t.engine v :=
  trigger_keeps (fun u => u.engine v) (fun _ _ _ => rfl) (fun _ _ _ => rfl) _ q

theorem complete_frame {i : SlotId} {n : Slice} (g : RingParameters) (assigned : (t.engine q).assigned = some (i, n))
    (h : t.Halted ∧ F t) : (t.complete q i n g).Halted ∧ F (t.complete q i n g) := by
  have written := writeRecord_frame frame i n g h
  have retired : (((t.writeRecord q i n g).freeSlice i).setSlotState i .retired).Halted ∧
      F (((t.writeRecord q i n g).freeSlice i).setSlotState i .retired) :=
    ⟨(written.1.freeSlice i).setSlotState i .retired,
      frame.retire _ i n (by rw [writeRecord_engine]; exact assigned) written.2⟩
  exact endOfDelivery_frame frame (frontierAdvance_frame frame.toRunFrame retired)

theorem proceedToCredit_frame (h : t.Halted ∧ F t) : (t.proceedToCredit q).Halted ∧ F (t.proceedToCredit q) := by
  unfold State.proceedToCredit
  split
  case h_2 => exact h
  case h_1 i n g assigned _ =>
    split
    · exact complete_frame frame g assigned h
    · exact ⟨h.1.congr rfl rfl (fun _ => rfl) fun _ => rfl, frame.engine _ _ (.inr rfl) (frame.hold t _ h.2)⟩

/-- At entry into FLUSHING engine `q` changes only what the frame allows (R123). -/
theorem flushEngine_frame (h : t.Halted ∧ F t) : (t.flushEngine q).Halted ∧ F (t.flushEngine q) := by
  unfold State.flushEngine
  split
  · exact h
  · refine proceedToCredit_frame frame ⟨h.1.congr rfl rfl (fun _ => rfl) fun _ => rfl, ?_⟩
    exact frame.engine _ _ (.inr rfl) (frame.giveBack t h.2)
  · exact proceedToCredit_frame frame ⟨h.1.congr rfl rfl (fun _ => rfl) fun _ => rfl, frame.engine t _ (.inr rfl) h.2⟩
  · exact proceedToCredit_frame frame ⟨h.1.congr rfl rfl (fun _ => rfl) fun _ => rfl, frame.engine t _ (.inr rfl) h.2⟩

end

end Sys2Proof.Machine
end

section
/-! PROOF. FLUSH: the run closed out, and the FLUSHED records (R32, R103, R116 to R119, R123, R179). -/

namespace Sys2Proof.Machine

/-! ## What stands through entry into FLUSHING -/

/-- The items stand and port `p` has sent these messages. -/
def State.Confirmed (p : PortId) (items : Items) (l : List (List Word)) (t : State) : Prop := t.items = items ∧ t.HasSent p l

/-- No slice is OPEN or READY. -/
def State.ClosedOut (t : State) : Prop := ∀ i, (t.ctx i).state ≠ .opened ∧ (t.ctx i).state ≠ .ready

/-- Port `v` still has this engine and ring record, slot `i` this context, and no other engine holds the slice of slot `i`. -/
structure State.Holds (v : PortId) (i : SlotId) (e : Engine) (x : Ring) (c : Context) (t : State) : Prop where
  engine : t.engine v = e
  ring : t.ring v = x
  ctx : t.ctx i = c
  alone : ∀ w, w ≠ v → ∀ y, (t.engine w).assigned = some y → y.1 ≠ i

/-- Port `v` has this engine and has sent these messages. -/
def State.Turned (v : PortId) (e : Engine) (l : List (List Word)) (t : State) : Prop := t.engine v = e ∧ t.HasSent v l

/-- Giving a slice up keeps what freeing it and a change of its context keep (R71). -/
theorem freeSlot_keeps {α : Type} (g : State → α) (hs : ∀ s p x, g (s.setSent p x) = g s) (hp : ∀ s p x, g (s.setPort p x) = g s)
    (hi : ∀ s x, g (s.setIncidents x) = g s) (hq : ∀ s x, g (s.setPressure x) = g s) (hl : ∀ s x, g (s.setPool x) = g s)
    (hr : ∀ s r, g (s.clearNoPages r) = g s) (hc : ∀ s i x, g (s.setCtx i x) = g s) (t : State) (k : SlotId) {x : SlotState} :
    g ((t.freeSlice k).setSlotState k x) = g t := (hc _ _ _).trans (freeSlice_keeps g hs hp hi hq hl hr hc t k)

section
variable {p v q : PortId} {items : Items} {l : List (List Word)} {i : SlotId} {e : Engine} {x : Ring} {c : Context} {s t : State}

theorem State.Confirmed.congr (h : s.Confirmed p items l) (same : t.items = s.items) (sent : t.sent[p] = s.sent[p]) :
    t.Confirmed p items l := ⟨same.trans h.1, h.2.congr sent⟩

theorem State.Holds.congr (h : s.Holds v i e x c) (engines : t.engines = s.engines) (ring : t.ring v = s.ring v)
    (ctx : t.ctx i = s.ctx i) : t.Holds v i e x c where
  engine := by
    unfold State.engine
    rw [engines]
    exact h.engine
  ring := ring.trans h.ring
  ctx := ctx.trans h.ctx
  alone w other y := by
    unfold State.engine
    rw [engines]
    exact h.alone w other y

theorem State.Turned.congr (h : s.Turned v e l) (engine : t.engine v = s.engine v) (sent : t.sent[v] = s.sent[v]) : t.Turned v e l :=
  ⟨engine.trans h.1, h.2.congr sent⟩

/-- Freeing a slice keeps the items and only adds to the messages sent. -/
theorem State.Confirmed.freeSlice (h : s.Confirmed p items l) (k : SlotId) : (s.freeSlice k).Confirmed p items l :=
  ⟨(freeSlice_keeps State.items (fun _ _ _ => rfl) (fun _ _ _ => rfl) (fun _ _ => rfl) (fun _ _ => rfl) (fun _ _ => rfl)
    (fun _ _ => rfl) (fun _ _ _ => rfl) s k).trans h.1, hasSent_undisturbed.freeSlice k h.2⟩

theorem confirmed_frame : EngineFrame (State.Confirmed p items l) q where
  rx _ _ _ h := h.congr rfl rfl
  stop _ h := h.congr rfl rfl
  pass _ _ h := h.congr rfl rfl
  trigger t h := ⟨(trigger_keeps State.items (fun _ _ _ => rfl) (fun _ _ _ => rfl) t q).trans h.1, h.2.trigger q⟩
  send _ m h := ⟨h.1, h.2.send q m⟩
  ring _ _ h := h.congr rfl rfl
  hold _ _ h := h.congr rfl rfl
  giveBack _ h := h.congr rfl rfl
  teardown _ h := h.congr rfl rfl
  port _ _ h := h.congr rfl rfl
  engine _ _ _ h := h.congr rfl rfl
  retire _ i _ _ h := (h.freeSlice i).congr (State.setCtx_items _ _ _) (congrArg (fun m : Vector _ 4 => m[p]) (State.setCtx_sent _ _ _))

/-- A passed slot is UNOPENED, a retired one RETIRED. -/
theorem State.ClosedOut.setCtx (h : s.ClosedOut) (k : SlotId) (hc : c.state ≠ .opened ∧ c.state ≠ .ready) : (s.setCtx k c).ClosedOut := by
  intro j
  rw [State.setCtx_ctx]
  split
  · exact hc
  · exact h j

theorem State.ClosedOut.congr (h : s.ClosedOut) (contexts : t.contexts = s.contexts) : t.ClosedOut := by
  intro j
  unfold State.ctx
  rw [contexts]
  exact h j

theorem closedOut_frame : EngineFrame State.ClosedOut q where
  rx _ _ _ h := h.congr rfl
  stop _ h := h.congr rfl
  pass _ _ h := (h.setCtx (c := Context.unopened) _ ⟨nofun, nofun⟩).congr rfl
  trigger t h := h.congr (trigger_keeps State.contexts (fun _ _ _ => rfl) (fun _ _ _ => rfl) t q)
  send _ _ h := h.congr rfl
  ring _ _ h := h.congr rfl
  hold _ _ h := h.congr rfl
  giveBack _ h := h.congr rfl
  teardown _ h := h.congr rfl
  port _ _ h := h.congr rfl
  engine _ _ _ h := h.congr rfl
  retire t i _ _ h := by
    refine State.ClosedOut.setCtx (fun j => ?_) i ⟨by simp, by simp⟩
    rw [freeSlice_state]
    exact h j

/-- A teardown leaves the ring records of the other ports (R146). -/
theorem Cache.teardown_ring_ne (d : Cache) (b : Bool) (other : q ≠ v) : (d.teardown q b).rings[v] = d.rings[v] := by
  have apart (r : Ring) : (d.rings.set q r)[v] = d.rings[v] := Vector.getElem_set_ne q.isLt v.isLt fun same => other (Fin.ext same)
  unfold Cache.teardown
  split
  · exact apart _
  · split
    · exact apart _
    · exact apart _

/-- Another engine's turn leaves port `v` its engine, its ring record and its slice (R123). -/
theorem holds_frame (other : q ≠ v) (delivering : c.state = .delivering) : EngineFrame (State.Holds v i e x c) q where
  rx _ _ _ h := h.congr rfl rfl rfl
  stop _ h := h.congr rfl rfl rfl
  pass t retired h := by
    refine h.congr rfl rfl ((State.setCtx_ctx_ne _ _ _ _ ?_))
    rintro rfl
    simp only [State.frontierRetired, Bool.and_eq_true, beq_iff_eq] at retired
    rw [h.ctx, delivering] at retired
    exact absurd retired.1 nofun
  trigger t h := h.congr (trigger_keeps State.engines (fun _ _ _ => rfl) (fun _ _ _ => rfl) t q)
    (trigger_keeps (fun u => u.ring v) (fun _ _ _ => rfl) (fun _ _ _ => rfl) t q)
    (trigger_keeps (fun u => u.ctx i) (fun _ _ _ => rfl) (fun _ _ _ => rfl) t q)
  send _ _ h := h.congr rfl rfl rfl
  ring _ _ h := h.congr rfl (Vector.getElem_set_ne q.isLt v.isLt fun same => other (Fin.ext same)) rfl
  hold _ _ h := h.congr rfl rfl rfl
  giveBack _ h := h.congr rfl rfl rfl
  teardown t h := h.congr rfl (Cache.teardown_ring_ne t.cache false other) rfl
  port _ _ h := h.congr rfl rfl rfl
  engine t y assigned h := by
    refine ⟨(State.setEngine_engine_ne _ _ _ _ other).trans h.engine, h.ring, h.ctx, fun w apart z => ?_⟩
    rw [State.setEngine_engine]
    split
    case isTrue same =>
      subst same
      rcases assigned with none | kept
      · rw [none]
        exact nofun
      · rw [kept]
        exact h.alone q apart z
    case isFalse => exact h.alone w apart z
  retire t k n assigned h := by
    have apart : k ≠ i := h.alone q other (k, n) assigned
    refine h.congr ?_ ?_ ?_
    · exact freeSlot_keeps State.engines (fun _ _ _ => rfl) (fun _ _ _ => rfl) (fun _ _ => rfl) (fun _ _ => rfl) (fun _ _ => rfl)
        (fun _ _ => rfl) (fun _ _ _ => rfl) t k
    · exact freeSlot_keeps (fun u => u.ring v) (fun _ _ _ => rfl) (fun _ _ _ => rfl) (fun _ _ => rfl) (fun _ _ => rfl) (fun _ _ => rfl)
        (fun _ _ => rfl) (fun _ _ _ => rfl) t k
    · exact (State.setCtx_ctx_ne _ _ _ _ apart).trans (freeSlice_ctx_ne t k i apart)

/-- Another engine's turn leaves port `v` what its own turn has left (R123). -/
theorem turned_frame (other : q ≠ v) : EngineFrame (State.Turned v e l) q where
  rx _ _ _ h := h.congr rfl rfl
  stop _ h := h.congr rfl rfl
  pass _ _ h := h.congr rfl rfl
  trigger t h := ⟨(trigger_keeps (fun u => u.engine v) (fun _ _ _ => rfl) (fun _ _ _ => rfl) t q).trans h.1, h.2.trigger q⟩
  send _ m h := ⟨h.1, h.2.send q m⟩
  ring _ _ h := h.congr rfl rfl
  hold _ _ h := h.congr rfl rfl
  giveBack _ h := h.congr rfl rfl
  teardown _ h := h.congr rfl rfl
  port _ _ h := h.congr rfl rfl
  engine _ _ _ h := h.congr (State.setEngine_engine_ne _ _ _ _ other) rfl
  retire t k _ _ h := by
    refine ⟨?_, ?_⟩
    · exact (freeSlot_keeps (fun u => u.engine v) (fun _ _ _ => rfl) (fun _ _ _ => rfl) (fun _ _ => rfl) (fun _ _ => rfl)
        (fun _ _ => rfl) (fun _ _ => rfl) (fun _ _ _ => rfl) t k).trans h.1
    · exact (hasSent_undisturbed.freeSlice k h.2).congr (congrArg (fun m : Vector _ 4 => m[v]) (State.setCtx_sent _ _ _))

end

/-! ## An engine's own turn -/

section
variable {v : PortId} {i : SlotId} {n : Slice} {e : Engine} {x : Ring} {c : Context} {g : RingParameters} {t : State}

/-- An engine that holds a slice turns to FLUSHED and looks at its credit (R123). -/
theorem flushEngine_turns (halted : t.Halted) (holds : t.Holds v i e x c) (busy : e.state ≠ .idle) :
    ∃ z : State, t.flushEngine v = z.proceedToCredit v ∧ z.Halted ∧ z.engine v = { e with kind := .flushed } ∧ z.ring v = x ∧
      z.ctx i = c ∧ z.sent = t.sent := by
  have own := holds.engine
  have turned (d : Cache) (ring : d.rings[v] = x) : ((t.setCache d).setEngine v { e with kind := .flushed }).Halted ∧
      ((t.setCache d).setEngine v { e with kind := .flushed }).engine v = { e with kind := .flushed } ∧
      ((t.setCache d).setEngine v { e with kind := .flushed }).ring v = x ∧
      ((t.setCache d).setEngine v { e with kind := .flushed }).ctx i = c ∧
      ((t.setCache d).setEngine v { e with kind := .flushed }).sent = t.sent :=
    ⟨halted.congr rfl rfl (fun _ => rfl) fun _ => rfl, State.setEngine_engine_self _ _ _, ring, holds.ctx, rfl⟩
  unfold State.flushEngine
  rw [own]
  split
  case h_1 idle => exact absurd idle busy
  case h_2 => exact ⟨_, rfl, turned _ holds.ring⟩
  case h_3 => exact ⟨_, rfl, turned t.cache holds.ring⟩
  case h_4 => exact ⟨_, rfl, turned t.cache holds.ring⟩

/-- A run that halts keeps an engine as it is (R179). -/
theorem engine_runFrame : RunFrame fun u => u.engine v = e := ⟨fun _ _ _ h => h, fun _ h => h, fun _ _ h => h⟩

/-- Every engine's turn keeps what says nothing. -/
theorem trivial_frame : EngineFrame (fun _ => True) v where
  rx _ _ _ h := h
  stop _ h := h
  pass _ _ h := h
  trigger _ h := h
  send _ _ h := h
  ring _ _ h := h
  hold _ _ h := h
  giveBack _ h := h
  teardown _ h := h
  port _ _ h := h
  engine _ _ _ h := h
  retire _ _ _ _ h := h

theorem drainingEnd_engine : (t.drainingEnd v).engine v = t.engine v := by
  unfold State.drainingEnd
  split <;> rfl

/-- The delivery that completes leaves its engine IDLE (R120). -/
theorem endOfDelivery_idle (halted : t.Halted) : (t.endOfDelivery v).engine v = Engine.idle := by
  have idle : (t.idleEngine v).Halted ∧ (t.idleEngine v).engine v = Engine.idle :=
    ⟨halted.congr rfl rfl (fun _ => rfl) fun _ => rfl, State.setEngine_engine_self _ _ _⟩
  unfold State.endOfDelivery
  rw [idle.1.walk, drainingEnd_engine]
  exact (flushingEnd_frame engine_runFrame idle).2

theorem complete_idle (halted : t.Halted) : (t.complete v i n g).engine v = Engine.idle := by
  have written := (writeRecord_frame trivial_frame (t := t) (q := v) i n g ⟨halted, trivial⟩).1
  have retired := (written.freeSlice i).setSlotState i .retired
  exact endOfDelivery_idle (frontierAdvance_frame (trivial_frame (v := v)).toRunFrame ⟨retired, trivial⟩).1

/-- What an engine that holds slice `n` of slot `i` is once FLUSHING has begun, and what its port has sent (R123, R116 to R119). -/
def State.FlushedEngine (v : PortId) (n : Slice) (e : Engine) (x : Ring) (c : Context) (g : RingParameters) (t : State) : Prop :=
  ((x.produced - x.announcedConsumed).toNat < 2 ^ g.m → t.engine v = Engine.idle ∧
    writeMessage (g.completionBase + BitVec.ofNat 48 (64 * (x.produced.toNat % 2 ^ g.m)))
      (completionRecord c n .flushed (e.firstBuffer.getD x.consumed) e.buffers e.readPosition e.cut
        (expectedCycle g.m x.produced)) ∈ t.sent[v]) ∧
  (2 ^ g.m ≤ (x.produced - x.announcedConsumed).toNat →
    t.engine v = { e with state := .waitCredit, bufferFill := 0, kind := .flushed })

/-- What holds for an engine that has turned holds for what keeps its engine and only adds to the messages sent. -/
theorem State.FlushedEngine.mono {s : State} (h : s.FlushedEngine v n e x c g) (turned : t.Turned v (s.engine v) s.sent[v]) :
    t.FlushedEngine v n e x c g :=
  ⟨fun credit => ⟨turned.1.trans (h.1 credit).1, turned.2.subset (h.1 credit).2⟩, fun credit => turned.1.trans (h.2 credit)⟩

theorem flushEngine_flushed (halted : t.Halted) (holds : t.Holds v i e x c) (busy : e.state ≠ .idle) (assigned : e.assigned = some (i, n))
    (ring : x.parameters = some g) : (t.flushEngine v).FlushedEngine v n e x c g := by
  obtain ⟨z, turns, quiet, engine, own, ctx, -⟩ := flushEngine_turns halted holds busy
  rw [turns]
  refine ⟨fun credit => ?_, fun credit => ?_⟩
  · rw [proceedToCredit_completes z v i n g (by rw [engine]; exact assigned) (by rw [own]; exact ring) (by rw [own]; exact credit)]
    refine ⟨complete_idle quiet, ?_⟩
    have sent := (writeRecord_hasSent (s := z) (p := v) i n g).complete v i n g
    rw [own, engine, ctx] at sent
    exact sent.subset (List.mem_append_right _ List.mem_cons_self)
  · rw [proceedToCredit_waits z v i n g (by rw [engine]; exact assigned) (by rw [own]; exact ring) (by rw [own]; exact credit), engine]
    exact State.setEngine_engine_self _ _ _

end

/-! ## The engines in their order -/

section
variable {t : State}

/-- The engines turn to FLUSHED one after another, in ascending port number (R123). -/
def State.enginesFlushed (t : State) : State := t.each allPorts fun q u => u.flushEngine q

theorem enginesFlushed_frame {F : State → Prop} (frame : ∀ q, EngineFrame F q) (h : t.Halted ∧ F t) :
    t.enginesFlushed.Halted ∧ F t.enginesFlushed :=
  each_holds (P := fun u => u.Halted ∧ F u) _ (fun q _ hu => flushEngine_frame (frame q) hu) _ h

/-- The turn of port `v` finds its engine and its ring record as they were, and what it leaves stands (R123). -/
theorem enginesFlushed_flushed {v : PortId} {i : SlotId} {n : Slice} {e : Engine} {x : Ring} {c : Context} {g : RingParameters}
    (halted : t.Halted) (holds : t.Holds v i e x c) (delivering : c.state = .delivering) (busy : e.state ≠ .idle)
    (assigned : e.assigned = some (i, n)) (ring : x.parameters = some g) : t.enginesFlushed.FlushedEngine v n e x c g := by
  obtain ⟨before, after, ports⟩ := List.append_of_mem (List.mem_finRange v)
  have apart := List.nodup_finRange 4
  rw [ports, List.nodup_append, List.nodup_cons] at apart
  obtain ⟨-, ⟨later, -⟩, earlier⟩ := apart
  have others {F : State → Prop} {l : List PortId} (fresh : ∀ q ∈ l, q ≠ v) (frame : ∀ q, q ≠ v → EngineFrame F q) {w : State}
      (h : w.Halted ∧ F w) : (w.each l fun q u => u.flushEngine q).Halted ∧ F (w.each l fun q u => u.flushEngine q) := by
    induction l generalizing w with
    | nil => exact h
    | cons q l ih =>
      rw [State.each_cons]
      exact ih (fun k mem => fresh k (List.mem_cons_of_mem q mem)) (flushEngine_frame (frame q (fresh q List.mem_cons_self)) h)
  have split : t.enginesFlushed = (((t.each before fun q u => u.flushEngine q).flushEngine v).each after fun q u => u.flushEngine q) := by
    unfold State.enginesFlushed State.each
    rw [show allPorts = before ++ v :: after from ports, List.foldl_append, List.foldl_cons]
  obtain ⟨quiet, still⟩ := others (fun q mem same => earlier q mem v List.mem_cons_self same)
    (fun q other => holds_frame other delivering) ⟨halted, holds⟩
  have own := flushEngine_flushed quiet still busy assigned ring
  obtain ⟨turnedHalted, -⟩ := flushEngine_frame (trivial_frame (v := v)) ⟨quiet, trivial⟩
  rw [split]
  refine own.mono (others (fun q mem same => later (same ▸ mem)) (fun q other => turned_frame other) ⟨turnedHalted, rfl, ?_⟩).2
  exact List.prefix_rfl

end

/-! ## The slices -/

section
variable {a s : State}

/-- The records are rolled back, receiver by receiver (R32 step 1). -/
def State.receiversFlushed (a : State) : State := a.each allReceivers fun r u => u.flushReceiver r

/-- Then the OPEN and READY slices are closed out, in slice order (R32 step 2). -/
def State.slotsFlushed (a : State) : State := a.receiversFlushed.each a.receiversFlushed.slotsInOrder fun i u => u.flushSlot i

theorem flushSlices_eq : a.flushSlices = a.slotsFlushed.frontierAdvance.presentStalled := rfl

theorem slotsFlushed_holds {F : State → Prop} (receiver : ∀ r t, F t → F (t.flushReceiver r)) (slot : ∀ i t, F t → F (t.flushSlot i))
    (h : F a) : F a.slotsFlushed := each_holds _ slot _ (each_holds _ receiver _ h)

/-- Neither the contexts nor what the dispatcher, the engines and the cache have change while records are rolled back. -/
theorem flushReceiver_unchanged {α : Type} (g : State → α) (hs : ∀ s p x, g (s.setSent p x) = g s)
    (hp : ∀ s p x, g (s.setPort p x) = g s) (hi : ∀ s x, g (s.setIncidents x) = g s) (hq : ∀ s x, g (s.setPressure x) = g s)
    (hl : ∀ s x, g (s.setPool x) = g s) (hr : ∀ s r x, g (s.setRx r x) = g s) (t : State) (r : ReceiverId) :
    g (t.flushReceiver r) = g t :=
  flushReceiver_keeps g (freePage_keeps g hs hp hi hq hl fun t k => hr t k _) hl hr t r

theorem receiversFlushed_unchanged {α : Type} (g : State → α) (hs : ∀ s p x, g (s.setSent p x) = g s)
    (hp : ∀ s p x, g (s.setPort p x) = g s) (hi : ∀ s x, g (s.setIncidents x) = g s) (hq : ∀ s x, g (s.setPressure x) = g s)
    (hl : ∀ s x, g (s.setPool x) = g s) (hr : ∀ s r x, g (s.setRx r x) = g s) : g a.receiversFlushed = g a :=
  each_keeps g _ _ (fun r t => flushReceiver_unchanged g hs hp hi hq hl hr t r) a

theorem receiversFlushed_halted (run : a.run = .flushing) (ready : a.ready = []) : a.receiversFlushed.Halted where
  run := .inr ((receiversFlushed_unchanged State.run (fun _ _ _ => rfl) (fun _ _ _ => rfl) (fun _ _ => rfl) (fun _ _ => rfl)
    (fun _ _ => rfl) fun _ _ _ => rfl).trans run)
  ready := (receiversFlushed_unchanged State.ready (fun _ _ _ => rfl) (fun _ _ _ => rfl) (fun _ _ => rfl) (fun _ _ => rfl)
    (fun _ _ => rfl) fun _ _ _ => rfl).trans ready
  records k := by
    refine each_reaches (P := fun t => (t.rx k).record = none ∧ (t.rx k).current = none) (f := fun r u => u.flushReceiver r) (a := k)
      (fun t => ?_) (fun r t gone => ?_) _ (List.mem_finRange k) a
    · obtain ⟨record, current⟩ := flushReceiver_rx t k k
      exact ⟨record.trans (if_pos rfl), current.trans (if_pos rfl)⟩
    · obtain ⟨record, current⟩ := flushReceiver_rx t r k
      rw [record, current, gone.1, gone.2]
      exact ⟨ite_self _, ite_self _⟩

theorem State.Halted.flushSlot {t : State} (h : t.Halted) (i : SlotId) : (t.flushSlot i).Halted := by
  unfold State.flushSlot
  split
  · exact (h.freeSlice i).setSlotState i .retired
  · exact h

theorem slotsFlushed_halted (run : a.run = .flushing) (ready : a.ready = []) : a.slotsFlushed.Halted :=
  each_holds (P := State.Halted) (fun i u => u.flushSlot i) (fun i _ h => h.flushSlot i) _ (receiversFlushed_halted run ready)

theorem slotsFlushed_closedOut : a.slotsFlushed.ClosedOut := fun i =>
  each_reaches (P := fun t => (t.ctx i).state ≠ .opened ∧ (t.ctx i).state ≠ .ready) (f := fun i u => u.flushSlot i) (a := i)
    (fun t => flushSlot_closes t i) (fun k t => flushSlot_keepsClosed t k i) _ (slots_mem _ i) _

/-- The pages given up are those of the records in receiver order, then those of each OPEN or READY slice in slice order (R32). -/
theorem slotsFlushed_pool (agrees : s.PoolAgrees a) (contexts : a.contexts = s.contexts) (frontier : a.frontier = s.frontier) :
    a.slotsFlushed.pool = (((List.range 64).map fun d => slotOf (s.frontier + BitVec.ofNat 32 d)).foldl
      (fun w i => if (s.ctx i).state = .opened ∨ (s.ctx i).state = .ready then w.freeSlice i else w)
      ((List.finRange 24).foldl (fun w r => w.rollback r) s)).pool := by
  have rolled : ((List.finRange 24).foldl (fun w r => w.rollback r) s).PoolAgrees a.receiversFlushed :=
    State.PoolAgrees.each (f := fun r w => w.rollback r) (fun r _ _ h => flushReceiver_agrees h r) allReceivers agrees
  have sameContexts : a.receiversFlushed.contexts = s.contexts := (receiversFlushed_unchanged State.contexts (fun _ _ _ => rfl)
    (fun _ _ _ => rfl) (fun _ _ => rfl) (fun _ _ => rfl) (fun _ _ => rfl) fun _ _ _ => rfl).trans contexts
  have order : a.receiversFlushed.slotsInOrder = (List.range 64).map fun d => slotOf (s.frontier + BitVec.ofNat 32 d) := by
    unfold State.slotsInOrder
    rw [(receiversFlushed_unchanged State.frontier (fun _ _ _ => rfl) (fun _ _ _ => rfl) (fun _ _ => rfl) (fun _ _ => rfl)
      (fun _ _ => rfl) fun _ _ _ => rfl).trans frontier]
  have closed := flushSlots_agrees (fun i => (s.ctx i).state = .opened ∨ (s.ctx i).state = .ready)
    a.receiversFlushed.slotsInOrder (slots_nodup _) (fun i _ => by
      unfold State.ctx
      rw [sameContexts]) rolled
  rw [order] at closed
  unfold State.slotsFlushed
  rw [order]
  exact closed.pool

end

end Sys2Proof.Machine
end

section
/-! PROOF. FLUSH: entry into FLUSHING as a whole, and the commit of RUN that brings it about (R32, R103, R116 to R119, R123, R179). -/

namespace Sys2Proof.Machine

/-! ## What the records and the slices leave -/

section
variable {p v : PortId} {items : Items} {l : List (List Word)} {i : SlotId} {e : Engine} {x : Ring} {c : Context} {t : State}

/-- A receiver whose record is rolled back only adds to the messages sent. -/
theorem State.HasSent.flushReceiver (h : t.HasSent p l) (r : ReceiverId) : (t.flushReceiver r).HasSent p l := by
  unfold State.flushReceiver State.setCurrent State.abandonRecord
  refine hasSent_undisturbed.rx _ _ _ ?_
  split
  · exact h
  · exact hasSent_undisturbed.rx _ _ _ (hasSent_undisturbed.rollback r h)

theorem State.Confirmed.flushReceiver (h : t.Confirmed p items l) (r : ReceiverId) : (t.flushReceiver r).Confirmed p items l :=
  ⟨(flushReceiver_unchanged State.items (fun _ _ _ => rfl) (fun _ _ _ => rfl) (fun _ _ => rfl) (fun _ _ => rfl) (fun _ _ => rfl)
    (fun _ _ _ => rfl) t r).trans h.1, h.2.flushReceiver r⟩

theorem State.Confirmed.flushSlot (h : t.Confirmed p items l) (k : SlotId) : (t.flushSlot k).Confirmed p items l := by
  unfold State.flushSlot
  split
  · exact (h.freeSlice k).congr (State.setCtx_items _ _ _) (congrArg (fun m : Vector _ 4 => m[p]) (State.setCtx_sent _ _ _))
  · exact h

theorem State.Holds.flushReceiver (h : t.Holds v i e x c) (r : ReceiverId) : (t.flushReceiver r).Holds v i e x c :=
  h.congr
    (flushReceiver_unchanged State.engines (fun _ _ _ => rfl) (fun _ _ _ => rfl) (fun _ _ => rfl) (fun _ _ => rfl) (fun _ _ => rfl)
      (fun _ _ _ => rfl) t r)
    (flushReceiver_unchanged (fun u => u.ring v) (fun _ _ _ => rfl) (fun _ _ _ => rfl) (fun _ _ => rfl) (fun _ _ => rfl)
      (fun _ _ => rfl) (fun _ _ _ => rfl) t r)
    (flushReceiver_unchanged (fun u => u.ctx i) (fun _ _ _ => rfl) (fun _ _ _ => rfl) (fun _ _ => rfl) (fun _ _ => rfl)
      (fun _ _ => rfl) (fun _ _ _ => rfl) t r)

/-- A slice that is delivered is not closed out (R32). -/
theorem State.Holds.flushSlot (delivering : c.state = .delivering) (h : t.Holds v i e x c) (k : SlotId) :
    (t.flushSlot k).Holds v i e x c := by
  rcases eq_or_ne k i with rfl | other
  · have state : (t.ctx k).state = .delivering := by rw [h.ctx, delivering]
    rw [flushSlot_other t k (by rw [state]; exact ⟨nofun, nofun⟩)]
    exact h
  · refine h.congr ?_ ?_ (flushSlot_ctx_ne t k i other)
    · exact flushSlot_keeps State.engines (fun _ _ _ => rfl) (fun _ _ _ => rfl) (fun _ _ => rfl) (fun _ _ => rfl) (fun _ _ => rfl)
        (fun _ _ => rfl) (fun _ _ _ => rfl) t k
    · exact flushSlot_keeps (fun u => u.ring v) (fun _ _ _ => rfl) (fun _ _ _ => rfl) (fun _ _ => rfl) (fun _ _ => rfl) (fun _ _ => rfl)
        (fun _ _ => rfl) (fun _ _ _ => rfl) t k

theorem slotsFlushed_engines : t.slotsFlushed.engines = t.engines := by
  refine (each_keeps State.engines _ _ (fun k u => ?_) _).trans (receiversFlushed_unchanged State.engines (fun _ _ _ => rfl)
    (fun _ _ _ => rfl) (fun _ _ => rfl) (fun _ _ => rfl) (fun _ _ => rfl) fun _ _ _ => rfl)
  exact flushSlot_keeps State.engines (fun _ _ _ => rfl) (fun _ _ _ => rfl) (fun _ _ => rfl) (fun _ _ => rfl) (fun _ _ => rfl)
    (fun _ _ => rfl) (fun _ _ _ => rfl) u k

end

/-! ## Entry into FLUSHING -/

/-- The run is FLUSHING, and the ready list is emptied (R32, R103). -/
def State.flushBegun (u : State) : State := (u.setRun .flushing).setReady []

section
variable {u : State} {F : State → Prop}

theorem flushBegun_agrees {s : State} (pool : u.pool = s.pool) (contexts : u.contexts = s.contexts)
    (receivers : u.receivers = s.receivers) : s.PoolAgrees u.flushBegun where
  pool := pool
  chains i := congrArg (fun m : Vector Context 64 => (m[i]).chains) contexts
  records r := congrArg (fun m : Vector Receiver 24 => (m[r]).record) receivers

theorem enterFlushing_eq : u.enterFlushing = u.flushBegun.flushSlices.enginesFlushed.flushingEnd := rfl

theorem flushSlices_frame (frame : RunFrame F) (h : F u.flushBegun.slotsFlushed) :
    u.flushBegun.flushSlices.Halted ∧ F u.flushBegun.flushSlices :=
  presentStalled_frame frame (frontierAdvance_frame frame ⟨slotsFlushed_halted rfl rfl, h⟩)

/-- What the rolled back records and the closed out slices leave, entry into FLUSHING leaves if every engine's turn keeps it. -/
theorem enterFlushing_frame (frame : ∀ q, EngineFrame F q) (h : F u.flushBegun.slotsFlushed) :
    u.enterFlushing.Halted ∧ F u.enterFlushing := by
  rw [enterFlushing_eq]
  exact flushingEnd_frame (frame 0).toRunFrame (enginesFlushed_frame frame (flushSlices_frame (frame 0).toRunFrame h))

theorem enterFlushing_halted : u.enterFlushing.Halted := (enterFlushing_frame (fun _ => trivial_frame) trivial).1

theorem enterFlushing_closedOut : u.enterFlushing.ClosedOut := (enterFlushing_frame (fun _ => closedOut_frame) slotsFlushed_closedOut).2

theorem State.Confirmed.enterFlushing {p : PortId} {items : Items} {l : List (List Word)} (h : u.Confirmed p items l) :
    u.enterFlushing.Confirmed p items l :=
  (enterFlushing_frame (fun _ => confirmed_frame) (slotsFlushed_holds (fun r _ ht => ht.flushReceiver r) (fun k _ ht => ht.flushSlot k)
    (h.congr rfl rfl))).2

/-- A run that has been stopped stays so. -/
theorem stopped_frame : RunFrame fun t => t.run = .stopped := ⟨fun _ _ _ h => h, fun _ _ => rfl, fun _ _ h => h⟩

/-- A run still FLUSHING has an engine at work (R179). -/
theorem flushingEnd_busy {t : State} (halted : t.Halted) (flushing : t.flushingEnd.run = .flushing) :
    ∃ v, (t.flushingEnd.engine v).state ≠ .idle := by
  unfold State.flushingEnd State.changeRun at flushing ⊢
  split at flushing
  case isTrue ends =>
    have stopped := (presentStalled_frame stopped_frame (t := t.setRun .stopped) ⟨⟨.inl rfl, halted.ready, halted.records⟩, rfl⟩).2
    rw [stopped] at flushing
    exact absurd flushing nofun
  case isFalse stays =>
    rw [if_neg stays]
    by_contra idle
    push Not at idle
    exact stays ⟨flushing, t.allIdle_iff.mpr idle⟩

theorem enterFlushing_busy (flushing : u.enterFlushing.run = .flushing) : ∃ v, (u.enterFlushing.engine v).state ≠ .idle :=
  flushingEnd_busy (enginesFlushed_frame (fun _ => trivial_frame) (flushSlices_frame (trivial_frame (v := 0)).toRunFrame trivial)).1
    flushing

/-- An engine that holds a slice of its own finds it as it was when its turn comes (R123). -/
theorem enterFlushing_flushed {v : PortId} {i : SlotId} {n : Slice} {e : Engine} {x : Ring} {c : Context} {g : RingParameters}
    (holds : u.Holds v i e x c) (delivering : c.state = .delivering) (busy : e.state ≠ .idle) (assigned : e.assigned = some (i, n))
    (ring : x.parameters = some g) : u.enterFlushing.FlushedEngine v n e x c g := by
  obtain ⟨q, other⟩ := exists_ne v
  have slots : u.flushBegun.slotsFlushed.Holds v i e x c := slotsFlushed_holds (fun r _ ht => ht.flushReceiver r)
    (fun k _ ht => ht.flushSlot delivering k) (holds.congr rfl rfl rfl)
  obtain ⟨halted, still⟩ := flushSlices_frame (holds_frame other delivering).toRunFrame slots
  have turned := enginesFlushed_flushed halted still delivering busy assigned ring
  have quiet := (enginesFlushed_frame (fun _ => trivial_frame) ⟨halted, trivial⟩).1
  rw [enterFlushing_eq]
  exact turned.mono (flushingEnd_frame (turned_frame other).toRunFrame ⟨quiet, rfl, List.prefix_rfl⟩).2

/-! ## With every engine IDLE -/

/-- The pool is this one and every engine is IDLE. -/
def State.IdleWith (pool : PagePool) (t : State) : Prop := t.pool = pool ∧ ∀ v, (t.engine v).state = .idle

theorem idleWith_frame {pool : PagePool} : RunFrame (State.IdleWith pool) := ⟨fun _ _ _ h => h, fun _ h => h, fun _ _ h => h⟩

/-- With every engine IDLE entry into FLUSHING gives up no page beyond those of records and slices (R32). -/
theorem enterFlushing_idle (idle : ∀ v, (u.engine v).state = .idle) : u.enterFlushing.pool = u.flushBegun.slotsFlushed.pool := by
  have slots : u.flushBegun.slotsFlushed.IdleWith u.flushBegun.slotsFlushed.pool := by
    refine ⟨rfl, fun v => ?_⟩
    unfold State.engine
    rw [slotsFlushed_engines]
    exact idle v
  obtain ⟨halted, still⟩ := flushSlices_frame idleWith_frame slots
  have none : u.flushBegun.flushSlices.enginesFlushed = u.flushBegun.flushSlices := by
    refine State.each_id _ _ _ fun q _ => ?_
    unfold State.flushEngine
    rw [still.2 q]
  rw [enterFlushing_eq, none]
  exact (flushingEnd_frame idleWith_frame ⟨halted, still⟩).2.1

end

/-! ## The commit -/

theorem exec_flush {p : PortId} {s u : State} (up : (s.port p).state ≠ .linkDown)
    (reserved : (s.port p).reservation = some (.run, s.items.runGeneration)) (staged : (s.port p).staging[0] = some 7)
    (permits : s.run.permits .flush = true) (hu : u = ((s.endAttempt p).setItems
      { s.items with runGeneration := s.items.runGeneration + 1 }).send p (itemReply .ok 0 .run (s.items.runGeneration + 1))) :
    exec (.flush p) s = .next u.flushRun.settleCache := by
  have spells : runCommand 7 = some .flush := rfl
  refine congrArg Host.Outcome.next (?_ : s.commitRun p .flush = _)
  rw [commitRun_staged up staged spells, commitRun_accepted reserved staged spells permits, hu]
  rfl

/-- Settles O52. -/
theorem flushClosesOutTheRun : Obligations.FlushClosesOutTheRun := by
  intro p s u up reserved staged hu
  have permits (h : s.run ≠ .flushing) : s.run.permits .flush = true := by
    cases run : s.run with
    | flushing => exact absurd run h
    | stopped | running | draining => rfl
  have run : u.run = s.run := by rw [hu]; rfl
  have engines : u.engines = s.engines := by rw [hu]; rfl
  have rings (v : PortId) : u.ring v = s.ring v := by rw [hu]; rfl
  have contexts : u.contexts = s.contexts := by rw [hu]; rfl
  have frontier : u.frontier = s.frontier := by rw [hu]; rfl
  have agrees : s.PoolAgrees u.flushBegun := flushBegun_agrees (by rw [hu]; rfl) contexts (by rw [hu]; rfl)
  refine ⟨fun stopped => ?noEffect, fun on => ⟨u.enterFlushing.settleCache, ?entered, ?run, fun flushing => ?busy, ?ready, ?items,
    ?sent, fun r => ?records, fun i => ?closed, fun idle => ?pool, ?engines⟩⟩
  case noEffect =>
    have stays : u.flushRun = u := if_pos (run.trans stopped)
    rw [exec_flush up reserved staged (permits (by rw [stopped]; nofun)) hu, stays]
  case entered =>
    have enters : u.flushRun = u.enterFlushing := if_neg (by rw [run]; rcases on with e | e <;> rw [e] <;> nofun)
    rw [exec_flush up reserved staged (permits (by rcases on with e | e <;> rw [e] <;> nofun)) hu, enters]
  case run =>
    rw [settleCache_run]
    exact enterFlushing_halted.run.symm
  case busy =>
    simp only [settleCache_engine]
    exact enterFlushing_busy ((settleCache_run _).symm.trans flushing)
  case ready =>
    rw [settleCache_ready]
    exact enterFlushing_halted.ready
  case items =>
    rw [settleCache_items]
    exact (State.Confirmed.enterFlushing (p := p) ⟨rfl, List.prefix_rfl⟩).1
  case sent => exact (State.Confirmed.enterFlushing (u := u) ⟨rfl, List.prefix_rfl⟩).2.settleCache
  case records =>
    rw [settleCache_rx]
    exact enterFlushing_halted.records r
  case closed =>
    rw [settleCache_ctx]
    exact enterFlushing_closedOut i
  case pool =>
    have still (v : PortId) : (u.engine v).state = .idle := by
      unfold State.engine
      rw [engines]
      exact idle v
    rw [settleCache_pool, enterFlushing_idle still, slotsFlushed_pool agrees contexts frontier]
  case engines =>
    intro v i n g e x he hx busy assigned ring delivering alone
    have holds : u.Holds v i e x (s.ctx i) := by
      subst he hx
      exact State.Holds.congr ⟨rfl, rfl, rfl, alone⟩ engines (rings v) (congrArg (fun m : Vector _ 64 => m[i]) contexts)
    have turned := enterFlushing_flushed holds delivering busy assigned ring
    exact turned.mono ⟨settleCache_engine _ v, State.HasSent.settleCache List.prefix_rfl⟩

end Sys2Proof.Machine
end
